-- ==== Sys2Proof/Word.lean ====
section
/-! DEFINITION. The two word types of profile NMOS6502 (00_scope.md R10). -/

namespace Sys2Proof

/-- `u8`: an unsigned 8-bit value; `+` and `-` wrap modulo 256 (R10). -/
abbrev Byte := BitVec 8

/-- `u16`: an unsigned 16-bit value; `+` and `-` wrap modulo 65536 (R10). -/
abbrev Word := BitVec 16

end Sys2Proof
end

