-- ==== Sys2Proof/Machine/Bits.lean ====
section
/-! DEFINITION. Byte order and extension (00_scope.md R9, R10; 20_memory.md R84). -/

namespace Sys2Proof.Machine

/-- `hi(w) = w[15:8]` (R9). -/
def hi (w : Word) : Byte := w.extractLsb' 8 8

/-- `lo(w) = w[7:0]` (R9). -/
def lo (w : Word) : Byte := w.extractLsb' 0 8

/-- `{h, l}` (R9): `h` in the high bits. -/
def wordOf (h l : Byte) : Word := h ++ l

/-- `zext_16` (R10). -/
def zext (v : Byte) : Word := v.setWidth 16

/-- `sext_16` (R10): bit 7 is the sign. -/
def sext (v : Byte) : Word := v.signExtend 16

end Sys2Proof.Machine
end

