-- ==== Sys2Proof/Syntax.lean ====
section
/-! DEFINITION. The instructions of profile NMOS6502: one constructor per row of the opcode map (30_encoding.md R118,
R119, R121), named by mnemonic and addressing mode; where several undocumented opcodes share both, the opcode in
hexadecimal ends the name. An argument is the row's operand: `m` the immediate byte, `b` the zero-page operand byte, `w`
the 16-bit operand (high byte, low byte: R113), `d` the branch displacement byte. -/

namespace Sys2Proof

inductive Instr where
  -- Loads, stores, transfers (43_load_store_transfer.md)
  -- LDA (R240)
  | ldaIzx (b : Byte)
  | ldaZp (b : Byte)
  | ldaImm (m : Byte)
  | ldaAbs (w : Word)
  | ldaIzy (b : Byte)
  | ldaZpx (b : Byte)
  | ldaAby (w : Word)
  | ldaAbx (w : Word)
  -- LDX (R241)
  | ldxImm (m : Byte)
  | ldxZp (b : Byte)
  | ldxAbs (w : Word)
  | ldxZpy (b : Byte)
  | ldxAby (w : Word)
  -- LDY (R242)
  | ldyImm (m : Byte)
  | ldyZp (b : Byte)
  | ldyAbs (w : Word)
  | ldyZpx (b : Byte)
  | ldyAbx (w : Word)
  -- STA (R243)
  | staIzx (b : Byte)
  | staZp (b : Byte)
  | staAbs (w : Word)
  | staIzy (b : Byte)
  | staZpx (b : Byte)
  | staAby (w : Word)
  | staAbx (w : Word)
  -- STX (R244)
  | stxZp (b : Byte)
  | stxAbs (w : Word)
  | stxZpy (b : Byte)
  -- STY (R245)
  | styZp (b : Byte)
  | styAbs (w : Word)
  | styZpx (b : Byte)
  -- TAX (R246)
  | tax
  -- TAY (R247)
  | tay
  -- TXA (R248)
  | txa
  -- TYA (R249)
  | tya
  -- TSX (R250)
  | tsx
  -- TXS (R251)
  | txs
  -- Arithmetic, logic, compare, register increment (44_arith_logic.md)
  -- ADC (R260)
  | adcIzx (b : Byte)
  | adcZp (b : Byte)
  | adcImm (m : Byte)
  | adcAbs (w : Word)
  | adcIzy (b : Byte)
  | adcZpx (b : Byte)
  | adcAby (w : Word)
  | adcAbx (w : Word)
  -- SBC (R261)
  | sbcIzx (b : Byte)
  | sbcZp (b : Byte)
  | sbcImm (m : Byte)
  | sbcAbs (w : Word)
  | sbcIzy (b : Byte)
  | sbcZpx (b : Byte)
  | sbcAby (w : Word)
  | sbcAbx (w : Word)
  -- AND (R262)
  | andIzx (b : Byte)
  | andZp (b : Byte)
  | andImm (m : Byte)
  | andAbs (w : Word)
  | andIzy (b : Byte)
  | andZpx (b : Byte)
  | andAby (w : Word)
  | andAbx (w : Word)
  -- ORA (R263)
  | oraIzx (b : Byte)
  | oraZp (b : Byte)
  | oraImm (m : Byte)
  | oraAbs (w : Word)
  | oraIzy (b : Byte)
  | oraZpx (b : Byte)
  | oraAby (w : Word)
  | oraAbx (w : Word)
  -- EOR (R264)
  | eorIzx (b : Byte)
  | eorZp (b : Byte)
  | eorImm (m : Byte)
  | eorAbs (w : Word)
  | eorIzy (b : Byte)
  | eorZpx (b : Byte)
  | eorAby (w : Word)
  | eorAbx (w : Word)
  -- CMP (R265)
  | cmpIzx (b : Byte)
  | cmpZp (b : Byte)
  | cmpImm (m : Byte)
  | cmpAbs (w : Word)
  | cmpIzy (b : Byte)
  | cmpZpx (b : Byte)
  | cmpAby (w : Word)
  | cmpAbx (w : Word)
  -- CPX (R266)
  | cpxImm (m : Byte)
  | cpxZp (b : Byte)
  | cpxAbs (w : Word)
  -- CPY (R267)
  | cpyImm (m : Byte)
  | cpyZp (b : Byte)
  | cpyAbs (w : Word)
  -- BIT (R268)
  | bitZp (b : Byte)
  | bitAbs (w : Word)
  -- INX (R269)
  | inx
  -- INY (R270)
  | iny
  -- DEX (R271)
  | dex
  -- DEY (R272)
  | dey
  -- Shifts, rotates, memory increment and decrement (45_shift_rmw.md)
  -- ASL (R280)
  | aslZp (b : Byte)
  | aslAcc
  | aslAbs (w : Word)
  | aslZpx (b : Byte)
  | aslAbx (w : Word)
  -- LSR (R281)
  | lsrZp (b : Byte)
  | lsrAcc
  | lsrAbs (w : Word)
  | lsrZpx (b : Byte)
  | lsrAbx (w : Word)
  -- ROL (R282)
  | rolZp (b : Byte)
  | rolAcc
  | rolAbs (w : Word)
  | rolZpx (b : Byte)
  | rolAbx (w : Word)
  -- ROR (R283)
  | rorZp (b : Byte)
  | rorAcc
  | rorAbs (w : Word)
  | rorZpx (b : Byte)
  | rorAbx (w : Word)
  -- INC (R284)
  | incZp (b : Byte)
  | incAbs (w : Word)
  | incZpx (b : Byte)
  | incAbx (w : Word)
  -- DEC (R285)
  | decZp (b : Byte)
  | decAbs (w : Word)
  | decZpx (b : Byte)
  | decAbx (w : Word)
  -- Control transfer (46_control_flow.md)
  -- BCC (R296)
  | bcc (d : Byte)
  -- BCS (R297)
  | bcs (d : Byte)
  -- BEQ (R298)
  | beq (d : Byte)
  -- BNE (R299)
  | bne (d : Byte)
  -- BMI (R300)
  | bmi (d : Byte)
  -- BPL (R301)
  | bpl (d : Byte)
  -- BVC (R302)
  | bvc (d : Byte)
  -- BVS (R303)
  | bvs (d : Byte)
  -- JMP (R291)
  | jmpAbs (w : Word)
  | jmpInd (w : Word)
  -- JSR (R292)
  | jsrAbs (w : Word)
  -- RTS (R293)
  | rts
  -- RTI (R294)
  | rti
  -- BRK (R295)
  | brk
  -- Stack, flags, no operation (47_stack_flag_nop.md)
  -- PHA (R310)
  | pha
  -- PHP (R311)
  | php
  -- PLA (R312)
  | pla
  -- PLP (R313)
  | plp
  -- CLC (R314)
  | clc
  -- SEC (R315)
  | sec
  -- CLI (R316)
  | cli
  -- SEI (R317)
  | sei
  -- CLD (R318)
  | cld
  -- SED (R319)
  | sed
  -- CLV (R320)
  | clv
  -- NOP (R321)
  | nop
  -- Undocumented opcodes (48_undocumented.md)
  -- SLO (R330)
  | sloIzx (b : Byte)
  | sloZp (b : Byte)
  | sloAbs (w : Word)
  | sloIzy (b : Byte)
  | sloZpx (b : Byte)
  | sloAby (w : Word)
  | sloAbx (w : Word)
  -- RLA (R331)
  | rlaIzx (b : Byte)
  | rlaZp (b : Byte)
  | rlaAbs (w : Word)
  | rlaIzy (b : Byte)
  | rlaZpx (b : Byte)
  | rlaAby (w : Word)
  | rlaAbx (w : Word)
  -- SRE (R332)
  | sreIzx (b : Byte)
  | sreZp (b : Byte)
  | sreAbs (w : Word)
  | sreIzy (b : Byte)
  | sreZpx (b : Byte)
  | sreAby (w : Word)
  | sreAbx (w : Word)
  -- RRA (R333)
  | rraIzx (b : Byte)
  | rraZp (b : Byte)
  | rraAbs (w : Word)
  | rraIzy (b : Byte)
  | rraZpx (b : Byte)
  | rraAby (w : Word)
  | rraAbx (w : Word)
  -- SAX (R334)
  | saxIzx (b : Byte)
  | saxZp (b : Byte)
  | saxAbs (w : Word)
  | saxZpy (b : Byte)
  -- LAX (R335)
  | laxIzx (b : Byte)
  | laxZp (b : Byte)
  | laxAbs (w : Word)
  | laxIzy (b : Byte)
  | laxZpy (b : Byte)
  | laxAby (w : Word)
  -- DCP (R336)
  | dcpIzx (b : Byte)
  | dcpZp (b : Byte)
  | dcpAbs (w : Word)
  | dcpIzy (b : Byte)
  | dcpZpx (b : Byte)
  | dcpAby (w : Word)
  | dcpAbx (w : Word)
  -- ISC (R337)
  | iscIzx (b : Byte)
  | iscZp (b : Byte)
  | iscAbs (w : Word)
  | iscIzy (b : Byte)
  | iscZpx (b : Byte)
  | iscAby (w : Word)
  | iscAbx (w : Word)
  -- ANC (R338)
  | ancImm0B (m : Byte)
  | ancImm2B (m : Byte)
  -- ALR (R339)
  | alrImm (m : Byte)
  -- ARR (R340)
  | arrImm (m : Byte)
  -- ANE (R341)
  | aneImm (m : Byte)
  -- LXA (R342)
  | lxaImm (m : Byte)
  -- SBX (R343)
  | sbxImm (m : Byte)
  -- SHA (R344)
  | shaIzy (b : Byte)
  | shaAby (w : Word)
  -- SHX (R345)
  | shxAby (w : Word)
  -- SHY (R346)
  | shyAbx (w : Word)
  -- TAS (R347)
  | tasAby (w : Word)
  -- LAS (R348)
  | lasAby (w : Word)
  -- SBC (R349)
  | sbcImmEB (m : Byte)
  -- NOP (R350)
  | nopZp04 (b : Byte)
  | nopAbs (w : Word)
  | nopZpx14 (b : Byte)
  | nop1A
  | nopAbx1C (w : Word)
  | nopZpx34 (b : Byte)
  | nop3A
  | nopAbx3C (w : Word)
  | nopZp44 (b : Byte)
  | nopZpx54 (b : Byte)
  | nop5A
  | nopAbx5C (w : Word)
  | nopZp64 (b : Byte)
  | nopZpx74 (b : Byte)
  | nop7A
  | nopAbx7C (w : Word)
  | nopImm80 (m : Byte)
  | nopImm82 (m : Byte)
  | nopImm89 (m : Byte)
  | nopImmC2 (m : Byte)
  | nopZpxD4 (b : Byte)
  | nopDA
  | nopAbxDC (w : Word)
  | nopImmE2 (m : Byte)
  | nopZpxF4 (b : Byte)
  | nopFA
  | nopAbxFC (w : Word)
  -- JAM (R351)
  | jam02
  | jam12
  | jam22
  | jam32
  | jam42
  | jam52
  | jam62
  | jam72
  | jam92
  | jamB2
  | jamD2
  | jamF2
  deriving DecidableEq, Repr

end Sys2Proof
end

