-- ==== Sys2Proof/Decode.lean ====
section
/-! DEFINITION. Decoding and encoding (30_encoding.md). The opcode byte alone selects the row (R110); the tables below
are the opcode map of R118, one list of sixteen per high nibble, the low nibble counting within it. -/

namespace Sys2Proof

open Machine (wordOf hi lo)

/-- Opcodes `00` to `0F` (R118): `b` is byte 1, `w` is bytes 2 and 1. -/
def row0 (b : Byte) (w : Word) : List Instr :=
  [.brk, .oraIzx b, .jam02, .sloIzx b,
   .nopZp04 b, .oraZp b, .aslZp b, .sloZp b,
   .php, .oraImm b, .aslAcc, .ancImm0B b,
   .nopAbs w, .oraAbs w, .aslAbs w, .sloAbs w]

/-- Opcodes `10` to `1F` (R118): `b` is byte 1, `w` is bytes 2 and 1. -/
def row1 (b : Byte) (w : Word) : List Instr :=
  [.bpl b, .oraIzy b, .jam12, .sloIzy b,
   .nopZpx14 b, .oraZpx b, .aslZpx b, .sloZpx b,
   .clc, .oraAby w, .nop1A, .sloAby w,
   .nopAbx1C w, .oraAbx w, .aslAbx w, .sloAbx w]

/-- Opcodes `20` to `2F` (R118): `b` is byte 1, `w` is bytes 2 and 1. -/
def row2 (b : Byte) (w : Word) : List Instr :=
  [.jsrAbs w, .andIzx b, .jam22, .rlaIzx b,
   .bitZp b, .andZp b, .rolZp b, .rlaZp b,
   .plp, .andImm b, .rolAcc, .ancImm2B b,
   .bitAbs w, .andAbs w, .rolAbs w, .rlaAbs w]

/-- Opcodes `30` to `3F` (R118): `b` is byte 1, `w` is bytes 2 and 1. -/
def row3 (b : Byte) (w : Word) : List Instr :=
  [.bmi b, .andIzy b, .jam32, .rlaIzy b,
   .nopZpx34 b, .andZpx b, .rolZpx b, .rlaZpx b,
   .sec, .andAby w, .nop3A, .rlaAby w,
   .nopAbx3C w, .andAbx w, .rolAbx w, .rlaAbx w]

/-- Opcodes `40` to `4F` (R118): `b` is byte 1, `w` is bytes 2 and 1. -/
def row4 (b : Byte) (w : Word) : List Instr :=
  [.rti, .eorIzx b, .jam42, .sreIzx b,
   .nopZp44 b, .eorZp b, .lsrZp b, .sreZp b,
   .pha, .eorImm b, .lsrAcc, .alrImm b,
   .jmpAbs w, .eorAbs w, .lsrAbs w, .sreAbs w]

/-- Opcodes `50` to `5F` (R118): `b` is byte 1, `w` is bytes 2 and 1. -/
def row5 (b : Byte) (w : Word) : List Instr :=
  [.bvc b, .eorIzy b, .jam52, .sreIzy b,
   .nopZpx54 b, .eorZpx b, .lsrZpx b, .sreZpx b,
   .cli, .eorAby w, .nop5A, .sreAby w,
   .nopAbx5C w, .eorAbx w, .lsrAbx w, .sreAbx w]

/-- Opcodes `60` to `6F` (R118): `b` is byte 1, `w` is bytes 2 and 1. -/
def row6 (b : Byte) (w : Word) : List Instr :=
  [.rts, .adcIzx b, .jam62, .rraIzx b,
   .nopZp64 b, .adcZp b, .rorZp b, .rraZp b,
   .pla, .adcImm b, .rorAcc, .arrImm b,
   .jmpInd w, .adcAbs w, .rorAbs w, .rraAbs w]

/-- Opcodes `70` to `7F` (R118): `b` is byte 1, `w` is bytes 2 and 1. -/
def row7 (b : Byte) (w : Word) : List Instr :=
  [.bvs b, .adcIzy b, .jam72, .rraIzy b,
   .nopZpx74 b, .adcZpx b, .rorZpx b, .rraZpx b,
   .sei, .adcAby w, .nop7A, .rraAby w,
   .nopAbx7C w, .adcAbx w, .rorAbx w, .rraAbx w]

/-- Opcodes `80` to `8F` (R118): `b` is byte 1, `w` is bytes 2 and 1. -/
def row8 (b : Byte) (w : Word) : List Instr :=
  [.nopImm80 b, .staIzx b, .nopImm82 b, .saxIzx b,
   .styZp b, .staZp b, .stxZp b, .saxZp b,
   .dey, .nopImm89 b, .txa, .aneImm b,
   .styAbs w, .staAbs w, .stxAbs w, .saxAbs w]

/-- Opcodes `90` to `9F` (R118): `b` is byte 1, `w` is bytes 2 and 1. -/
def row9 (b : Byte) (w : Word) : List Instr :=
  [.bcc b, .staIzy b, .jam92, .shaIzy b,
   .styZpx b, .staZpx b, .stxZpy b, .saxZpy b,
   .tya, .staAby w, .txs, .tasAby w,
   .shyAbx w, .staAbx w, .shxAby w, .shaAby w]

/-- Opcodes `A0` to `AF` (R118): `b` is byte 1, `w` is bytes 2 and 1. -/
def rowA (b : Byte) (w : Word) : List Instr :=
  [.ldyImm b, .ldaIzx b, .ldxImm b, .laxIzx b,
   .ldyZp b, .ldaZp b, .ldxZp b, .laxZp b,
   .tay, .ldaImm b, .tax, .lxaImm b,
   .ldyAbs w, .ldaAbs w, .ldxAbs w, .laxAbs w]

/-- Opcodes `B0` to `BF` (R118): `b` is byte 1, `w` is bytes 2 and 1. -/
def rowB (b : Byte) (w : Word) : List Instr :=
  [.bcs b, .ldaIzy b, .jamB2, .laxIzy b,
   .ldyZpx b, .ldaZpx b, .ldxZpy b, .laxZpy b,
   .clv, .ldaAby w, .tsx, .lasAby w,
   .ldyAbx w, .ldaAbx w, .ldxAby w, .laxAby w]

/-- Opcodes `C0` to `CF` (R118): `b` is byte 1, `w` is bytes 2 and 1. -/
def rowC (b : Byte) (w : Word) : List Instr :=
  [.cpyImm b, .cmpIzx b, .nopImmC2 b, .dcpIzx b,
   .cpyZp b, .cmpZp b, .decZp b, .dcpZp b,
   .iny, .cmpImm b, .dex, .sbxImm b,
   .cpyAbs w, .cmpAbs w, .decAbs w, .dcpAbs w]

/-- Opcodes `D0` to `DF` (R118): `b` is byte 1, `w` is bytes 2 and 1. -/
def rowD (b : Byte) (w : Word) : List Instr :=
  [.bne b, .cmpIzy b, .jamD2, .dcpIzy b,
   .nopZpxD4 b, .cmpZpx b, .decZpx b, .dcpZpx b,
   .cld, .cmpAby w, .nopDA, .dcpAby w,
   .nopAbxDC w, .cmpAbx w, .decAbx w, .dcpAbx w]

/-- Opcodes `E0` to `EF` (R118): `b` is byte 1, `w` is bytes 2 and 1. -/
def rowE (b : Byte) (w : Word) : List Instr :=
  [.cpxImm b, .sbcIzx b, .nopImmE2 b, .iscIzx b,
   .cpxZp b, .sbcZp b, .incZp b, .iscZp b,
   .inx, .sbcImm b, .nop, .sbcImmEB b,
   .cpxAbs w, .sbcAbs w, .incAbs w, .iscAbs w]

/-- Opcodes `F0` to `FF` (R118): `b` is byte 1, `w` is bytes 2 and 1. -/
def rowF (b : Byte) (w : Word) : List Instr :=
  [.beq b, .sbcIzy b, .jamF2, .iscIzy b,
   .nopZpxF4 b, .sbcZpx b, .incZpx b, .iscZpx b,
   .sed, .sbcAby w, .nopFA, .iscAby w,
   .nopAbxFC w, .sbcAbx w, .incAbx w, .iscAbx w]

/-- The opcode map (R118), high nibble first. -/
def opcodeMap (b : Byte) (w : Word) : List (List Instr) :=
  [row0 b w, row1 b w, row2 b w, row3 b w, row4 b w, row5 b w, row6 b w, row7 b w,
   row8 b w, row9 b w, rowA b w, rowB b w, rowC b w, rowD b w, rowE b w, rowF b w]

/-- The instruction whose bytes are `op`, `b1`, `b2` (R110, R113): total, since all 256 opcodes have an entry (R120). Bytes
past the row's length are not looked at. The two defaults are never reached (`opcodeMap_complete`). -/
def decodeOp (op b1 b2 : Byte) : Instr :=
  ((opcodeMap b1 (wordOf b2 b1)).getD (op.toNat / 16) []).getD (op.toNat % 16) .nop

/-- The bytes of an instruction in address order (R111): opcode, then the operand, low byte first (R84). -/
def encode : Instr → List Byte
  | .brk => [0x00]
  | .oraIzx b => [0x01, b]
  | .jam02 => [0x02]
  | .sloIzx b => [0x03, b]
  | .nopZp04 b => [0x04, b]
  | .oraZp b => [0x05, b]
  | .aslZp b => [0x06, b]
  | .sloZp b => [0x07, b]
  | .php => [0x08]
  | .oraImm m => [0x09, m]
  | .aslAcc => [0x0A]
  | .ancImm0B m => [0x0B, m]
  | .nopAbs w => [0x0C, lo w, hi w]
  | .oraAbs w => [0x0D, lo w, hi w]
  | .aslAbs w => [0x0E, lo w, hi w]
  | .sloAbs w => [0x0F, lo w, hi w]
  | .bpl d => [0x10, d]
  | .oraIzy b => [0x11, b]
  | .jam12 => [0x12]
  | .sloIzy b => [0x13, b]
  | .nopZpx14 b => [0x14, b]
  | .oraZpx b => [0x15, b]
  | .aslZpx b => [0x16, b]
  | .sloZpx b => [0x17, b]
  | .clc => [0x18]
  | .oraAby w => [0x19, lo w, hi w]
  | .nop1A => [0x1A]
  | .sloAby w => [0x1B, lo w, hi w]
  | .nopAbx1C w => [0x1C, lo w, hi w]
  | .oraAbx w => [0x1D, lo w, hi w]
  | .aslAbx w => [0x1E, lo w, hi w]
  | .sloAbx w => [0x1F, lo w, hi w]
  | .jsrAbs w => [0x20, lo w, hi w]
  | .andIzx b => [0x21, b]
  | .jam22 => [0x22]
  | .rlaIzx b => [0x23, b]
  | .bitZp b => [0x24, b]
  | .andZp b => [0x25, b]
  | .rolZp b => [0x26, b]
  | .rlaZp b => [0x27, b]
  | .plp => [0x28]
  | .andImm m => [0x29, m]
  | .rolAcc => [0x2A]
  | .ancImm2B m => [0x2B, m]
  | .bitAbs w => [0x2C, lo w, hi w]
  | .andAbs w => [0x2D, lo w, hi w]
  | .rolAbs w => [0x2E, lo w, hi w]
  | .rlaAbs w => [0x2F, lo w, hi w]
  | .bmi d => [0x30, d]
  | .andIzy b => [0x31, b]
  | .jam32 => [0x32]
  | .rlaIzy b => [0x33, b]
  | .nopZpx34 b => [0x34, b]
  | .andZpx b => [0x35, b]
  | .rolZpx b => [0x36, b]
  | .rlaZpx b => [0x37, b]
  | .sec => [0x38]
  | .andAby w => [0x39, lo w, hi w]
  | .nop3A => [0x3A]
  | .rlaAby w => [0x3B, lo w, hi w]
  | .nopAbx3C w => [0x3C, lo w, hi w]
  | .andAbx w => [0x3D, lo w, hi w]
  | .rolAbx w => [0x3E, lo w, hi w]
  | .rlaAbx w => [0x3F, lo w, hi w]
  | .rti => [0x40]
  | .eorIzx b => [0x41, b]
  | .jam42 => [0x42]
  | .sreIzx b => [0x43, b]
  | .nopZp44 b => [0x44, b]
  | .eorZp b => [0x45, b]
  | .lsrZp b => [0x46, b]
  | .sreZp b => [0x47, b]
  | .pha => [0x48]
  | .eorImm m => [0x49, m]
  | .lsrAcc => [0x4A]
  | .alrImm m => [0x4B, m]
  | .jmpAbs w => [0x4C, lo w, hi w]
  | .eorAbs w => [0x4D, lo w, hi w]
  | .lsrAbs w => [0x4E, lo w, hi w]
  | .sreAbs w => [0x4F, lo w, hi w]
  | .bvc d => [0x50, d]
  | .eorIzy b => [0x51, b]
  | .jam52 => [0x52]
  | .sreIzy b => [0x53, b]
  | .nopZpx54 b => [0x54, b]
  | .eorZpx b => [0x55, b]
  | .lsrZpx b => [0x56, b]
  | .sreZpx b => [0x57, b]
  | .cli => [0x58]
  | .eorAby w => [0x59, lo w, hi w]
  | .nop5A => [0x5A]
  | .sreAby w => [0x5B, lo w, hi w]
  | .nopAbx5C w => [0x5C, lo w, hi w]
  | .eorAbx w => [0x5D, lo w, hi w]
  | .lsrAbx w => [0x5E, lo w, hi w]
  | .sreAbx w => [0x5F, lo w, hi w]
  | .rts => [0x60]
  | .adcIzx b => [0x61, b]
  | .jam62 => [0x62]
  | .rraIzx b => [0x63, b]
  | .nopZp64 b => [0x64, b]
  | .adcZp b => [0x65, b]
  | .rorZp b => [0x66, b]
  | .rraZp b => [0x67, b]
  | .pla => [0x68]
  | .adcImm m => [0x69, m]
  | .rorAcc => [0x6A]
  | .arrImm m => [0x6B, m]
  | .jmpInd w => [0x6C, lo w, hi w]
  | .adcAbs w => [0x6D, lo w, hi w]
  | .rorAbs w => [0x6E, lo w, hi w]
  | .rraAbs w => [0x6F, lo w, hi w]
  | .bvs d => [0x70, d]
  | .adcIzy b => [0x71, b]
  | .jam72 => [0x72]
  | .rraIzy b => [0x73, b]
  | .nopZpx74 b => [0x74, b]
  | .adcZpx b => [0x75, b]
  | .rorZpx b => [0x76, b]
  | .rraZpx b => [0x77, b]
  | .sei => [0x78]
  | .adcAby w => [0x79, lo w, hi w]
  | .nop7A => [0x7A]
  | .rraAby w => [0x7B, lo w, hi w]
  | .nopAbx7C w => [0x7C, lo w, hi w]
  | .adcAbx w => [0x7D, lo w, hi w]
  | .rorAbx w => [0x7E, lo w, hi w]
  | .rraAbx w => [0x7F, lo w, hi w]
  | .nopImm80 m => [0x80, m]
  | .staIzx b => [0x81, b]
  | .nopImm82 m => [0x82, m]
  | .saxIzx b => [0x83, b]
  | .styZp b => [0x84, b]
  | .staZp b => [0x85, b]
  | .stxZp b => [0x86, b]
  | .saxZp b => [0x87, b]
  | .dey => [0x88]
  | .nopImm89 m => [0x89, m]
  | .txa => [0x8A]
  | .aneImm m => [0x8B, m]
  | .styAbs w => [0x8C, lo w, hi w]
  | .staAbs w => [0x8D, lo w, hi w]
  | .stxAbs w => [0x8E, lo w, hi w]
  | .saxAbs w => [0x8F, lo w, hi w]
  | .bcc d => [0x90, d]
  | .staIzy b => [0x91, b]
  | .jam92 => [0x92]
  | .shaIzy b => [0x93, b]
  | .styZpx b => [0x94, b]
  | .staZpx b => [0x95, b]
  | .stxZpy b => [0x96, b]
  | .saxZpy b => [0x97, b]
  | .tya => [0x98]
  | .staAby w => [0x99, lo w, hi w]
  | .txs => [0x9A]
  | .tasAby w => [0x9B, lo w, hi w]
  | .shyAbx w => [0x9C, lo w, hi w]
  | .staAbx w => [0x9D, lo w, hi w]
  | .shxAby w => [0x9E, lo w, hi w]
  | .shaAby w => [0x9F, lo w, hi w]
  | .ldyImm m => [0xA0, m]
  | .ldaIzx b => [0xA1, b]
  | .ldxImm m => [0xA2, m]
  | .laxIzx b => [0xA3, b]
  | .ldyZp b => [0xA4, b]
  | .ldaZp b => [0xA5, b]
  | .ldxZp b => [0xA6, b]
  | .laxZp b => [0xA7, b]
  | .tay => [0xA8]
  | .ldaImm m => [0xA9, m]
  | .tax => [0xAA]
  | .lxaImm m => [0xAB, m]
  | .ldyAbs w => [0xAC, lo w, hi w]
  | .ldaAbs w => [0xAD, lo w, hi w]
  | .ldxAbs w => [0xAE, lo w, hi w]
  | .laxAbs w => [0xAF, lo w, hi w]
  | .bcs d => [0xB0, d]
  | .ldaIzy b => [0xB1, b]
  | .jamB2 => [0xB2]
  | .laxIzy b => [0xB3, b]
  | .ldyZpx b => [0xB4, b]
  | .ldaZpx b => [0xB5, b]
  | .ldxZpy b => [0xB6, b]
  | .laxZpy b => [0xB7, b]
  | .clv => [0xB8]
  | .ldaAby w => [0xB9, lo w, hi w]
  | .tsx => [0xBA]
  | .lasAby w => [0xBB, lo w, hi w]
  | .ldyAbx w => [0xBC, lo w, hi w]
  | .ldaAbx w => [0xBD, lo w, hi w]
  | .ldxAby w => [0xBE, lo w, hi w]
  | .laxAby w => [0xBF, lo w, hi w]
  | .cpyImm m => [0xC0, m]
  | .cmpIzx b => [0xC1, b]
  | .nopImmC2 m => [0xC2, m]
  | .dcpIzx b => [0xC3, b]
  | .cpyZp b => [0xC4, b]
  | .cmpZp b => [0xC5, b]
  | .decZp b => [0xC6, b]
  | .dcpZp b => [0xC7, b]
  | .iny => [0xC8]
  | .cmpImm m => [0xC9, m]
  | .dex => [0xCA]
  | .sbxImm m => [0xCB, m]
  | .cpyAbs w => [0xCC, lo w, hi w]
  | .cmpAbs w => [0xCD, lo w, hi w]
  | .decAbs w => [0xCE, lo w, hi w]
  | .dcpAbs w => [0xCF, lo w, hi w]
  | .bne d => [0xD0, d]
  | .cmpIzy b => [0xD1, b]
  | .jamD2 => [0xD2]
  | .dcpIzy b => [0xD3, b]
  | .nopZpxD4 b => [0xD4, b]
  | .cmpZpx b => [0xD5, b]
  | .decZpx b => [0xD6, b]
  | .dcpZpx b => [0xD7, b]
  | .cld => [0xD8]
  | .cmpAby w => [0xD9, lo w, hi w]
  | .nopDA => [0xDA]
  | .dcpAby w => [0xDB, lo w, hi w]
  | .nopAbxDC w => [0xDC, lo w, hi w]
  | .cmpAbx w => [0xDD, lo w, hi w]
  | .decAbx w => [0xDE, lo w, hi w]
  | .dcpAbx w => [0xDF, lo w, hi w]
  | .cpxImm m => [0xE0, m]
  | .sbcIzx b => [0xE1, b]
  | .nopImmE2 m => [0xE2, m]
  | .iscIzx b => [0xE3, b]
  | .cpxZp b => [0xE4, b]
  | .sbcZp b => [0xE5, b]
  | .incZp b => [0xE6, b]
  | .iscZp b => [0xE7, b]
  | .inx => [0xE8]
  | .sbcImm m => [0xE9, m]
  | .nop => [0xEA]
  | .sbcImmEB m => [0xEB, m]
  | .cpxAbs w => [0xEC, lo w, hi w]
  | .sbcAbs w => [0xED, lo w, hi w]
  | .incAbs w => [0xEE, lo w, hi w]
  | .iscAbs w => [0xEF, lo w, hi w]
  | .beq d => [0xF0, d]
  | .sbcIzy b => [0xF1, b]
  | .jamF2 => [0xF2]
  | .iscIzy b => [0xF3, b]
  | .nopZpxF4 b => [0xF4, b]
  | .sbcZpx b => [0xF5, b]
  | .incZpx b => [0xF6, b]
  | .iscZpx b => [0xF7, b]
  | .sed => [0xF8]
  | .sbcAby w => [0xF9, lo w, hi w]
  | .nopFA => [0xFA]
  | .iscAby w => [0xFB, lo w, hi w]
  | .nopAbxFC w => [0xFC, lo w, hi w]
  | .sbcAbx w => [0xFD, lo w, hi w]
  | .incAbx w => [0xFE, lo w, hi w]
  | .iscAbx w => [0xFF, lo w, hi w]

/-- The length in bytes that an opcode byte alone determines (R112). -/
def lengthOf (op : Byte) : Nat := (encode (decodeOp op 0 0)).length

/-- Why a byte list does not begin with an instruction: it ends too early. There is no reserved opcode (R120). -/
inductive DecodeError where
  /-- no opcode byte -/
  | noOpcode
  /-- the operand bytes of this opcode are missing, all or in part -/
  | truncated (op : Byte)
  deriving DecidableEq, Repr

/-- The instruction at the front of a byte list, and the bytes after it. -/
def decode : List Byte → Except DecodeError (Instr × List Byte)
  | [] => .error .noOpcode
  | op :: rest =>
    if lengthOf op ≤ rest.length + 1 then
      .ok (decodeOp op (rest.getD 0 0) (rest.getD 1 0), rest.drop (lengthOf op - 1))
    else .error (.truncated op)

/-- Byte `k` of an instruction given as one number, the first byte in its low bits, `nbits` bits long and zero above. -/
def tableByte (nbits w k : Nat) : Byte := BitVec.ofNat 8 ((w % 2 ^ nbits) / 256 ^ k)

/-- The instruction that the decoder reads from an instruction given as one number. -/
def decodeTableWord (nbits w : Nat) : Option Instr :=
  match decode [tableByte nbits w 0, tableByte nbits w 1, tableByte nbits w 2] with
  | .ok (i, _) => some i
  | .error _ => none

end Sys2Proof
end

