-- ==== Sys2Proof/Config.lean ====
section
/-! DEFINITION. The types of the engine's parameters (00_scope.md R3, R8; 49_variants.md R371), the region record
(20_memory.md R72), and the free values, which have no body. The values of the parameters stand in Machine/Profile.lean. -/

namespace Sys2Proof.Config

/-- The variant profiles the spec names (R3). Only `nmos6502` has a dispatch table (R385). -/
inductive Variant where
  | nmos6502
  | cmos65c02
  | z80
  | i8080
  | mc6809
  deriving DecidableEq, Repr

/-- Access level of a region (R72). -/
inductive Access where
  | readOnly
  | writeOnly
  | readWrite
  deriving DecidableEq, Repr

/-- A memory-mapped region: it covers the addresses `base` to `base + size - 1` (R72). Its backing storage is plain
memory, held at the absolute address (notes/assumptions/10.md). -/
structure Region where
  base : Nat
  size : Nat
  access : Access
  deriving DecidableEq, Repr

/-- Values of the hook `fixup_behavior(opcode)` (R152, R371): the read at the uncorrected address happens only when the index
crosses a page, or always; or the opcode has no such read. -/
inductive Fixup where
  | onCross
  | always
  | notApplicable
  deriving DecidableEq, Repr, Inhabited

/-- Values of the hook `modify_write_order` (R144, R373): what the second access of a read-modify-write is. -/
inductive ModifyWriteOrder where
  /-- read, write the old value, write the new (NMOS) -/
  | writeOldValue
  /-- read, read again at the same address, write the new (CMOS) -/
  | readAgain
  deriving DecidableEq, Repr, Inhabited

/-- Where a flag of decimal ADC comes from (R190). -/
inductive AddFlagSource where
  | binary
  | intermediate
  | final
  deriving DecidableEq, Repr, Inhabited

/-- Where a flag of decimal SBC comes from (R190). -/
inductive SubFlagSource where
  | binary
  | final
  deriving DecidableEq, Repr, Inhabited

/-- The record `decimal_mode_quirks` (R190). The field `adc_nv_source` is two fields and `sbc_flags_source` is four, one for
each flag it covers, since profile CMOS65C02 takes different sources for the parts (R373; notes/assumptions/21.md). -/
structure DecimalQuirks where
  decimalEnabled : Bool
  adcZSource : AddFlagSource
  adcNSource : AddFlagSource
  adcVSource : AddFlagSource
  sbcCSource : SubFlagSource
  sbcVSource : SubFlagSource
  sbcNSource : SubFlagSource
  sbcZSource : SubFlagSource
  /-- decimal ADC and SBC take one more cycle -/
  extraCycle : Bool
  deriving DecidableEq, Repr, Inhabited

/-- Order of the two bytes of a 16-bit quantity in memory (R8 `BYTE_ORDER`). -/
inductive ByteOrder where
  | littleEndian
  | bigEndian
  deriving DecidableEq, Repr, Inhabited

/-- The outputs of an addition or a subtraction that a flag can store (R171, R175, R176, R180, R375). -/
inductive Signal where
  | carry
  | zero
  | overflow
  | negative
  | halfCarry
  /-- the operation is a subtraction (R383: flag `N` of profile Z80) -/
  | subtraction
  deriving DecidableEq, Repr

/-- What flag `H` holds after a subtraction (R176, R383). -/
inductive SubHalfCarry where
  /-- `H_sub`: 1 means no borrow out of the low nibble -/
  | noBorrow
  /-- 1 means a borrow from bit 4 -/
  | borrow
  /-- an undefined value -/
  | undefined
  deriving DecidableEq, Repr, Inhabited

/-- What one bit of the flags byte is (R371 `flag_layout`, R31, R375). -/
inductive FlagSlot where
  /-- a flag that stores no signal of the adder -/
  | named (name : String)
  /-- the flag that stores a signal -/
  | signal (name : String) (source : Signal)
  /-- the flag that masks the maskable interrupt while set (`I`: R29) -/
  | interruptMask (name : String)
  /-- a bit that exists in pushed copies only; the register's bit holds a constant (`B`: R31) -/
  | copyOnly (name : String) (value : Bool)
  /-- no flag: the bit holds a constant -/
  | constant (value : Bool)
  deriving DecidableEq, Repr, Inhabited

/-- What gates the maskable interrupt (R405, R415, 90_conflicts.md C4): the mask flag of the flags byte, or an interrupt-enable
flip-flop. -/
inductive InterruptGate where
  | flag
  | iff1
  | inte
  deriving DecidableEq, Repr, Inhabited

/-- The pin surface over all profiles (R41). -/
inductive Pin where
  | power
  | reset
  | int
  | nmi
  | rdy
  | so
  | halt
  | syncM1
  | rd
  | wr
  deriving DecidableEq, Repr, Inhabited

/-- The registers of all profiles (R21, R376, R377). -/
inductive Register where
  | a
  | b
  | c
  | d
  | e
  | f
  | h
  | l
  | x
  | y
  | s
  | u
  | p
  | pc
  | sp
  /-- the alternate set of profile Z80, from here to `altL` -/
  | altA
  | altF
  | altB
  | altC
  | altD
  | altE
  | altH
  | altL
  | ix
  | iy
  | i
  | r
  | iff1
  | iff2
  | im
  | inte
  | dp
  | cc
  deriving DecidableEq, Repr, Inhabited

/-- The bytes that an entry pushes (R371 `push_order`). -/
inductive Pushed where
  | pcHigh
  | pcLow
  | status
  /-- the high or the low byte of another register, an 8-bit register having a low byte only (R379: profile MC6809) -/
  | register (name : Register) (high : Bool)
  deriving DecidableEq, Repr, Inhabited

/-- The hardware sources of an entry: the three of R402, and the "others" of R371 (R379: `FIRQ` of profile MC6809), each with
the vector and the push order of its own that it has. -/
inductive Source where
  | reset
  | nmi
  | int
  | other (name : String) (vector : Word) (pushes : List Pushed)
  deriving DecidableEq, Repr, Inhabited

/-- The instruction that an opcode and the two operand values after it are, the low byte of a 16-bit operand first. -/
abbrev OpcodeTable := Byte → Byte → Byte → Instr

/-- A dispatch table (R215, R221, R371): its key is the opcode together with the active prefix bytes, none in a profile without
prefixes. -/
abbrev DispatchTable := List Byte → OpcodeTable

/-- The profile record: the parameters of R8 and every field of R371. A state carries the name of its profile, a parameter of
the step (R51), and every operation that a field decides reads it from that profile's record. The widths that the types of the
model fix (`registers`, `dataWidth`, `addressWidth`, `pageSize`, `stackPointerWidth`) are those of the two 6502 profiles: a
step looks at the record's and runs no profile that has others (`driverRuns`). -/
structure Profile where
  /-- names and widths (R21, R376, R377) -/
  registers : List (Register × Nat)
  /-- bit 7 first; its constants are `RESERVED_FLAG_CONST` (R8) -/
  flagLayout : List FlagSlot
  /-- `DATA_W` -/
  dataWidth : Nat
  /-- `ADDR_W` -/
  addressWidth : Nat
  /-- `PAGE`, in bytes -/
  pageSize : Nat
  /-- `SP_W`; the stack grows downward in every profile -/
  stackPointerWidth : Nat
  /-- `BYTE_ORDER` -/
  byteOrder : ByteOrder
  /-- `fixup_behavior(opcode)` (R152) -/
  fixupBehavior : Byte → Fixup
  /-- `modify_write_order` (R144) -/
  modifyWriteOrder : ModifyWriteOrder
  /-- `decimal_mode_quirks` (R190) -/
  decimal : DecimalQuirks
  /-- `indirect_wraps_in_page` (R157) -/
  indirectWrapsInPage : Bool
  /-- cycles of `JMP (ind)` (R166, R373) -/
  indirectJumpCycles : Nat
  /-- `HAS_HALF_CARRY_FLAG` (R176) -/
  hasHalfCarryFlag : Bool
  /-- a subtraction takes the carry flag as a true borrow (R383), not as an inverted one (R180) -/
  carryIsBorrow : Bool
  /-- what a subtraction stores in the half-carry flag (R176, R383) -/
  subHalfCarry : SubHalfCarry
  /-- `HAS_HALT` (R50, R380) -/
  hasHalt : Bool
  /-- `HAS_PREFIXES` (R221) -/
  hasPrefixes : Bool
  /-- an opcode fetch is followed by a refresh cycle (R374, R382) -/
  hasRefresh : Bool
  /-- `VEC_NMI` -/
  vecNmi : Word
  /-- `VEC_RESET` -/
  vecReset : Word
  /-- `VEC_IRQ` -/
  vecIrq : Word
  /-- `push_order`, first pushed first -/
  pushOrder : List Pushed
  /-- RESET makes one dummy push for each byte of `push_order` (R410, 90_conflicts.md C5) -/
  resetDummyPushes : Bool
  /-- what gates the maskable interrupt, and what an entry disables it by (C4) -/
  interruptGate : InterruptGate
  /-- entry clears `P.D` (R373) -/
  entryClearsDecimal : Bool
  /-- `interrupt_sources`, highest priority first; that RESET stands over NMI and NMI over IRQ is no profile's own (R372) -/
  interruptSources : List Source
  /-- the opcodes that jam (R351, R373) -/
  jamOpcodes : List Byte
  /-- `pins` (R41) -/
  pins : List Pin
  /-- `DispatchTable`; none where it is OPEN (R385) -/
  dispatchTable : Option DispatchTable
  deriving Inhabited

/-- One read-write region over the whole space: the map of the spec's test vectors (92_eei_decisions.md D34).
DESIGN CHOICE for the reset state (notes/assumptions/6.md): unsafe. -/
def wholeSpace : List Region := [⟨0, 65536, .readWrite⟩]

/-- `MAGIC_ANE` (R341): an OPEN 8-bit parameter, a free value. -/
opaque magicAne : Byte

/-- `MAGIC_LXA` (R342): an OPEN 8-bit parameter, a free value. -/
opaque magicLxa : Byte

/-- The fields of a profile's record that the spec does not give (R374, R385): OPEN, free values. -/
opaque openProfile : Variant → Profile

/-- What flag `H` of a profile that leaves it undefined holds after a subtraction (R383: MC6809), by the operands and the flags
byte before it. A free value. -/
opaque undefinedHalfCarry : Byte → Byte → Byte → Bool

/-- The address of a cycle whose address the spec leaves OPEN, by the `PC` at that cycle: the extra cycle of `JMP (ind)` and of
decimal ADC and SBC in profile CMOS65C02 (92_eei_decisions.md D31, R373). A free value. -/
opaque openCycleAddress : Word → Word

/-- The byte that the `n`-th read of a write-only region returns (R82): a free value per read. -/
opaque freeByte : Nat → Byte

/-- The byte that an address nothing has loaded or written holds (R73, U1): a free value per address. -/
opaque unloadedByte : Nat → Byte

end Sys2Proof.Config
end

