-- ==== Sys2Proof/Machine/Profile.lean ====
section
/-! DEFINITION. The profile records (00_scope.md R8; 41_alu_primitives.md R190; 40_addressing_modes.md R152; 49_variants.md
R371 to R377), and what the operations compute from a record. -/

namespace Sys2Proof.Machine

open Config

/-! ### Profile NMOS6502 -/

/-- `decimal_mode_quirks` of profile NMOS6502 (R190). -/
def nmosDecimal : DecimalQuirks where
  decimalEnabled := true
  adcZSource := .binary
  adcNSource := .intermediate
  adcVSource := .intermediate
  sbcCSource := .binary
  sbcVSource := .binary
  sbcNSource := .binary
  sbcZSource := .binary
  extraCycle := false

/-- The opcodes of R152 with value `OnCross`: the read kind of modes `abx`, `aby`, `izy`. -/
def onCrossOpcodes : List Byte :=
  [0x1D, 0x19, 0x11, 0x3D, 0x39, 0x31, 0x5D, 0x59, 0x51, 0x7D, 0x79, 0x71, 0xBD, 0xB9, 0xB1, 0xBC, 0xBE, 0xDD,
   0xD9, 0xD1, 0xFD, 0xF9, 0xF1, 0xBF, 0xB3, 0xBB, 0x1C, 0x3C, 0x5C, 0x7C, 0xDC, 0xFC]

/-- The opcodes of R152 with value `Always`: the write and read-modify-write kinds of modes `abx`, `aby`, `izy`. -/
def alwaysOpcodes : List Byte :=
  [0x9D, 0x99, 0x91, 0x1E, 0x3E, 0x5E, 0x7E, 0xDE, 0xFE, 0x9C, 0x9E, 0x9F, 0x93, 0x9B, 0x1F, 0x1B, 0x13, 0x3F,
   0x3B, 0x33, 0x5F, 0x5B, 0x53, 0x7F, 0x7B, 0x73, 0xDF, 0xDB, 0xD3, 0xFF, 0xFB, 0xF3]

/-- `fixup_behavior(opcode)` of profile NMOS6502 (R152). -/
def nmosFixup (op : Byte) : Fixup :=
  if op ∈ onCrossOpcodes then .onCross else if op ∈ alwaysOpcodes then .always else .notApplicable

/-- Profile NMOS6502 (R8): the one whose instructions the machine runs. -/
def nmos : Profile where
  registers := [(.a, 8), (.x, 8), (.y, 8), (.s, 8), (.p, 8), (.pc, 16)]
  flagLayout :=
    [.signal "N" .negative, .signal "V" .overflow, .constant true, .copyOnly "B" false, .named "D",
     .interruptMask "I", .signal "Z" .zero, .signal "C" .carry]
  dataWidth := 8
  addressWidth := 16
  pageSize := 256
  stackPointerWidth := 8
  byteOrder := .littleEndian
  fixupBehavior := nmosFixup
  modifyWriteOrder := .writeOldValue
  decimal := nmosDecimal
  indirectWrapsInPage := true
  indirectJumpCycles := 5
  hasHalfCarryFlag := false
  carryIsBorrow := false
  subHalfCarry := .noBorrow
  hasHalt := false
  hasPrefixes := false
  hasRefresh := false
  vecNmi := 0xFFFA
  vecReset := 0xFFFC
  vecIrq := 0xFFFE
  pushOrder := [.pcHigh, .pcLow, .status]
  resetDummyPushes := true
  interruptGate := .flag
  entryClearsDecimal := false
  interruptSources := [.reset, .nmi, .int]
  jamOpcodes := [0x02, 0x12, 0x22, 0x32, 0x42, 0x52, 0x62, 0x72, 0x92, 0xB2, 0xD2, 0xF2]
  pins := [.power, .reset, .nmi, .int, .rdy, .so, .syncM1, .rd, .wr]
  dispatchTable := some fun _ => decodeOp

/-! ### The other profiles -/

/-- `decimal_mode_quirks` of profile CMOS65C02 (R373). -/
def cmosDecimal : DecimalQuirks where
  decimalEnabled := true
  adcZSource := .final
  adcNSource := .final
  adcVSource := .intermediate
  sbcCSource := .binary
  sbcVSource := .binary
  sbcNSource := .final
  sbcZSource := .final
  extraCycle := true

/-- Profile CMOS65C02 (R373): "Everything else is as profile `NMOS6502`", but for the dispatch table, which is OPEN. -/
def cmos : Profile :=
  { nmos with
    modifyWriteOrder := .readAgain
    decimal := cmosDecimal
    indirectWrapsInPage := false
    indirectJumpCycles := 6
    entryClearsDecimal := true
    jamOpcodes := []
    dispatchTable := none }

/-- The pins of every profile: power (R46), the pins of the three sources, whose edges every profile latches (R44, R372, R378),
and the outputs that change level in every bus cycle (R43, R372). -/
def sharedPins : List Pin := [.power, .reset, .nmi, .int, .syncM1, .rd, .wr]

/-- A pin list of which the spec gives some members and excludes some: those, and what an open list adds. -/
def givenPins (present absent rest : List Pin) : List Pin :=
  present ++ rest.filter fun p => !(present ++ absent).contains p

/-- A source list of which the spec gives some members: those that an open list lacks, and the open list in its order. -/
def givenSources (present rest : List Source) : List Source :=
  (present.filter fun x => !rest.contains x) ++ rest

/-- Profile Z80 as far as the spec gives it (R374 to R376, R378 to R383, R385); the other fields are free. -/
def z80 : Profile :=
  { openProfile .z80 with
    registers :=
      [(.pc, 16), (.sp, 16), (.a, 8), (.f, 8), (.b, 8), (.c, 8), (.d, 8), (.e, 8), (.h, 8), (.l, 8),
       (.altA, 8), (.altF, 8), (.altB, 8), (.altC, 8), (.altD, 8), (.altE, 8), (.altH, 8), (.altL, 8),
       (.ix, 16), (.iy, 16), (.i, 8), (.r, 8), (.iff1, 1), (.iff2, 1), (.im, 2)]
    flagLayout :=
      [.signal "S" .negative, .signal "Z" .zero, .named "Y", .signal "H" .halfCarry, .named "X",
       .signal "P/V" .overflow, .signal "N" .subtraction, .signal "C" .carry]
    dataWidth := 8
    addressWidth := 16
    stackPointerWidth := 16
    byteOrder := .littleEndian
    decimal := { (openProfile .z80).decimal with decimalEnabled := false }
    hasHalfCarryFlag := true
    carryIsBorrow := true
    subHalfCarry := .borrow
    hasHalt := true
    hasPrefixes := true
    hasRefresh := true
    interruptSources := givenSources [.reset, .nmi, .int] (openProfile .z80).interruptSources
    resetDummyPushes := false
    interruptGate := .iff1
    entryClearsDecimal := false
    pins := givenPins (sharedPins ++ [.halt]) [] (openProfile .z80).pins
    dispatchTable := none }

/-- Profile I8080 as far as the spec gives it (R374 to R376, R378, R379, R381, R383, R385); the other fields are free, among them
whether it has NMI, which R379 denies "for orientation only". Its `AC` after a subtraction is the `H` of R176, since R383 gives
it no other. -/
def i8080 : Profile :=
  { openProfile .i8080 with
    registers :=
      [(.pc, 16), (.sp, 16), (.a, 8), (.f, 8), (.b, 8), (.c, 8), (.d, 8), (.e, 8), (.h, 8), (.l, 8),
       (.inte, 1)]
    flagLayout :=
      [.signal "S" .negative, .signal "Z" .zero, .constant false, .signal "AC" .halfCarry, .constant false, .named "P",
       .constant true, .signal "CY" .carry]
    dataWidth := 8
    addressWidth := 16
    stackPointerWidth := 16
    byteOrder := .littleEndian
    decimal := { (openProfile .i8080).decimal with decimalEnabled := false }
    hasHalfCarryFlag := true
    carryIsBorrow := true
    subHalfCarry := .noBorrow
    hasHalt := true
    hasPrefixes := false
    hasRefresh := false
    interruptSources := givenSources [.reset, .int] (openProfile .i8080).interruptSources
    resetDummyPushes := false
    interruptGate := .inte
    entryClearsDecimal := false
    pins := givenPins sharedPins [.halt] (openProfile .i8080).pins
    dispatchTable := none }

/-- Profile MC6809 as far as the spec gives it (R374, R375, R377 to R379, R381, R383, R385); the other fields are free, among
them whether its carry is a borrow. -/
def mc6809 : Profile :=
  { openProfile .mc6809 with
    registers := [(.a, 8), (.b, 8), (.x, 16), (.y, 16), (.s, 16), (.u, 16), (.pc, 16), (.dp, 8), (.cc, 8)]
    flagLayout :=
      [.named "E", .named "F", .signal "H" .halfCarry, .interruptMask "I", .signal "N" .negative, .signal "Z" .zero,
       .signal "V" .overflow, .signal "C" .carry]
    dataWidth := 8
    addressWidth := 16
    stackPointerWidth := 16
    byteOrder := .bigEndian
    decimal := { (openProfile .mc6809).decimal with decimalEnabled := false }
    hasHalfCarryFlag := true
    subHalfCarry := .undefined
    hasPrefixes := true
    hasRefresh := false
    interruptSources := givenSources [.reset, .nmi, .int] (openProfile .mc6809).interruptSources
    resetDummyPushes := false
    interruptGate := .flag
    entryClearsDecimal := false
    pins := givenPins (sharedPins ++ [.halt]) [] (openProfile .mc6809).pins
    dispatchTable := none }

/-- The record of each profile (R3): the one place where a variant selects its hooks. -/
def profileOf : Variant → Profile
  | .nmos6502 => nmos
  | .cmos65c02 => cmos
  | .z80 => z80
  | .i8080 => i8080
  | .mc6809 => mc6809

/-! ### What the operations take from a record -/

/-- The register file of the driver (R21). -/
def driverRegisters : List (Register × Nat) := [(.a, 8), (.x, 8), (.y, 8), (.s, 8), (.p, 8), (.pc, 16)]

/-- Whether this driver can run a profile: it has the driver's register file and widths, and no `Halted` state, no
prefix decoding and no refresh cycle (R221, R380, R382), which the driver has not. -/
def driverRuns (prof : Profile) : Bool :=
  prof.registers == driverRegisters && prof.dataWidth == 8 && prof.addressWidth == 16 && prof.pageSize == 256 &&
    prof.stackPointerWidth == 8 && !prof.hasHalt && !prof.hasPrefixes && !prof.hasRefresh

/-- The opcodes that this driver runs in a profile, if any: those of its dispatch table with no prefix active. -/
def tableOf (prof : Profile) : Option OpcodeTable :=
  if driverRuns prof then prof.dispatchTable.map (· []) else none

/-- A byte with the bits for which `f` gives true, the layout's first slot at bit 7. -/
def slotBits (f : FlagSlot → Bool) (l : List FlagSlot) : Byte :=
  l.foldl (fun acc x => (acc <<< 1) ||| (if f x then 1#8 else 0#8)) 0#8

/-- The bits of the flags register that hold a constant. -/
def reservedMask (prof : Profile) : Byte :=
  slotBits (fun | .constant _ => true | .copyOnly _ _ => true | _ => false) prof.flagLayout

/-- `RESERVED_FLAG_CONST` (R8). -/
def reservedConst (prof : Profile) : Byte :=
  slotBits (fun | .constant v => v | .copyOnly _ v => v | _ => false) prof.flagLayout

/-- The bits that exist in pushed copies of the flags only (`B`: R31). -/
def copyMask (prof : Profile) : Byte := slotBits (fun | .copyOnly _ _ => true | _ => false) prof.flagLayout

/-- The bit of the flags register that masks the maskable interrupt (R29, R375). -/
def interruptMaskBit (prof : Profile) : Byte := slotBits (fun | .interruptMask _ => true | _ => false) prof.flagLayout

/-- Whether a profile stores a signal: the half-carry only where it has that flag (R176). -/
def storesSignal (prof : Profile) (σ : Signal) : Bool := σ != .halfCarry || prof.hasHalfCarryFlag

/-- The bit of the flags register that stores a signal, where the profile has one (R371). -/
def signalMask (prof : Profile) (σ : Signal) : Byte :=
  if storesSignal prof σ then slotBits (fun | .signal _ x => x == σ | _ => false) prof.flagLayout else 0#8

end Sys2Proof.Machine
end

