-- ==== Sys2Proof/Machine/Flags.lean ====
section
/-! DEFINITION. The flags byte (10_state.md R26 to R34) and the ALU primitives with every flag they derive
(41_alu_primitives.md). A primitive is a function of its operands and of `P`; it gives its result and the new `P`. -/

namespace Sys2Proof.Machine

open Config

/-- The named bits of `P` (R26). -/
inductive Flag where
  | n
  | v
  | b
  | d
  | i
  | z
  | c
  deriving DecidableEq, Repr

/-- Bit positions (R26). -/
def flagBit : Flag → Nat
  | .n => 7
  | .v => 6
  | .b => 4
  | .d => 3
  | .i => 2
  | .z => 1
  | .c => 0

/-- `P.f`. -/
def flag (f : Flag) (p : Byte) : Bool := p.getLsbD (flagBit f)

/-- The bits of a mask set to `v`. -/
def withBits (mask : Byte) (v : Bool) (p : Byte) : Byte := if v then p ||| mask else p &&& ~~~mask

/-- `P.f <- v`. -/
def withFlag (f : Flag) (v : Bool) (p : Byte) : Byte := withBits (1#8 <<< flagBit f) v p

/-- A byte loaded into `P`: the profile's constant bits hold, in profile NMOS6502 `(v & 0xCF) | 0x20` (R8, R31, R456). -/
def statusFrom (prof : Profile) (v : Byte) : Byte := (v &&& ~~~reservedMask prof) ||| reservedConst prof

/-- The copy of `P` that PHP and BRK push: bits 5 and 4 set (R31). -/
def statusWithBreak (p : Byte) : Byte := p ||| 0x30#8

/-- The copy of `P` that NMI and IRQ entry push: bit 5 set, bit 4 clear (R31, R411). -/
def statusWithoutBreak (p : Byte) : Byte := (p ||| 0x20#8) &&& 0xEF#8

/-- Bits 5 and 4 of the register read 1 and 0 (R31). -/
def reservedBitsHold (p : Byte) : Bool := p.getLsbD 5 && !p.getLsbD 4

/-- `SetZN` (R171): `Z` and `N` from a value. -/
def setZN (v : Byte) (p : Byte) : Byte := withFlag .n (v.getLsbD 7) (withFlag .z (v == 0#8) p)

/-- A primitive's outputs: the result and the new `P`. -/
structure Alu where
  value : Byte
  p : Byte
  deriving DecidableEq, Repr

/-- The result of a primitive with `Z` and `N` set from it. -/
def passZN (v : Byte) (p : Byte) : Alu := ⟨v, setZN v p⟩

/-- Bit 7 of `~(a ^ b) & (a ^ r)`: overflow of an addition (R175). -/
def addOverflow (a b r : Byte) : Bool := (~~~(a ^^^ b) &&& (a ^^^ r) &&& 0x80#8) != 0#8

/-- Bit 7 of `(a ^ b) & (a ^ r)`: overflow of a subtraction (R180). -/
def subOverflow (a b r : Byte) : Bool := ((a ^^^ b) &&& (a ^^^ r) &&& 0x80#8) != 0#8

/-- `Add` (R175). -/
def addBinary (a b : Byte) (cin : Bool) (p : Byte) : Alu :=
  let sum := a.toNat + b.toNat + cin.toNat
  let result := BitVec.ofNat 8 sum
  passZN result (withFlag .v (addOverflow a b result) (withFlag .c (decide (sum > 255)) p))

/-- `H_add` (R176): the half-carry signal, an ALU output. -/
def halfCarryAdd (a b : Byte) (cin : Bool) : Bool :=
  decide ((a &&& 0x0F#8).toNat + (b &&& 0x0F#8).toNat + cin.toNat > 0x0F)

/-- `H_sub` (R176): 1 means no borrow out of the low nibble. -/
def halfCarrySub (a b : Byte) (cin : Bool) : Bool := halfCarryAdd a (~~~b) cin

/-- `a - b - (1 - cin)`: the binary difference (R180). -/
def binaryDifference (a b : Byte) (cin : Bool) : Int := (a.toNat : Int) - b.toNat - (1 - (cin.toNat : Int))

/-- `Sub` (R180): the carry is an inverted borrow. -/
def subBinary (a b : Byte) (cin : Bool) (p : Byte) : Alu :=
  let diff := binaryDifference a b cin
  let result := BitVec.ofInt 8 diff
  passZN result (withFlag .v (subOverflow a b result) (withFlag .c (decide (0 ≤ diff)) p))

/-- The low-nibble sum of `AddDecimal` with its correction (R186). -/
def decimalLowSum (a b : Byte) (cin : Bool) : Nat :=
  let al := (a &&& 0x0F#8).toNat + (b &&& 0x0F#8).toNat + cin.toNat
  if al ≥ 0x0A then (al + 0x06) % 16 + 0x10 else al

/-- `s` of R186 before the high-nibble correction. -/
def decimalIntermediate (a b : Byte) (cin : Bool) : Nat :=
  (a &&& 0xF0#8).toNat + (b &&& 0xF0#8).toNat + decimalLowSum a b cin

/-- `AddDecimal` (R186), with the flag sources of the quirks record (R190). -/
def addDecimal (q : DecimalQuirks) (a b : Byte) (cin : Bool) (p : Byte) : Alu :=
  let bin := BitVec.ofNat 8 (a.toNat + b.toNat + cin.toNat)
  let s := decimalIntermediate a b cin
  let inter := BitVec.ofNat 8 s
  let s' := if s ≥ 0xA0 then s + 0x60 else s
  let result := BitVec.ofNat 8 s'
  let pick : AddFlagSource → Byte := fun
    | .binary => bin
    | .intermediate => inter
    | .final => result
  ⟨result,
   withFlag .c (decide (s' ≥ 0x100))
    (withFlag .v (addOverflow a b (pick q.adcVSource))
     (withFlag .n ((pick q.adcNSource).getLsbD 7)
      (withFlag .z (pick q.adcZSource == 0#8) p)))⟩

/-- `s` of `SubDecimal` after both corrections (R187), whose residue modulo 256 is the result. -/
def decimalDifference (a b : Byte) (cin : Bool) : Int :=
  let al : Int := ((a &&& 0x0F#8).toNat : Int) - (b &&& 0x0F#8).toNat - (1 - (cin.toNat : Int))
  let al := if al < 0 then (al - 0x06) % 16 - 0x10 else al
  let s : Int := ((a &&& 0xF0#8).toNat : Int) - (b &&& 0xF0#8).toNat + al
  if s < 0 then s - 0x60 else s

/-- `SubDecimal` (R187), with the source of each flag from the quirks record (R190). `C` of the final result is the absence of a
borrow after the corrections (notes/assumptions/21.md). -/
def subDecimal (q : DecimalQuirks) (a b : Byte) (cin : Bool) (p : Byte) : Alu :=
  let pick : SubFlagSource → Int := fun
    | .binary => binaryDifference a b cin
    | .final => decimalDifference a b cin
  let byte : SubFlagSource → Byte := fun f => BitVec.ofInt 8 (pick f)
  ⟨byte .final,
   withFlag .n ((byte q.sbcNSource).getLsbD 7)
    (withFlag .z (byte q.sbcZSource == 0#8)
     (withFlag .v (subOverflow a b (byte q.sbcVSource))
      (withFlag .c (decide (0 ≤ pick q.sbcCSource)) p)))⟩

/-- Whether arithmetic is decimal (R185): `P.D = 1`, where the profile has decimal mode. -/
def decimalOn (q : DecimalQuirks) (p : Byte) : Bool := q.decimalEnabled && flag .d p

/-- The signals of an addition or a subtraction: the four flags of its primitive, which gives them in the bits of R26, the
half-carry, and which of the two it is. -/
def aluSignals (r : Byte) (halfCarry subtraction : Bool) : Signal → Bool
  | .carry => flag .c r
  | .zero => flag .z r
  | .overflow => flag .v r
  | .negative => flag .n r
  | .halfCarry => halfCarry
  | .subtraction => subtraction

/-- Each signal goes to its flag where the profile's layout has one (R176, R371, R375); profile NMOS6502 has none for the
half-carry (R33). No other bit changes. -/
def placeSignals (prof : Profile) (f : Signal → Bool) (p : Byte) : Byte :=
  [Signal.carry, .zero, .overflow, .negative, .halfCarry, .subtraction].foldl
    (fun p σ => withBits (signalMask prof σ) (f σ) p) p

/-- The carry flag, at its place in the profile's layout. -/
def carryOf (prof : Profile) (p : Byte) : Bool := p &&& signalMask prof .carry != 0#8

/-- A carry flag of the profile as the inverted borrow that `Sub` takes and gives (R180), or such a carry as the profile's flag:
complemented where the flag is a true borrow (R383). -/
def borrowSense (prof : Profile) (c : Bool) : Bool := Bool.xor c prof.carryIsBorrow

/-- What the half-carry flag stores after a subtraction (R176, R383), `cin` being an inverted borrow. -/
def subHalfCarryFlag (prof : Profile) (a m p : Byte) (cin : Bool) : Bool :=
  match prof.subHalfCarry with
  | .noBorrow => halfCarrySub a m cin
  | .borrow => !halfCarrySub a m cin
  | .undefined => undefinedHalfCarry a m p

/-- The addition ADC calls (44_arith_logic.md R260), with the profile's decimal rules and flags. -/
def addWithCarry (prof : Profile) (a m p : Byte) : Alu :=
  let cin := carryOf prof p
  let r := if decimalOn prof.decimal p then addDecimal prof.decimal a m cin p else addBinary a m cin p
  ⟨r.value, placeSignals prof (aluSignals r.p (halfCarryAdd a m cin) false) p⟩

/-- The subtraction SBC calls (R261), with the profile's decimal rules, flags and sense of the carry (R383). -/
def subWithCarry (prof : Profile) (a m p : Byte) : Alu :=
  let cin := borrowSense prof (carryOf prof p)
  let r := if decimalOn prof.decimal p then subDecimal prof.decimal a m cin p else subBinary a m cin p
  let flags := withFlag .c (borrowSense prof (flag .c r.p)) r.p
  ⟨r.value, placeSignals prof (aluSignals flags (subHalfCarryFlag prof a m p cin) true) p⟩

/-- `Asl` (R191). -/
def asl (v p : Byte) : Alu := passZN (v <<< 1) (withFlag .c (v.getLsbD 7) p)

/-- `Lsr` (R192). -/
def lsr (v p : Byte) : Alu := passZN (v >>> 1) (withFlag .c (v.getLsbD 0) p)

/-- `Rol` (R193): a 9-bit rotation of `{C, v}`. -/
def rol (v p : Byte) : Alu :=
  passZN ((v <<< 1) ||| (if flag .c p then 1#8 else 0#8)) (withFlag .c (v.getLsbD 7) p)

/-- `Ror` (R194). -/
def ror (v p : Byte) : Alu :=
  passZN ((v >>> 1) ||| (if flag .c p then 0x80#8 else 0#8)) (withFlag .c (v.getLsbD 0) p)

/-- The flags of `Cmp` (R195). -/
def cmpFlags (r m p : Byte) : Byte := setZN (r - m) (withFlag .c (decide (r.toNat ≥ m.toNat)) p)

/-- `Inc` (R196). -/
def inc (v p : Byte) : Alu := passZN (v + 1) p

/-- `Dec` (R197). -/
def dec (v p : Byte) : Alu := passZN (v - 1) p

/-- `And` (R198). -/
def andWith (a m p : Byte) : Alu := passZN (a &&& m) p

/-- `Or` (R199). -/
def orWith (a m p : Byte) : Alu := passZN (a ||| m) p

/-- `Xor` (R200). -/
def xorWith (a m p : Byte) : Alu := passZN (a ^^^ m) p

/-- The flags of `Bit` (R201): `N` and `V` from the memory operand. -/
def bitFlags (a m p : Byte) : Byte :=
  withFlag .v (m.getLsbD 6) (withFlag .n (m.getLsbD 7) (withFlag .z (a &&& m == 0#8) p))

/-- The body of ARR (48_undocumented.md R340): AND, rotate right, flags that depend on `P.D`. -/
def arr (q : DecimalQuirks) (a m p : Byte) : Alu :=
  let t := a &&& m
  let r := (t >>> 1) ||| (if flag .c p then 0x80#8 else 0#8)
  let p' := withFlag .v (Bool.xor (r.getLsbD 6) (r.getLsbD 5)) (setZN r p)
  if decimalOn q p then
    let r := if (t &&& 0x0F#8).toNat + (t &&& 0x01#8).toNat > 0x05
      then (r &&& 0xF0#8) ||| ((r + 0x06#8) &&& 0x0F#8) else r
    if (t &&& 0xF0#8).toNat + (t &&& 0x10#8).toNat > 0x50
      then ⟨r + 0x60#8, withFlag .c true p'⟩ else ⟨r, withFlag .c false p'⟩
  else ⟨r, withFlag .c (r.getLsbD 6) p'⟩

/-- The result and flags of SBX (R343): a compare's flags, the old `C` not used. -/
def sbx (a x m p : Byte) : Alu := ⟨(a &&& x) - m, cmpFlags (a &&& x) m p⟩

end Sys2Proof.Machine
end

