-- ==== Sys2Proof/Machine/State.lean ====
section
/-! DEFINITION. The machine's state (10_state.md; 20_memory.md R70 to R73), why a step can stop, and the state after
reset. Plain data. -/

namespace Sys2Proof.Machine

/-- The two levels of a pin (10_state.md R40). -/
inductive Level where
  | raised
  | lowered
  deriving DecidableEq, Repr

/-- What a pin does when it is driven to a level, and what its notifications say (R42). -/
inductive Edge where
  | noChange
  | roseEdge
  | fellEdge
  deriving DecidableEq, Repr

/-- The pin surface of profile NMOS6502 (R41): the levels the board drives on the inputs, and the outputs. `HALT` is not
present in this profile. -/
structure Pins where
  /-- input: the engine runs only while raised (R46) -/
  power : Level
  /-- input, asserted lowered (R44) -/
  reset : Level
  /-- input, asserted lowered (R44) -/
  nmi : Level
  /-- input, asserted lowered (R44) -/
  int : Level
  /-- input: raised is ready (R214) -/
  rdy : Level
  /-- input, asserted lowered (R45) -/
  so : Level
  /-- output, raised during an opcode-fetch cycle (R213) -/
  sync : Level
  /-- output, lowered during a read cycle (R76); de-asserted between cycles -/
  rd : Level
  /-- output, lowered during a write cycle (R77); de-asserted between cycles -/
  wr : Level
  deriving DecidableEq, Repr

/-- `run` (R47, R50). `Halted` does not exist in this profile. -/
inductive Run where
  | running
  | jammed
  deriving DecidableEq, Repr

/-- What a bus cycle does (R48). -/
inductive Action where
  | read
  | write
  deriving DecidableEq, Repr

/-- The trace event of one bus cycle (R48); `sync` marks an opcode fetch. -/
structure BusEvent where
  addr : Word
  data : Byte
  action : Action
  sync : Bool
  deriving DecidableEq, Repr

/-- The contents of the backing stores: the bytes that something has loaded or written, addresses strictly rising. An
address not listed holds no value of its own; what a bus read of it gives is `Memory.read`'s free value. -/
abbrev Memory := List Host.Cell

/-- The registers of the profiles other than the 6502's two (49_variants.md R376, R377). `A`, `PC` and the flags byte (`F`, `CC`)
are those of `State`. `b` is register `B` of all three. -/
structure OtherRegisters where
  b : Byte
  c : Byte
  d : Byte
  e : Byte
  h : Byte
  l : Byte
  /-- the alternate set of profile Z80, from here to `altL` -/
  altA : Byte
  altF : Byte
  altB : Byte
  altC : Byte
  altD : Byte
  altE : Byte
  altH : Byte
  altL : Byte
  ix : Word
  iy : Word
  /-- stack pointer `SP` of Z80 and I8080 -/
  sp : Word
  i : Byte
  r : Byte
  iff1 : Bool
  iff2 : Bool
  im : BitVec 2
  inte : Bool
  /-- the 16-bit registers of profile MC6809, from here to `u` -/
  x : Word
  y : Word
  s : Word
  u : Word
  dp : Byte
  deriving DecidableEq, Repr

/-- Everything the spec gives the machine. -/
structure State where
  /-- accumulator `A` (R21) -/
  a : Byte
  /-- index register `X` (R21) -/
  x : Byte
  /-- index register `Y` (R21) -/
  y : Byte
  /-- stack pointer `S`, low byte of the stack address (R22) -/
  sp : Byte
  /-- flags byte `P` (R26) -/
  p : Byte
  /-- program counter (R23) -/
  pc : Word
  /-- the registers of the other profiles (R376, R377) -/
  other : OtherRegisters
  /-- the opcode byte fetched in the first cycle of the current step (R47) -/
  ir : Byte
  run : Run
  /-- pending latches (R44) -/
  pendReset : Bool
  pendNmi : Bool
  pendIrq : Bool
  /-- the SO latch (R45) -/
  pendSo : Bool
  /-- address bus latch (R47) -/
  addr : Word
  /-- data bus latch (R47) -/
  data : Byte
  /-- ticks since power-on (R49) -/
  cycles : Nat
  /-- bus events in cycle order (R48), since the host last cleared it -/
  trace : List BusEvent
  pins : Pins
  /-- the profile, a parameter of the step (R51); `State.profile` is its record -/
  variant : Config.Variant
  /-- the region map, a parameter of the step (R51, R72) -/
  regions : List Config.Region
  /-- contents of the backing stores (R73) -/
  mem : Memory
  /-- the model's own: how many free bytes write-only regions have returned (R82) -/
  freeIndex : Nat
  deriving DecidableEq, Repr

/-- Why the engine stops for good. -/
inductive Fault where
  /-- `BusContractViolation(addr)` (R79, R422): raised by any bus cycle, and by the host's `Peek` and `Poke`, at an address in
  no region. Safe: the spec gives no state after it. -/
  | busContractViolation (addr : Word)
  deriving DecidableEq, Repr

/-- Why a step has no meaning. -/
inductive Refusal where
  /-- an instruction without a meaning, by mnemonic; raised by no arm of this model. Safe. -/
  | notModelled (mnemonic : String)
  /-- a powered step of a profile whose dispatch table is OPEN (R123, R386); raised by `step` only. Safe. -/
  | openProfile (variant : Config.Variant)
  deriving DecidableEq, Repr

/-- The outcome of a step or of an instruction. -/
abbrev Out := Host.Outcome State Fault Refusal

/-- Inputs de-asserted and ready, outputs de-asserted. DESIGN CHOICE for the inputs (notes/assumptions/15.md): unsafe. -/
def Pins.idle : Pins where
  power := .raised
  reset := .raised
  nmi := .raised
  int := .raised
  rdy := .raised
  so := .raised
  sync := .lowered
  rd := .raised
  wr := .raised

/-- No reset of profile NMOS6502 gives these a value. DESIGN CHOICE (notes/assumptions/32.md): zero, unsafe. -/
def OtherRegisters.zero : OtherRegisters where
  b := 0
  c := 0
  d := 0
  e := 0
  h := 0
  l := 0
  altA := 0
  altF := 0
  altB := 0
  altC := 0
  altD := 0
  altE := 0
  altH := 0
  altL := 0
  ix := 0
  iy := 0
  sp := 0
  i := 0
  r := 0
  iff1 := false
  iff2 := false
  im := 0
  inte := false
  x := 0
  y := 0
  s := 0
  u := 0
  dp := 0

/-- The events of a completed RESET sequence (60_exceptions.md R410) entered at `PC = 0x1234`, `S = 0x42`, with the data
bytes of 95_test_vectors.md P4 step 1. -/
def resetTrace : List BusEvent :=
  [⟨0x1234, 0x00, .read, true⟩, ⟨0x1234, 0x00, .read, false⟩,
   ⟨0x0142, 0x00, .read, false⟩, ⟨0x0141, 0x00, .read, false⟩, ⟨0x0140, 0x00, .read, false⟩,
   ⟨0xFFFC, 0x00, .read, false⟩, ⟨0xFFFD, 0x80, .read, false⟩]

/-- The machine right after a RESET sequence (10_state.md R52, last column). Values the spec leaves unspecified are those of
95_test_vectors.md P4 after step 1, where they "stand for the unspecified power-on values". DESIGN CHOICE
(notes/assumptions/1.md to 6.md, 15.md, 32.md): unsafe. -/
def State.reset : State where
  a := 0xAA
  x := 0xBB
  y := 0xCC
  sp := 0x3F
  p := 0xEF
  pc := 0x8000
  other := .zero
  ir := 0x00
  run := .running
  pendReset := false
  pendNmi := false
  pendIrq := false
  pendSo := false
  addr := 0xFFFD
  data := 0x80
  cycles := 7
  trace := resetTrace
  pins := .idle
  variant := .nmos6502
  regions := Config.wholeSpace
  mem := []
  freeIndex := 0

end Sys2Proof.Machine
end

