-- ==== Sys2Proof/Machine/Ops.lean ====
section
/-! DEFINITION. The named operations over memory, bus, registers and stack, and the entry sequences with their return
(20_memory.md; 40_addressing_modes.md section 6; 60_exceptions.md section 3). An operation that uses the bus takes the
state and gives the state after its cycles, or the fault of the cycle that failed. -/

namespace Sys2Proof.Machine

open Config

/-- The record of the state's profile, which every hook is read from (R3, R8, R370). -/
def State.profile (s : State) : Profile := profileOf s.variant

/-! ### Byte order (R84, R371 `BYTE_ORDER`) -/

/-- The word that two bytes are, the one at the lower address first. -/
def joinWord (o : ByteOrder) (first second : Byte) : Word :=
  match o with
  | .littleEndian => wordOf second first
  | .bigEndian => wordOf first second

/-- The byte of a word that lies at the lower address. -/
def firstByte (o : ByteOrder) (w : Word) : Byte :=
  match o with
  | .littleEndian => lo w
  | .bigEndian => hi w

/-- The byte of a word that lies at the higher address. -/
def secondByte (o : ByteOrder) (w : Word) : Byte :=
  match o with
  | .littleEndian => hi w
  | .bigEndian => lo w

/-! ### Registers by name -/

/-- A register of any profile (R21, R376, R377), zero-extended. Two names stand for a register of the 6502 and a wider one of
profile MC6809: `width` says which. -/
def State.register (s : State) (name : Register) (width : Nat) : Word :=
  match name with
  | .a => zext s.a
  | .b => zext s.other.b
  | .c => zext s.other.c
  | .d => zext s.other.d
  | .e => zext s.other.e
  | .h => zext s.other.h
  | .l => zext s.other.l
  | .x => if width = 16 then s.other.x else zext s.x
  | .y => if width = 16 then s.other.y else zext s.y
  | .s => if width = 16 then s.other.s else zext s.sp
  | .u => s.other.u
  | .p => zext s.p
  | .f => zext s.p
  | .cc => zext s.p
  | .pc => s.pc
  | .sp => s.other.sp
  | .altA => zext s.other.altA
  | .altF => zext s.other.altF
  | .altB => zext s.other.altB
  | .altC => zext s.other.altC
  | .altD => zext s.other.altD
  | .altE => zext s.other.altE
  | .altH => zext s.other.altH
  | .altL => zext s.other.altL
  | .ix => s.other.ix
  | .iy => s.other.iy
  | .i => zext s.other.i
  | .r => zext s.other.r
  | .iff1 => BitVec.ofNat 16 s.other.iff1.toNat
  | .iff2 => BitVec.ofNat 16 s.other.iff2.toNat
  | .im => s.other.im.setWidth 16
  | .inte => BitVec.ofNat 16 s.other.inte.toNat
  | .dp => zext s.other.dp

/-! ### Memory -/

/-- The byte loaded or written at an address, if any. -/
def Memory.loaded : Memory → Nat → Option Byte
  | [], _ => none
  | (k, v) :: m, a => if k = a then some v else Memory.loaded m a

/-- What an address holds (R73): the byte last written or poked, and a free value where nothing was (U1). -/
def Memory.read (m : Memory) (a : Nat) : Byte := (m.loaded a).getD (unloadedByte a)

/-- The contents after a byte is stored. -/
def Memory.write : Memory → Nat → Byte → Memory
  | [], a, v => [(a, v)]
  | (k, u) :: m, a, v =>
    if a < k then (a, v) :: (k, u) :: m
    else if a = k then (k, v) :: m
    else (k, u) :: Memory.write m a v

/-- Every address of the list is at least `lb` and below 65536, and they rise strictly. -/
def Memory.risesFrom : Nat → Memory → Bool
  | _, [] => true
  | lb, (k, _) :: m => decide (lb ≤ k) && decide (k < 65536) && Memory.risesFrom (k + 1) m

/-- The canonical form: addresses strictly rising, inside the space (R70). An unlisted address holds no value, so no entry
repeats what an unlisted address holds. -/
def Memory.wf (m : Memory) : Bool := Memory.risesFrom 0 m

/-! ### Regions -/

/-- `r.base <= addr < r.base + r.size` (R72). A region over the whole space claims every address: that test stands first,
so that it holds of an address that is no numeral. -/
def claims (r : Region) (a : Word) : Bool :=
  (r.base == 0 && r.size == 65536) || (decide (r.base ≤ a.toNat) && decide (a.toNat < r.base + r.size))

/-- The region of an address, if any: the one that claims it, on a legal map (R72). -/
def State.regionAt (s : State) (a : Word) : Option Region := s.regions.find? (claims · a)

/-! ### Bus cycles -/

/-- The byte that a read cycle in region `r` transfers (R76): what the store holds, or a free byte from a write-only region
(R82). -/
def busByte (r : Region) (a : Word) (s : State) : Byte :=
  if r.access = .writeOnly then freeByte s.freeIndex else s.mem.read a.toNat

/-- The output pins (R41). -/
inductive OutputPin where
  | sync
  | rd
  | wr
  deriving DecidableEq, Repr

/-- The pin's place in the surface over all profiles. -/
def OutputPin.surface : OutputPin → Pin
  | .sync => .syncM1
  | .rd => .rd
  | .wr => .wr

/-- The level the engine drives on an output. -/
def Pins.output (p : Pins) : OutputPin → Level
  | .sync => p.sync
  | .rd => p.rd
  | .wr => p.wr

/-- An output at a new level. -/
def Pins.withOutput (p : Pins) (l : Level) : OutputPin → Pins
  | .sync => { p with sync := l }
  | .rd => { p with rd := l }
  | .wr => { p with wr := l }

/-- The edge from one level to another (R42). -/
def edgeTo : Level → Level → Edge
  | .lowered, .raised => .roseEdge
  | .raised, .lowered => .fellEdge
  | .raised, .raised => .noChange
  | .lowered, .lowered => .noChange

/-- The two notifications of a transition (R43): before the level changes, and after. -/
inductive Phase where
  | before
  | after
  deriving DecidableEq, Repr

/-- The event of a bus cycle (R48): the two latches, the classification, and `sync` on a read while `SYNC` is raised. -/
def State.event (s : State) (act : Action) : BusEvent := ⟨s.addr, s.data, act, s.pins.sync == .raised && act == .read⟩

/-- What the observer makes of its trace on a notification (R43): at the end of a bus cycle, before `RD` or `WR` rises again, it
records the cycle, which the pin's name classifies. -/
def heard (ph : Phase) (pin : Pin) (e : Edge) (s : State) (trace : List BusEvent) : List BusEvent :=
  match ph, pin, e with
  | .before, .rd, .roseEdge => trace ++ [s.event .read]
  | .before, .wr, .roseEdge => trace ++ [s.event .write]
  | _, _, _ => trace

/-- A pin transition from state `s`, with its two notifications (R43). -/
def transition (pin : Pin) (e : Edge) (move : Pins → Pins) (s : State) : State :=
  { s with
    pins := move s.pins
    trace := heard .after pin e s (heard .before pin e s s.trace) }

/-- The engine drives an output pin (R40, R42, R43). -/
def driveOutput (pin : OutputPin) (l : Level) (s : State) : Edge × State :=
  let e := edgeTo (s.pins.output pin) l
  (e, transition pin.surface e (·.withOutput l pin) s)

/-- One cycle's marks (R75): the count and the two latches. The event follows from the pins. -/
def State.tick (s : State) (a : Word) (v : Byte) : State :=
  { s with cycles := s.cycles + 1, addr := a, data := v }

/-- A bus cycle (R43): the pin of its kind falls, the byte passes, the pin rises. -/
def busCycle (pin : OutputPin) (transfer : State → State) (s : State) : State :=
  let s := (driveOutput pin .lowered s).2
  let s := transfer s
  (driveOutput pin .raised s).2

/-- The state after a read cycle in region `r` (R76): `RD` is lowered during the cycle. -/
def readCycle (r : Region) (a : Word) (s : State) : State :=
  busCycle .rd (fun s =>
    { s.tick a (busByte r a s) with freeIndex := if r.access = .writeOnly then s.freeIndex + 1 else s.freeIndex }) s

/-- `MemRead(addr, 1)` (R76). -/
def memRead (a : Word) (s : State) : Except Fault (Byte × State) :=
  match s.regionAt a with
  | none => .error (.busContractViolation a)
  | some r => .ok (busByte r a s, readCycle r a s)

/-- The state after a write cycle in region `r` (R77): `WR` is lowered during the cycle; a read-only store keeps its contents
(R81). -/
def writeCycle (r : Region) (a : Word) (v : Byte) (s : State) : State :=
  busCycle .wr (fun s =>
    { s.tick a v with mem := if r.access = .readOnly then s.mem else s.mem.write a.toNat v }) s

/-- `MemWrite(addr, 1, v)` (R77). -/
def memWrite (a : Word) (v : Byte) (s : State) : Except Fault State :=
  match s.regionAt a with
  | none => .error (.busContractViolation a)
  | some r => .ok (writeCycle r a v s)

/-- A read whose byte is discarded (R83). -/
def dummyRead (a : Word) (s : State) : Except Fault State := do
  let (_, s) ← memRead a s
  return s

/-- `FetchByte()` (R141). -/
def fetchByte (s : State) : Except Fault (Byte × State) := do
  let (v, s) ← memRead s.pc s
  return (v, { s with pc := s.pc + 1 })

/-- A bus sequence as an outcome. -/
def conclude : Except Fault State → Out
  | .ok s => .next s
  | .error f => .fault f

/-! ### Stack (R22, R163 to R165) -/

/-- `{0x01, S}` (R22). -/
def State.stackAddr (s : State) : Word := wordOf 0x01 s.sp

/-- `Push(v)` (R163). -/
def push (v : Byte) (s : State) : Except Fault State := do
  let s ← memWrite s.stackAddr v s
  return { s with sp := s.sp - 1 }

/-- `Pull()` (R164), after the dummy read that a sequence of pulls shares. -/
def pull (s : State) : Except Fault (Byte × State) :=
  memRead ({ s with sp := s.sp + 1 }).stackAddr { s with sp := s.sp + 1 }

/-- `DummyPush()` (R165). -/
def dummyPush (s : State) : Except Fault State := do
  let s ← dummyRead s.stackAddr s
  return { s with sp := s.sp - 1 }

/-! ### Entry sequences and return (60_exceptions.md R410 to R416, R420) -/

/-- The four events that enter a handler (R401). -/
inductive Entry where
  | reset
  | nmi
  | irq
  | brk
  deriving DecidableEq, Repr

/-- Where an entry's vector lies (R401). -/
def vectorOf (prof : Profile) : Entry → Word
  | .reset => prof.vecReset
  | .nmi => prof.vecNmi
  | .irq => prof.vecIrq
  | .brk => prof.vecIrq

/-- The status byte an entry pushes: the layout's constants, with `B` set by BRK and clear by the hardware (R31, R411, R295). -/
def pushedStatus (prof : Profile) (e : Entry) (p : Byte) : Byte := withBits (copyMask prof) (e == .brk) (statusFrom prof p)

/-- One of cycles 3 to 5: RESET replaces the push by a read (R410). -/
def entryPush (e : Entry) (v : Byte) (s : State) : Except Fault State :=
  match e with
  | .reset => dummyPush s
  | _ => push v s

/-- The flags byte after entry: `D` cleared where the profile says so (R373), which NMOS6502 does not (R30); the mask flag, where
that is the profile's gate, set (R415, C4). -/
def entryStatus (prof : Profile) (p : Byte) : Byte :=
  let p := if prof.entryClearsDecimal then withFlag .d false p else p
  match prof.interruptGate with
  | .flag => withBits (interruptMaskBit prof) true p
  | .iff1 => p
  | .inte => p

/-- The interrupt-enable flip-flops after entry: the one that is the profile's gate, if any, cleared (C4). -/
def entryFlipFlops (prof : Profile) (o : OtherRegisters) : OtherRegisters :=
  match prof.interruptGate with
  | .flag => o
  | .iff1 => { o with iff1 := false }
  | .inte => { o with inte := false }

/-- The byte that an entry pushes in one of its stack cycles. -/
def pushedByte (prof : Profile) (e : Entry) (s : State) : Pushed → Byte
  | .pcHigh => hi s.pc
  | .pcLow => lo s.pc
  | .status => pushedStatus prof e s.p
  | .register name high =>
    let w := s.register name ((prof.registers.lookup name).getD prof.dataWidth)
    if high then hi w else lo w

/-- The stack cycles of an entry, in the profile's push order (R371); RESET has none in a profile whose reset touches no stack
(R379, C5). -/
def stackCycles (prof : Profile) (e : Entry) : List Pushed :=
  if e = .reset ∧ prof.resetDummyPushes = false then [] else prof.pushOrder

/-- The stack cycles of a list, in its order. -/
def entryPushes (prof : Profile) (e : Entry) : List Pushed → State → Except Fault State
  | [], s => return s
  | x :: l, s => do
    let s ← entryPush e (pushedByte prof e s x) s
    entryPushes prof e l s

/-- TAKING AN EVENT, cycles 2 to 7, one sequence for all four (R413): the dummy read, which only BRK follows with an
increment of `PC`; the stack cycles; the two vector reads. Cycle 1 is the opcode fetch of the step. -/
def enter (e : Entry) (s : State) : Except Fault State := do
  let prof := s.profile
  let s ← dummyRead s.pc s
  let s := if e = .brk then { s with pc := s.pc + 1 } else s
  let s ← entryPushes prof e (stackCycles prof e) s
  let (first, s) ← memRead (vectorOf prof e) s
  let s := { s with p := entryStatus prof s.p, other := entryFlipFlops prof s.other }
  let (second, s) ← memRead (vectorOf prof e + 1) s
  return { s with pc := joinWord prof.byteOrder first second }

/-- RETURNING FROM AN EVENT, cycles 2 to 6 of RTI (R294, R420): bits 5 and 4 of the pulled status are ignored and nothing
is added to the pulled address. -/
def returnFromEvent (s : State) : Except Fault State := do
  let order := s.profile.byteOrder
  let s ← dummyRead s.pc s
  let s ← dummyRead s.stackAddr s
  let (p, s) ← pull s
  let s := { s with p := statusFrom s.profile p }
  let (first, s) ← pull s
  let (second, s) ← pull s
  return { s with pc := joinWord order first second }

end Sys2Proof.Machine
end

