-- ==== Sys2Proof/Machine/Operands.lean ====
section
/-! DEFINITION. The addressing-mode resolver (40_addressing_modes.md) and the three access kinds (R144). The operand bytes
are those the fetch delivered; the cycles here are the ones that follow it. -/

namespace Sys2Proof.Machine

open Config

/-- The memory operand forms (30_encoding.md R113) with their operand, and for the forms whose index can cross a page the
instruction's fixup policy (R152). -/
inductive Mem where
  | zp (b : Byte)
  | zpx (b : Byte)
  | zpy (b : Byte)
  | abs (w : Word)
  | abx (f : Fixup) (w : Word)
  | aby (f : Fixup) (w : Word)
  | izx (b : Byte)
  | izy (f : Fixup) (b : Byte)
  deriving DecidableEq, Repr

/-- `unc` (R149): the low byte added, the high byte not yet. -/
def uncorrected (base : Word) (i : Byte) : Word := wordOf (hi base) (lo base + i)

/-- `cor` (R149). -/
def corrected (base : Word) (i : Byte) : Word := base + zext i

/-- `crossed` (R149): the index carries into the high byte. -/
def crosses (base : Word) (i : Byte) : Bool := decide ((lo base).toNat + i.toNat > 255)

/-- The fixup policy of an opcode in the state's profile (R152). -/
def State.fixup (s : State) (op : Byte) : Fixup := s.profile.fixupBehavior op

/-- Whether the read at the uncorrected address happens (R149, R152). -/
def fixupHappens (f : Fixup) (base : Word) (i : Byte) : Bool := f == .always || (f == .onCross && crosses base i)

/-- The fixup read (R149): at the uncorrected address, always or only on a crossing (R152). -/
def fixupRead (f : Fixup) (base : Word) (i : Byte) (s : State) : Except Fault State :=
  if fixupHappens f base i then dummyRead (uncorrected base i) s else return s

/-- The page-crossing rule (R149, R150, R155): the fixup read, then the corrected address, which the kind's tail accesses.
Where nothing crosses the two are one address, and an `onCross` read is the tail's own. -/
def indexed (f : Fixup) (base : Word) (i : Byte) (s : State) : Except Fault (Word × State) := do
  let s ← fixupRead f base i s
  return (corrected base i, s)

/-- The pointer in page 0 at `p` and `p + 1` modulo 256 (R154, R155). -/
def zeroPagePointer (p : Byte) (s : State) : Except Fault (Word × State) := do
  let order := s.profile.byteOrder
  let (first, s) ← memRead (zext p) s
  let (second, s) ← memRead (zext (p + 1)) s
  return (joinWord order first second, s)

/-- The effective address with the cycles that compute it (R145 to R155). -/
def effectiveAddress : Mem → State → Except Fault (Word × State)
  | .zp b, s => return (zext b, s)
  | .zpx b, s => do
    let s ← dummyRead (zext b) s
    return (zext (b + s.x), s)
  | .zpy b, s => do
    let s ← dummyRead (zext b) s
    return (zext (b + s.y), s)
  | .abs w, s => return (w, s)
  | .abx f w, s => indexed f w s.x s
  | .aby f w, s => indexed f w s.y s
  | .izx b, s => do
    let s ← dummyRead (zext b) s
    zeroPagePointer (b + s.x) s
  | .izy f b, s => do
    let (base, s) ← zeroPagePointer b s
    indexed f base s.y s

/-- Read kind (R144): the operand byte. -/
def readOperand (o : Mem) (s : State) : Except Fault (Byte × State) := do
  let (ea, s) ← effectiveAddress o s
  memRead ea s

/-- Write kind (R144). -/
def writeOperand (o : Mem) (v : Byte) (s : State) : Except Fault State := do
  let (ea, s) ← effectiveAddress o s
  memWrite ea v s

/-- The second access of a read-modify-write (R144, R373). -/
def secondAccess (order : ModifyWriteOrder) (ea : Word) (m : Byte) (s : State) : Except Fault State :=
  match order with
  | .writeOldValue => memWrite ea m s
  | .readAgain => dummyRead ea s

/-- Read-modify-write kind (R144): `f` gives, from the byte read and the state, the byte to write and the state with the
instruction's register and flag writes. -/
def modifyOperand (o : Mem) (f : Byte → State → Byte × State) (s : State) : Except Fault State := do
  let order := s.profile.modifyWriteOrder
  let (ea, s) ← effectiveAddress o s
  let (m, s) ← memRead ea s
  let s ← secondAccess order ea m s
  let (v, s) := f m s
  memWrite ea v s

/-- Cycles that a profile adds where the spec leaves their address OPEN (R373): dummy reads. -/
def spareReads : Nat → State → Except Fault State
  | 0, s => return s
  | n + 1, s => do
    let s ← dummyRead (openCycleAddress s.pc) s
    spareReads n s

/-- How many cycles decimal arithmetic adds in the state's profile (R190 `extra_cycle`). -/
def decimalCycles (s : State) : Nat :=
  if s.profile.decimal.extraCycle && decimalOn s.profile.decimal s.p then 1 else 0

/-! ### What a family of instructions does with its operand -/

/-- A read-kind instruction: `f` consumes the operand byte. -/
def reading (f : Byte → State → State) (o : Mem) (s : State) : Out :=
  conclude do
    let (m, s) ← readOperand o s
    return f m s

/-- ADC and SBC on an operand in memory: a read kind, with the cycles that decimal arithmetic adds (R190). -/
def calculating (f : Byte → State → State) (o : Mem) (s : State) : Out :=
  conclude do
    let (m, s) ← readOperand o s
    let s ← spareReads (decimalCycles s) s
    return f m s

/-- ADC and SBC on an immediate operand (R143, R190). -/
def calculatingImm (f : Byte → State → State) (m : Byte) (s : State) : Out :=
  conclude do
    let s ← spareReads (decimalCycles s) s
    return f m s

/-- A write-kind instruction that stores `v`. -/
def storing (v : Byte) (o : Mem) (s : State) : Out := conclude (writeOperand o v s)

/-- A read-modify-write instruction. -/
def modifying (f : Byte → State → Byte × State) (o : Mem) (s : State) : Out := conclude (modifyOperand o f s)

/-- An implied or accumulator instruction (R142): the dummy read of the byte after the opcode, then `f`. -/
def implied (f : State → State) (s : State) : Out :=
  conclude do
    let s ← dummyRead s.pc s
    return f s

/-- Where the high byte of the pointer of `JMP (ind)` is read (R157): in the pointer's own page, or at the next address. -/
def pointerHighAddr (wraps : Bool) (ptr : Word) : Word :=
  if wraps then wordOf (hi ptr) (lo ptr + 1) else ptr + 1

/-- The target of a branch (R156): a signed displacement from the next instruction's address. -/
def branchTarget (pc : Word) (d : Byte) : Word := pc + sext d

end Sys2Proof.Machine
end

