-- ==== Sys2Proof/Machine/Arith.lean ====
section
/-! DEFINITION. Arithmetic, compare, register increment and decrement (44_arith_logic.md R260, R261, R265 to R267, R269 to R272). -/

namespace Sys2Proof.Machine

open Config

/-- ADC on the operand byte (R260): decimal where `P.D` is set. -/
def addToA (m : Byte) (s : State) : State :=
  let r := addWithCarry s.profile s.a m s.p
  { s with a := r.value, p := r.p }

/-- SBC on the operand byte (R261): decimal where `P.D` is set. -/
def subFromA (m : Byte) (s : State) : State :=
  let r := subWithCarry s.profile s.a m s.p
  { s with a := r.value, p := r.p }

/-- CMP on the operand byte (R265). -/
def compareA (m : Byte) (s : State) : State := { s with p := cmpFlags s.a m s.p }

/-- CPX on the operand byte (R266). -/
def compareX (m : Byte) (s : State) : State := { s with p := cmpFlags s.x m s.p }

/-- CPY on the operand byte (R267). -/
def compareY (m : Byte) (s : State) : State := { s with p := cmpFlags s.y m s.p }

/-- `61`, ADC (zp,X) (R260, R154). -/
def execAdcIzx (b : Byte) (s : State) : Out := calculating addToA (.izx b) s

/-- `65`, ADC zp (R260, R145). -/
def execAdcZp (b : Byte) (s : State) : Out := calculating addToA (.zp b) s

/-- `69`, ADC #imm (R260, R143). -/
def execAdcImm (m : Byte) (s : State) : Out := calculatingImm addToA m s

/-- `6D`, ADC abs (R260, R148). -/
def execAdcAbs (w : Word) (s : State) : Out := calculating addToA (.abs w) s

/-- `71`, ADC (zp),Y (R260, R155). -/
def execAdcIzy (b : Byte) (s : State) : Out := calculating addToA (.izy (s.fixup 0x71) b) s

/-- `75`, ADC zp,X (R260, R146). -/
def execAdcZpx (b : Byte) (s : State) : Out := calculating addToA (.zpx b) s

/-- `79`, ADC abs,Y (R260, R151). -/
def execAdcAby (w : Word) (s : State) : Out := calculating addToA (.aby (s.fixup 0x79) w) s

/-- `7D`, ADC abs,X (R260, R150). -/
def execAdcAbx (w : Word) (s : State) : Out := calculating addToA (.abx (s.fixup 0x7D) w) s

/-- `E1`, SBC (zp,X) (R261, R154). -/
def execSbcIzx (b : Byte) (s : State) : Out := calculating subFromA (.izx b) s

/-- `E5`, SBC zp (R261, R145). -/
def execSbcZp (b : Byte) (s : State) : Out := calculating subFromA (.zp b) s

/-- `E9`, SBC #imm (R261, R143). -/
def execSbcImm (m : Byte) (s : State) : Out := calculatingImm subFromA m s

/-- `ED`, SBC abs (R261, R148). -/
def execSbcAbs (w : Word) (s : State) : Out := calculating subFromA (.abs w) s

/-- `F1`, SBC (zp),Y (R261, R155). -/
def execSbcIzy (b : Byte) (s : State) : Out := calculating subFromA (.izy (s.fixup 0xF1) b) s

/-- `F5`, SBC zp,X (R261, R146). -/
def execSbcZpx (b : Byte) (s : State) : Out := calculating subFromA (.zpx b) s

/-- `F9`, SBC abs,Y (R261, R151). -/
def execSbcAby (w : Word) (s : State) : Out := calculating subFromA (.aby (s.fixup 0xF9) w) s

/-- `FD`, SBC abs,X (R261, R150). -/
def execSbcAbx (w : Word) (s : State) : Out := calculating subFromA (.abx (s.fixup 0xFD) w) s

/-- `C1`, CMP (zp,X) (R265, R154). -/
def execCmpIzx (b : Byte) (s : State) : Out := reading compareA (.izx b) s

/-- `C5`, CMP zp (R265, R145). -/
def execCmpZp (b : Byte) (s : State) : Out := reading compareA (.zp b) s

/-- `C9`, CMP #imm (R265, R143). -/
def execCmpImm (m : Byte) (s : State) : Out := .next (compareA m s)

/-- `CD`, CMP abs (R265, R148). -/
def execCmpAbs (w : Word) (s : State) : Out := reading compareA (.abs w) s

/-- `D1`, CMP (zp),Y (R265, R155). -/
def execCmpIzy (b : Byte) (s : State) : Out := reading compareA (.izy (s.fixup 0xD1) b) s

/-- `D5`, CMP zp,X (R265, R146). -/
def execCmpZpx (b : Byte) (s : State) : Out := reading compareA (.zpx b) s

/-- `D9`, CMP abs,Y (R265, R151). -/
def execCmpAby (w : Word) (s : State) : Out := reading compareA (.aby (s.fixup 0xD9) w) s

/-- `DD`, CMP abs,X (R265, R150). -/
def execCmpAbx (w : Word) (s : State) : Out := reading compareA (.abx (s.fixup 0xDD) w) s

/-- `E0`, CPX #imm (R266, R143). -/
def execCpxImm (m : Byte) (s : State) : Out := .next (compareX m s)

/-- `E4`, CPX zp (R266, R145). -/
def execCpxZp (b : Byte) (s : State) : Out := reading compareX (.zp b) s

/-- `EC`, CPX abs (R266, R148). -/
def execCpxAbs (w : Word) (s : State) : Out := reading compareX (.abs w) s

/-- `C0`, CPY #imm (R267, R143). -/
def execCpyImm (m : Byte) (s : State) : Out := .next (compareY m s)

/-- `C4`, CPY zp (R267, R145). -/
def execCpyZp (b : Byte) (s : State) : Out := reading compareY (.zp b) s

/-- `CC`, CPY abs (R267, R148). -/
def execCpyAbs (w : Word) (s : State) : Out := reading compareY (.abs w) s

/-- `E8`, INX (R269, R142). -/
def execInx (s : State) : Out := implied (fun s => { s with x := (inc s.x s.p).value, p := (inc s.x s.p).p }) s

/-- `C8`, INY (R270, R142). -/
def execIny (s : State) : Out := implied (fun s => { s with y := (inc s.y s.p).value, p := (inc s.y s.p).p }) s

/-- `CA`, DEX (R271, R142). -/
def execDex (s : State) : Out := implied (fun s => { s with x := (dec s.x s.p).value, p := (dec s.x s.p).p }) s

/-- `88`, DEY (R272, R142). -/
def execDey (s : State) : Out := implied (fun s => { s with y := (dec s.y s.p).value, p := (dec s.y s.p).p }) s

end Sys2Proof.Machine
end

