-- ==== Sys2Proof/Machine/Control.lean ====
section
/-! DEFINITION. Control transfer (46_control_flow.md R290 to R303). -/

namespace Sys2Proof.Machine

open Config

/-- The cycles of a branch after its operand fetch (R290): none if not taken; a dummy read at the next instruction; one
more at the uncorrected target if the high byte changes. -/
def branch (taken : Bool) (d : Byte) (s : State) : Out :=
  let target := branchTarget s.pc d
  conclude (
    if taken then do
      let t ← dummyRead s.pc s
      if hi target == hi s.pc then return { t with pc := target }
      else do
        let t ← dummyRead (wordOf (hi s.pc) (lo target)) t
        return { t with pc := target }
    else return s)

/-- `90`, BCC (R296). -/
def execBcc (d : Byte) (s : State) : Out := branch (!flag .c s.p) d s

/-- `B0`, BCS (R297). -/
def execBcs (d : Byte) (s : State) : Out := branch (flag .c s.p) d s

/-- `F0`, BEQ (R298). -/
def execBeq (d : Byte) (s : State) : Out := branch (flag .z s.p) d s

/-- `D0`, BNE (R299). -/
def execBne (d : Byte) (s : State) : Out := branch (!flag .z s.p) d s

/-- `30`, BMI (R300). -/
def execBmi (d : Byte) (s : State) : Out := branch (flag .n s.p) d s

/-- `10`, BPL (R301). -/
def execBpl (d : Byte) (s : State) : Out := branch (!flag .n s.p) d s

/-- `50`, BVC (R302). -/
def execBvc (d : Byte) (s : State) : Out := branch (!flag .v s.p) d s

/-- `70`, BVS (R303). -/
def execBvs (d : Byte) (s : State) : Out := branch (flag .v s.p) d s

/-- `4C`, JMP abs (R291): its three cycles are the fetch. -/
def execJmpAbs (w : Word) (s : State) : Out := .next { s with pc := w }

/-- `6C`, JMP (ind) (R291, R157): the profile says whether the pointer wraps in its page, and how many cycles there are beyond
five (R373). -/
def execJmpInd (w : Word) (s : State) : Out :=
  conclude do
    let prof := s.profile
    let (first, s) ← memRead w s
    let (second, s) ← memRead (pointerHighAddr prof.indirectWrapsInPage w) s
    let s ← spareReads (prof.indirectJumpCycles - 5) s
    return { s with pc := joinWord prof.byteOrder first second }

/-- `20`, JSR abs (R292), cycles 3 to 6: `PC` is at the third byte, whose address is pushed, and that byte is read after
the pushes; what it then holds is the second byte of the target, the high byte in little-endian order (R84). -/
def execJsrAbs (w : Word) (s : State) : Out :=
  conclude do
    let order := s.profile.byteOrder
    let s ← dummyRead s.stackAddr s
    let s ← push (secondByte order s.pc) s
    let s ← push (firstByte order s.pc) s
    let (second, s) ← memRead s.pc s
    return { s with pc := joinWord order (firstByte order w) second }

/-- `60`, RTS (R293): adds one to the pulled address. -/
def execRts (s : State) : Out :=
  conclude do
    let order := s.profile.byteOrder
    let s ← dummyRead s.pc s
    let s ← dummyRead s.stackAddr s
    let (first, s) ← pull s
    let (second, s) ← pull s
    let target := joinWord order first second
    let s ← dummyRead target { s with pc := target }
    return { s with pc := s.pc + 1 }

/-- `40`, RTI (R294). -/
def execRti (s : State) : Out := conclude (returnFromEvent s)

/-- `00`, BRK (R295): the entry sequence, from its second cycle on. -/
def execBrk (s : State) : Out := conclude (enter .brk s)

end Sys2Proof.Machine
end

