-- ==== Sys2Proof/Machine/Load.lean ====
section
/-! DEFINITION. Loads (43_load_store_transfer.md R240 to R242). -/

namespace Sys2Proof.Machine

open Config

/-- `A <- SetZN(m)` (R240). -/
def loadA (m : Byte) (s : State) : State := { s with a := m, p := setZN m s.p }

/-- `X <- SetZN(m)` (R241). -/
def loadX (m : Byte) (s : State) : State := { s with x := m, p := setZN m s.p }

/-- `Y <- SetZN(m)` (R242). -/
def loadY (m : Byte) (s : State) : State := { s with y := m, p := setZN m s.p }

/-- `A1`, LDA (zp,X) (R240, R154). -/
def execLdaIzx (b : Byte) (s : State) : Out := reading loadA (.izx b) s

/-- `A5`, LDA zp (R240, R145). -/
def execLdaZp (b : Byte) (s : State) : Out := reading loadA (.zp b) s

/-- `A9`, LDA #imm (R240, R143). -/
def execLdaImm (m : Byte) (s : State) : Out := .next (loadA m s)

/-- `AD`, LDA abs (R240, R148). -/
def execLdaAbs (w : Word) (s : State) : Out := reading loadA (.abs w) s

/-- `B1`, LDA (zp),Y (R240, R155). -/
def execLdaIzy (b : Byte) (s : State) : Out := reading loadA (.izy (s.fixup 0xB1) b) s

/-- `B5`, LDA zp,X (R240, R146). -/
def execLdaZpx (b : Byte) (s : State) : Out := reading loadA (.zpx b) s

/-- `B9`, LDA abs,Y (R240, R151). -/
def execLdaAby (w : Word) (s : State) : Out := reading loadA (.aby (s.fixup 0xB9) w) s

/-- `BD`, LDA abs,X (R240, R150). -/
def execLdaAbx (w : Word) (s : State) : Out := reading loadA (.abx (s.fixup 0xBD) w) s

/-- `A2`, LDX #imm (R241, R143). -/
def execLdxImm (m : Byte) (s : State) : Out := .next (loadX m s)

/-- `A6`, LDX zp (R241, R145). -/
def execLdxZp (b : Byte) (s : State) : Out := reading loadX (.zp b) s

/-- `AE`, LDX abs (R241, R148). -/
def execLdxAbs (w : Word) (s : State) : Out := reading loadX (.abs w) s

/-- `B6`, LDX zp,Y (R241, R147). -/
def execLdxZpy (b : Byte) (s : State) : Out := reading loadX (.zpy b) s

/-- `BE`, LDX abs,Y (R241, R151). -/
def execLdxAby (w : Word) (s : State) : Out := reading loadX (.aby (s.fixup 0xBE) w) s

/-- `A0`, LDY #imm (R242, R143). -/
def execLdyImm (m : Byte) (s : State) : Out := .next (loadY m s)

/-- `A4`, LDY zp (R242, R145). -/
def execLdyZp (b : Byte) (s : State) : Out := reading loadY (.zp b) s

/-- `AC`, LDY abs (R242, R148). -/
def execLdyAbs (w : Word) (s : State) : Out := reading loadY (.abs w) s

/-- `B4`, LDY zp,X (R242, R146). -/
def execLdyZpx (b : Byte) (s : State) : Out := reading loadY (.zpx b) s

/-- `BC`, LDY abs,X (R242, R150). -/
def execLdyAbx (w : Word) (s : State) : Out := reading loadY (.abx (s.fixup 0xBC) w) s

end Sys2Proof.Machine
end

