-- ==== Sys2Proof/Machine/Logic.lean ====
section
/-! DEFINITION. Logical operations and bit test (44_arith_logic.md R262 to R264, R268). -/

namespace Sys2Proof.Machine

open Config

/-- AND on the operand byte (R262). -/
def andToA (m : Byte) (s : State) : State :=
  let r := andWith s.a m s.p
  { s with a := r.value, p := r.p }

/-- ORA on the operand byte (R263). -/
def orToA (m : Byte) (s : State) : State :=
  let r := orWith s.a m s.p
  { s with a := r.value, p := r.p }

/-- EOR on the operand byte (R264). -/
def xorToA (m : Byte) (s : State) : State :=
  let r := xorWith s.a m s.p
  { s with a := r.value, p := r.p }

/-- BIT on the operand byte (R268). -/
def testBits (m : Byte) (s : State) : State := { s with p := bitFlags s.a m s.p }

/-- `21`, AND (zp,X) (R262, R154). -/
def execAndIzx (b : Byte) (s : State) : Out := reading andToA (.izx b) s

/-- `25`, AND zp (R262, R145). -/
def execAndZp (b : Byte) (s : State) : Out := reading andToA (.zp b) s

/-- `29`, AND #imm (R262, R143). -/
def execAndImm (m : Byte) (s : State) : Out := .next (andToA m s)

/-- `2D`, AND abs (R262, R148). -/
def execAndAbs (w : Word) (s : State) : Out := reading andToA (.abs w) s

/-- `31`, AND (zp),Y (R262, R155). -/
def execAndIzy (b : Byte) (s : State) : Out := reading andToA (.izy (s.fixup 0x31) b) s

/-- `35`, AND zp,X (R262, R146). -/
def execAndZpx (b : Byte) (s : State) : Out := reading andToA (.zpx b) s

/-- `39`, AND abs,Y (R262, R151). -/
def execAndAby (w : Word) (s : State) : Out := reading andToA (.aby (s.fixup 0x39) w) s

/-- `3D`, AND abs,X (R262, R150). -/
def execAndAbx (w : Word) (s : State) : Out := reading andToA (.abx (s.fixup 0x3D) w) s

/-- `01`, ORA (zp,X) (R263, R154). -/
def execOraIzx (b : Byte) (s : State) : Out := reading orToA (.izx b) s

/-- `05`, ORA zp (R263, R145). -/
def execOraZp (b : Byte) (s : State) : Out := reading orToA (.zp b) s

/-- `09`, ORA #imm (R263, R143). -/
def execOraImm (m : Byte) (s : State) : Out := .next (orToA m s)

/-- `0D`, ORA abs (R263, R148). -/
def execOraAbs (w : Word) (s : State) : Out := reading orToA (.abs w) s

/-- `11`, ORA (zp),Y (R263, R155). -/
def execOraIzy (b : Byte) (s : State) : Out := reading orToA (.izy (s.fixup 0x11) b) s

/-- `15`, ORA zp,X (R263, R146). -/
def execOraZpx (b : Byte) (s : State) : Out := reading orToA (.zpx b) s

/-- `19`, ORA abs,Y (R263, R151). -/
def execOraAby (w : Word) (s : State) : Out := reading orToA (.aby (s.fixup 0x19) w) s

/-- `1D`, ORA abs,X (R263, R150). -/
def execOraAbx (w : Word) (s : State) : Out := reading orToA (.abx (s.fixup 0x1D) w) s

/-- `41`, EOR (zp,X) (R264, R154). -/
def execEorIzx (b : Byte) (s : State) : Out := reading xorToA (.izx b) s

/-- `45`, EOR zp (R264, R145). -/
def execEorZp (b : Byte) (s : State) : Out := reading xorToA (.zp b) s

/-- `49`, EOR #imm (R264, R143). -/
def execEorImm (m : Byte) (s : State) : Out := .next (xorToA m s)

/-- `4D`, EOR abs (R264, R148). -/
def execEorAbs (w : Word) (s : State) : Out := reading xorToA (.abs w) s

/-- `51`, EOR (zp),Y (R264, R155). -/
def execEorIzy (b : Byte) (s : State) : Out := reading xorToA (.izy (s.fixup 0x51) b) s

/-- `55`, EOR zp,X (R264, R146). -/
def execEorZpx (b : Byte) (s : State) : Out := reading xorToA (.zpx b) s

/-- `59`, EOR abs,Y (R264, R151). -/
def execEorAby (w : Word) (s : State) : Out := reading xorToA (.aby (s.fixup 0x59) w) s

/-- `5D`, EOR abs,X (R264, R150). -/
def execEorAbx (w : Word) (s : State) : Out := reading xorToA (.abx (s.fixup 0x5D) w) s

/-- `24`, BIT zp (R268, R145). -/
def execBitZp (b : Byte) (s : State) : Out := reading testBits (.zp b) s

/-- `2C`, BIT abs (R268, R148). -/
def execBitAbs (w : Word) (s : State) : Out := reading testBits (.abs w) s

end Sys2Proof.Machine
end

