-- ==== Sys2Proof/Machine/Shift.lean ====
section
/-! DEFINITION. Shifts, rotates, memory increment and decrement (45_shift_rmw.md R280 to R285). -/

namespace Sys2Proof.Machine

open Config

/-- A primitive as the middle of a read-modify-write: its result is the byte to write, its flags go to `P`. -/
def onMemory (f : Byte → Byte → Alu) (m : Byte) (s : State) : Byte × State :=
  ((f m s.p).value, { s with p := (f m s.p).p })

/-- A primitive on the accumulator: `A <- f(A)`. -/
def onA (f : Byte → Byte → Alu) (s : State) : State := { s with a := (f s.a s.p).value, p := (f s.a s.p).p }

/-- `06`, ASL zp (R280, R145). -/
def execAslZp (b : Byte) (s : State) : Out := modifying (onMemory asl) (.zp b) s

/-- `0A`, ASL A (R280, R142). -/
def execAslAcc (s : State) : Out := implied (onA asl) s

/-- `0E`, ASL abs (R280, R148). -/
def execAslAbs (w : Word) (s : State) : Out := modifying (onMemory asl) (.abs w) s

/-- `16`, ASL zp,X (R280, R146). -/
def execAslZpx (b : Byte) (s : State) : Out := modifying (onMemory asl) (.zpx b) s

/-- `1E`, ASL abs,X (R280, R150). -/
def execAslAbx (w : Word) (s : State) : Out := modifying (onMemory asl) (.abx (s.fixup 0x1E) w) s

/-- `46`, LSR zp (R281, R145). -/
def execLsrZp (b : Byte) (s : State) : Out := modifying (onMemory lsr) (.zp b) s

/-- `4A`, LSR A (R281, R142). -/
def execLsrAcc (s : State) : Out := implied (onA lsr) s

/-- `4E`, LSR abs (R281, R148). -/
def execLsrAbs (w : Word) (s : State) : Out := modifying (onMemory lsr) (.abs w) s

/-- `56`, LSR zp,X (R281, R146). -/
def execLsrZpx (b : Byte) (s : State) : Out := modifying (onMemory lsr) (.zpx b) s

/-- `5E`, LSR abs,X (R281, R150). -/
def execLsrAbx (w : Word) (s : State) : Out := modifying (onMemory lsr) (.abx (s.fixup 0x5E) w) s

/-- `26`, ROL zp (R282, R145). -/
def execRolZp (b : Byte) (s : State) : Out := modifying (onMemory rol) (.zp b) s

/-- `2A`, ROL A (R282, R142). -/
def execRolAcc (s : State) : Out := implied (onA rol) s

/-- `2E`, ROL abs (R282, R148). -/
def execRolAbs (w : Word) (s : State) : Out := modifying (onMemory rol) (.abs w) s

/-- `36`, ROL zp,X (R282, R146). -/
def execRolZpx (b : Byte) (s : State) : Out := modifying (onMemory rol) (.zpx b) s

/-- `3E`, ROL abs,X (R282, R150). -/
def execRolAbx (w : Word) (s : State) : Out := modifying (onMemory rol) (.abx (s.fixup 0x3E) w) s

/-- `66`, ROR zp (R283, R145). -/
def execRorZp (b : Byte) (s : State) : Out := modifying (onMemory ror) (.zp b) s

/-- `6A`, ROR A (R283, R142). -/
def execRorAcc (s : State) : Out := implied (onA ror) s

/-- `6E`, ROR abs (R283, R148). -/
def execRorAbs (w : Word) (s : State) : Out := modifying (onMemory ror) (.abs w) s

/-- `76`, ROR zp,X (R283, R146). -/
def execRorZpx (b : Byte) (s : State) : Out := modifying (onMemory ror) (.zpx b) s

/-- `7E`, ROR abs,X (R283, R150). -/
def execRorAbx (w : Word) (s : State) : Out := modifying (onMemory ror) (.abx (s.fixup 0x7E) w) s

/-- `E6`, INC zp (R284, R145). -/
def execIncZp (b : Byte) (s : State) : Out := modifying (onMemory inc) (.zp b) s

/-- `EE`, INC abs (R284, R148). -/
def execIncAbs (w : Word) (s : State) : Out := modifying (onMemory inc) (.abs w) s

/-- `F6`, INC zp,X (R284, R146). -/
def execIncZpx (b : Byte) (s : State) : Out := modifying (onMemory inc) (.zpx b) s

/-- `FE`, INC abs,X (R284, R150). -/
def execIncAbx (w : Word) (s : State) : Out := modifying (onMemory inc) (.abx (s.fixup 0xFE) w) s

/-- `C6`, DEC zp (R285, R145). -/
def execDecZp (b : Byte) (s : State) : Out := modifying (onMemory dec) (.zp b) s

/-- `CE`, DEC abs (R285, R148). -/
def execDecAbs (w : Word) (s : State) : Out := modifying (onMemory dec) (.abs w) s

/-- `D6`, DEC zp,X (R285, R146). -/
def execDecZpx (b : Byte) (s : State) : Out := modifying (onMemory dec) (.zpx b) s

/-- `DE`, DEC abs,X (R285, R150). -/
def execDecAbx (w : Word) (s : State) : Out := modifying (onMemory dec) (.abx (s.fixup 0xDE) w) s

end Sys2Proof.Machine
end

