-- ==== Sys2Proof/Machine/Stack.lean ====
section
/-! DEFINITION. Stack, flag and no-operation instructions (47_stack_flag_nop.md R310 to R321). -/

namespace Sys2Proof.Machine

open Config

/-- A push instruction (R310): the dummy read of the next byte, then the push. -/
def pushing (v : Byte) (s : State) : Out :=
  conclude do
    let s ← dummyRead s.pc s
    push v s

/-- A pull instruction (R312): two dummy reads, then the pull. -/
def pulling (f : Byte → State → State) (s : State) : Out :=
  conclude do
    let s ← dummyRead s.pc s
    let s ← dummyRead s.stackAddr s
    let (v, s) ← pull s
    return f v s

/-- A flag instruction: it writes one flag (R314 to R320). -/
def setting (f : Flag) (v : Bool) (s : State) : Out := implied (fun s => { s with p := withFlag f v s.p }) s

/-- `48`, PHA (R310, R142). -/
def execPha (s : State) : Out := pushing s.a s

/-- `08`, PHP (R311, R142, R31). -/
def execPhp (s : State) : Out := pushing (statusWithBreak s.p) s

/-- `68`, PLA (R312, R142). -/
def execPla (s : State) : Out := pulling loadA s

/-- `28`, PLP (R313, R142, R31). -/
def execPlp (s : State) : Out := pulling (fun v s => { s with p := statusFrom s.profile v }) s

/-- `18`, CLC (R314, R142). -/
def execClc (s : State) : Out := setting .c false s

/-- `38`, SEC (R315, R142). -/
def execSec (s : State) : Out := setting .c true s

/-- `58`, CLI (R316, R142). -/
def execCli (s : State) : Out := setting .i false s

/-- `78`, SEI (R317, R142). -/
def execSei (s : State) : Out := setting .i true s

/-- `D8`, CLD (R318, R142). -/
def execCld (s : State) : Out := setting .d false s

/-- `F8`, SED (R319, R142). -/
def execSed (s : State) : Out := setting .d true s

/-- `B8`, CLV (R320, R142). -/
def execClv (s : State) : Out := setting .v false s

/-- `EA`, NOP (R321, R142). -/
def execNop (s : State) : Out := implied (fun s => s) s

end Sys2Proof.Machine
end

