-- ==== Sys2Proof/Machine/Store.lean ====
section
/-! DEFINITION. Stores (43_load_store_transfer.md R243 to R245): no flag and no register but `PC` changes. -/

namespace Sys2Proof.Machine

open Config

/-- `81`, STA (zp,X) (R243, R154). -/
def execStaIzx (b : Byte) (s : State) : Out := storing s.a (.izx b) s

/-- `85`, STA zp (R243, R145). -/
def execStaZp (b : Byte) (s : State) : Out := storing s.a (.zp b) s

/-- `8D`, STA abs (R243, R148). -/
def execStaAbs (w : Word) (s : State) : Out := storing s.a (.abs w) s

/-- `91`, STA (zp),Y (R243, R155). -/
def execStaIzy (b : Byte) (s : State) : Out := storing s.a (.izy (s.fixup 0x91) b) s

/-- `95`, STA zp,X (R243, R146). -/
def execStaZpx (b : Byte) (s : State) : Out := storing s.a (.zpx b) s

/-- `99`, STA abs,Y (R243, R151). -/
def execStaAby (w : Word) (s : State) : Out := storing s.a (.aby (s.fixup 0x99) w) s

/-- `9D`, STA abs,X (R243, R150). -/
def execStaAbx (w : Word) (s : State) : Out := storing s.a (.abx (s.fixup 0x9D) w) s

/-- `86`, STX zp (R244, R145). -/
def execStxZp (b : Byte) (s : State) : Out := storing s.x (.zp b) s

/-- `8E`, STX abs (R244, R148). -/
def execStxAbs (w : Word) (s : State) : Out := storing s.x (.abs w) s

/-- `96`, STX zp,Y (R244, R147). -/
def execStxZpy (b : Byte) (s : State) : Out := storing s.x (.zpy b) s

/-- `84`, STY zp (R245, R145). -/
def execStyZp (b : Byte) (s : State) : Out := storing s.y (.zp b) s

/-- `8C`, STY abs (R245, R148). -/
def execStyAbs (w : Word) (s : State) : Out := storing s.y (.abs w) s

/-- `94`, STY zp,X (R245, R146). -/
def execStyZpx (b : Byte) (s : State) : Out := storing s.y (.zpx b) s

end Sys2Proof.Machine
end

