-- ==== Sys2Proof/Machine/Transfer.lean ====
section
/-! DEFINITION. Register transfers (43_load_store_transfer.md R246 to R251). -/

namespace Sys2Proof.Machine

open Config

/-- `AA`, TAX (R246, R142). -/
def execTax (s : State) : Out := implied (fun s => loadX s.a s) s

/-- `A8`, TAY (R247, R142). -/
def execTay (s : State) : Out := implied (fun s => loadY s.a s) s

/-- `8A`, TXA (R248, R142). -/
def execTxa (s : State) : Out := implied (fun s => loadA s.x s) s

/-- `98`, TYA (R249, R142). -/
def execTya (s : State) : Out := implied (fun s => loadA s.y s) s

/-- `BA`, TSX (R250, R142). -/
def execTsx (s : State) : Out := implied (fun s => loadX s.sp s) s

/-- `9A`, TXS (R251, R142). -/
def execTxs (s : State) : Out := implied (fun s => { s with sp := s.x }) s

end Sys2Proof.Machine
end

