-- ==== Sys2Proof/Machine/Undocumented.lean ====
section
/-! DEFINITION. The 105 undocumented opcodes (48_undocumented.md R330 to R351). -/

namespace Sys2Proof.Machine

open Config

/-- Shift or rotate memory by `f`, then combine the result with `A` by `g` (R330 to R332): `C` from `f`, `Z` and `N` from
the new `A`. -/
def shiftThen (f : Byte → Byte → Alu) (g : Byte → Byte → Byte → Alu) (m : Byte) (s : State) : Byte × State :=
  let r := f m s.p
  let q := g s.a r.value r.p
  (r.value, { s with a := q.value, p := q.p })

/-- RRA (R333): ROR memory, then ADC with the carry the rotate produced. -/
def rotateThenAdd (m : Byte) (s : State) : Byte × State :=
  let r := ror m s.p
  let q := addWithCarry s.profile s.a r.value r.p
  (r.value, { s with a := q.value, p := q.p })

/-- DCP (R336): DEC memory, then CMP; the decrement itself sets no flag. -/
def decThenCompare (m : Byte) (s : State) : Byte × State :=
  (m - 1, { s with p := cmpFlags s.a (m - 1) s.p })

/-- ISC (R337): INC memory, then SBC; the increment itself sets no flag. -/
def incThenSub (m : Byte) (s : State) : Byte × State :=
  let q := subWithCarry s.profile s.a (m + 1) s.p
  (m + 1, { s with a := q.value, p := q.p })

/-- `03`, SLO (zp,X) (R330, R154). -/
def execSloIzx (b : Byte) (s : State) : Out := modifying (shiftThen asl orWith) (.izx b) s

/-- `07`, SLO zp (R330, R145). -/
def execSloZp (b : Byte) (s : State) : Out := modifying (shiftThen asl orWith) (.zp b) s

/-- `0F`, SLO abs (R330, R148). -/
def execSloAbs (w : Word) (s : State) : Out := modifying (shiftThen asl orWith) (.abs w) s

/-- `13`, SLO (zp),Y (R330, R155). -/
def execSloIzy (b : Byte) (s : State) : Out := modifying (shiftThen asl orWith) (.izy (s.fixup 0x13) b) s

/-- `17`, SLO zp,X (R330, R146). -/
def execSloZpx (b : Byte) (s : State) : Out := modifying (shiftThen asl orWith) (.zpx b) s

/-- `1B`, SLO abs,Y (R330, R151). -/
def execSloAby (w : Word) (s : State) : Out := modifying (shiftThen asl orWith) (.aby (s.fixup 0x1B) w) s

/-- `1F`, SLO abs,X (R330, R150). -/
def execSloAbx (w : Word) (s : State) : Out := modifying (shiftThen asl orWith) (.abx (s.fixup 0x1F) w) s

/-- `23`, RLA (zp,X) (R331, R154). -/
def execRlaIzx (b : Byte) (s : State) : Out := modifying (shiftThen rol andWith) (.izx b) s

/-- `27`, RLA zp (R331, R145). -/
def execRlaZp (b : Byte) (s : State) : Out := modifying (shiftThen rol andWith) (.zp b) s

/-- `2F`, RLA abs (R331, R148). -/
def execRlaAbs (w : Word) (s : State) : Out := modifying (shiftThen rol andWith) (.abs w) s

/-- `33`, RLA (zp),Y (R331, R155). -/
def execRlaIzy (b : Byte) (s : State) : Out := modifying (shiftThen rol andWith) (.izy (s.fixup 0x33) b) s

/-- `37`, RLA zp,X (R331, R146). -/
def execRlaZpx (b : Byte) (s : State) : Out := modifying (shiftThen rol andWith) (.zpx b) s

/-- `3B`, RLA abs,Y (R331, R151). -/
def execRlaAby (w : Word) (s : State) : Out := modifying (shiftThen rol andWith) (.aby (s.fixup 0x3B) w) s

/-- `3F`, RLA abs,X (R331, R150). -/
def execRlaAbx (w : Word) (s : State) : Out := modifying (shiftThen rol andWith) (.abx (s.fixup 0x3F) w) s

/-- `43`, SRE (zp,X) (R332, R154). -/
def execSreIzx (b : Byte) (s : State) : Out := modifying (shiftThen lsr xorWith) (.izx b) s

/-- `47`, SRE zp (R332, R145). -/
def execSreZp (b : Byte) (s : State) : Out := modifying (shiftThen lsr xorWith) (.zp b) s

/-- `4F`, SRE abs (R332, R148). -/
def execSreAbs (w : Word) (s : State) : Out := modifying (shiftThen lsr xorWith) (.abs w) s

/-- `53`, SRE (zp),Y (R332, R155). -/
def execSreIzy (b : Byte) (s : State) : Out := modifying (shiftThen lsr xorWith) (.izy (s.fixup 0x53) b) s

/-- `57`, SRE zp,X (R332, R146). -/
def execSreZpx (b : Byte) (s : State) : Out := modifying (shiftThen lsr xorWith) (.zpx b) s

/-- `5B`, SRE abs,Y (R332, R151). -/
def execSreAby (w : Word) (s : State) : Out := modifying (shiftThen lsr xorWith) (.aby (s.fixup 0x5B) w) s

/-- `5F`, SRE abs,X (R332, R150). -/
def execSreAbx (w : Word) (s : State) : Out := modifying (shiftThen lsr xorWith) (.abx (s.fixup 0x5F) w) s

/-- `63`, RRA (zp,X) (R333, R154). -/
def execRraIzx (b : Byte) (s : State) : Out := modifying rotateThenAdd (.izx b) s

/-- `67`, RRA zp (R333, R145). -/
def execRraZp (b : Byte) (s : State) : Out := modifying rotateThenAdd (.zp b) s

/-- `6F`, RRA abs (R333, R148). -/
def execRraAbs (w : Word) (s : State) : Out := modifying rotateThenAdd (.abs w) s

/-- `73`, RRA (zp),Y (R333, R155). -/
def execRraIzy (b : Byte) (s : State) : Out := modifying rotateThenAdd (.izy (s.fixup 0x73) b) s

/-- `77`, RRA zp,X (R333, R146). -/
def execRraZpx (b : Byte) (s : State) : Out := modifying rotateThenAdd (.zpx b) s

/-- `7B`, RRA abs,Y (R333, R151). -/
def execRraAby (w : Word) (s : State) : Out := modifying rotateThenAdd (.aby (s.fixup 0x7B) w) s

/-- `7F`, RRA abs,X (R333, R150). -/
def execRraAbx (w : Word) (s : State) : Out := modifying rotateThenAdd (.abx (s.fixup 0x7F) w) s

/-- `C3`, DCP (zp,X) (R336, R154). -/
def execDcpIzx (b : Byte) (s : State) : Out := modifying decThenCompare (.izx b) s

/-- `C7`, DCP zp (R336, R145). -/
def execDcpZp (b : Byte) (s : State) : Out := modifying decThenCompare (.zp b) s

/-- `CF`, DCP abs (R336, R148). -/
def execDcpAbs (w : Word) (s : State) : Out := modifying decThenCompare (.abs w) s

/-- `D3`, DCP (zp),Y (R336, R155). -/
def execDcpIzy (b : Byte) (s : State) : Out := modifying decThenCompare (.izy (s.fixup 0xD3) b) s

/-- `D7`, DCP zp,X (R336, R146). -/
def execDcpZpx (b : Byte) (s : State) : Out := modifying decThenCompare (.zpx b) s

/-- `DB`, DCP abs,Y (R336, R151). -/
def execDcpAby (w : Word) (s : State) : Out := modifying decThenCompare (.aby (s.fixup 0xDB) w) s

/-- `DF`, DCP abs,X (R336, R150). -/
def execDcpAbx (w : Word) (s : State) : Out := modifying decThenCompare (.abx (s.fixup 0xDF) w) s

/-- `E3`, ISC (zp,X) (R337, R154). -/
def execIscIzx (b : Byte) (s : State) : Out := modifying incThenSub (.izx b) s

/-- `E7`, ISC zp (R337, R145). -/
def execIscZp (b : Byte) (s : State) : Out := modifying incThenSub (.zp b) s

/-- `EF`, ISC abs (R337, R148). -/
def execIscAbs (w : Word) (s : State) : Out := modifying incThenSub (.abs w) s

/-- `F3`, ISC (zp),Y (R337, R155). -/
def execIscIzy (b : Byte) (s : State) : Out := modifying incThenSub (.izy (s.fixup 0xF3) b) s

/-- `F7`, ISC zp,X (R337, R146). -/
def execIscZpx (b : Byte) (s : State) : Out := modifying incThenSub (.zpx b) s

/-- `FB`, ISC abs,Y (R337, R151). -/
def execIscAby (w : Word) (s : State) : Out := modifying incThenSub (.aby (s.fixup 0xFB) w) s

/-- `FF`, ISC abs,X (R337, R150). -/
def execIscAbx (w : Word) (s : State) : Out := modifying incThenSub (.abx (s.fixup 0xFF) w) s

/-- `83`, SAX (zp,X) (R334, R154). -/
def execSaxIzx (b : Byte) (s : State) : Out := storing (s.a &&& s.x) (.izx b) s

/-- `87`, SAX zp (R334, R145). -/
def execSaxZp (b : Byte) (s : State) : Out := storing (s.a &&& s.x) (.zp b) s

/-- `8F`, SAX abs (R334, R148). -/
def execSaxAbs (w : Word) (s : State) : Out := storing (s.a &&& s.x) (.abs w) s

/-- `97`, SAX zp,Y (R334, R147). -/
def execSaxZpy (b : Byte) (s : State) : Out := storing (s.a &&& s.x) (.zpy b) s

/-- LAX on the operand byte (R335). -/
def loadAX (m : Byte) (s : State) : State := { s with a := m, x := m, p := setZN m s.p }

/-- `A3`, LAX (zp,X) (R335, R154). -/
def execLaxIzx (b : Byte) (s : State) : Out := reading loadAX (.izx b) s

/-- `A7`, LAX zp (R335, R145). -/
def execLaxZp (b : Byte) (s : State) : Out := reading loadAX (.zp b) s

/-- `AF`, LAX abs (R335, R148). -/
def execLaxAbs (w : Word) (s : State) : Out := reading loadAX (.abs w) s

/-- `B3`, LAX (zp),Y (R335, R155). -/
def execLaxIzy (b : Byte) (s : State) : Out := reading loadAX (.izy (s.fixup 0xB3) b) s

/-- `B7`, LAX zp,Y (R335, R147). -/
def execLaxZpy (b : Byte) (s : State) : Out := reading loadAX (.zpy b) s

/-- `BF`, LAX abs,Y (R335, R151). -/
def execLaxAby (w : Word) (s : State) : Out := reading loadAX (.aby (s.fixup 0xBF) w) s

/-- LAS on the operand byte (R348). -/
def loadAXS (m : Byte) (s : State) : State :=
  { s with a := m &&& s.sp, x := m &&& s.sp, sp := m &&& s.sp, p := setZN (m &&& s.sp) s.p }

/-- `BB`, LAS abs,Y (R348, R151). -/
def execLasAby (w : Word) (s : State) : Out := reading loadAXS (.aby (s.fixup 0xBB) w) s

/-- ANC on the operand byte (R338): AND, then `C <- N`. -/
def andCopyN (m : Byte) (s : State) : State :=
  let r := andWith s.a m s.p
  { s with a := r.value, p := withFlag .c (flag .n r.p) r.p }

/-- `0B`, ANC #imm (R338, R143). -/
def execAncImm0B (m : Byte) (s : State) : Out := .next (andCopyN m s)

/-- `2B`, ANC #imm (R338, R143). -/
def execAncImm2B (m : Byte) (s : State) : Out := .next (andCopyN m s)

/-- ALR on the operand byte (R339): AND, then LSR A. -/
def andThenLsr (m : Byte) (s : State) : State :=
  let r := lsr (s.a &&& m) s.p
  { s with a := r.value, p := r.p }

/-- `4B`, ALR #imm (R339, R143). -/
def execAlrImm (m : Byte) (s : State) : Out := .next (andThenLsr m s)

/-- ARR on the operand byte (R340). -/
def andThenRor (m : Byte) (s : State) : State :=
  let r := arr s.profile.decimal s.a m s.p
  { s with a := r.value, p := r.p }

/-- `6B`, ARR #imm (R340, R143). -/
def execArrImm (m : Byte) (s : State) : Out := .next (andThenRor m s)

/-- SBX on the operand byte (R343): `A` unchanged. -/
def subFromAX (m : Byte) (s : State) : State :=
  let r := sbx s.a s.x m s.p
  { s with x := r.value, p := r.p }

/-- `CB`, SBX #imm (R343, R143). -/
def execSbxImm (m : Byte) (s : State) : Out := .next (subFromAX m s)

/-- `EB`, SBC #imm (R349, R143, R261). -/
def execSbcImmEB (m : Byte) (s : State) : Out := calculatingImm subFromA m s

/-- ANE on the operand byte (R341): `MAGIC_ANE` is a free constant. -/
def aneA (m : Byte) (s : State) : State :=
  let v := (s.a ||| magicAne) &&& s.x &&& m
  { s with a := v, p := setZN v s.p }

/-- `8B`, ANE #imm (R341, R143). -/
def execAneImm (m : Byte) (s : State) : Out := .next (aneA m s)

/-- LXA on the operand byte (R342): `MAGIC_LXA` is a free constant. -/
def lxaAX (m : Byte) (s : State) : State := loadAX ((s.a ||| magicLxa) &&& m) s

/-- `AB`, LXA #imm (R342, R143). -/
def execLxaImm (m : Byte) (s : State) : Out := .next (lxaAX m s)

/-- The value an unstable store writes (R344): the register value masked by the base's high byte plus one. -/
def unstableValue (reg : Byte) (base : Word) : Byte := reg &&& (hi base + 1)

/-- Where an unstable store goes (R344): on a crossing the value written replaces the high byte of the address. -/
def unstableAddr (reg : Byte) (base : Word) (i : Byte) : Word :=
  if crosses base i then wordOf (unstableValue reg base) (lo (corrected base i)) else corrected base i

/-- An unstable store (R344 to R347): the fixup read, which R152 has always happen, then the store. -/
def unstableStore (f : Fixup) (reg : Byte) (base : Word) (i : Byte) (s : State) : Except Fault State := do
  let s ← fixupRead f base i s
  memWrite (unstableAddr reg base i) (unstableValue reg base) s

/-- `9F`, SHA abs,Y (R344, R151). -/
def execShaAby (w : Word) (s : State) : Out := conclude (unstableStore (s.fixup 0x9F) (s.a &&& s.x) w s.y s)

/-- `93`, SHA (zp),Y (R344, R155). -/
def execShaIzy (b : Byte) (s : State) : Out :=
  conclude do
    let (base, s) ← zeroPagePointer b s
    unstableStore (s.fixup 0x93) (s.a &&& s.x) base s.y s

/-- `9E`, SHX abs,Y (R345, R151). -/
def execShxAby (w : Word) (s : State) : Out := conclude (unstableStore (s.fixup 0x9E) s.x w s.y s)

/-- `9C`, SHY abs,X (R346, R150). -/
def execShyAbx (w : Word) (s : State) : Out := conclude (unstableStore (s.fixup 0x9C) s.y w s.x s)

/-- `9B`, TAS abs,Y (R347, R151): `S <- A & X`, then the store of `S`. -/
def execTasAby (w : Word) (s : State) : Out :=
  conclude (unstableStore (s.fixup 0x9B) (s.a &&& s.x) w s.y { s with sp := s.a &&& s.x })

/-- An undocumented NOP (R350) uses its operand for nothing. -/
def discard (_ : Byte) (s : State) : State := s

/-- `04`, NOP zp (R350, R145). -/
def execNopZp04 (b : Byte) (s : State) : Out := reading discard (.zp b) s

/-- `0C`, NOP abs (R350, R148). -/
def execNopAbs (w : Word) (s : State) : Out := reading discard (.abs w) s

/-- `14`, NOP zp,X (R350, R146). -/
def execNopZpx14 (b : Byte) (s : State) : Out := reading discard (.zpx b) s

/-- `1A`, NOP (R350, R142). -/
def execNop1A (s : State) : Out := implied (fun s => s) s

/-- `1C`, NOP abs,X (R350, R150). -/
def execNopAbx1C (w : Word) (s : State) : Out := reading discard (.abx (s.fixup 0x1C) w) s

/-- `34`, NOP zp,X (R350, R146). -/
def execNopZpx34 (b : Byte) (s : State) : Out := reading discard (.zpx b) s

/-- `3A`, NOP (R350, R142). -/
def execNop3A (s : State) : Out := implied (fun s => s) s

/-- `3C`, NOP abs,X (R350, R150). -/
def execNopAbx3C (w : Word) (s : State) : Out := reading discard (.abx (s.fixup 0x3C) w) s

/-- `44`, NOP zp (R350, R145). -/
def execNopZp44 (b : Byte) (s : State) : Out := reading discard (.zp b) s

/-- `54`, NOP zp,X (R350, R146). -/
def execNopZpx54 (b : Byte) (s : State) : Out := reading discard (.zpx b) s

/-- `5A`, NOP (R350, R142). -/
def execNop5A (s : State) : Out := implied (fun s => s) s

/-- `5C`, NOP abs,X (R350, R150). -/
def execNopAbx5C (w : Word) (s : State) : Out := reading discard (.abx (s.fixup 0x5C) w) s

/-- `64`, NOP zp (R350, R145). -/
def execNopZp64 (b : Byte) (s : State) : Out := reading discard (.zp b) s

/-- `74`, NOP zp,X (R350, R146). -/
def execNopZpx74 (b : Byte) (s : State) : Out := reading discard (.zpx b) s

/-- `7A`, NOP (R350, R142). -/
def execNop7A (s : State) : Out := implied (fun s => s) s

/-- `7C`, NOP abs,X (R350, R150). -/
def execNopAbx7C (w : Word) (s : State) : Out := reading discard (.abx (s.fixup 0x7C) w) s

/-- `80`, NOP #imm (R350, R143). -/
def execNopImm80 (m : Byte) (s : State) : Out := .next (discard m s)

/-- `82`, NOP #imm (R350, R143). -/
def execNopImm82 (m : Byte) (s : State) : Out := .next (discard m s)

/-- `89`, NOP #imm (R350, R143). -/
def execNopImm89 (m : Byte) (s : State) : Out := .next (discard m s)

/-- `C2`, NOP #imm (R350, R143). -/
def execNopImmC2 (m : Byte) (s : State) : Out := .next (discard m s)

/-- `D4`, NOP zp,X (R350, R146). -/
def execNopZpxD4 (b : Byte) (s : State) : Out := reading discard (.zpx b) s

/-- `DA`, NOP (R350, R142). -/
def execNopDA (s : State) : Out := implied (fun s => s) s

/-- `DC`, NOP abs,X (R350, R150). -/
def execNopAbxDC (w : Word) (s : State) : Out := reading discard (.abx (s.fixup 0xDC) w) s

/-- `E2`, NOP #imm (R350, R143). -/
def execNopImmE2 (m : Byte) (s : State) : Out := .next (discard m s)

/-- `F4`, NOP zp,X (R350, R146). -/
def execNopZpxF4 (b : Byte) (s : State) : Out := reading discard (.zpx b) s

/-- `FA`, NOP (R350, R142). -/
def execNopFA (s : State) : Out := implied (fun s => s) s

/-- `FC`, NOP abs,X (R350, R150). -/
def execNopAbxFC (w : Word) (s : State) : Out := reading discard (.abx (s.fixup 0xFC) w) s

/-- The jam (R351), cycles 2 to 5: reads at `PC`, `0xFFFF`, `0xFFFE`, `0xFFFE`, then `run <- Jammed`. -/
def jam (s : State) : Out :=
  conclude do
    let s ← dummyRead s.pc s
    let s ← dummyRead 0xFFFF s
    let s ← dummyRead 0xFFFE s
    let s ← dummyRead 0xFFFE s
    return { s with run := .jammed }

/-- `02`, JAM (R351, R142). -/
def execJam02 (s : State) : Out := jam s

/-- `12`, JAM (R351, R142). -/
def execJam12 (s : State) : Out := jam s

/-- `22`, JAM (R351, R142). -/
def execJam22 (s : State) : Out := jam s

/-- `32`, JAM (R351, R142). -/
def execJam32 (s : State) : Out := jam s

/-- `42`, JAM (R351, R142). -/
def execJam42 (s : State) : Out := jam s

/-- `52`, JAM (R351, R142). -/
def execJam52 (s : State) : Out := jam s

/-- `62`, JAM (R351, R142). -/
def execJam62 (s : State) : Out := jam s

/-- `72`, JAM (R351, R142). -/
def execJam72 (s : State) : Out := jam s

/-- `92`, JAM (R351, R142). -/
def execJam92 (s : State) : Out := jam s

/-- `B2`, JAM (R351, R142). -/
def execJamB2 (s : State) : Out := jam s

/-- `D2`, JAM (R351, R142). -/
def execJamD2 (s : State) : Out := jam s

/-- `F2`, JAM (R351, R142). -/
def execJamF2 (s : State) : Out := jam s

end Sys2Proof.Machine
end

