-- ==== Sys2Proof/Machine/Sequencer.lean ====
section
/-! DEFINITION. What a step does before the dispatch entry runs (42_sequencer_dispatch.md R210 to R214, R220;
60_exceptions.md R404 to R408), and the fetch of an instruction's bytes (40_addressing_modes.md R141, R143). -/

namespace Sys2Proof.Machine

open Config

/-- The SO latch is applied first (R45): `P.V <- 1`. -/
def applySo (s : State) : State :=
  if s.pendSo then { s with p := withFlag .v true s.p, pendSo := false } else s

/-- `SYNC` driven to a level (R213). -/
def State.setSync (s : State) (l : Level) : State := (driveOutput .sync l s).2

/-- A read at `PC` with `SYNC` raised for that cycle only (R213, R214). -/
def syncRead (s : State) : Except Fault (Byte × State) := do
  let (v, s) ← memRead s.pc (s.setSync .raised)
  return (v, s.setSync .lowered)

/-- One cycle of a jammed engine (R220). -/
def jamCycle (s : State) : Except Fault State := dummyRead 0xFFFF s

/-- One stall cycle (R214): the byte is discarded. -/
def stallCycle (s : State) : Except Fault State := do
  let (_, s) ← syncRead s
  return s

/-- The opcode fetch (R213): the byte goes to `IR`; `PC` is not yet incremented. -/
def fetchOpcode (s : State) : Except Fault State := do
  let (v, s) ← syncRead s
  return { s with ir := v }

/-- Whether the maskable interrupt is masked (R405, R406): the mask flag is set, or the enable flip-flop is clear (R379). -/
def State.interruptsMasked (s : State) : Bool :=
  match s.profile.interruptGate with
  | .flag => s.p &&& interruptMaskBit s.profile != 0#8
  | .iff1 => !s.other.iff1
  | .inte => !s.other.inte

/-- Whether a source's event is to be serviced (R405): its latch is set and nothing masks it. The engine has a pin and a latch
for the three sources of R402 only (R44), so no other source is ever pending (notes/assumptions/29.md). -/
def pending (s : State) : Source → Bool
  | .reset => s.pendReset
  | .nmi => s.pendNmi
  | .int => s.pendIrq && !s.interruptsMasked
  | .other _ _ _ => false

/-- The event of a source, one of the four of R401. -/
def entryOf : Source → Option Entry
  | .reset => some .reset
  | .nmi => some .nmi
  | .int => some .irq
  | .other _ _ _ => none

/-- The sources that go before one in every profile: RESET over NMI over IRQ (R372, R378, R405). -/
def outranking : Source → List Source
  | .nmi => [.reset]
  | .int => [.reset, .nmi]
  | _ => []

/-- Whether a profile has a source and its event is to be serviced. -/
def listedPending (s : State) (x : Source) : Bool := s.profile.interruptSources.contains x && pending s x

/-- The event serviced at a fetch boundary, if any (R405): of the profile's sources, in their priority, the first that is
pending while none that outranks it is. The order RESET, NMI, IRQ holds whatever the profile's list (R372). -/
def selectEvent (s : State) : Option Entry :=
  (s.profile.interruptSources.find? fun x => pending s x && !(outranking x).any (listedPending s)).bind entryOf

/-- What selecting an event changes at once (R410 to R412): its latch is cleared, and RESET leaves a jam. -/
def onSelection (e : Entry) (s : State) : State :=
  match e with
  | .reset => { s with pendReset := false, run := .running }
  | .nmi => { s with pendNmi := false }
  | .irq => { s with pendIrq := false }
  | .brk => s

/-- The opcode of JSR (R292). -/
def jsrOpcode : Byte := 0x20

/-- The length of the instruction that a table gives an opcode (R112). -/
def lengthIn (table : OpcodeTable) (op : Byte) : Nat := (encode (table op 0 0)).length

/-- The instruction in `IR` with a 16-bit operand, whose bytes stand in the profile's order (R84). -/
def wideEntry (table : OpcodeTable) (first second : Byte) (s : State) : Instr :=
  let w := joinWord s.profile.byteOrder first second
  table s.ir (lo w) (hi w)

/-- The operand fetch cycles of the instruction whose opcode is in `IR` (R113, R143 to R156), and the instruction. JSR
fetches its first byte only: its second byte is read after the pushes (R292), so what stands in memory for it now is decoded
without a cycle and used by no cycle. -/
def fetchOperands (table : OpcodeTable) (s : State) : Except Fault (Instr × State) :=
  if lengthIn table s.ir = 1 then return (table s.ir 0 0, s)
  else do
    let (b1, s) ← fetchByte s
    if lengthIn table s.ir = 2 then return (table s.ir b1 0, s)
    else if s.ir = jsrOpcode then return (wideEntry table b1 (s.mem.read s.pc.toNat) s, s)
    else do
      let (b2, s) ← fetchByte s
      return (wideEntry table b1 b2 s, s)

/-- What a step comes to before dispatch. -/
inductive Boundary where
  /-- the step ends here -/
  | finished (s : State)
  | failed (f : Fault)
  | turnedAway (r : Refusal)
  /-- `Execute(IR)` (R215) -/
  | dispatch (i : Instr) (s : State)

/-- A bus sequence that ends the step. -/
def finish : Except Fault State → Boundary
  | .ok s => .finished s
  | .error f => .failed f

/-- After the opcode fetch (R211): the selected event's sequence, or the instruction with `PC` past its opcode. -/
def afterFetch (table : OpcodeTable) (s : State) : Boundary :=
  match selectEvent s with
  | some e => finish (enter e (onSelection e s))
  | none =>
    match fetchOperands table { s with pc := s.pc + 1 } with
    | .ok (i, s) => .dispatch i s
    | .error f => .failed f

/-- The order of the tests of a step (R211, R408): power, SO, jam, `RDY`, fetch, events. DESIGN CHOICE
(notes/assumptions/7.md): a profile whose dispatch table is OPEN is refused at the boundary, whatever the step would be; R386
says that every opcode of it is. -/
def boundary (s : State) : Boundary :=
  if s.pins.power = .lowered then .finished s
  else
    match tableOf s.profile with
    | none => .turnedAway (.openProfile s.variant)
    | some table =>
      let s := applySo s
      if s.run = .jammed && !s.pendReset then finish (jamCycle s)
      else if s.pins.rdy = .lowered then finish (stallCycle s)
      else
        match fetchOpcode s with
        | .ok s => afterFetch table s
        | .error f => .failed f

end Sys2Proof.Machine
end

