-- ==== Sys2Proof/Machine/Step.lean ====
section
/-! DEFINITION. The step (42_sequencer_dispatch.md R211), and how an instruction is placed where it fetches. -/

namespace Sys2Proof.Machine

/-- `Step()` (R211): what happens at the boundary, then `Execute(IR)`. -/
def step (s : State) : Host.Outcome State Fault Refusal :=
  match boundary s with
  | .finished t => .next t
  | .failed f => .fault f
  | .turnedAway r => .refused r
  | .dispatch i t => exec i t

/-- A region map on which the three bytes at `pc` can be read. -/
def fetchable (s : State) : Bool :=
  [s.pc, s.pc + 1, s.pc + 2].all fun a =>
    match s.regionAt a with
    | some r => r.access != .writeOnly
    | none => false

/-- `s` with an instruction stored at `PC` and nothing in the way of the next step's fetching and running it: powered,
ready, not jammed, no event pending, profile NMOS6502, and, if the map does not let the three bytes be read, the whole
space readable. It stands for the host's loading of a program (notes/assumptions/17.md). -/
def State.withFetchWord (s : State) (nbits w : Nat) : State :=
  { s with
    mem := ((s.mem.write s.pc.toNat (tableByte nbits w 0)).write (s.pc + 1).toNat (tableByte nbits w 1)).write
      (s.pc + 2).toNat (tableByte nbits w 2)
    pins := { s.pins with power := .raised, rdy := .raised, sync := .lowered }
    run := .running
    pendReset := false
    pendNmi := false
    pendIrq := false
    variant := .nmos6502
    regions := if fetchable s then s.regions else Config.wholeSpace }

end Sys2Proof.Machine
end

