-- ==== Sys2Proof/Machine/Board.lean ====
section
/-! DEFINITION. What the host or board does to the engine at a fetch boundary (10_state.md R40 to R46; 20_memory.md R80;
42_sequencer_dispatch.md R218; 70_reset_and_hazards.md R456). None of it is a step. -/

namespace Sys2Proof.Machine

/-- The input pins of profile NMOS6502 (R41). -/
inductive InputPin where
  | power
  | reset
  | nmi
  | int
  | rdy
  | so
  deriving DecidableEq, Repr

/-- The pin's place in the surface over all profiles. -/
def InputPin.surface : InputPin → Config.Pin
  | .power => .power
  | .reset => .reset
  | .nmi => .nmi
  | .int => .int
  | .rdy => .rdy
  | .so => .so

/-- The level the board drives on an input. -/
def Pins.level (p : Pins) : InputPin → Level
  | .power => p.power
  | .reset => p.reset
  | .nmi => p.nmi
  | .int => p.int
  | .rdy => p.rdy
  | .so => p.so

/-- An input at a new level. -/
def Pins.withLevel (p : Pins) (l : Level) : InputPin → Pins
  | .power => { p with power := l }
  | .reset => { p with reset := l }
  | .nmi => { p with nmi := l }
  | .int => { p with int := l }
  | .rdy => { p with rdy := l }
  | .so => { p with so := l }

/-- `Powered` (R46). -/
def State.powered (s : State) : Bool := s.pins.power == .raised

/-- A raising edge on `POWER` (R46): latches, `run`, outputs, counter and trace; no register, no reset. DESIGN CHOICE
(notes/assumptions/27.md): `IR`, `ADDR` and `DATA`, which R52 calls unspecified after the edge, keep what they held. Unsafe. -/
def powerOn (s : State) : State :=
  { s with
    pendReset := false
    pendNmi := false
    pendIrq := false
    pendSo := false
    run := .running
    pins := { s.pins with sync := .lowered, rd := .raised, wr := .raised }
    cycles := 0
    trace := [] }

/-- An asserting edge sets the pin's latch (R44, R45); `RDY` and `POWER` have none. -/
def latch (s : State) : InputPin → State
  | .reset => { s with pendReset := true }
  | .nmi => { s with pendNmi := true }
  | .int => { s with pendIrq := true }
  | .so => { s with pendSo := true }
  | .power => s
  | .rdy => s

/-- The board drives an input pin (R42 to R46): the same level is a no-op; a falling edge latches while powered; a rising
edge of `POWER` powers on; any other edge changes the level alone, between its notifications (R43). A pin that the profile has not cannot be driven (R371;
notes/assumptions/30.md). -/
def drivePin (pin : InputPin) (l : Level) (s : State) : Edge × State :=
  if !s.profile.pins.contains pin.surface || s.pins.level pin = l then (.noChange, s)
  else
    let t := transition pin.surface (edgeTo (s.pins.level pin) l) (·.withLevel l pin) s
    match l with
    | .raised => (.roseEdge, if pin = .power then powerOn t else t)
    | .lowered => (.fellEdge, if s.powered then latch t pin else t)

/-- `Peek(addr)` (R80): no cycle, no change. DESIGN CHOICE (notes/assumptions/28.md): in a write-only region too it gives the
byte that the backing store holds. Unsafe. -/
def peek (a : Word) (s : State) : Except Fault Byte :=
  match s.regionAt a with
  | none => .error (.busContractViolation a)
  | some _ => .ok (s.mem.read a.toNat)

/-- `Poke(addr, v)` (R80): one byte of a backing store, whatever its region's access level. -/
def poke (a : Word) (v : Byte) (s : State) : Except Fault State :=
  match s.regionAt a with
  | none => .error (.busContractViolation a)
  | some _ => .ok { s with mem := s.mem.write a.toNat v }

/-- The host loads the registers (R456): a byte loaded into `P` is normalised. -/
def loadRegisters (a x y sp p : Byte) (pc : Word) (s : State) : State :=
  { s with a := a, x := x, y := y, sp := sp, p := statusFrom s.profile p, pc := pc }

/-- The host loads the registers that only the other profiles have (R376, R377, R456). -/
def loadOther (o : OtherRegisters) (s : State) : State := { s with other := o }

/-- The host reads the registers (R25, R434): the profile's register file. -/
def readRegisters (s : State) : List (Config.Register × Nat) :=
  s.profile.registers.map fun (name, width) => (name, (s.register name width).toNat)

/-- The host clears the trace (R48). -/
def clearTrace (s : State) : State := { s with trace := [] }

/-- What a step from `s` that ended in `t` reports (R218): the cycles it consumed. -/
def cyclesOf (s t : State) : Nat := t.cycles - s.cycles

end Sys2Proof.Machine
end

