-- ==== Sys2Proof/WellFormed.lean ====
section
/-! DEFINITION. What the types leave to be checked. An `Instr` needs no check: every value of an operand byte or word is a
legal operand of its row (30_encoding.md R110, R113, R120). The one parameter with a legality condition is the region map
(20_memory.md R72, 60_exceptions.md R422). -/

namespace Sys2Proof.Config

/-- A region lies inside the 64 KiB space: `base + size ≤ 65536` (R72). -/
def Region.inSpace (r : Region) : Bool := decide (r.base + r.size ≤ 65536)

/-- Two regions claim no address in common (R72). -/
def Region.disjoint (r q : Region) : Bool :=
  decide (r.base + r.size ≤ q.base) || decide (q.base + q.size ≤ r.base) || r.size == 0 || q.size == 0

/-- A region is disjoint from every region of a list. -/
def Region.disjointFrom (r : Region) (l : List Region) : Bool := l.all r.disjoint

/-- A legal value of the parameter `Regions`: every region in the space, no two overlapping (R72). -/
def mapLegal : List Region → Bool
  | [] => true
  | r :: l => r.inSpace && r.disjointFrom l && mapLegal l

end Sys2Proof.Config
end

