-- ==== Sys2Proof/Safety.lean ====
section
/-! DEFINITION. The conditions that statements speak of: what a step needs to complete, and what every step keeps. -/

namespace Sys2Proof.Machine

open Config

/-- An address some region claims: a bus cycle there raises nothing (R79). -/
def Mapped (s : State) (a : Word) : Prop := (s.regionAt a).isSome = true

/-- A correctly configured map: no address the engine can drive is outside every region (R79, R87, R455 step 1). -/
def AllMapped (s : State) : Prop := ∀ a, Mapped s a

/-- Profile NMOS6502 on a correctly configured map. -/
def Configured (s : State) : Prop := s.variant = .nmos6502 ∧ AllMapped s

/-- An address whose byte a read gives as the backing store holds it: mapped, not write-only (R76, R82). -/
def Readable (s : State) (a : Word) : Prop := ∃ r, s.regionAt a = some r ∧ r.access ≠ .writeOnly

/-- An address a write can change: mapped, not read-only (R77, R81). -/
def Writable (s : State) (a : Word) : Prop := ∃ r, s.regionAt a = some r ∧ r.access ≠ .readOnly

/-- Plain read-write memory at an address. -/
def Ram (s : State) (a : Word) : Prop := Readable s a ∧ Writable s a

/-- What the backing store holds at an address (R73). -/
def byteAt (s : State) (a : Word) : Byte := s.mem.read a.toNat

/-- A boundary at which the step executes the fetched instruction (R211): powered, profile NMOS6502, running, ready, no
event to service. The SO latch may be set. -/
def Ready (s : State) : Prop :=
  s.pins.power = .raised ∧ s.variant = .nmos6502 ∧ s.run = .running ∧ s.pins.rdy = .raised ∧ selectEvent s = none

/-- What holds of every state a run can reach from a legal configuration, and what every step keeps: memory in canonical
form; bits 5 and 4 of `P` at their constants (R31); a legal region map (R72); outputs de-asserted between steps (R213, R76,
R77). -/
structure Inv (s : State) : Prop where
  memory : s.mem.wf = true
  status : reservedBitsHold s.p = true
  map : mapLegal s.regions = true
  sync : s.pins.sync = .lowered
  rd : s.pins.rd = .raised
  wr : s.pins.wr = .raised

/-! ### What bus cycles leave behind -/

/-- `s` with the marks that bus cycles leave (R75, R76, R77), taken from `t`: no register, flag, latch or byte of memory is
among them. `t = busMarks s t` says that `t` differs from `s` in these marks at most. -/
def busMarks (s t : State) : State :=
  { s with
    cycles := t.cycles
    addr := t.addr
    data := t.data
    trace := t.trace
    freeIndex := t.freeIndex
    pins := { s.pins with rd := t.pins.rd, wr := t.pins.wr } }

/-- From `s` to `t` the engine drove exactly these addresses in this order, one cycle each (R74, R75, R91). -/
def Drives (s t : State) (l : List (Word × Action)) : Prop :=
  t.cycles = s.cycles + l.length ∧
    ∃ es, t.trace = s.trace ++ es ∧ es.map (fun e => (e.addr, e.action)) = l

/-- From `s` to `t` these bytes were stored, the latest first in the list, and every other byte of memory is as it was; a
store to a read-only region changes nothing (R81). -/
def Stores (s t : State) (l : List (Word × Byte)) : Prop :=
  ∀ b, (Writable s b → byteAt t b = (l.lookup b).getD (byteAt s b)) ∧ (¬Writable s b → byteAt t b = byteAt s b)

/-- `v` is the byte that a read of `a` gives: what the store holds, unless the region is write-only (R76, R82). -/
def ReadsAs (s : State) (a : Word) (v : Byte) : Prop := Readable s a → v = byteAt s a

/-- `q` is `p` with exactly the listed flags written. -/
def FlagsSet (l : List (Flag × Bool)) (p q : Byte) : Prop :=
  (∀ f, flag f q = (l.lookup f).getD (flag f p)) ∧ q.getLsbD 5 = p.getLsbD 5

/-- `Z` and `N` from a value (R171). -/
def znOf (v : Byte) : List (Flag × Bool) := [(.z, v == 0), (.n, v.getLsbD 7)]

/-- The address that is one page-1 stack slot, `k` below the stack pointer (R22). -/
def slotBelow (s : State) (k : Byte) : Word := wordOf 0x01 (s.sp - k)

/-- The stack slot `k` above the stack pointer (R22). -/
def slotAbove (s : State) (k : Byte) : Word := wordOf 0x01 (s.sp + k)

/-! ### Effective addresses, as the rules compute them -/

/-- The pointer in page 0 (R154, R155). -/
def pointerAt (s : State) (p : Byte) : Word := wordOf (byteAt s (zext (p + 1))) (byteAt s (zext p))

/-- The addresses that hold the form's pointer. -/
def pointerCells (s : State) : Mem → List Word
  | .izx b => [zext (b + s.x), zext (b + s.x + 1)]
  | .izy _ b => [zext b, zext (b + 1)]
  | _ => []

/-- The effective address where the pointer's bytes, if any, read as stored (R145 to R155). -/
def addressOf (s : State) : Mem → Word
  | .zp b => zext b
  | .zpx b => zext (b + s.x)
  | .zpy b => zext (b + s.y)
  | .abs w => w
  | .abx _ w => BitVec.ofNat 16 (w.toNat + s.x.toNat)
  | .aby _ w => BitVec.ofNat 16 (w.toNat + s.y.toNat)
  | .izx b => pointerAt s (b + s.x)
  | .izy _ b => BitVec.ofNat 16 ((pointerAt s b).toNat + s.y.toNat)

/-- The reads of the page-crossing rule before the access itself (R149, R152): at the address with the high byte not yet
corrected. -/
def fixupReads (f : Config.Fixup) (base : Word) (i : Byte) : List Word :=
  if f = .always ∨ f = .onCross ∧ base.toNat % 256 + i.toNat > 255 then
    [BitVec.ofNat 16 (base.toNat / 256 * 256 + (base.toNat + i.toNat) % 256)]
  else []

/-- The reads that precede the access at the effective address (R145 to R155). -/
def addressReads (s : State) : Mem → List Word
  | .zp _ => []
  | .zpx b => [zext b]
  | .zpy b => [zext b]
  | .abs _ => []
  | .abx f w => fixupReads f w s.x
  | .aby f w => fixupReads f w s.y
  | .izx b => [zext b, zext (b + s.x), zext (b + s.x + 1)]
  | .izy f b => [zext b, zext (b + 1)] ++ fixupReads f (pointerAt s b) s.y

/-! ### What an instruction of each kind gives -/

/-- A read-kind instruction (R144) completes: it takes the operand byte `m`, changes the registers by `r m` and writes the
flags `fl m`; memory and everything else is as it was. -/
def ReadGives (s : State) (i : Instr) (o : Mem) (r : Byte → State → State) (fl : Byte → List (Flag × Bool)) : Prop :=
  ∃ m u q, readOperand o s = .ok (m, u) ∧ u = busMarks s u ∧ FlagsSet (fl m) s.p q ∧
    exec i s = .next { r m u with p := q }

/-- An immediate instruction (R143) completes, with no cycle after its fetch. -/
def ImmediateGives (s : State) (i : Instr) (r : State → State) (fl : List (Flag × Bool)) : Prop :=
  ∃ q, FlagsSet fl s.p q ∧ exec i s = .next { r s with p := q }

/-- An implied or accumulator instruction (R142) completes, with one dummy read at `PC`. -/
def ImpliedGives (s : State) (i : Instr) (r : State → State) (fl : List (Flag × Bool)) : Prop :=
  ∃ u q, u = busMarks s u ∧ Drives s u [(s.pc, .read)] ∧ FlagsSet fl s.p q ∧ exec i s = .next { r u with p := q }

/-- A write-kind instruction (R144) completes: it stores `v` at the effective address and changes nothing else. -/
def StoreGives (s : State) (i : Instr) (o : Mem) (v : Byte) : Prop :=
  ∃ ea u t, effectiveAddress o s = .ok (ea, u) ∧ exec i s = .next t ∧ t = { busMarks s t with mem := t.mem } ∧
    Stores s t [(ea, v)] ∧ t.cycles = u.cycles + 1 ∧ t.trace = u.trace ++ [⟨ea, v, .write, false⟩]

/-- What a read-modify-write does with the byte it reads: the byte to store, the accumulator after it, the flags written. -/
structure Modified where
  value : Byte
  a : Byte
  flags : List (Flag × Bool)

/-- A read-modify-write instruction (R144) completes: it reads `m`, writes `m` back, writes the new byte; `A` and the flags
are as `r m` says, all else is as it was. -/
def ModifyGives (s : State) (i : Instr) (o : Mem) (r : Byte → Modified) : Prop :=
  ∃ ea u m v q t, effectiveAddress o s = .ok (ea, u) ∧ memRead ea u = .ok (m, v) ∧ exec i s = .next t ∧
    FlagsSet (r m).flags s.p q ∧ t = { busMarks s t with a := (r m).a, p := q, mem := t.mem } ∧
    Stores s t [(ea, (r m).value)] ∧ t.cycles = v.cycles + 2 ∧
    t.trace = v.trace ++ [⟨ea, m, .write, false⟩, ⟨ea, (r m).value, .write, false⟩]

/-! ### Arithmetic as the rules state it, in integers -/

/-- A byte result with the flags it writes. -/
structure Result where
  value : Byte
  flags : List (Flag × Bool)

/-- An integer outside the signed byte range (R175). -/
def outOfRange (n : Int) : Bool := decide (n < -128 ∨ 127 < n)

/-- ADC (R175, R186): the binary sum, or in decimal mode the corrected sum with the flags of the rule's quirk. -/
def additionOf (decimal : Bool) (a m : Byte) (c : Bool) : Result :=
  let bin := a.toNat + m.toNat + c.toNat
  if decimal then
    let low := a.toNat % 16 + m.toNat % 16 + c.toNat
    let low := if low ≥ 10 then (low + 6) % 16 + 16 else low
    let s := a.toNat / 16 * 16 + m.toNat / 16 * 16 + low
    let sum := if s ≥ 160 then s + 96 else s
    ⟨BitVec.ofNat 8 sum,
     [(.c, decide (sum ≥ 256)), (.z, decide (bin % 256 = 0)), (.n, s.testBit 7),
      (.v, a.getLsbD 7 == m.getLsbD 7 && a.getLsbD 7 != s.testBit 7)]⟩
  else
    ⟨BitVec.ofNat 8 bin,
     [(.c, decide (bin ≥ 256)), (.z, decide (bin % 256 = 0)), (.n, bin.testBit 7),
      (.v, outOfRange (a.toInt + m.toInt + c.toNat))]⟩

/-- SBC (R180, R187): the carry is an inverted borrow; the flags are those of the binary difference in both modes. -/
def subtractionOf (decimal : Bool) (a m : Byte) (c : Bool) : Result :=
  let diff : Int := (a.toNat : Int) - m.toNat - (1 - (c.toNat : Int))
  let low : Int := (a.toNat % 16 : Nat) - ((m.toNat % 16 : Nat) : Int) - (1 - (c.toNat : Int))
  let low := if low < 0 then (low - 6) % 16 - 16 else low
  let s : Int := (a.toNat / 16 * 16 : Nat) - ((m.toNat / 16 * 16 : Nat) : Int) + low
  ⟨BitVec.ofInt 8 (if decimal then (if s < 0 then s - 96 else s) else diff),
   [(.c, decide (0 ≤ diff)), (.z, decide (diff % 256 = 0)), (.n, decide (128 ≤ diff % 256)),
    (.v, outOfRange (a.toInt - m.toInt - (1 - (c.toNat : Int))))]⟩

/-- The flags of a compare (R195). -/
def comparisonOf (r m : Byte) : List (Flag × Bool) :=
  [(.c, decide (m.toNat ≤ r.toNat)), (.z, r == m), (.n, decide (128 ≤ ((r.toNat : Int) - m.toNat) % 256))]

/-- ASL (R191). -/
def shiftLeftOf (v : Byte) : Result :=
  ⟨BitVec.ofNat 8 (2 * v.toNat), [(.c, decide (128 ≤ v.toNat)), (.z, decide (v.toNat % 128 = 0)), (.n, v.getLsbD 6)]⟩

/-- LSR (R192). -/
def shiftRightOf (v : Byte) : Result :=
  ⟨BitVec.ofNat 8 (v.toNat / 2), [(.c, decide (v.toNat % 2 = 1)), (.z, decide (v.toNat < 2)), (.n, false)]⟩

/-- ROL (R193). -/
def rotateLeftOf (c : Bool) (v : Byte) : Result :=
  ⟨BitVec.ofNat 8 (2 * v.toNat + c.toNat),
   [(.c, decide (128 ≤ v.toNat)), (.z, decide (v.toNat % 128 = 0 ∧ c = false)), (.n, v.getLsbD 6)]⟩

/-- ROR (R194). -/
def rotateRightOf (c : Bool) (v : Byte) : Result :=
  ⟨BitVec.ofNat 8 (v.toNat / 2 + 128 * c.toNat),
   [(.c, decide (v.toNat % 2 = 1)), (.z, decide (v.toNat < 2 ∧ c = false)), (.n, c)]⟩

/-- INC, INX, INY (R196). -/
def incrementOf (v : Byte) : Result := ⟨BitVec.ofNat 8 (v.toNat + 1), znOf (BitVec.ofNat 8 (v.toNat + 1))⟩

/-- DEC, DEX, DEY (R197). -/
def decrementOf (v : Byte) : Result := ⟨BitVec.ofNat 8 (v.toNat + 255), znOf (BitVec.ofNat 8 (v.toNat + 255))⟩

/-- ARR (R340). -/
def andRotateOf (decimal : Bool) (a m : Byte) (c : Bool) : Result :=
  let t := (a &&& m).toNat
  let r := t / 2 + 128 * c.toNat
  let zn : List (Flag × Bool) :=
    [(.n, c), (.z, decide (r = 0)), (.v, r.testBit 6 != r.testBit 5)]
  if decimal then
    let low := if t % 16 + t % 2 > 5 then r / 16 * 16 + (r + 6) % 16 else r
    let carry := decide (t / 16 * 16 + t / 16 % 2 * 16 > 80)
    ⟨BitVec.ofNat 8 (if carry then low + 96 else low), (.c, carry) :: zn⟩
  else ⟨BitVec.ofNat 8 r, (.c, r.testBit 6) :: zn⟩

/-! ### The writers and the cycles of the opcode table -/

/-- The opcodes whose rules write `A` (R21). -/
def accumulatorWriters : List Byte :=
    [0x01, 0x03, 0x05, 0x07, 0x09, 0x0A, 0x0B, 0x0D, 0x0F, 0x11, 0x13, 0x15, 0x17, 0x19, 0x1B, 0x1D, 0x1F, 0x21,
    0x23, 0x25, 0x27, 0x29, 0x2A, 0x2B, 0x2D, 0x2F, 0x31, 0x33, 0x35, 0x37, 0x39, 0x3B, 0x3D, 0x3F, 0x41, 0x43,
    0x45, 0x47, 0x49, 0x4A, 0x4B, 0x4D, 0x4F, 0x51, 0x53, 0x55, 0x57, 0x59, 0x5B, 0x5D, 0x5F, 0x61, 0x63, 0x65,
    0x67, 0x68, 0x69, 0x6A, 0x6B, 0x6D, 0x6F, 0x71, 0x73, 0x75, 0x77, 0x79, 0x7B, 0x7D, 0x7F, 0x8A, 0x8B, 0x98,
    0xA1, 0xA3, 0xA5, 0xA7, 0xA9, 0xAB, 0xAD, 0xAF, 0xB1, 0xB3, 0xB5, 0xB7, 0xB9, 0xBB, 0xBD, 0xBF, 0xE1, 0xE3,
    0xE5, 0xE7, 0xE9, 0xEB, 0xED, 0xEF, 0xF1, 0xF3, 0xF5, 0xF7, 0xF9, 0xFB, 0xFD, 0xFF]

/-- The opcodes that write `X`: LDX, TAX, TSX, INX, DEX, LAX, LXA, SBX, LAS (R21). -/
def xWriters : List Byte :=
    [0xA2, 0xA3, 0xA6, 0xA7, 0xAA, 0xAB, 0xAE, 0xAF, 0xB3, 0xB6, 0xB7, 0xBA, 0xBB, 0xBE, 0xBF, 0xCA, 0xCB, 0xE8]

/-- The opcodes that write `Y`: LDY, TAY, INY, DEY (R21). -/
def yWriters : List Byte :=
    [0x88, 0xA0, 0xA4, 0xA8, 0xAC, 0xB4, 0xBC, 0xC8]

/-- The opcodes that write `S`: TXS, pushes, pulls, JSR, RTS, RTI, BRK, TAS, LAS (R21). -/
def stackPointerWriters : List Byte :=
    [0x00, 0x08, 0x20, 0x28, 0x40, 0x48, 0x60, 0x68, 0x9A, 0x9B, 0xBB]

/-- The opcodes that write `D`: SED, CLD, PLP, RTI (R30). -/
def decimalWriters : List Byte :=
    [0x28, 0x40, 0xD8, 0xF8]

/-- The opcodes that write `I`: SEI, CLI, BRK, PLP, RTI (R29). -/
def maskWriters : List Byte :=
    [0x00, 0x28, 0x40, 0x58, 0x78]

/-- The opcodes that write `V`: ADC, SBC, BIT, CLV, PLP, RTI, RRA, ISC, ARR (R32). -/
def overflowWriters : List Byte :=
    [0x24, 0x28, 0x2C, 0x40, 0x61, 0x63, 0x65, 0x67, 0x69, 0x6B, 0x6D, 0x6F, 0x71, 0x73, 0x75, 0x77, 0x79, 0x7B,
    0x7D, 0x7F, 0xB8, 0xE1, 0xE3, 0xE5, 0xE7, 0xE9, 0xEB, 0xED, 0xEF, 0xF1, 0xF3, 0xF5, 0xF7, 0xF9, 0xFB, 0xFD,
    0xFF]

/-- The opcodes that write `C` (R27). -/
def carryWriters : List Byte :=
    [0x03, 0x06, 0x07, 0x0A, 0x0B, 0x0E, 0x0F, 0x13, 0x16, 0x17, 0x18, 0x1B, 0x1E, 0x1F, 0x23, 0x26, 0x27, 0x28,
    0x2A, 0x2B, 0x2E, 0x2F, 0x33, 0x36, 0x37, 0x38, 0x3B, 0x3E, 0x3F, 0x40, 0x43, 0x46, 0x47, 0x4A, 0x4B, 0x4E,
    0x4F, 0x53, 0x56, 0x57, 0x5B, 0x5E, 0x5F, 0x61, 0x63, 0x65, 0x66, 0x67, 0x69, 0x6A, 0x6B, 0x6D, 0x6E, 0x6F,
    0x71, 0x73, 0x75, 0x76, 0x77, 0x79, 0x7B, 0x7D, 0x7E, 0x7F, 0xC0, 0xC1, 0xC3, 0xC4, 0xC5, 0xC7, 0xC9, 0xCB,
    0xCC, 0xCD, 0xCF, 0xD1, 0xD3, 0xD5, 0xD7, 0xD9, 0xDB, 0xDD, 0xDF, 0xE0, 0xE1, 0xE3, 0xE4, 0xE5, 0xE7, 0xE9,
    0xEB, 0xEC, 0xED, 0xEF, 0xF1, 0xF3, 0xF5, 0xF7, 0xF9, 0xFB, 0xFD, 0xFF]

/-- The control transfers: branches, jumps, calls, returns, BRK (46_control_flow.md). -/
def transferOpcodes : List Byte :=
    [0x00, 0x10, 0x20, 0x30, 0x40, 0x4C, 0x50, 0x60, 0x6C, 0x70, 0x90, 0xB0, 0xD0, 0xF0]

/-- The opcodes that store: write kind, read-modify-write kind, PHA, PHP, JSR, BRK. -/
def storingOpcodes : List Byte :=
    [0x00, 0x03, 0x06, 0x07, 0x08, 0x0E, 0x0F, 0x13, 0x16, 0x17, 0x1B, 0x1E, 0x1F, 0x20, 0x23, 0x26, 0x27, 0x2E,
    0x2F, 0x33, 0x36, 0x37, 0x3B, 0x3E, 0x3F, 0x43, 0x46, 0x47, 0x48, 0x4E, 0x4F, 0x53, 0x56, 0x57, 0x5B, 0x5E,
    0x5F, 0x63, 0x66, 0x67, 0x6E, 0x6F, 0x73, 0x76, 0x77, 0x7B, 0x7E, 0x7F, 0x81, 0x83, 0x84, 0x85, 0x86, 0x87,
    0x8C, 0x8D, 0x8E, 0x8F, 0x91, 0x93, 0x94, 0x95, 0x96, 0x97, 0x99, 0x9B, 0x9C, 0x9D, 0x9E, 0x9F, 0xC3, 0xC6,
    0xC7, 0xCE, 0xCF, 0xD3, 0xD6, 0xD7, 0xDB, 0xDE, 0xDF, 0xE3, 0xE6, 0xE7, 0xEE, 0xEF, 0xF3, 0xF6, 0xF7, 0xFB,
    0xFE, 0xFF]

/-- The cycles of each opcode, the opcode fetch included, before any extra cycle: the `cycles` column of the opcode table
(R471). -/
def baseCycles : List Nat :=
  [7, 6, 5, 8, 3, 3, 5, 5, 3, 2, 2, 2, 4, 4, 6, 6, 2, 5, 5, 8, 4, 4, 6, 6, 2, 4, 2, 7, 4, 4, 7, 7] ++
  [6, 6, 5, 8, 3, 3, 5, 5, 4, 2, 2, 2, 4, 4, 6, 6, 2, 5, 5, 8, 4, 4, 6, 6, 2, 4, 2, 7, 4, 4, 7, 7] ++
  [6, 6, 5, 8, 3, 3, 5, 5, 3, 2, 2, 2, 3, 4, 6, 6, 2, 5, 5, 8, 4, 4, 6, 6, 2, 4, 2, 7, 4, 4, 7, 7] ++
  [6, 6, 5, 8, 3, 3, 5, 5, 4, 2, 2, 2, 5, 4, 6, 6, 2, 5, 5, 8, 4, 4, 6, 6, 2, 4, 2, 7, 4, 4, 7, 7] ++
  [2, 6, 2, 6, 3, 3, 3, 3, 2, 2, 2, 2, 4, 4, 4, 4, 2, 6, 5, 6, 4, 4, 4, 4, 2, 5, 2, 5, 5, 5, 5, 5] ++
  [2, 6, 2, 6, 3, 3, 3, 3, 2, 2, 2, 2, 4, 4, 4, 4, 2, 5, 5, 5, 4, 4, 4, 4, 2, 4, 2, 4, 4, 4, 4, 4] ++
  [2, 6, 2, 8, 3, 3, 5, 5, 2, 2, 2, 2, 4, 4, 6, 6, 2, 5, 5, 8, 4, 4, 6, 6, 2, 4, 2, 7, 4, 4, 7, 7] ++
  [2, 6, 2, 8, 3, 3, 5, 5, 2, 2, 2, 2, 4, 4, 6, 6, 2, 5, 5, 8, 4, 4, 6, 6, 2, 4, 2, 7, 4, 4, 7, 7]

/-- The most extra cycles an opcode can take: one where an index can cross a page, two for a branch (R471). -/
def extraCycles : List Nat :=
  [0, 0, 0, 0, 0, 0, 0, 0, 0, 0, 0, 0, 0, 0, 0, 0, 2, 1, 0, 0, 0, 0, 0, 0, 0, 1, 0, 0, 1, 1, 0, 0] ++
  [0, 0, 0, 0, 0, 0, 0, 0, 0, 0, 0, 0, 0, 0, 0, 0, 2, 1, 0, 0, 0, 0, 0, 0, 0, 1, 0, 0, 1, 1, 0, 0] ++
  [0, 0, 0, 0, 0, 0, 0, 0, 0, 0, 0, 0, 0, 0, 0, 0, 2, 1, 0, 0, 0, 0, 0, 0, 0, 1, 0, 0, 1, 1, 0, 0] ++
  [0, 0, 0, 0, 0, 0, 0, 0, 0, 0, 0, 0, 0, 0, 0, 0, 2, 1, 0, 0, 0, 0, 0, 0, 0, 1, 0, 0, 1, 1, 0, 0] ++
  [0, 0, 0, 0, 0, 0, 0, 0, 0, 0, 0, 0, 0, 0, 0, 0, 2, 0, 0, 0, 0, 0, 0, 0, 0, 0, 0, 0, 0, 0, 0, 0] ++
  [0, 0, 0, 0, 0, 0, 0, 0, 0, 0, 0, 0, 0, 0, 0, 0, 2, 1, 0, 1, 0, 0, 0, 0, 0, 1, 0, 1, 1, 1, 1, 1] ++
  [0, 0, 0, 0, 0, 0, 0, 0, 0, 0, 0, 0, 0, 0, 0, 0, 2, 1, 0, 0, 0, 0, 0, 0, 0, 1, 0, 0, 1, 1, 0, 0] ++
  [0, 0, 0, 0, 0, 0, 0, 0, 0, 0, 0, 0, 0, 0, 0, 0, 2, 1, 0, 0, 0, 0, 0, 0, 0, 1, 0, 0, 1, 1, 0, 0]

/-! ### The state that dispatch receives -/

/-- The events of fetching `n` bytes at `PC` (R213, R141): the first one is the opcode fetch. -/
def fetchEvents (s : State) (n : Nat) : List BusEvent :=
  (List.range n).map fun k =>
    ⟨s.pc + BitVec.ofNat 16 k, byteAt s (s.pc + BitVec.ofNat 16 k), .read, decide (k = 0)⟩

/-- `s` after a step has applied the SO latch and fetched `n > 0` readable bytes at `PC` (R211, R213, R141). -/
def fetched (s : State) (n : Nat) : State :=
  { applySo s with
    pc := s.pc + BitVec.ofNat 16 n
    ir := byteAt s s.pc
    cycles := s.cycles + n
    addr := s.pc + BitVec.ofNat 16 (n - 1)
    data := byteAt s (s.pc + BitVec.ofNat 16 (n - 1))
    trace := s.trace ++ fetchEvents s n
    pins := { s.pins with sync := .lowered, rd := .raised } }

/-! ### Packed decimal digits -/

/-- Both nibbles are decimal digits (R464). -/
def validDigits (v : Byte) : Prop := v.toNat / 16 ≤ 9 ∧ v.toNat % 16 ≤ 9

/-- The number that two decimal digits write. -/
def digitsValue (v : Byte) : Nat := v.toNat / 16 * 10 + v.toNat % 16

end Sys2Proof.Machine
end

