-- ==== Sys2Proof/Certificates/Slice0/Obligations.lean ====
section
/-! DEFINITION. The statements for the provers. Helpers they share stand in Safety.lean. -/

open Sys2Proof Sys2Proof.Machine Sys2Proof.Config

/-- Decoding the encoding of any instruction, whatever follows it, gives that instruction and leaves what follows
(R110, R111, R113, R118). -/
def Obligations.DecodeOfEncode : Prop :=
  ∀ (i : Instr) (rest : List Byte), decode (encode i ++ rest) = .ok (i, rest)

/-- Bytes that decode are the encoding of what they decode to, followed by the rest (R110, R111, R113, R118). -/
def Obligations.EncodeOfDecode : Prop :=
  ∀ (l rest : List Byte) (i : Instr), decode l = .ok (i, rest) → l = encode i ++ rest

/-- There is no reserved encoding (R120): every opcode byte begins an instruction of one to three bytes (R110, R111),
whose length the opcode byte alone determines (R112). -/
def Obligations.EveryOpcodeIsDefined : Prop :=
  ∀ op b1 b2 : Byte, (encode (decodeOp op b1 b2)).head? = some op ∧
    1 ≤ (encode (decodeOp op b1 b2)).length ∧ (encode (decodeOp op b1 b2)).length ≤ 3 ∧
    (∀ c1 c2, (encode (decodeOp op c1 c2)).length = (encode (decodeOp op b1 b2)).length) ∧
    ∀ rest, ∃ rest', decode (op :: b1 :: b2 :: rest) = .ok (decodeOp op b1 b2, rest')

/-- The examples of R124, one per operand mode, and one undocumented opcode (R121), byte by byte. -/
def Obligations.SampleWordsDecode : Prop :=
  decode [0x18] = .ok (.clc, []) ∧ decode [0x0A] = .ok (.aslAcc, []) ∧
  decode [0x69, 0x7C] = .ok (.adcImm 0x7C, []) ∧ decode [0xA5, 0x10] = .ok (.ldaZp 0x10, []) ∧
  decode [0xB5, 0x10] = .ok (.ldaZpx 0x10, []) ∧ decode [0xB6, 0x10] = .ok (.ldxZpy 0x10, []) ∧
  decode [0xAD, 0x34, 0x12] = .ok (.ldaAbs 0x1234, []) ∧ decode [0xBD, 0x34, 0x12] = .ok (.ldaAbx 0x1234, []) ∧
  decode [0xB9, 0x34, 0x12] = .ok (.ldaAby 0x1234, []) ∧ decode [0x6C, 0x34, 0x12] = .ok (.jmpInd 0x1234, []) ∧
  decode [0xA1, 0x10] = .ok (.ldaIzx 0x10, []) ∧ decode [0xB1, 0x10] = .ok (.ldaIzy 0x10, []) ∧
  decode [0xD0, 0x03] = .ok (.bne 0x03, []) ∧ decode [0x20, 0x00, 0x03] = .ok (.jsrAbs 0x0300, []) ∧
  decode [0x07, 0x10] = .ok (.sloZp 0x10, [])

/-- The values of `State.reset` that R52 and R410 fix, the count being 7 from the power-on edge's 0. The bytes and the
starting registers behind them are the model's (notes/assumptions/1.md to 6.md) and are not stated here; that the
profile is NMOS6502 is the choice of notes/assumptions/7.md. -/
def Obligations.ResetStateIsAsR52Says : Prop :=
  flag .i State.reset.p = true ∧ State.reset.p.getLsbD 5 = true ∧ State.reset.p.getLsbD 4 = false ∧
  State.reset.run = .running ∧ State.reset.pendReset = false ∧ State.reset.pendSo = false ∧
  State.reset.pins.sync = .lowered ∧ State.reset.pins.rd = .raised ∧ State.reset.pins.wr = .raised ∧
  State.reset.addr = 0xFFFD ∧ State.reset.cycles = 7 ∧ State.reset.variant = .nmos6502 ∧
  State.reset.trace.head?.map (fun e => e.data) = some State.reset.ir ∧
  ∃ pc l h, State.reset.trace.map (fun e => (e.addr, e.action, e.sync)) =
      [(pc, .read, true), (pc, .read, false), (wordOf 0x01 (State.reset.sp + 3), .read, false),
       (wordOf 0x01 (State.reset.sp + 2), .read, false), (wordOf 0x01 (State.reset.sp + 1), .read, false),
       (0xFFFC, .read, false), (0xFFFD, .read, false)] ∧
    (State.reset.trace.map (fun e => e.data)).drop 5 = [l, h] ∧ State.reset.data = h ∧ State.reset.pc = wordOf h l

/-- The invariant that every step keeps holds of `State.reset` (R31, R72, R213; the memory and the map of the reset
state are the model's, notes/assumptions/5.md and 6.md). -/
def Obligations.ResetStateMeetsTheInvariant : Prop :=
  Sys2Proof.Machine.Inv State.reset

/-- Whatever a step is (an instruction, an entry, a stall, a jam cycle), it keeps the reserved bits of `P` (R31), the
legal map (R72), the outputs de-asserted between cycles (R213, R76, R77) and the memory's canonical form. -/
def Obligations.EveryStepKeepsTheInvariant : Prop :=
  ∀ s t, Sys2Proof.Machine.Inv s → step s = .next t → Sys2Proof.Machine.Inv t

/-- A cold start as R450 describes it: the power-on edge clears latches, counter and trace (R46), the RESET edge sets
its latch (R44), and the step that follows leaves what R52 says. -/
def Obligations.ColdStartReachesTheResetVector : Prop :=
  ∀ s, s.pins.power = .lowered → s.pins.reset = .raised → s.pins.rdy = .raised → s.variant = .nmos6502 → AllMapped s →
    let ready := (drivePin .reset .lowered (drivePin .power .raised s).2).2
    ∃ t l h p, step ready = .next t ∧
      t = { busMarks s t with
            pc := wordOf h l, sp := s.sp - 3, p := p, ir := t.ir, run := .running, pendReset := false, pendNmi := false,
            pendIrq := false, pendSo := false,
            pins := { s.pins with power := .raised, reset := .lowered, sync := .lowered, rd := .raised, wr := .raised } } ∧
      FlagsSet [(.i, true)] s.p p ∧ t.cycles = 7 ∧
      t.trace.map (fun e => (e.addr, e.action)) =
        [(s.pc, .read), (s.pc, .read), (slotBelow s 0, .read), (slotBelow s 1, .read), (slotBelow s 2, .read),
         (0xFFFC, .read), (0xFFFD, .read)] ∧
      ReadsAs s 0xFFFC l ∧ ReadsAs s 0xFFFD h

/-- The step at a boundary with nothing to service is `Execute` of the fetched instruction (R211, R215), at the state
that the fetch leaves (R213, R141): `fetched s n` spells it out. JSR reads its third byte itself (R292). -/
def Obligations.StepRunsDecodedInstruction : Prop :=
  ∀ (s : State) (i : Instr) (rest : List Byte), Ready s →
    decode [byteAt s s.pc, byteAt s (s.pc + 1), byteAt s (s.pc + 2)] = .ok (i, rest) →
    let n := if byteAt s s.pc = 0x20 then 2 else (encode i).length
    (∀ k < n, Readable s (s.pc + BitVec.ofNat 16 k)) →
    step s = exec i (fetched s n)

/-- The three kinds of step that execute nothing: not powered (R46, R211); a profile whose table is OPEN; `RDY`
lowered (R214; R211 applies the SO latch first). The second clause is the DESIGN CHOICE of notes/assumptions/7.md:
R386 says that every opcode of such a profile is refused, the model refuses its powered steps as a whole. -/
def Obligations.StepsThatExecuteNothing : Prop :=
  (∀ s, s.pins.power = .lowered → step s = .next s) ∧
  (∀ s, s.pins.power = .raised → s.variant ≠ .nmos6502 → step s = .refused (.openProfile s.variant)) ∧
  ∀ s, s.pins.power = .raised → s.variant = .nmos6502 → s.pins.rdy = .lowered → (s.run = .running ∨ s.pendReset = true) →
    s.pins.sync = .lowered → Mapped s s.pc →
    ∃ t v, step s = .next t ∧ t = busMarks (applySo s) t ∧ t.cycles = s.cycles + 1 ∧
      t.trace = s.trace ++ [⟨s.pc, v, .read, true⟩] ∧ ReadsAs s s.pc v

/-- No number of steps leaves the jam, whatever latches but `pend_reset` are set (R220, R423): induction over the run.
-/
def Obligations.JamLastsUntilReset : Prop :=
  ∀ (n : Nat) (s : State), 0 < n → s.pins.power = .raised → s.variant = .nmos6502 → s.run = .jammed →
    s.pendReset = false → Mapped s 0xFFFF →
    ∃ t, Host.Core.run Sys2Proof.core n s = .next t ∧ t = busMarks (applySo s) t ∧
      Drives s t (List.replicate n (0xFFFF, .read))

/-- An asserting edge on `SO` sets `pend_so`; at the next fetch boundary, before any other action of the step, `P.V <-
1` and `pend_so <- 0` (R45). -/
def Obligations.SoLatchSetsOverflowFirst : Prop :=
  (∀ s : State, s.pins.power = .raised → s.variant = .nmos6502 → s.pins.so = .raised →
    drivePin .so .lowered s = (.fellEdge, { s with pendSo := true, pins := { s.pins with so := .lowered } })) ∧
  (∀ s : State, s.pins.power = .raised → s.variant = .nmos6502 → s.pendSo = true →
    step s = step { s with p := s.p ||| 0x40, pendSo := false }) ∧
  ∀ s t, s.pins.power = .raised → step s = .next t → t.pendSo = false

/-- `ResetSequence()` (R410): taken before NMI and IRQ, which stay latched (R405), and the only way out of a jam
(R423). -/
def Obligations.ResetIsServicedFirst : Prop :=
  ∀ s, s.pins.power = .raised → s.variant = .nmos6502 → s.pins.rdy = .raised → s.pins.sync = .lowered →
    s.pendReset = true → AllMapped s →
    ∃ t l h p, step s = .next t ∧
      t = { busMarks (applySo s) t with
            pc := wordOf h l, sp := s.sp - 3, p := p, ir := t.ir, pendReset := false, run := .running } ∧
      FlagsSet [(.i, true)] (applySo s).p p ∧ ReadsAs s s.pc t.ir ∧
      Drives s t [(s.pc, .read), (s.pc, .read), (slotBelow s 0, .read), (slotBelow s 1, .read), (slotBelow s 2, .read),
        (0xFFFC, .read), (0xFFFD, .read)] ∧
      ReadsAs s 0xFFFC l ∧ ReadsAs s 0xFFFD h

/-- `InterruptSequence(NMI)` (R411), taken before IRQ and not masked by `I` (R405). -/
def Obligations.NmiEntry : Prop :=
  ∀ s, s.pins.power = .raised → s.variant = .nmos6502 → s.run = .running → s.pins.rdy = .raised →
    s.pins.sync = .lowered → s.pendReset = false → s.pendNmi = true → AllMapped s →
    ∃ t l h p, step s = .next t ∧
      t = { busMarks (applySo s) t with
            pc := wordOf h l, sp := s.sp - 3, p := p, ir := t.ir, pendNmi := false, mem := t.mem } ∧
      FlagsSet [(.i, true)] (applySo s).p p ∧ ReadsAs s s.pc t.ir ∧
      Stores s t [(slotBelow s 2, ((applySo s).p ||| 0x20) &&& 0xEF), (slotBelow s 1, lo s.pc), (slotBelow s 0, hi s.pc)] ∧
      Drives s t [(s.pc, .read), (s.pc, .read), (slotBelow s 0, .write), (slotBelow s 1, .write), (slotBelow s 2, .write),
        (0xFFFA, .read), (0xFFFB, .read)] ∧
      ReadsAs s 0xFFFA l ∧ ReadsAs s 0xFFFB h

/-- `InterruptSequence(IRQ)` (R412), selected only with `P.I = 0` and nothing of higher priority pending (R405). -/
def Obligations.IrqEntry : Prop :=
  ∀ s, s.pins.power = .raised → s.variant = .nmos6502 → s.run = .running → s.pins.rdy = .raised →
    s.pins.sync = .lowered → s.pendReset = false → s.pendNmi = false → s.pendIrq = true → flag .i s.p = false → AllMapped s →
    ∃ t l h p, step s = .next t ∧
      t = { busMarks (applySo s) t with
            pc := wordOf h l, sp := s.sp - 3, p := p, ir := t.ir, pendIrq := false, mem := t.mem } ∧
      FlagsSet [(.i, true)] (applySo s).p p ∧ ReadsAs s s.pc t.ir ∧
      Stores s t [(slotBelow s 2, ((applySo s).p ||| 0x20) &&& 0xEF), (slotBelow s 1, lo s.pc), (slotBelow s 0, hi s.pc)] ∧
      Drives s t [(s.pc, .read), (s.pc, .read), (slotBelow s 0, .write), (slotBelow s 1, .write), (slotBelow s 2, .write),
        (0xFFFE, .read), (0xFFFF, .read)] ∧
      ReadsAs s 0xFFFE l ∧ ReadsAs s 0xFFFF h

/-- "IRQ is ignored when the interrupt-mask flag is set" (R406): a masked IRQ has no influence on a step, and no
instruction clears the latch. -/
def Obligations.MaskedIrqIsIgnored : Prop :=
  ∀ s t : State, flag .i s.p = true → step { s with pendIrq := false } = .next t →
    step { s with pendIrq := true } = .next { t with pendIrq := true }

/-- `SYNC/M1` is raised for the opcode fetch or the stall read only (R213, R214); a jam cycle does not raise it
(R220). -/
def Obligations.SyncMarksTheFetchOnly : Prop :=
  ∀ s t, s.pins.power = .raised → s.pins.sync = .lowered → step s = .next t →
    ∃ e es, t.trace = s.trace ++ e :: es ∧ (∀ x ∈ es, x.sync = false) ∧
      (e.sync = true ↔ ¬(s.run = .jammed ∧ s.pendReset = false)) ∧
      (e.sync = true → e.addr = s.pc ∧ e.action = .read)

/-- One tick is one bus transaction (R74): each counts once, latches `ADDR` and `DATA` and appends one event (R75). -/
def Obligations.EveryCycleIsCountedAndTraced : Prop :=
  ∀ s t, step s = .next t →
    ∃ es, t.trace = s.trace ++ es ∧ t.cycles = s.cycles + es.length ∧
      ∀ e ∈ es.getLast?, t.addr = e.addr ∧ t.data = e.data

/-- Memory changes only through bus write cycles, each of which is in the trace with its data (R75, R77). -/
def Obligations.MemoryChangesOnlyByTracedWrites : Prop :=
  ∀ s t, step s = .next t →
    ∃ es, t.trace = s.trace ++ es ∧
      ∀ b, byteAt t b ≠ byteAt s b → Writable s b ∧ ∃ e ∈ es, e.action = .write ∧ e.addr = b ∧ e.data = byteAt t b

/-- The parameters of the step (R51), the levels the board drives (R41) and read-only storage (R81, R436). -/
def Obligations.ThePlatformIsNeverChanged : Prop :=
  ∀ s t, step s = .next t →
    t.regions = s.regions ∧ t.variant = s.variant ∧ (∀ pin, t.pins.level pin = s.pins.level pin) ∧
      ∀ b, ¬Writable s b → byteAt t b = byteAt s b ∧ t.mem.loaded b.toNat = s.mem.loaded b.toNat

/-- No instruction reads `cycles` (R49); a program cannot observe the trace (R434). -/
def Obligations.NothingReadsTheCycleCounterOrTheTrace : Prop :=
  ∀ (s t : State) (n : Nat) (l : List BusEvent), step s = .next t →
    step { s with cycles := s.cycles + n, trace := l ++ s.trace } =
      .next { t with cycles := t.cycles + n, trace := l ++ t.trace }

/-- The `cycles` column of the opcode table (R471), for all 256 opcodes; R218: between 2 and 8. -/
def Obligations.CycleCountsFollowTheOpcodeTable : Prop :=
  ∀ s t, Ready s → step s = .next t →
    let base := baseCycles.getD t.ir.toNat 0
    s.cycles + base ≤ t.cycles ∧ t.cycles ≤ s.cycles + base + extraCycles.getD t.ir.toNat 0 ∧
      2 ≤ cyclesOf s t ∧ cyclesOf s t ≤ 8

/-- An instruction of length `n` leaves `PC = start + n` unless it is a control transfer (R23, R436). -/
def Obligations.PcAdvancesByTheInstructionLength : Prop :=
  ∀ s t, Ready s → step s = .next t → t.ir ∉ transferOpcodes → t.pc = s.pc + BitVec.ofNat 16 (lengthOf t.ir)

/-- The writers that R21 (registers), R27 (`C`), R29 (`I`), R30 (`D`) and R32 (`V`) name, as lists of opcodes; a
promise over all 256 instructions. -/
def Obligations.RegistersAndFlagsHaveTheirWriters : Prop :=
  ∀ i s t, s.variant = .nmos6502 → exec i s = .next t →
    let op := (encode i).headD 0
    (t.a ≠ s.a → op ∈ accumulatorWriters) ∧ (t.x ≠ s.x → op ∈ xWriters) ∧ (t.y ≠ s.y → op ∈ yWriters) ∧
    (t.sp ≠ s.sp → op ∈ stackPointerWriters) ∧ (flag .d t.p ≠ flag .d s.p → op ∈ decimalWriters) ∧
    (flag .i t.p ≠ flag .i s.p → op ∈ maskWriters) ∧ (flag .v t.p ≠ flag .v s.p → op ∈ overflowWriters) ∧
    (flag .c t.p ≠ flag .c s.p → op ∈ carryWriters) ∧ (t.mem ≠ s.mem → op ∈ storingOpcodes) ∧
    t.ir = s.ir ∧ t.other = s.other ∧ t.pendReset = s.pendReset ∧ t.pendNmi = s.pendNmi ∧ t.pendIrq = s.pendIrq ∧ t.pendSo = s.pendSo

/-- The only stop is `BusContractViolation(addr)` (R79, R422); no opcode traps, none needs a privilege (R400, R430). A
step reaches `exec` in profile NMOS6502 alone. -/
def Obligations.AnInstructionStopsOnlyAtAnUnmappedAddress : Prop :=
  (∀ i s, (∃ t, exec i s = .next t) ∨ ∃ a, exec i s = .fault (.busContractViolation a) ∧ s.regionAt a = none) ∧
  ∀ i s, AllMapped s → ∃ t, exec i s = .next t

/-- `MemRead` and `MemWrite` (R76, R77) with the marks of R75, the refused accesses (R81, R82) and the violation
(R79). The read event is marked when `SYNC` is raised. R82 leaves the byte of a write-only read unspecified: that it
is `freeByte` at a counter which each such read advances is the DESIGN CHOICE of notes/assumptions/8.md. -/
def Obligations.BusCycles : Prop :=
  (∀ a v s, s.regionAt a = none →
    memRead a s = .error (.busContractViolation a) ∧ memWrite a v s = .error (.busContractViolation a)) ∧
  (∀ a s, Readable s a →
    memRead a s = .ok (byteAt s a, { s with
      cycles := s.cycles + 1, addr := a, data := byteAt s a,
      trace := s.trace ++ [⟨a, byteAt s a, .read, s.pins.sync == .raised⟩], pins := { s.pins with rd := .raised } })) ∧
  (∀ a s r, s.regionAt a = some r → r.access = .writeOnly →
    memRead a s = .ok (freeByte s.freeIndex, { s with
      cycles := s.cycles + 1, addr := a, data := freeByte s.freeIndex, freeIndex := s.freeIndex + 1,
      trace := s.trace ++ [⟨a, freeByte s.freeIndex, .read, s.pins.sync == .raised⟩],
      pins := { s.pins with rd := .raised } })) ∧
  ∀ a v s, Mapped s a → ∃ t, memWrite a v s = .ok t ∧
    t = { s with
      cycles := s.cycles + 1, addr := a, data := v, trace := s.trace ++ [⟨a, v, .write, false⟩], mem := t.mem,
      pins := { s.pins with wr := .raised } } ∧
    Stores s t [(a, v)]

/-- The resolver (R145 to R155): `addressOf` is the address and `addressReads` the reads before the access; a read-
kind access then takes one cycle at the address (R144). -/
def Obligations.EffectiveAddressesAndTheirCycles : Prop :=
  ∀ (s : State) (o : Mem), AllMapped s → s.profile.byteOrder = .littleEndian →
    (∀ c ∈ pointerCells s o, Readable s c) →
    (∃ u, effectiveAddress o s = .ok (addressOf s o, u) ∧ u = busMarks s u ∧
      Drives s u ((addressReads s o).map (fun a => (a, .read)))) ∧
    ∃ m u, readOperand o s = .ok (m, u) ∧ u = busMarks s u ∧ ReadsAs s (addressOf s o) m ∧
      Drives s u ((addressReads s o ++ [addressOf s o]).map (fun a => (a, .read)))

/-- Pin idempotence (R42), the output edges and what their notification records (R43), the latches (R44, R45) and
power (R46), and that the profiles share them (R372; that POWER is among the shared pins is the DEDUCED of
notes/assumptions/30.md). That a level driven while unpowered is kept is the model's (notes/assumptions/14.md), and
that `IR`, `ADDR` and `DATA` keep what they held at power-on too (notes/assumptions/27.md). -/
def Obligations.PinEdges : Prop :=
  (∀ (s : State), ∀ pin ∈ ([.power, .reset, .nmi, .int, .syncM1, .rd, .wr] : List Pin), pin ∈ s.profile.pins) ∧
  (∀ (s : State) (pin : OutputPin) (l : Level),
    (s.pins.output pin = l → driveOutput pin l s = (.noChange, s)) ∧
    (s.pins.output pin ≠ l → driveOutput pin l s =
      (if l = .raised then .roseEdge else .fellEdge,
       { s with
          pins := s.pins.withOutput l pin
          trace := s.trace ++
            if l = .lowered then []
            else match pin with
              | .sync => []
              | .rd => [⟨s.addr, s.data, .read, s.pins.sync == .raised⟩]
              | .wr => [⟨s.addr, s.data, .write, false⟩] }))) ∧
  ∀ (s : State) (pin : InputPin) (l : Level), (s.variant = .nmos6502 ∨ pin.surface ∈ s.profile.pins) →
    (s.pins.level pin = l → drivePin pin l s = (.noChange, s)) ∧
    (s.pins.level pin ≠ l →
      let t := { s with pins := s.pins.withLevel l pin }
      (∀ q, t.pins.level q = if q = pin then l else s.pins.level q) ∧
      (l = .raised → pin ≠ .power → drivePin pin l s = (.roseEdge, t)) ∧
      (l = .raised → pin = .power → drivePin pin l s = (.roseEdge, { t with
        pendReset := false, pendNmi := false, pendIrq := false, pendSo := false, run := .running, cycles := 0, trace := [],
        pins := { t.pins with sync := .lowered, rd := .raised, wr := .raised } })) ∧
      (l = .lowered → s.pins.power = .lowered → drivePin pin l s = (.fellEdge, t)) ∧
      (l = .lowered → s.pins.power = .raised → drivePin pin l s = (.fellEdge, { t with
        pendReset := decide (pin = .reset) || s.pendReset, pendNmi := decide (pin = .nmi) || s.pendNmi,
        pendIrq := decide (pin = .int) || s.pendIrq, pendSo := decide (pin = .so) || s.pendSo })))

/-- `Peek` and `Poke` (R80, R436) and the host's register load and read (R456, R31, R25). That `Peek` gives the stored
byte in a write-only region too is the DESIGN CHOICE of notes/assumptions/28.md. -/
def Obligations.HostAccess : Prop :=
  (∀ a s, Mapped s a → peek a s = .ok (byteAt s a)) ∧
  (∀ a v s, Mapped s a → ∃ t, poke a v s = .ok t ∧ t = { s with mem := t.mem } ∧
    ∀ b, byteAt t b = if b = a then v else byteAt s b) ∧
  (∀ a v s, ¬Mapped s a → peek a s = .error (.busContractViolation a) ∧ poke a v s = .error (.busContractViolation a)) ∧
  (∀ s, s.variant = .nmos6502 → readRegisters s =
    [(.a, s.a.toNat), (.x, s.x.toNat), (.y, s.y.toNat), (.s, s.sp.toNat), (.p, s.p.toNat), (.pc, s.pc.toNat)]) ∧
  ∀ a x y sp p pc s, s.variant = .nmos6502 → ∃ q,
    loadRegisters a x y sp p pc s = { s with a := a, x := x, y := y, sp := sp, p := q, pc := pc } ∧
      q.getLsbD 5 = true ∧ flag .b q = false ∧ ∀ f, f ≠ .b → flag f q = flag f p

/-- With `P.D = 1`, ADC and SBC give the `A` and `C` of packed BCD arithmetic for valid BCD inputs (R464); a law that
the algorithms of R186 and R187 must have. -/
def Obligations.DecimalArithmeticOnDigits : Prop :=
  ∀ a m p : Byte, flag .d p = true → validDigits a → validDigits m →
    let sum := addWithCarry nmos a m p
    let diff := subWithCarry nmos a m p
    validDigits sum.value ∧
    digitsValue sum.value + 100 * (flag .c sum.p).toNat = digitsValue a + digitsValue m + (flag .c p).toNat ∧
    validDigits diff.value ∧
    digitsValue diff.value + digitsValue m + 1 = digitsValue a + (flag .c p).toNat + 100 * (!flag .c diff.p).toNat

/-- `H_add` and `H_sub` (R176): `H_sub` is 1 exactly when no borrow leaves the low nibble. -/
def Obligations.HalfCarrySignal : Prop :=
  ∀ (a b : Byte) (c : Bool),
    (halfCarryAdd a b c = true ↔ 15 < a.toNat % 16 + b.toNat % 16 + c.toNat) ∧
    (halfCarrySub a b c = true ↔ b.toNat % 16 + (!c).toNat ≤ a.toNat % 16)

/-- The driver is parameterised by its hooks (R370): what `exec` does where the record of CMOS65C02 differs (R373).
The values are those of R373, most of them general knowledge by its own words. R373, R190 and D31 give neither the
address nor the place of the added cycles: that the address is a free value, that the cycle of JMP (ind) comes last
and that the decimal cycle comes after the operand read are the DESIGN CHOICE of notes/assumptions/29.md. A step of
that profile is refused (notes/assumptions/7.md), so this speaks of `exec` alone. -/
def Obligations.TheDriverReadsItsHooksFromTheProfile : Prop :=
  ∀ (s : State) (b m : Byte) (w : Word), s.variant = .cmos65c02 → AllMapped s →
    (∃ t l h, exec (.jmpInd w) s = .next { t with pc := wordOf h l } ∧ t = busMarks s t ∧
      Drives s t [(w, .read), (w + 1, .read), (openCycleAddress s.pc, .read)] ∧ ReadsAs s w l ∧ ReadsAs s (w + 1) h) ∧
    (∀ x ∈ ([(.aslZp b, shiftLeftOf), (.lsrZp b, shiftRightOf), (.rolZp b, rotateLeftOf (flag .c s.p)),
        (.rorZp b, rotateRightOf (flag .c s.p)), (.incZp b, incrementOf), (.decZp b, decrementOf)] :
        List (Instr × (Byte → Result))),
      ∃ v q t, exec x.1 s = .next t ∧ FlagsSet (x.2 v).flags s.p q ∧
        t = { busMarks s t with p := q, mem := t.mem } ∧ Stores s t [(zext b, (x.2 v).value)] ∧
        Drives s t [(zext b, .read), (zext b, .read), (zext b, .write)] ∧ ReadsAs s (zext b) v) ∧
    (∃ t l h p, exec .brk s = .next t ∧
      t = { busMarks s t with pc := wordOf h l, sp := s.sp - 3, p := p, mem := t.mem } ∧
      FlagsSet [(.i, true), (.d, false)] s.p p ∧
      Stores s t [(slotBelow s 2, s.p ||| 0x30), (slotBelow s 1, lo (s.pc + 1)), (slotBelow s 0, hi (s.pc + 1))] ∧
      ReadsAs s 0xFFFE l ∧ ReadsAs s 0xFFFF h) ∧
    (flag .d s.p = true →
      ∀ x ∈ ([(.adcImm m, additionOf true s.a m (flag .c s.p)), (.sbcImm m, subtractionOf true s.a m (flag .c s.p))] :
          List (Instr × Result)),
        ∃ u q, u = busMarks s u ∧ Drives s u [(openCycleAddress s.pc, .read)] ∧
          FlagsSet (znOf x.2.value ++ x.2.flags) s.p q ∧ exec x.1 s = .next { u with a := x.2.value, p := q })

/-- `A`, `X`, `Y`, or `A` and `X`, take the operand, `Z` and `N` follow it (R240 to R242, R335); LAS takes `m & S`
into three registers (R348). Everything else is unchanged. -/
def Obligations.LoadInstructions : Prop :=
  ∀ (s : State) (b m : Byte) (w : Word), Configured s →
    (∀ x ∈ ([(.ldaIzx b, .izx b), (.ldaZp b, .zp b), (.ldaAbs w, .abs w), (.ldaIzy b, .izy .onCross b),
        (.ldaZpx b, .zpx b), (.ldaAby w, .aby .onCross w), (.ldaAbx w, .abx .onCross w)] : List (Instr × Mem)),
      ReadGives s x.1 x.2 (fun m u => { u with a := m }) (znOf)) ∧
    (∀ x ∈ ([(.ldxZp b, .zp b), (.ldxAbs w, .abs w), (.ldxZpy b, .zpy b), (.ldxAby w, .aby .onCross w)] : List (Instr × Mem)),
      ReadGives s x.1 x.2 (fun m u => { u with x := m }) (znOf)) ∧
    (∀ x ∈ ([(.ldyZp b, .zp b), (.ldyAbs w, .abs w), (.ldyZpx b, .zpx b), (.ldyAbx w, .abx .onCross w)] : List (Instr × Mem)),
      ReadGives s x.1 x.2 (fun m u => { u with y := m }) (znOf)) ∧
    (∀ x ∈ ([(.laxIzx b, .izx b), (.laxZp b, .zp b), (.laxAbs w, .abs w), (.laxIzy b, .izy .onCross b),
        (.laxZpy b, .zpy b), (.laxAby w, .aby .onCross w)] : List (Instr × Mem)),
      ReadGives s x.1 x.2 (fun m u => { u with a := m, x := m }) (znOf)) ∧
    (∀ x ∈ ([(.lasAby w, .aby .onCross w)] : List (Instr × Mem)),
      ReadGives s x.1 x.2 (fun m u => { u with a := m &&& s.sp, x := m &&& s.sp, sp := m &&& s.sp }) (fun m => znOf (m &&& s.sp))) ∧
    ImmediateGives s (.ldaImm m) (fun s => { s with a := m }) (znOf m) ∧
    ImmediateGives s (.ldxImm m) (fun s => { s with x := m }) (znOf m) ∧
    ImmediateGives s (.ldyImm m) (fun s => { s with y := m }) (znOf m)

/-- One write cycle at the effective address with the register's value; no flag and no register changes (R243 to R245,
R334). -/
def Obligations.StoreInstructions : Prop :=
  ∀ (s : State) (b : Byte) (w : Word), Configured s →
    ∀ x ∈ ([(.staIzx b, .izx b, s.a), (.staZp b, .zp b, s.a), (.staAbs w, .abs w, s.a), (.staIzy b, .izy .always b, s.a),
      (.staZpx b, .zpx b, s.a), (.staAby w, .aby .always w, s.a), (.staAbx w, .abx .always w, s.a),
      (.stxZp b, .zp b, s.x), (.stxAbs w, .abs w, s.x), (.stxZpy b, .zpy b, s.x), (.styZp b, .zp b, s.y),
      (.styAbs w, .abs w, s.y), (.styZpx b, .zpx b, s.y), (.saxIzx b, .izx b, s.a &&& s.x),
      (.saxZp b, .zp b, s.a &&& s.x), (.saxAbs w, .abs w, s.a &&& s.x), (.saxZpy b, .zpy b, s.a &&& s.x)] : List (Instr × Mem × Byte)),
      StoreGives s x.1 x.2.1 x.2.2

/-- Register transfers (R246 to R251), two cycles each (R142). -/
def Obligations.TransferInstructions : Prop :=
  ∀ s, AllMapped s →
    ImpliedGives s .tax (fun u => { u with x := s.a }) (znOf s.a) ∧
    ImpliedGives s .tay (fun u => { u with y := s.a }) (znOf s.a) ∧
    ImpliedGives s .txa (fun u => { u with a := s.x }) (znOf s.x) ∧
    ImpliedGives s .tya (fun u => { u with a := s.y }) (znOf s.y) ∧
    ImpliedGives s .tsx (fun u => { u with x := s.sp }) (znOf s.sp) ∧
    ImpliedGives s .txs (fun u => { u with sp := s.x }) []

/-- ADC (R260) by integer arithmetic: `Add` (R175) with `D` clear, `AddDecimal` (R186) with `D` set. -/
def Obligations.AddWithCarry : Prop :=
  ∀ (s : State) (b m : Byte) (w : Word), Configured s →
    let sum := fun m => additionOf (flag .d s.p) s.a m (flag .c s.p)
    (∀ x ∈ ([(.adcIzx b, .izx b), (.adcZp b, .zp b), (.adcAbs w, .abs w), (.adcIzy b, .izy .onCross b),
        (.adcZpx b, .zpx b), (.adcAby w, .aby .onCross w), (.adcAbx w, .abx .onCross w)] : List (Instr × Mem)),
      ReadGives s x.1 x.2 (fun m u => { u with a := (sum m).value }) (fun m => (sum m).flags)) ∧
    ImmediateGives s (.adcImm m) (fun s => { s with a := (sum m).value }) ((sum m).flags)

/-- SBC (R261) and its duplicate (R349) by integer arithmetic: `Sub` (R180) with `D` clear, `SubDecimal` (R187) with
`D` set. -/
def Obligations.SubtractWithBorrow : Prop :=
  ∀ (s : State) (b m : Byte) (w : Word), Configured s →
    let diff := fun m => subtractionOf (flag .d s.p) s.a m (flag .c s.p)
    (∀ x ∈ ([(.sbcIzx b, .izx b), (.sbcZp b, .zp b), (.sbcAbs w, .abs w), (.sbcIzy b, .izy .onCross b),
        (.sbcZpx b, .zpx b), (.sbcAby w, .aby .onCross w), (.sbcAbx w, .abx .onCross w)] : List (Instr × Mem)),
      ReadGives s x.1 x.2 (fun m u => { u with a := (diff m).value }) (fun m => (diff m).flags)) ∧
    ImmediateGives s (.sbcImm m) (fun s => { s with a := (diff m).value }) ((diff m).flags) ∧
    ImmediateGives s (.sbcImmEB m) (fun s => { s with a := (diff m).value }) ((diff m).flags)

/-- The logical operations (R262 to R264, R198 to R200) and the bit test (R268, R201). -/
def Obligations.LogicalOperations : Prop :=
  ∀ (s : State) (b m : Byte) (w : Word), Configured s →
    (∀ x ∈ ([(.andIzx b, .izx b), (.andZp b, .zp b), (.andAbs w, .abs w), (.andIzy b, .izy .onCross b),
        (.andZpx b, .zpx b), (.andAby w, .aby .onCross w), (.andAbx w, .abx .onCross w)] : List (Instr × Mem)),
      ReadGives s x.1 x.2 (fun m u => { u with a := s.a &&& m }) (fun m => znOf (s.a &&& m))) ∧
    (∀ x ∈ ([(.oraIzx b, .izx b), (.oraZp b, .zp b), (.oraAbs w, .abs w), (.oraIzy b, .izy .onCross b),
        (.oraZpx b, .zpx b), (.oraAby w, .aby .onCross w), (.oraAbx w, .abx .onCross w)] : List (Instr × Mem)),
      ReadGives s x.1 x.2 (fun m u => { u with a := s.a ||| m }) (fun m => znOf (s.a ||| m))) ∧
    (∀ x ∈ ([(.eorIzx b, .izx b), (.eorZp b, .zp b), (.eorAbs w, .abs w), (.eorIzy b, .izy .onCross b),
        (.eorZpx b, .zpx b), (.eorAby w, .aby .onCross w), (.eorAbx w, .abx .onCross w)] : List (Instr × Mem)),
      ReadGives s x.1 x.2 (fun m u => { u with a := s.a ^^^ m }) (fun m => znOf (s.a ^^^ m))) ∧
    (∀ x ∈ ([(.bitZp b, .zp b), (.bitAbs w, .abs w)] : List (Instr × Mem)),
      ReadGives s x.1 x.2 (fun _ u => u) (fun m => [(.z, s.a &&& m == 0), (.n, m.getLsbD 7), (.v, m.getLsbD 6)])) ∧
    ImmediateGives s (.andImm m) (fun s => { s with a := s.a &&& m }) (znOf (s.a &&& m)) ∧
    ImmediateGives s (.oraImm m) (fun s => { s with a := s.a ||| m }) (znOf (s.a ||| m)) ∧
    ImmediateGives s (.eorImm m) (fun s => { s with a := s.a ^^^ m }) (znOf (s.a ^^^ m))

/-- `Cmp` (R195) on `A`, `X`, `Y` (R265 to R267). -/
def Obligations.CompareInstructions : Prop :=
  ∀ (s : State) (b m : Byte) (w : Word), Configured s →
    (∀ x ∈ ([(.cmpIzx b, .izx b), (.cmpZp b, .zp b), (.cmpAbs w, .abs w), (.cmpIzy b, .izy .onCross b),
        (.cmpZpx b, .zpx b), (.cmpAby w, .aby .onCross w), (.cmpAbx w, .abx .onCross w)] : List (Instr × Mem)),
      ReadGives s x.1 x.2 (fun _ u => u) (comparisonOf s.a)) ∧
    (∀ x ∈ ([(.cpxZp b, .zp b), (.cpxAbs w, .abs w)] : List (Instr × Mem)),
      ReadGives s x.1 x.2 (fun _ u => u) (comparisonOf s.x)) ∧
    (∀ x ∈ ([(.cpyZp b, .zp b), (.cpyAbs w, .abs w)] : List (Instr × Mem)),
      ReadGives s x.1 x.2 (fun _ u => u) (comparisonOf s.y)) ∧
    ImmediateGives s (.cmpImm m) (fun s => s) (comparisonOf s.a m) ∧
    ImmediateGives s (.cpxImm m) (fun s => s) (comparisonOf s.x m) ∧
    ImmediateGives s (.cpyImm m) (fun s => s) (comparisonOf s.y m)

/-- `Inc` and `Dec` (R196, R197) on `X` and `Y` (R269 to R272). -/
def Obligations.RegisterIncrements : Prop :=
  ∀ s, AllMapped s →
    ImpliedGives s .inx (fun u => { u with x := (incrementOf s.x).value }) (incrementOf s.x).flags ∧
    ImpliedGives s .iny (fun u => { u with y := (incrementOf s.y).value }) (incrementOf s.y).flags ∧
    ImpliedGives s .dex (fun u => { u with x := (decrementOf s.x).value }) (decrementOf s.x).flags ∧
    ImpliedGives s .dey (fun u => { u with y := (decrementOf s.y).value }) (decrementOf s.y).flags

/-- The accumulator forms of the shifts (R280 to R283) by the primitives (R191 to R194). -/
def Obligations.AccumulatorShifts : Prop :=
  ∀ s, AllMapped s →
    let rol := rotateLeftOf (flag .c s.p) s.a
    let ror := rotateRightOf (flag .c s.p) s.a
    ImpliedGives s .aslAcc (fun u => { u with a := (shiftLeftOf s.a).value }) (shiftLeftOf s.a).flags ∧
    ImpliedGives s .lsrAcc (fun u => { u with a := (shiftRightOf s.a).value }) (shiftRightOf s.a).flags ∧
    ImpliedGives s .rolAcc (fun u => { u with a := rol.value }) rol.flags ∧
    ImpliedGives s .rorAcc (fun u => { u with a := ror.value }) ror.flags

/-- The read-modify-write forms (R280 to R285) with the tail read, write old, write new (R144). -/
def Obligations.MemoryShiftsAndIncrements : Prop :=
  ∀ (s : State) (b : Byte) (w : Word), Configured s →
    (∀ x ∈ ([(.aslZp b, .zp b), (.aslAbs w, .abs w), (.aslZpx b, .zpx b), (.aslAbx w, .abx .always w)] : List (Instr × Mem)),
      ModifyGives s x.1 x.2 (fun m => ⟨(shiftLeftOf m).value, s.a, (shiftLeftOf m).flags⟩)) ∧
    (∀ x ∈ ([(.lsrZp b, .zp b), (.lsrAbs w, .abs w), (.lsrZpx b, .zpx b), (.lsrAbx w, .abx .always w)] : List (Instr × Mem)),
      ModifyGives s x.1 x.2 (fun m => ⟨(shiftRightOf m).value, s.a, (shiftRightOf m).flags⟩)) ∧
    (∀ x ∈ ([(.rolZp b, .zp b), (.rolAbs w, .abs w), (.rolZpx b, .zpx b), (.rolAbx w, .abx .always w)] : List (Instr × Mem)),
      ModifyGives s x.1 x.2 (fun m => ⟨(rotateLeftOf (flag .c s.p) m).value, s.a, (rotateLeftOf (flag .c s.p) m).flags⟩)) ∧
    (∀ x ∈ ([(.rorZp b, .zp b), (.rorAbs w, .abs w), (.rorZpx b, .zpx b), (.rorAbx w, .abx .always w)] : List (Instr × Mem)),
      ModifyGives s x.1 x.2 (fun m => ⟨(rotateRightOf (flag .c s.p) m).value, s.a, (rotateRightOf (flag .c s.p) m).flags⟩)) ∧
    (∀ x ∈ ([(.incZp b, .zp b), (.incAbs w, .abs w), (.incZpx b, .zpx b), (.incAbx w, .abx .always w)] : List (Instr × Mem)),
      ModifyGives s x.1 x.2 (fun m => ⟨(incrementOf m).value, s.a, (incrementOf m).flags⟩)) ∧
    (∀ x ∈ ([(.decZp b, .zp b), (.decAbs w, .abs w), (.decZpx b, .zpx b), (.decAbx w, .abx .always w)] : List (Instr × Mem)),
      ModifyGives s x.1 x.2 (fun m => ⟨(decrementOf m).value, s.a, (decrementOf m).flags⟩))

/-- Shift then OR, rotate then AND, shift then XOR (R330 to R332). -/
def Obligations.ShiftsCombinedWithLogic : Prop :=
  ∀ (s : State) (b : Byte) (w : Word), Configured s →
    let combined : Result → Byte → Modified := fun r a => ⟨r.value, a, (.c, (r.flags.lookup .c).getD false) :: znOf a⟩
    (∀ x ∈ ([(.sloIzx b, .izx b), (.sloZp b, .zp b), (.sloAbs w, .abs w), (.sloIzy b, .izy .always b),
        (.sloZpx b, .zpx b), (.sloAby w, .aby .always w), (.sloAbx w, .abx .always w)] : List (Instr × Mem)),
      ModifyGives s x.1 x.2 (fun m => combined (shiftLeftOf m) (s.a ||| (shiftLeftOf m).value))) ∧
    (∀ x ∈ ([(.rlaIzx b, .izx b), (.rlaZp b, .zp b), (.rlaAbs w, .abs w), (.rlaIzy b, .izy .always b),
        (.rlaZpx b, .zpx b), (.rlaAby w, .aby .always w), (.rlaAbx w, .abx .always w)] : List (Instr × Mem)),
      ModifyGives s x.1 x.2 (fun m => combined (rotateLeftOf (flag .c s.p) m) (s.a &&& (rotateLeftOf (flag .c s.p) m).value))) ∧
    (∀ x ∈ ([(.sreIzx b, .izx b), (.sreZp b, .zp b), (.sreAbs w, .abs w), (.sreIzy b, .izy .always b),
        (.sreZpx b, .zpx b), (.sreAby w, .aby .always w), (.sreAbx w, .abx .always w)] : List (Instr × Mem)),
      ModifyGives s x.1 x.2 (fun m => combined (shiftRightOf m) (s.a ^^^ (shiftRightOf m).value)))

/-- Rotate then ADC, decrement then CMP, increment then SBC (R333, R336, R337). -/
def Obligations.ArithmeticOnMemoryAndA : Prop :=
  ∀ (s : State) (b : Byte) (w : Word), Configured s →
    (∀ x ∈ ([(.rraIzx b, .izx b), (.rraZp b, .zp b), (.rraAbs w, .abs w), (.rraIzy b, .izy .always b),
        (.rraZpx b, .zpx b), (.rraAby w, .aby .always w), (.rraAbx w, .abx .always w)] : List (Instr × Mem)),
      ModifyGives s x.1 x.2 (fun m =>
        let v := (rotateRightOf (flag .c s.p) m).value
        let sum := additionOf (flag .d s.p) s.a v (m.getLsbD 0)
        ⟨v, sum.value, sum.flags⟩)) ∧
    (∀ x ∈ ([(.dcpIzx b, .izx b), (.dcpZp b, .zp b), (.dcpAbs w, .abs w), (.dcpIzy b, .izy .always b),
        (.dcpZpx b, .zpx b), (.dcpAby w, .aby .always w), (.dcpAbx w, .abx .always w)] : List (Instr × Mem)),
      ModifyGives s x.1 x.2 (fun m => ⟨m - 1, s.a, comparisonOf s.a (m - 1)⟩)) ∧
    (∀ x ∈ ([(.iscIzx b, .izx b), (.iscZp b, .zp b), (.iscAbs w, .abs w), (.iscIzy b, .izy .always b),
        (.iscZpx b, .zpx b), (.iscAby w, .aby .always w), (.iscAbx w, .abx .always w)] : List (Instr × Mem)),
      ModifyGives s x.1 x.2 (fun m =>
        let diff := subtractionOf (flag .d s.p) s.a (m + 1) (flag .c s.p)
        ⟨m + 1, diff.value, diff.flags⟩))

/-- ANC (both opcodes, R338), ALR (R339), ARR (R340) and SBX (R343), by integer arithmetic. -/
def Obligations.ImmediateCombinations : Prop :=
  ∀ (s : State) (m : Byte),
    let anc := s.a &&& m
    let alr := shiftRightOf (s.a &&& m)
    let arr := andRotateOf (flag .d s.p) s.a m (flag .c s.p)
    ImmediateGives s (.ancImm0B m) (fun s => { s with a := anc }) ((.c, anc.getLsbD 7) :: znOf anc) ∧
    ImmediateGives s (.ancImm2B m) (fun s => { s with a := anc }) ((.c, anc.getLsbD 7) :: znOf anc) ∧
    ImmediateGives s (.alrImm m) (fun s => { s with a := alr.value }) alr.flags ∧
    (s.variant = .nmos6502 → ImmediateGives s (.arrImm m) (fun s => { s with a := arr.value }) arr.flags) ∧
    ImmediateGives s (.sbxImm m) (fun s => { s with x := (s.a &&& s.x) - m }) (comparisonOf (s.a &&& s.x) m)

/-- ANE (R341) and LXA (R342) over the free constants `magicAne`, `magicLxa` (notes/assumptions/9.md), and the
operands that cancel them (R468). -/
def Obligations.OpenConstantInstructions : Prop :=
  ∀ (s : State) (m : Byte),
    let ane := (s.a ||| magicAne) &&& s.x &&& m
    let lxa := (s.a ||| magicLxa) &&& m
    ImmediateGives s (.aneImm m) (fun s => { s with a := ane }) (znOf ane) ∧
    ImmediateGives s (.lxaImm m) (fun s => { s with a := lxa, x := lxa }) (znOf lxa) ∧
    (s.a = 0xFF → ane = s.x &&& m ∧ lxa = m) ∧ (m = 0 → ane = 0 ∧ lxa = 0)

/-- SHA (both forms), SHX, SHY and TAS (R344 to R347). -/
def Obligations.UnstableStores : Prop :=
  ∀ (s : State) (b : Byte) (w : Word), Configured s →
    let value : Byte → Word → Byte := fun reg base => reg &&& (hi base + 1)
    let unc : Word → Byte → Word := fun base i =>
      BitVec.ofNat 16 (base.toNat / 256 * 256 + (base.toNat + i.toNat) % 256)
    let addr : Byte → Word → Byte → Word := fun reg base i =>
      if base.toNat % 256 + i.toNat > 255 then wordOf (value reg base) (lo base + i)
      else BitVec.ofNat 16 (base.toNat + i.toNat)
    (∀ x ∈ ([(.shaAby w, s.a &&& s.x, s.y), (.shxAby w, s.x, s.y), (.shyAbx w, s.y, s.x)] : List (Instr × Byte × Byte)),
      ∃ t, exec x.1 s = .next t ∧ t = { busMarks s t with mem := t.mem } ∧
        Stores s t [(addr x.2.1 w x.2.2, value x.2.1 w)] ∧
        Drives s t [(unc w x.2.2, .read), (addr x.2.1 w x.2.2, .write)]) ∧
    (∃ t, exec (.tasAby w) s = .next t ∧ t = { busMarks s t with sp := s.a &&& s.x, mem := t.mem } ∧
        Stores s t [(addr (s.a &&& s.x) w s.y, value (s.a &&& s.x) w)] ∧
        Drives s t [(unc w s.y, .read), (addr (s.a &&& s.x) w s.y, .write)]) ∧
    ∃ base t, ((∀ c ∈ pointerCells s (.izy .always b), Readable s c) → base = pointerAt s b) ∧
      exec (.shaIzy b) s = .next t ∧ t = { busMarks s t with mem := t.mem } ∧
        Stores s t [(addr (s.a &&& s.x) base s.y, value (s.a &&& s.x) base)] ∧
        Drives s t [(zext b, .read), (zext (b + 1), .read), (unc base s.y, .read),
          (addr (s.a &&& s.x) base s.y, .write)]

/-- `EA` (R321) and the 27 undocumented NOPs (R350), whose reads are real bus cycles (R122). -/
def Obligations.NoOperations : Prop :=
  ∀ (s : State) (b m : Byte) (w : Word), Configured s →
    (∀ i ∈ [.nop1A, .nop3A, .nop5A, .nop7A, .nopDA, .nop, .nopFA], ImpliedGives s i (fun u => u) []) ∧
    (∀ i ∈ [.nopImm80 m, .nopImm82 m, .nopImm89 m, .nopImmC2 m, .nopImmE2 m], exec i s = .next s) ∧
    (∀ x ∈ ([(.nopZp04 b, .zp b), (.nopAbs w, .abs w), (.nopZpx14 b, .zpx b), (.nopAbx1C w, .abx .onCross w),
        (.nopZpx34 b, .zpx b), (.nopAbx3C w, .abx .onCross w), (.nopZp44 b, .zp b), (.nopZpx54 b, .zpx b),
        (.nopAbx5C w, .abx .onCross w), (.nopZp64 b, .zp b), (.nopZpx74 b, .zpx b), (.nopAbx7C w, .abx .onCross w),
        (.nopZpxD4 b, .zpx b), (.nopAbxDC w, .abx .onCross w), (.nopZpxF4 b, .zpx b), (.nopAbxFC w, .abx .onCross w)] : List (Instr × Mem)),
      ReadGives s x.1 x.2 (fun _ u => u) (fun _ => []))

/-- Cycles 2 to 5 of the jam (R351). -/
def Obligations.JamInstruction : Prop :=
  ∀ s, AllMapped s →
    ∀ i ∈ [.jam02, .jam12, .jam22, .jam32, .jam42, .jam52, .jam62, .jam72, .jam92, .jamB2, .jamD2, .jamF2],
      ∃ t, exec i s = .next { t with run := .jammed } ∧ t = busMarks s t ∧
        Drives s t [(s.pc, .read), (0xFFFF, .read), (0xFFFE, .read), (0xFFFE, .read)]

/-- The branch procedure (R290, R156) and the eight conditions (R296 to R303). -/
def Obligations.BranchInstructions : Prop :=
  ∀ (s : State) (d : Byte), AllMapped s →
    let target : Word := BitVec.ofInt 16 (s.pc.toNat + d.toInt)
    ∀ x ∈ ([(.bcc d, !flag .c s.p), (.bcs d, flag .c s.p), (.beq d, flag .z s.p), (.bne d, !flag .z s.p),
        (.bmi d, flag .n s.p), (.bpl d, !flag .n s.p), (.bvc d, !flag .v s.p), (.bvs d, flag .v s.p)] :
        List (Instr × Bool)),
      (x.2 = false → exec x.1 s = .next s) ∧
      (x.2 = true → ∃ t, exec x.1 s = .next { t with pc := target } ∧ t = busMarks s t ∧
        Drives s t ((s.pc, .read) :: if hi target = hi s.pc then []
          else [(BitVec.ofNat 16 (s.pc.toNat / 256 * 256 + target.toNat % 256), .read)]))

/-- JMP (R291); the NMOS wrap of the indirect pointer (R157, R463). -/
def Obligations.JumpInstructions : Prop :=
  (∀ (s : State) (w : Word), exec (.jmpAbs w) s = .next { s with pc := w }) ∧
  ∀ (s : State) (w : Word), Configured s →
    let w' : Word := BitVec.ofNat 16 (w.toNat / 256 * 256 + (w.toNat + 1) % 256)
    ∃ t l h, exec (.jmpInd w) s = .next { t with pc := wordOf h l } ∧ t = busMarks s t ∧
      Drives s t [(w, .read), (w', .read)] ∧ ReadsAs s w l ∧ ReadsAs s w' h

/-- JSR, cycles 3 to 6 (R292): when its third byte lies where the pushes land it takes the overwritten byte, so the
byte is read in the state after the stores. -/
def Obligations.JumpToSubroutine : Prop :=
  ∀ (s : State) (w : Word), AllMapped s → s.profile.byteOrder = .littleEndian →
    ∃ t h, exec (.jsrAbs w) s = .next t ∧
      t = { busMarks s t with pc := wordOf h (lo w), sp := s.sp - 2, mem := t.mem } ∧
      Stores s t [(slotBelow s 1, lo s.pc), (slotBelow s 0, hi s.pc)] ∧
      Drives s t [(slotBelow s 0, .read), (slotBelow s 0, .write), (slotBelow s 1, .write), (s.pc, .read)] ∧
      ReadsAs t s.pc h

/-- RTS (R293). -/
def Obligations.ReturnFromSubroutine : Prop :=
  ∀ s, AllMapped s → s.profile.byteOrder = .littleEndian →
    ∃ t l h, exec .rts s = .next { t with pc := wordOf h l + 1, sp := s.sp + 2 } ∧ t = busMarks s t ∧
      Drives s t [(s.pc, .read), (slotAbove s 0, .read), (slotAbove s 1, .read), (slotAbove s 2, .read),
        (wordOf h l, .read)] ∧
      ReadsAs s (slotAbove s 1) l ∧ ReadsAs s (slotAbove s 2) h

/-- PHA (R310), PHP (R311): `Push` (R163), with the break copy of `P` (R31). -/
def Obligations.PushInstructions : Prop :=
  ∀ s, AllMapped s →
    ∀ x ∈ ([(.pha, s.a), (.php, s.p ||| 0x30)] : List (Instr × Byte)),
      ∃ t, exec x.1 s = .next t ∧ t = { busMarks s t with sp := s.sp - 1, mem := t.mem } ∧
        Stores s t [(slotBelow s 0, x.2)] ∧ Drives s t [(s.pc, .read), (slotBelow s 0, .write)]

/-- PLA (R312), PLP (R313): `Pull` (R164), bits 5 and 4 of the pulled status ignored (R31). -/
def Obligations.PullInstructions : Prop :=
  ∀ s, Configured s →
    (∃ t v q, exec .pla s = .next { t with a := v, p := q, sp := s.sp + 1 } ∧ t = busMarks s t ∧
      FlagsSet (znOf v) s.p q ∧ ReadsAs s (slotAbove s 1) v ∧
      Drives s t [(s.pc, .read), (slotAbove s 0, .read), (slotAbove s 1, .read)]) ∧
    ∃ t v, exec .plp s = .next { t with p := (v &&& 0xCF) ||| 0x20, sp := s.sp + 1 } ∧ t = busMarks s t ∧
      ReadsAs s (slotAbove s 1) v ∧ Drives s t [(s.pc, .read), (slotAbove s 0, .read), (slotAbove s 1, .read)]

/-- The flag instructions (R314 to R320), two cycles each (R142). -/
def Obligations.FlagInstructions : Prop :=
  ∀ s, AllMapped s →
    ∀ x ∈ ([(.clc, .c, false), (.sec, .c, true), (.cli, .i, false), (.sei, .i, true), (.cld, .d, false), (.sed, .d, true),
        (.clv, .v, false)] : List (Instr × Flag × Bool)),
      ImpliedGives s x.1 (fun u => u) [x.2]

/-- BRK, cycles 2 to 7 (R295): the entry sequence with the increment of `PC` and the `B` bit (R413). -/
def Obligations.BreakInstruction : Prop :=
  ∀ s, Configured s →
    ∃ t l h p, exec .brk s = .next t ∧
      t = { busMarks s t with pc := wordOf h l, sp := s.sp - 3, p := p, mem := t.mem } ∧
      FlagsSet [(.i, true)] s.p p ∧
      Stores s t [(slotBelow s 2, s.p ||| 0x30), (slotBelow s 1, lo (s.pc + 1)), (slotBelow s 0, hi (s.pc + 1))] ∧
      Drives s t [(s.pc, .read), (slotBelow s 0, .write), (slotBelow s 1, .write), (slotBelow s 2, .write),
        (0xFFFE, .read), (0xFFFF, .read)] ∧
      ReadsAs s 0xFFFE l ∧ ReadsAs s 0xFFFF h

/-- RTI (R294, R420). -/
def Obligations.ReturnFromInterrupt : Prop :=
  ∀ s, Configured s →
    ∃ t v l h, exec .rti s = .next { t with p := (v &&& 0xCF) ||| 0x20, pc := wordOf h l, sp := s.sp + 3 } ∧
      t = busMarks s t ∧
      Drives s t [(s.pc, .read), (slotAbove s 0, .read), (slotAbove s 1, .read), (slotAbove s 2, .read),
        (slotAbove s 3, .read)] ∧
      ReadsAs s (slotAbove s 1) v ∧ ReadsAs s (slotAbove s 2) l ∧ ReadsAs s (slotAbove s 3) h

/-- What an entry pushes, RTI restores (R411, R412, R295, R294, R420): the round trip through the stack, for every
stack pointer, wraps included. -/
def Obligations.EntryThenRtiResumes : Prop :=
  ∀ (s : State) (e : Entry), Configured s → e ≠ .reset → reservedBitsHold s.p = true →
    (∀ k ∈ [0, 1, 2], Ram s (slotBelow s k)) →
    ∃ t u, enter e s = .ok t ∧ exec .rti t = .next u ∧
      u.pc = (if e = .brk then s.pc + 1 else s.pc) ∧ u.p = s.p ∧ u.sp = s.sp ∧ u.a = s.a ∧ u.x = s.x ∧ u.y = s.y ∧
      ∀ b, b ∉ [slotBelow s 0, slotBelow s 1, slotBelow s 2] → byteAt u b = byteAt s b

/-- JSR pushes the address of its own last byte and RTS adds one (R467). -/
def Obligations.SubroutineCallReturns : Prop :=
  ∀ (s : State) (w : Word), AllMapped s → (∀ k ∈ [0, 1], Ram s (slotBelow s k)) →
    ∃ t u, exec (.jsrAbs w) s = .next t ∧ exec .rts t = .next u ∧
      u.pc = s.pc + 1 ∧ u.sp = s.sp ∧ u.a = s.a ∧ u.x = s.x ∧ u.y = s.y ∧ u.p = s.p ∧
      ∀ b, b ∉ [slotBelow s 0, slotBelow s 1] → byteAt u b = byteAt s b
end

