-- ==== Sys2Proof/Laws/Decode.lean ====
section
/-! SUPPORT. The decoder: what it answers on a list long enough, on one too short, and that its table has a row entry for
every opcode. -/

namespace Sys2Proof

theorem decode_of_length {op : Byte} {rest : List Byte} (h : lengthOf op ≤ rest.length + 1) :
    decode (op :: rest) = .ok (decodeOp op (rest.getD 0 0) (rest.getD 1 0), rest.drop (lengthOf op - 1)) := by
  rw [decode, if_pos h]

theorem decode_of_short {op : Byte} {rest : List Byte} (h : rest.length + 1 < lengthOf op) :
    decode (op :: rest) = .error (.truncated op) := by
  rw [decode, if_neg (by omega)]

/-- Sixteen rows of sixteen: the defaults in `decodeOp` are never reached. -/
theorem opcodeMap_complete (b : Byte) (w : Word) :
    (opcodeMap b w).length = 16 ∧ ∀ r ∈ opcodeMap b w, r.length = 16 := by
  refine ⟨rfl, fun r hr => ?_⟩
  simp only [opcodeMap, List.mem_cons, List.not_mem_nil, or_false] at hr
  rcases hr with rfl | rfl | rfl | rfl | rfl | rfl | rfl | rfl | rfl | rfl | rfl | rfl | rfl | rfl | rfl | rfl <;> rfl

end Sys2Proof
end

