-- ==== Sys2Proof/Laws/Flags.lean ====
section
/-! SUPPORT. Reading and writing the bits of `P`; splitting and joining words. -/

namespace Sys2Proof.Machine

open Config

theorem flagBit_lt (f : Flag) : flagBit f < 8 := by cases f <;> decide

theorem flagBit_inj {f g : Flag} : flagBit f = flagBit g ↔ f = g := by cases f <;> cases g <;> simp [flagBit]

/-- Every bit of a byte after the bits of a mask are written. -/
theorem getLsbD_withBits (mask : Byte) (v : Bool) (p : Byte) {n : Nat} (hn : n < 8) :
    (withBits mask v p).getLsbD n = if mask.getLsbD n then v else p.getLsbD n := by
  unfold withBits
  cases v <;> cases hm : mask.getLsbD n <;> simp_all

theorem getElem_withBits (mask : Byte) (v : Bool) (p : Byte) (n : Nat) (hn : n < 8) :
    (withBits mask v p)[n] = if mask[n] then v else p[n] := getLsbD_withBits mask v p hn

/-- Every bit of `P` after one flag is written. -/
theorem getLsbD_withFlag (f : Flag) (v : Bool) (p : Byte) (n : Nat) :
    (withFlag f v p).getLsbD n = if n = flagBit f then v else p.getLsbD n := by
  have hf := flagBit_lt f
  by_cases hn : n < 8
  · have h1 : (1#8 <<< flagBit f).getLsbD n = decide (n = flagBit f) := by
      rw [← BitVec.twoPow_eq, BitVec.getLsbD_twoPow]
      by_cases h : n = flagBit f <;> simp [h, hf, eq_comm]
    rw [withFlag, getLsbD_withBits _ _ _ hn, h1]
    simp
  · rw [if_neg (by omega), BitVec.getLsbD_of_ge _ n (by omega), BitVec.getLsbD_of_ge _ n (by omega)]

@[simp] theorem flag_withFlag (f g : Flag) (v : Bool) (p : Byte) :
    flag f (withFlag g v p) = if f = g then v else flag f p := by
  simp [flag, getLsbD_withFlag, flagBit_inj]

@[simp] theorem reserved_withFlag (f : Flag) (v : Bool) (p : Byte) (hf : f ≠ .b) :
    reservedBitsHold (withFlag f v p) = reservedBitsHold p := by
  simp only [reservedBitsHold, getLsbD_withFlag]
  cases f <;> simp_all [flagBit]

theorem reservedMask_nmos : reservedMask nmos = 0x30#8 := by decide

theorem reservedConst_nmos : reservedConst nmos = 0x20#8 := by decide

/-- A loaded status in profile NMOS6502 (R31). -/
theorem statusFrom_nmos (v : Byte) : statusFrom nmos v = (v &&& 0xCF#8) ||| 0x20#8 := by
  rw [statusFrom, reservedMask_nmos, reservedConst_nmos]; rfl

@[simp] theorem reserved_statusFrom (v : Byte) : reservedBitsHold (statusFrom nmos v) = true := by
  simp [reservedBitsHold, statusFrom_nmos]

@[simp] theorem reserved_setZN (v p : Byte) : reservedBitsHold (setZN v p) = reservedBitsHold p := by
  simp [setZN]

@[simp] theorem reserved_passZN (v p : Byte) : reservedBitsHold (passZN v p).p = reservedBitsHold p := by
  simp [passZN]

@[simp] theorem flag_setZN (f : Flag) (v p : Byte) :
    flag f (setZN v p) = if f = .n then v.getLsbD 7 else if f = .z then v == 0#8 else flag f p := by
  simp [setZN]

/-- A byte with the same flags and the same reserved bits is the same byte. -/
theorem status_ext {p q : Byte} (h : ∀ f, flag f p = flag f q) (h5 : p.getLsbD 5 = q.getLsbD 5) : p = q := by
  apply BitVec.eq_of_getLsbD_eq
  intro i hi
  have := h .n; have := h .v; have := h .b; have := h .d; have := h .i; have := h .z; have := h .c
  simp only [flag, flagBit] at *
  interval_cases i <;> assumption

/-- Restoring a pushed status gives the status back, but for bits 5 and 4, which are constant. -/
theorem statusFrom_withoutBreak (p : Byte) (h : reservedBitsHold p = true) :
    statusFrom nmos (statusWithoutBreak p) = p := by
  rw [statusFrom_nmos]; revert h; revert p; decide

theorem statusFrom_withBreak (p : Byte) (h : reservedBitsHold p = true) : statusFrom nmos (statusWithBreak p) = p := by
  rw [statusFrom_nmos]; revert h; revert p; decide

/-! ### Addition and subtraction in the profile's flags -/

/-- Profile NMOS6502 stores the four flags of the primitive, and the half-carry nowhere (R33). -/
theorem placeSignals_nmos (f : Signal → Bool) (p : Byte) : placeSignals nmos f p =
    withFlag .n (f .negative) (withFlag .v (f .overflow) (withFlag .z (f .zero) (withFlag .c (f .carry) p))) := by
  have h0 : ∀ (v : Bool) (q : Byte), withBits 0#8 v q = q := by decide
  exact (h0 (f .subtraction) _).trans (h0 (f .halfCarry) _)

/-- Placing the flags of a byte that differs from the old one in those four only gives that byte. -/
theorem placeSignals_eq {p r : Byte} (h sub : Bool)
    (hr : ∀ n, n ≠ 7 → n ≠ 6 → n ≠ 1 → n ≠ 0 → r.getLsbD n = p.getLsbD n) :
    placeSignals nmos (aluSignals r h sub) p = r := by
  rw [placeSignals_nmos]
  apply BitVec.eq_of_getLsbD_eq
  intro n _
  simp only [getLsbD_withFlag, flagBit, aluSignals, flag]
  by_cases h7 : n = 7
  · simp [h7]
  by_cases h6 : n = 6
  · simp [h6]
  by_cases h1 : n = 1
  · simp [h1]
  by_cases h0 : n = 0
  · simp [h0]
  · simp [h7, h6, h1, h0, hr n h7 h6 h1 h0]

theorem carryOf_nmos (p : Byte) : carryOf nmos p = flag .c p := by revert p; decide

@[simp] theorem borrowSense_nmos (c : Bool) : borrowSense nmos c = c := by cases c <;> rfl

theorem decimalOn_nmos (p : Byte) : decimalOn nmosDecimal p = flag .d p := rfl

/-- ADC of profile NMOS6502 is the primitive that `P.D` selects (R185). -/
theorem addWithCarry_nmos (a m p : Byte) : addWithCarry nmos a m p =
    if flag .d p then addDecimal nmosDecimal a m (flag .c p) p else addBinary a m (flag .c p) p := by
  have e : nmos.decimal = nmosDecimal := rfl
  simp only [addWithCarry, carryOf_nmos, e, decimalOn_nmos]
  rw [placeSignals_eq]
  intro n h7 h6 h1 h0
  split <;> simp [addDecimal, addBinary, passZN, setZN, getLsbD_withFlag, flagBit, h7, h6, h1, h0]

/-- SBC of profile NMOS6502 is the primitive that `P.D` selects (R185). -/
theorem subWithCarry_nmos (a m p : Byte) : subWithCarry nmos a m p =
    if flag .d p then subDecimal nmosDecimal a m (flag .c p) p else subBinary a m (flag .c p) p := by
  have e : nmos.decimal = nmosDecimal := rfl
  have k : ∀ q : Byte, withFlag .c (flag .c q) q = q := by decide
  simp only [subWithCarry, carryOf_nmos, borrowSense_nmos, e, decimalOn_nmos, k]
  rw [placeSignals_eq]
  intro n h7 h6 h1 h0
  split <;> simp [subDecimal, subBinary, passZN, setZN, getLsbD_withFlag, flagBit, h7, h6, h1, h0]

@[simp] theorem reserved_addWithCarry (a m p : Byte) :
    reservedBitsHold (addWithCarry nmos a m p).p = reservedBitsHold p := by
  rw [addWithCarry_nmos]; split <;> simp [addDecimal, addBinary]

@[simp] theorem reserved_subWithCarry (a m p : Byte) :
    reservedBitsHold (subWithCarry nmos a m p).p = reservedBitsHold p := by
  rw [subWithCarry_nmos]; split <;> simp [subDecimal, subBinary]

/-- In profile NMOS6502 all four flags of decimal subtraction are those of the binary one (R187). -/
theorem subDecimal_flags_nmos (a b : Byte) (cin : Bool) (p : Byte) :
    (subDecimal nmosDecimal a b cin p).p = (subBinary a b cin p).p := rfl

@[simp] theorem reserved_cmpFlags (r m p : Byte) : reservedBitsHold (cmpFlags r m p) = reservedBitsHold p := by
  simp [cmpFlags]

@[simp] theorem reserved_bitFlags (a m p : Byte) : reservedBitsHold (bitFlags a m p) = reservedBitsHold p := by
  simp [bitFlags]

@[simp] theorem reserved_andWith (a m p : Byte) : reservedBitsHold (andWith a m p).p = reservedBitsHold p := by
  simp [andWith]

@[simp] theorem reserved_orWith (a m p : Byte) : reservedBitsHold (orWith a m p).p = reservedBitsHold p := by
  simp [orWith]

@[simp] theorem reserved_xorWith (a m p : Byte) : reservedBitsHold (xorWith a m p).p = reservedBitsHold p := by
  simp [xorWith]

@[simp] theorem reserved_asl (v p : Byte) : reservedBitsHold (asl v p).p = reservedBitsHold p := by simp [asl]

@[simp] theorem reserved_lsr (v p : Byte) : reservedBitsHold (lsr v p).p = reservedBitsHold p := by simp [lsr]

@[simp] theorem reserved_rol (v p : Byte) : reservedBitsHold (rol v p).p = reservedBitsHold p := by simp [rol]

@[simp] theorem reserved_ror (v p : Byte) : reservedBitsHold (ror v p).p = reservedBitsHold p := by simp [ror]

@[simp] theorem reserved_inc (v p : Byte) : reservedBitsHold (inc v p).p = reservedBitsHold p := by simp [inc]

@[simp] theorem reserved_dec (v p : Byte) : reservedBitsHold (dec v p).p = reservedBitsHold p := by simp [dec]

@[simp] theorem reserved_arr (q : DecimalQuirks) (a m p : Byte) :
    reservedBitsHold (arr q a m p).p = reservedBitsHold p := by
  unfold arr; dsimp only; split_ifs <;> simp

@[simp] theorem reserved_sbx (a x m p : Byte) : reservedBitsHold (sbx a x m p).p = reservedBitsHold p := by
  simp [sbx]

/-- The flags byte after entry in profile NMOS6502 (R415). -/
@[simp] theorem entryStatus_nmos (p : Byte) : entryStatus nmos p = withFlag .i true p := rfl

/-- The flags byte after entry in profile CMOS65C02 (R373). -/
@[simp] theorem entryStatus_cmos (p : Byte) : entryStatus cmos p = withFlag .i true (withFlag .d false p) := rfl

/-- The entries of the 6502's profiles touch no flip-flop. -/
@[simp] theorem entryFlipFlops_nmos (o : OtherRegisters) : entryFlipFlops nmos o = o := rfl

@[simp] theorem entryFlipFlops_cmos (o : OtherRegisters) : entryFlipFlops cmos o = o := rfl

/-- The status byte that an entry of profile NMOS6502 pushes (R31, R411). -/
theorem pushedStatus_nmos (e : Entry) (p : Byte) :
    pushedStatus nmos e p = if e = .brk then statusWithBreak p else statusWithoutBreak p := by
  have h : ∀ q : Byte, withBits 0x10#8 true ((q &&& 0xCF#8) ||| 0x20#8) = statusWithBreak q ∧
      withBits 0x10#8 false ((q &&& 0xCF#8) ||| 0x20#8) = statusWithoutBreak q := by decide
  have c : copyMask nmos = 0x10#8 := by decide
  rw [pushedStatus, c, statusFrom_nmos]
  cases e
  case brk => exact (h p).1
  all_goals exact (h p).2

/-- Profile CMOS65C02 has the flag layout of NMOS6502. -/
theorem pushedStatus_cmos (e : Entry) (p : Byte) : pushedStatus cmos e p = pushedStatus nmos e p := rfl

/-! ### Words -/

theorem getLsbD_wordOf (h l : Byte) (n : Nat) :
    (wordOf h l).getLsbD n = if n < 8 then l.getLsbD n else h.getLsbD (n - 8) := by
  unfold wordOf
  refine (BitVec.getLsbD_append (x := h) (y := l) (i := n)).trans ?_
  by_cases h : n < 8 <;> simp [h]

theorem getLsbD_hi (w : Word) (n : Nat) : (hi w).getLsbD n = (decide (n < 8) && w.getLsbD (8 + n)) := by
  simp [hi]

theorem getLsbD_lo (w : Word) (n : Nat) : (lo w).getLsbD n = (decide (n < 8) && w.getLsbD n) := by
  simp [lo]

@[simp] theorem hi_wordOf (h l : Byte) : hi (wordOf h l) = h := by
  apply BitVec.eq_of_getLsbD_eq; intro i hi'
  rw [getLsbD_hi, getLsbD_wordOf]
  simp [hi']

@[simp] theorem lo_wordOf (h l : Byte) : lo (wordOf h l) = l := by
  apply BitVec.eq_of_getLsbD_eq; intro i hi'
  rw [getLsbD_lo, getLsbD_wordOf]
  simp [hi']

@[simp] theorem wordOf_hi_lo (w : Word) : wordOf (hi w) (lo w) = w := by
  apply BitVec.eq_of_getLsbD_eq; intro i hi'
  rw [getLsbD_wordOf, getLsbD_hi, getLsbD_lo]
  by_cases h : i < 8
  · simp [h]
  · simp [h, show i - 8 < 8 by omega, show 8 + (i - 8) = i by omega]

theorem wordOf_inj {h l h' l' : Byte} : wordOf h l = wordOf h' l' ↔ h = h' ∧ l = l' := by
  constructor
  · intro e
    exact ⟨by simpa using congrArg hi e, by simpa using congrArg lo e⟩
  · rintro ⟨rfl, rfl⟩; rfl

end Sys2Proof.Machine
end

