-- ==== Sys2Proof/Laws/Memory.lean ====
section
/-! SUPPORT. What the memory operations do: read after write, and that every one keeps the canonical form. -/

namespace Sys2Proof.Machine

theorem Memory.loaded_write (m : Memory) (a b : Nat) (v : Byte) :
    (m.write a v).loaded b = if b = a then some v else m.loaded b := by
  induction m with
  | nil => simp [Memory.write, Memory.loaded, eq_comm]
  | cons e m ih =>
    obtain ⟨k, u⟩ := e
    by_cases c : a < k
    · by_cases hb : b = a
      · simp [Memory.write, c, Memory.loaded, hb]
      · simp [Memory.write, c, Memory.loaded, hb, Ne.symm hb]
    · by_cases d : a = k
      · subst d
        by_cases hb : b = a
        · simp [Memory.write, Memory.loaded, hb]
        · simp [Memory.write, Memory.loaded, hb, Ne.symm hb]
      · by_cases hk : k = b
        · subst hk
          simp [Memory.write, c, d, Memory.loaded, Ne.symm d]
        · simp [Memory.write, c, d, Memory.loaded, hk, ih]

theorem Memory.read_write (m : Memory) (a b : Nat) (v : Byte) :
    (m.write a v).read b = if b = a then v else m.read b := by
  unfold Memory.read
  rw [Memory.loaded_write]
  split_ifs <;> rfl

@[simp] theorem Memory.read_write_same (m : Memory) (a : Nat) (v : Byte) : (m.write a v).read a = v := by
  simp [Memory.read_write]

theorem Memory.read_write_other (m : Memory) {a b : Nat} (v : Byte) (h : b ≠ a) :
    (m.write a v).read b = m.read b := by
  simp [Memory.read_write, h]

theorem Memory.risesFrom_write (m : Memory) (lb a : Nat) (v : Byte) (hm : Memory.risesFrom lb m = true)
    (hlb : lb ≤ a) (ha : a < 65536) : Memory.risesFrom lb (m.write a v) = true := by
  induction m generalizing lb with
  | nil => simp [Memory.write, Memory.risesFrom, hlb, ha]
  | cons e m ih =>
    obtain ⟨k, u⟩ := e
    simp only [Memory.risesFrom, Bool.and_eq_true, decide_eq_true_eq] at hm
    obtain ⟨⟨h1, h2⟩, h3⟩ := hm
    simp only [Memory.write]
    split_ifs with c d
    · simp [Memory.risesFrom, hlb, ha, h2, h3]; omega
    · simp [Memory.risesFrom, h1, h2, h3]
    · simp only [Memory.risesFrom, h1, h2, decide_true, Bool.and_self, Bool.true_and]
      exact ih (k + 1) h3 (by omega)

/-- A write keeps the canonical form. -/
theorem Memory.wf_write (m : Memory) (a : Word) (v : Byte) (hm : m.wf = true) : (m.write a.toNat v).wf = true :=
  Memory.risesFrom_write m 0 a.toNat v hm (Nat.zero_le _) a.isLt

/-- In canonical form an address below the least one listed holds nothing. -/
theorem Memory.loaded_below (m : Memory) (lb b : Nat) (hm : Memory.risesFrom lb m = true) (hb : b < lb) :
    m.loaded b = none := by
  induction m generalizing lb with
  | nil => rfl
  | cons e m ih =>
    obtain ⟨k, u⟩ := e
    simp only [Memory.risesFrom, Bool.and_eq_true, decide_eq_true_eq] at hm
    obtain ⟨⟨h1, _⟩, h3⟩ := hm
    simp only [Memory.loaded]
    rw [if_neg (by omega)]
    exact ih (k + 1) h3 (by omega)

/-- Two memories in canonical form that hold the same bytes are the same list. -/
theorem Memory.ext_of_loaded (m n : Memory) (lb lc : Nat) (hm : Memory.risesFrom lb m = true)
    (hn : Memory.risesFrom lc n = true) (h : ∀ b, m.loaded b = n.loaded b) : m = n := by
  induction m generalizing n lb lc with
  | nil =>
    cases n with
    | nil => rfl
    | cons e n => have := h e.1; simp [Memory.loaded] at this
  | cons e m ih =>
    obtain ⟨k, u⟩ := e
    cases n with
    | nil => have := h k; simp [Memory.loaded] at this
    | cons f n =>
      obtain ⟨l, w⟩ := f
      simp only [Memory.risesFrom, Bool.and_eq_true, decide_eq_true_eq] at hm hn
      have hk := h k
      have hl := h l
      simp only [Memory.loaded, if_true] at hk hl
      have hkl : k = l := by
        by_contra hne
        rcases Nat.lt_or_gt_of_ne hne with c | c
        · rw [if_neg (by omega), Memory.loaded_below n (l + 1) k hn.2 (by omega)] at hk
          exact absurd hk (by simp)
        · rw [if_neg (by omega), Memory.loaded_below m (k + 1) l hm.2 (by omega)] at hl
          exact absurd hl (by simp)
      subst hkl
      simp only [if_true, Option.some.injEq] at hk
      subst hk
      rw [ih n (k + 1) (k + 1) hm.2 hn.2]
      intro b
      by_cases hb : k = b
      · subst hb
        rw [Memory.loaded_below m (k + 1) k hm.2 (by omega), Memory.loaded_below n (k + 1) k hn.2 (by omega)]
      · have := h b
        simpa [Memory.loaded, hb] using this

theorem reset_memory_wf : State.reset.mem.wf = true := rfl

end Sys2Proof.Machine
end

