-- ==== Sys2Proof/Laws/State.lean ====
section
/-! SUPPORT. One lemma per field per update of the state, so that no proof unfolds a record update. -/

namespace Sys2Proof.Machine

open Config

/-! ### Pins -/

/-- Driving an output to the level it has changes nothing and is told to nobody (R42). -/
theorem driveOutput_same {pin : OutputPin} {l : Level} {s : State} (h : s.pins.output pin = l) :
    driveOutput pin l s = (.noChange, s) := by
  subst h
  obtain ⟨_, _, _, _, _, _, _, _, _, _, _, _, _, _, _, _, _, ⟨_, _, _, _, _, _, sync, rd, wr⟩, _, _, _, _⟩ := s
  cases pin
  · cases sync <;> rfl
  · cases rd <;> rfl
  · cases wr <;> rfl

/-- An output that falls changes its level alone. -/
theorem driveOutput_lowered {pin : OutputPin} {s : State} (h : s.pins.output pin = .raised) :
    driveOutput pin .lowered s = (.fellEdge, { s with pins := s.pins.withOutput .lowered pin }) := by
  unfold driveOutput
  rw [h]
  cases pin <;> rfl

/-- The trace when an output rises: `RD` and `WR` end a cycle, which is recorded. -/
def traceAtRise (pin : OutputPin) (s : State) : List BusEvent :=
  match pin with
  | .sync => s.trace
  | .rd => s.trace ++ [s.event .read]
  | .wr => s.trace ++ [s.event .write]

/-- An output that rises: the end of a bus cycle is recorded, for `RD` and `WR`, with the levels as they were in it (R43). -/
theorem driveOutput_raised {pin : OutputPin} {s : State} (h : s.pins.output pin = .lowered) :
    driveOutput pin .raised s = (.roseEdge, { s with
      pins := s.pins.withOutput .raised pin
      trace := traceAtRise pin s }) := by
  unfold driveOutput
  rw [h]
  cases pin <;> rfl

/-- A pin that the board drives has no observer. -/
@[simp] theorem transition_input (pin : InputPin) (e : Edge) (move : Pins → Pins) (s : State) :
    transition pin.surface e move s = { s with pins := move s.pins } := by cases pin <;> rfl

/-- A bus cycle: `RD` or `WR` is lowered while the byte passes, and raised after it, when the cycle is recorded (R43). -/
theorem busCycle_eq (pin : OutputPin) (transfer : State → State) (s : State)
    (h : (transfer { s with pins := s.pins.withOutput .lowered pin }).pins = s.pins.withOutput .lowered pin) :
    busCycle pin transfer s =
      let t := transfer { s with pins := s.pins.withOutput .lowered pin }
      { t with
        pins := s.pins.withOutput .raised pin
        trace := traceAtRise pin t } := by
  have h1 : (driveOutput pin .lowered s).2 = { s with pins := s.pins.withOutput .lowered pin } := by
    cases hl : s.pins.output pin with
    | raised => rw [driveOutput_lowered hl]
    | lowered =>
      rw [driveOutput_same hl]
      have : s.pins.withOutput .lowered pin = s.pins := by
        rw [← hl]; cases pin <;> rfl
      rw [this]
  have h2 : (transfer { s with pins := s.pins.withOutput .lowered pin }).pins.output pin = .lowered := by
    rw [h]; cases pin <;> rfl
  have h3 : (s.pins.withOutput .lowered pin).withOutput .raised pin = s.pins.withOutput .raised pin := by
    cases pin <;> rfl
  show (driveOutput pin .raised (transfer (driveOutput pin .lowered s).2)).2 = _
  rw [h1]
  generalize transfer _ = t at h h2 ⊢
  simp only [driveOutput_raised h2, h, h3]

/-- What a read cycle leaves (R75, R76). -/
theorem readCycle_eq (r : Region) (a : Word) (s : State) : readCycle r a s = { s with
    cycles := s.cycles + 1
    addr := a
    data := busByte r a s
    trace := s.trace ++ [⟨a, busByte r a s, .read, s.pins.sync == .raised⟩]
    freeIndex := if r.access = .writeOnly then s.freeIndex + 1 else s.freeIndex
    pins := { s.pins with rd := .raised } } := by
  have h : (s.pins.sync == .raised && Action.read == .read) = (s.pins.sync == .raised) := Bool.and_true _
  rw [readCycle, busCycle_eq .rd _ _ rfl, ← h]
  rfl

/-- What a write cycle leaves (R75, R77). -/
theorem writeCycle_eq (r : Region) (a : Word) (v : Byte) (s : State) : writeCycle r a v s = { s with
    cycles := s.cycles + 1
    addr := a
    data := v
    trace := s.trace ++ [⟨a, v, .write, false⟩]
    mem := if r.access = .readOnly then s.mem else s.mem.write a.toNat v
    pins := { s.pins with wr := .raised } } := by
  have h : (s.pins.sync == .raised && Action.write == .read) = false := Bool.and_false _
  rw [writeCycle, busCycle_eq .wr _ _ rfl, ← h]
  rfl

/-- Driving `SYNC` changes its level alone. -/
theorem setSync_eq (l : Level) (s : State) : s.setSync l = { s with pins := { s.pins with sync := l } } := rfl

/-! ### Updates -/

@[simp] theorem tick_a (a : Word) (v : Byte) (s : State) : (s.tick a v).a = s.a := rfl
@[simp] theorem tick_x (a : Word) (v : Byte) (s : State) : (s.tick a v).x = s.x := rfl
@[simp] theorem tick_y (a : Word) (v : Byte) (s : State) : (s.tick a v).y = s.y := rfl
@[simp] theorem tick_sp (a : Word) (v : Byte) (s : State) : (s.tick a v).sp = s.sp := rfl
@[simp] theorem tick_p (a : Word) (v : Byte) (s : State) : (s.tick a v).p = s.p := rfl
@[simp] theorem tick_pc (a : Word) (v : Byte) (s : State) : (s.tick a v).pc = s.pc := rfl
@[simp] theorem tick_other (a : Word) (v : Byte) (s : State) : (s.tick a v).other = s.other := rfl
@[simp] theorem tick_ir (a : Word) (v : Byte) (s : State) : (s.tick a v).ir = s.ir := rfl
@[simp] theorem tick_run (a : Word) (v : Byte) (s : State) : (s.tick a v).run = s.run := rfl
@[simp] theorem tick_pendReset (a : Word) (v : Byte) (s : State) : (s.tick a v).pendReset = s.pendReset := rfl
@[simp] theorem tick_pendNmi (a : Word) (v : Byte) (s : State) : (s.tick a v).pendNmi = s.pendNmi := rfl
@[simp] theorem tick_pendIrq (a : Word) (v : Byte) (s : State) : (s.tick a v).pendIrq = s.pendIrq := rfl
@[simp] theorem tick_pendSo (a : Word) (v : Byte) (s : State) : (s.tick a v).pendSo = s.pendSo := rfl
@[simp] theorem tick_addr (a : Word) (v : Byte) (s : State) : (s.tick a v).addr = a := rfl
@[simp] theorem tick_data (a : Word) (v : Byte) (s : State) : (s.tick a v).data = v := rfl
@[simp] theorem tick_cycles (a : Word) (v : Byte) (s : State) : (s.tick a v).cycles = s.cycles + 1 := rfl
@[simp] theorem tick_trace (a : Word) (v : Byte) (s : State) : (s.tick a v).trace = s.trace := rfl
@[simp] theorem tick_pins (a : Word) (v : Byte) (s : State) : (s.tick a v).pins = s.pins := rfl
@[simp] theorem tick_variant (a : Word) (v : Byte) (s : State) : (s.tick a v).variant = s.variant := rfl
@[simp] theorem tick_regions (a : Word) (v : Byte) (s : State) : (s.tick a v).regions = s.regions := rfl
@[simp] theorem tick_mem (a : Word) (v : Byte) (s : State) : (s.tick a v).mem = s.mem := rfl
@[simp] theorem tick_freeIndex (a : Word) (v : Byte) (s : State) : (s.tick a v).freeIndex = s.freeIndex := rfl

@[simp] theorem readCycle_a (r : Region) (a : Word) (s : State) : (readCycle r a s).a = s.a := rfl
@[simp] theorem readCycle_x (r : Region) (a : Word) (s : State) : (readCycle r a s).x = s.x := rfl
@[simp] theorem readCycle_y (r : Region) (a : Word) (s : State) : (readCycle r a s).y = s.y := rfl
@[simp] theorem readCycle_sp (r : Region) (a : Word) (s : State) : (readCycle r a s).sp = s.sp := rfl
@[simp] theorem readCycle_p (r : Region) (a : Word) (s : State) : (readCycle r a s).p = s.p := rfl
@[simp] theorem readCycle_pc (r : Region) (a : Word) (s : State) : (readCycle r a s).pc = s.pc := rfl
@[simp] theorem readCycle_other (r : Region) (a : Word) (s : State) : (readCycle r a s).other = s.other := rfl
@[simp] theorem readCycle_ir (r : Region) (a : Word) (s : State) : (readCycle r a s).ir = s.ir := rfl
@[simp] theorem readCycle_run (r : Region) (a : Word) (s : State) : (readCycle r a s).run = s.run := rfl
@[simp] theorem readCycle_pendReset (r : Region) (a : Word) (s : State) : (readCycle r a s).pendReset = s.pendReset := rfl
@[simp] theorem readCycle_pendNmi (r : Region) (a : Word) (s : State) : (readCycle r a s).pendNmi = s.pendNmi := rfl
@[simp] theorem readCycle_pendIrq (r : Region) (a : Word) (s : State) : (readCycle r a s).pendIrq = s.pendIrq := rfl
@[simp] theorem readCycle_pendSo (r : Region) (a : Word) (s : State) : (readCycle r a s).pendSo = s.pendSo := rfl
@[simp] theorem readCycle_addr (r : Region) (a : Word) (s : State) : (readCycle r a s).addr = a := rfl
@[simp] theorem readCycle_data (r : Region) (a : Word) (s : State) : (readCycle r a s).data = busByte r a s := rfl
@[simp] theorem readCycle_cycles (r : Region) (a : Word) (s : State) : (readCycle r a s).cycles = s.cycles + 1 := rfl
@[simp] theorem readCycle_trace (r : Region) (a : Word) (s : State) :
    (readCycle r a s).trace = s.trace ++ [⟨a, busByte r a s, .read, s.pins.sync == .raised⟩] := by rw [readCycle_eq]
@[simp] theorem readCycle_pins (r : Region) (a : Word) (s : State) : (readCycle r a s).pins = { s.pins with rd := .raised } := rfl
@[simp] theorem readCycle_variant (r : Region) (a : Word) (s : State) : (readCycle r a s).variant = s.variant := rfl
@[simp] theorem readCycle_regions (r : Region) (a : Word) (s : State) : (readCycle r a s).regions = s.regions := rfl
@[simp] theorem readCycle_mem (r : Region) (a : Word) (s : State) : (readCycle r a s).mem = s.mem := rfl
@[simp] theorem readCycle_freeIndex (r : Region) (a : Word) (s : State) :
    (readCycle r a s).freeIndex = if r.access = .writeOnly then s.freeIndex + 1 else s.freeIndex := rfl

@[simp] theorem writeCycle_a (r : Region) (a : Word) (v : Byte) (s : State) : (writeCycle r a v s).a = s.a := rfl
@[simp] theorem writeCycle_x (r : Region) (a : Word) (v : Byte) (s : State) : (writeCycle r a v s).x = s.x := rfl
@[simp] theorem writeCycle_y (r : Region) (a : Word) (v : Byte) (s : State) : (writeCycle r a v s).y = s.y := rfl
@[simp] theorem writeCycle_sp (r : Region) (a : Word) (v : Byte) (s : State) : (writeCycle r a v s).sp = s.sp := rfl
@[simp] theorem writeCycle_p (r : Region) (a : Word) (v : Byte) (s : State) : (writeCycle r a v s).p = s.p := rfl
@[simp] theorem writeCycle_pc (r : Region) (a : Word) (v : Byte) (s : State) : (writeCycle r a v s).pc = s.pc := rfl
@[simp] theorem writeCycle_other (r : Region) (a : Word) (v : Byte) (s : State) : (writeCycle r a v s).other = s.other := rfl
@[simp] theorem writeCycle_ir (r : Region) (a : Word) (v : Byte) (s : State) : (writeCycle r a v s).ir = s.ir := rfl
@[simp] theorem writeCycle_run (r : Region) (a : Word) (v : Byte) (s : State) : (writeCycle r a v s).run = s.run := rfl
@[simp] theorem writeCycle_pendReset (r : Region) (a : Word) (v : Byte) (s : State) : (writeCycle r a v s).pendReset = s.pendReset := rfl
@[simp] theorem writeCycle_pendNmi (r : Region) (a : Word) (v : Byte) (s : State) : (writeCycle r a v s).pendNmi = s.pendNmi := rfl
@[simp] theorem writeCycle_pendIrq (r : Region) (a : Word) (v : Byte) (s : State) : (writeCycle r a v s).pendIrq = s.pendIrq := rfl
@[simp] theorem writeCycle_pendSo (r : Region) (a : Word) (v : Byte) (s : State) : (writeCycle r a v s).pendSo = s.pendSo := rfl
@[simp] theorem writeCycle_addr (r : Region) (a : Word) (v : Byte) (s : State) : (writeCycle r a v s).addr = a := rfl
@[simp] theorem writeCycle_data (r : Region) (a : Word) (v : Byte) (s : State) : (writeCycle r a v s).data = v := rfl
@[simp] theorem writeCycle_cycles (r : Region) (a : Word) (v : Byte) (s : State) : (writeCycle r a v s).cycles = s.cycles + 1 := rfl
@[simp] theorem writeCycle_trace (r : Region) (a : Word) (v : Byte) (s : State) :
    (writeCycle r a v s).trace = s.trace ++ [⟨a, v, .write, false⟩] := by rw [writeCycle_eq]
@[simp] theorem writeCycle_pins (r : Region) (a : Word) (v : Byte) (s : State) : (writeCycle r a v s).pins = { s.pins with wr := .raised } := rfl
@[simp] theorem writeCycle_variant (r : Region) (a : Word) (v : Byte) (s : State) : (writeCycle r a v s).variant = s.variant := rfl
@[simp] theorem writeCycle_regions (r : Region) (a : Word) (v : Byte) (s : State) : (writeCycle r a v s).regions = s.regions := rfl
@[simp] theorem writeCycle_mem (r : Region) (a : Word) (v : Byte) (s : State) :
    (writeCycle r a v s).mem = if r.access = .readOnly then s.mem else s.mem.write a.toNat v := rfl
@[simp] theorem writeCycle_freeIndex (r : Region) (a : Word) (v : Byte) (s : State) : (writeCycle r a v s).freeIndex = s.freeIndex := rfl

@[simp] theorem setSync_a (l : Level) (s : State) : (s.setSync l).a = s.a := rfl
@[simp] theorem setSync_x (l : Level) (s : State) : (s.setSync l).x = s.x := rfl
@[simp] theorem setSync_y (l : Level) (s : State) : (s.setSync l).y = s.y := rfl
@[simp] theorem setSync_sp (l : Level) (s : State) : (s.setSync l).sp = s.sp := rfl
@[simp] theorem setSync_p (l : Level) (s : State) : (s.setSync l).p = s.p := rfl
@[simp] theorem setSync_pc (l : Level) (s : State) : (s.setSync l).pc = s.pc := rfl
@[simp] theorem setSync_other (l : Level) (s : State) : (s.setSync l).other = s.other := rfl
@[simp] theorem setSync_ir (l : Level) (s : State) : (s.setSync l).ir = s.ir := rfl
@[simp] theorem setSync_run (l : Level) (s : State) : (s.setSync l).run = s.run := rfl
@[simp] theorem setSync_pendReset (l : Level) (s : State) : (s.setSync l).pendReset = s.pendReset := rfl
@[simp] theorem setSync_pendNmi (l : Level) (s : State) : (s.setSync l).pendNmi = s.pendNmi := rfl
@[simp] theorem setSync_pendIrq (l : Level) (s : State) : (s.setSync l).pendIrq = s.pendIrq := rfl
@[simp] theorem setSync_pendSo (l : Level) (s : State) : (s.setSync l).pendSo = s.pendSo := rfl
@[simp] theorem setSync_addr (l : Level) (s : State) : (s.setSync l).addr = s.addr := rfl
@[simp] theorem setSync_data (l : Level) (s : State) : (s.setSync l).data = s.data := rfl
@[simp] theorem setSync_cycles (l : Level) (s : State) : (s.setSync l).cycles = s.cycles := rfl
@[simp] theorem setSync_trace (l : Level) (s : State) : (s.setSync l).trace = s.trace := rfl
@[simp] theorem setSync_pins (l : Level) (s : State) : (s.setSync l).pins = { s.pins with sync := l } := rfl
@[simp] theorem setSync_variant (l : Level) (s : State) : (s.setSync l).variant = s.variant := rfl
@[simp] theorem setSync_regions (l : Level) (s : State) : (s.setSync l).regions = s.regions := rfl
@[simp] theorem setSync_mem (l : Level) (s : State) : (s.setSync l).mem = s.mem := rfl
@[simp] theorem setSync_freeIndex (l : Level) (s : State) : (s.setSync l).freeIndex = s.freeIndex := rfl

@[simp] theorem powerOn_a (s : State) : (powerOn s).a = s.a := rfl
@[simp] theorem powerOn_x (s : State) : (powerOn s).x = s.x := rfl
@[simp] theorem powerOn_y (s : State) : (powerOn s).y = s.y := rfl
@[simp] theorem powerOn_sp (s : State) : (powerOn s).sp = s.sp := rfl
@[simp] theorem powerOn_p (s : State) : (powerOn s).p = s.p := rfl
@[simp] theorem powerOn_pc (s : State) : (powerOn s).pc = s.pc := rfl
@[simp] theorem powerOn_other (s : State) : (powerOn s).other = s.other := rfl
@[simp] theorem powerOn_ir (s : State) : (powerOn s).ir = s.ir := rfl
@[simp] theorem powerOn_run (s : State) : (powerOn s).run = .running := rfl
@[simp] theorem powerOn_pendReset (s : State) : (powerOn s).pendReset = false := rfl
@[simp] theorem powerOn_pendNmi (s : State) : (powerOn s).pendNmi = false := rfl
@[simp] theorem powerOn_pendIrq (s : State) : (powerOn s).pendIrq = false := rfl
@[simp] theorem powerOn_pendSo (s : State) : (powerOn s).pendSo = false := rfl
@[simp] theorem powerOn_addr (s : State) : (powerOn s).addr = s.addr := rfl
@[simp] theorem powerOn_data (s : State) : (powerOn s).data = s.data := rfl
@[simp] theorem powerOn_cycles (s : State) : (powerOn s).cycles = 0 := rfl
@[simp] theorem powerOn_trace (s : State) : (powerOn s).trace = [] := rfl
@[simp] theorem powerOn_pins (s : State) : (powerOn s).pins = { s.pins with sync := .lowered, rd := .raised, wr := .raised } := rfl
@[simp] theorem powerOn_variant (s : State) : (powerOn s).variant = s.variant := rfl
@[simp] theorem powerOn_regions (s : State) : (powerOn s).regions = s.regions := rfl
@[simp] theorem powerOn_mem (s : State) : (powerOn s).mem = s.mem := rfl
@[simp] theorem powerOn_freeIndex (s : State) : (powerOn s).freeIndex = s.freeIndex := rfl

@[simp] theorem applySo_a (s : State) : (applySo s).a = s.a := by unfold applySo; split <;> rfl
@[simp] theorem applySo_x (s : State) : (applySo s).x = s.x := by unfold applySo; split <;> rfl
@[simp] theorem applySo_y (s : State) : (applySo s).y = s.y := by unfold applySo; split <;> rfl
@[simp] theorem applySo_sp (s : State) : (applySo s).sp = s.sp := by unfold applySo; split <;> rfl
@[simp] theorem applySo_p (s : State) : (applySo s).p = if s.pendSo then withFlag .v true s.p else s.p := by
  unfold applySo; split <;> simp_all
@[simp] theorem applySo_pc (s : State) : (applySo s).pc = s.pc := by unfold applySo; split <;> rfl
@[simp] theorem applySo_other (s : State) : (applySo s).other = s.other := by unfold applySo; split <;> rfl
@[simp] theorem applySo_ir (s : State) : (applySo s).ir = s.ir := by unfold applySo; split <;> rfl
@[simp] theorem applySo_run (s : State) : (applySo s).run = s.run := by unfold applySo; split <;> rfl
@[simp] theorem applySo_pendReset (s : State) : (applySo s).pendReset = s.pendReset := by unfold applySo; split <;> rfl
@[simp] theorem applySo_pendNmi (s : State) : (applySo s).pendNmi = s.pendNmi := by unfold applySo; split <;> rfl
@[simp] theorem applySo_pendIrq (s : State) : (applySo s).pendIrq = s.pendIrq := by unfold applySo; split <;> rfl
@[simp] theorem applySo_pendSo (s : State) : (applySo s).pendSo = false := by
  unfold applySo; split <;> simp_all
@[simp] theorem applySo_addr (s : State) : (applySo s).addr = s.addr := by unfold applySo; split <;> rfl
@[simp] theorem applySo_data (s : State) : (applySo s).data = s.data := by unfold applySo; split <;> rfl
@[simp] theorem applySo_cycles (s : State) : (applySo s).cycles = s.cycles := by unfold applySo; split <;> rfl
@[simp] theorem applySo_trace (s : State) : (applySo s).trace = s.trace := by unfold applySo; split <;> rfl
@[simp] theorem applySo_pins (s : State) : (applySo s).pins = s.pins := by unfold applySo; split <;> rfl
@[simp] theorem applySo_variant (s : State) : (applySo s).variant = s.variant := by unfold applySo; split <;> rfl
@[simp] theorem applySo_regions (s : State) : (applySo s).regions = s.regions := by unfold applySo; split <;> rfl
@[simp] theorem applySo_mem (s : State) : (applySo s).mem = s.mem := by unfold applySo; split <;> rfl
@[simp] theorem applySo_freeIndex (s : State) : (applySo s).freeIndex = s.freeIndex := by unfold applySo; split <;> rfl

@[simp] theorem onSelection_a (e : Entry) (s : State) : (onSelection e s).a = s.a := by cases e <;> rfl
@[simp] theorem onSelection_x (e : Entry) (s : State) : (onSelection e s).x = s.x := by cases e <;> rfl
@[simp] theorem onSelection_y (e : Entry) (s : State) : (onSelection e s).y = s.y := by cases e <;> rfl
@[simp] theorem onSelection_sp (e : Entry) (s : State) : (onSelection e s).sp = s.sp := by cases e <;> rfl
@[simp] theorem onSelection_p (e : Entry) (s : State) : (onSelection e s).p = s.p := by cases e <;> rfl
@[simp] theorem onSelection_pc (e : Entry) (s : State) : (onSelection e s).pc = s.pc := by cases e <;> rfl
@[simp] theorem onSelection_other (e : Entry) (s : State) : (onSelection e s).other = s.other := by cases e <;> rfl
@[simp] theorem onSelection_ir (e : Entry) (s : State) : (onSelection e s).ir = s.ir := by cases e <;> rfl
@[simp] theorem onSelection_run (e : Entry) (s : State) : (onSelection e s).run = if e = .reset then .running else s.run := by cases e <;> rfl
@[simp] theorem onSelection_pendReset (e : Entry) (s : State) :
    (onSelection e s).pendReset = if e = .reset then false else s.pendReset := by cases e <;> rfl
@[simp] theorem onSelection_pendNmi (e : Entry) (s : State) : (onSelection e s).pendNmi = if e = .nmi then false else s.pendNmi := by cases e <;> rfl
@[simp] theorem onSelection_pendIrq (e : Entry) (s : State) : (onSelection e s).pendIrq = if e = .irq then false else s.pendIrq := by cases e <;> rfl
@[simp] theorem onSelection_pendSo (e : Entry) (s : State) : (onSelection e s).pendSo = s.pendSo := by cases e <;> rfl
@[simp] theorem onSelection_addr (e : Entry) (s : State) : (onSelection e s).addr = s.addr := by cases e <;> rfl
@[simp] theorem onSelection_data (e : Entry) (s : State) : (onSelection e s).data = s.data := by cases e <;> rfl
@[simp] theorem onSelection_cycles (e : Entry) (s : State) : (onSelection e s).cycles = s.cycles := by cases e <;> rfl
@[simp] theorem onSelection_trace (e : Entry) (s : State) : (onSelection e s).trace = s.trace := by cases e <;> rfl
@[simp] theorem onSelection_pins (e : Entry) (s : State) : (onSelection e s).pins = s.pins := by cases e <;> rfl
@[simp] theorem onSelection_variant (e : Entry) (s : State) : (onSelection e s).variant = s.variant := by cases e <;> rfl
@[simp] theorem onSelection_regions (e : Entry) (s : State) : (onSelection e s).regions = s.regions := by cases e <;> rfl
@[simp] theorem onSelection_mem (e : Entry) (s : State) : (onSelection e s).mem = s.mem := by cases e <;> rfl
@[simp] theorem onSelection_freeIndex (e : Entry) (s : State) : (onSelection e s).freeIndex = s.freeIndex := by cases e <;> rfl

@[simp] theorem loadA_a (m : Byte) (s : State) : (loadA m s).a = m := rfl
@[simp] theorem loadA_x (m : Byte) (s : State) : (loadA m s).x = s.x := rfl
@[simp] theorem loadA_y (m : Byte) (s : State) : (loadA m s).y = s.y := rfl
@[simp] theorem loadA_sp (m : Byte) (s : State) : (loadA m s).sp = s.sp := rfl
@[simp] theorem loadA_p (m : Byte) (s : State) : (loadA m s).p = setZN m s.p := rfl
@[simp] theorem loadA_pc (m : Byte) (s : State) : (loadA m s).pc = s.pc := rfl
@[simp] theorem loadA_other (m : Byte) (s : State) : (loadA m s).other = s.other := rfl
@[simp] theorem loadA_ir (m : Byte) (s : State) : (loadA m s).ir = s.ir := rfl
@[simp] theorem loadA_run (m : Byte) (s : State) : (loadA m s).run = s.run := rfl
@[simp] theorem loadA_pendReset (m : Byte) (s : State) : (loadA m s).pendReset = s.pendReset := rfl
@[simp] theorem loadA_pendNmi (m : Byte) (s : State) : (loadA m s).pendNmi = s.pendNmi := rfl
@[simp] theorem loadA_pendIrq (m : Byte) (s : State) : (loadA m s).pendIrq = s.pendIrq := rfl
@[simp] theorem loadA_pendSo (m : Byte) (s : State) : (loadA m s).pendSo = s.pendSo := rfl
@[simp] theorem loadA_addr (m : Byte) (s : State) : (loadA m s).addr = s.addr := rfl
@[simp] theorem loadA_data (m : Byte) (s : State) : (loadA m s).data = s.data := rfl
@[simp] theorem loadA_cycles (m : Byte) (s : State) : (loadA m s).cycles = s.cycles := rfl
@[simp] theorem loadA_trace (m : Byte) (s : State) : (loadA m s).trace = s.trace := rfl
@[simp] theorem loadA_pins (m : Byte) (s : State) : (loadA m s).pins = s.pins := rfl
@[simp] theorem loadA_variant (m : Byte) (s : State) : (loadA m s).variant = s.variant := rfl
@[simp] theorem loadA_regions (m : Byte) (s : State) : (loadA m s).regions = s.regions := rfl
@[simp] theorem loadA_mem (m : Byte) (s : State) : (loadA m s).mem = s.mem := rfl
@[simp] theorem loadA_freeIndex (m : Byte) (s : State) : (loadA m s).freeIndex = s.freeIndex := rfl

@[simp] theorem loadX_a (m : Byte) (s : State) : (loadX m s).a = s.a := rfl
@[simp] theorem loadX_x (m : Byte) (s : State) : (loadX m s).x = m := rfl
@[simp] theorem loadX_y (m : Byte) (s : State) : (loadX m s).y = s.y := rfl
@[simp] theorem loadX_sp (m : Byte) (s : State) : (loadX m s).sp = s.sp := rfl
@[simp] theorem loadX_p (m : Byte) (s : State) : (loadX m s).p = setZN m s.p := rfl
@[simp] theorem loadX_pc (m : Byte) (s : State) : (loadX m s).pc = s.pc := rfl
@[simp] theorem loadX_other (m : Byte) (s : State) : (loadX m s).other = s.other := rfl
@[simp] theorem loadX_ir (m : Byte) (s : State) : (loadX m s).ir = s.ir := rfl
@[simp] theorem loadX_run (m : Byte) (s : State) : (loadX m s).run = s.run := rfl
@[simp] theorem loadX_pendReset (m : Byte) (s : State) : (loadX m s).pendReset = s.pendReset := rfl
@[simp] theorem loadX_pendNmi (m : Byte) (s : State) : (loadX m s).pendNmi = s.pendNmi := rfl
@[simp] theorem loadX_pendIrq (m : Byte) (s : State) : (loadX m s).pendIrq = s.pendIrq := rfl
@[simp] theorem loadX_pendSo (m : Byte) (s : State) : (loadX m s).pendSo = s.pendSo := rfl
@[simp] theorem loadX_addr (m : Byte) (s : State) : (loadX m s).addr = s.addr := rfl
@[simp] theorem loadX_data (m : Byte) (s : State) : (loadX m s).data = s.data := rfl
@[simp] theorem loadX_cycles (m : Byte) (s : State) : (loadX m s).cycles = s.cycles := rfl
@[simp] theorem loadX_trace (m : Byte) (s : State) : (loadX m s).trace = s.trace := rfl
@[simp] theorem loadX_pins (m : Byte) (s : State) : (loadX m s).pins = s.pins := rfl
@[simp] theorem loadX_variant (m : Byte) (s : State) : (loadX m s).variant = s.variant := rfl
@[simp] theorem loadX_regions (m : Byte) (s : State) : (loadX m s).regions = s.regions := rfl
@[simp] theorem loadX_mem (m : Byte) (s : State) : (loadX m s).mem = s.mem := rfl
@[simp] theorem loadX_freeIndex (m : Byte) (s : State) : (loadX m s).freeIndex = s.freeIndex := rfl

@[simp] theorem loadY_a (m : Byte) (s : State) : (loadY m s).a = s.a := rfl
@[simp] theorem loadY_x (m : Byte) (s : State) : (loadY m s).x = s.x := rfl
@[simp] theorem loadY_y (m : Byte) (s : State) : (loadY m s).y = m := rfl
@[simp] theorem loadY_sp (m : Byte) (s : State) : (loadY m s).sp = s.sp := rfl
@[simp] theorem loadY_p (m : Byte) (s : State) : (loadY m s).p = setZN m s.p := rfl
@[simp] theorem loadY_pc (m : Byte) (s : State) : (loadY m s).pc = s.pc := rfl
@[simp] theorem loadY_other (m : Byte) (s : State) : (loadY m s).other = s.other := rfl
@[simp] theorem loadY_ir (m : Byte) (s : State) : (loadY m s).ir = s.ir := rfl
@[simp] theorem loadY_run (m : Byte) (s : State) : (loadY m s).run = s.run := rfl
@[simp] theorem loadY_pendReset (m : Byte) (s : State) : (loadY m s).pendReset = s.pendReset := rfl
@[simp] theorem loadY_pendNmi (m : Byte) (s : State) : (loadY m s).pendNmi = s.pendNmi := rfl
@[simp] theorem loadY_pendIrq (m : Byte) (s : State) : (loadY m s).pendIrq = s.pendIrq := rfl
@[simp] theorem loadY_pendSo (m : Byte) (s : State) : (loadY m s).pendSo = s.pendSo := rfl
@[simp] theorem loadY_addr (m : Byte) (s : State) : (loadY m s).addr = s.addr := rfl
@[simp] theorem loadY_data (m : Byte) (s : State) : (loadY m s).data = s.data := rfl
@[simp] theorem loadY_cycles (m : Byte) (s : State) : (loadY m s).cycles = s.cycles := rfl
@[simp] theorem loadY_trace (m : Byte) (s : State) : (loadY m s).trace = s.trace := rfl
@[simp] theorem loadY_pins (m : Byte) (s : State) : (loadY m s).pins = s.pins := rfl
@[simp] theorem loadY_variant (m : Byte) (s : State) : (loadY m s).variant = s.variant := rfl
@[simp] theorem loadY_regions (m : Byte) (s : State) : (loadY m s).regions = s.regions := rfl
@[simp] theorem loadY_mem (m : Byte) (s : State) : (loadY m s).mem = s.mem := rfl
@[simp] theorem loadY_freeIndex (m : Byte) (s : State) : (loadY m s).freeIndex = s.freeIndex := rfl

@[simp] theorem addToA_a (m : Byte) (s : State) : (addToA m s).a = (addWithCarry s.profile s.a m s.p).value := rfl
@[simp] theorem addToA_x (m : Byte) (s : State) : (addToA m s).x = s.x := rfl
@[simp] theorem addToA_y (m : Byte) (s : State) : (addToA m s).y = s.y := rfl
@[simp] theorem addToA_sp (m : Byte) (s : State) : (addToA m s).sp = s.sp := rfl
@[simp] theorem addToA_p (m : Byte) (s : State) : (addToA m s).p = (addWithCarry s.profile s.a m s.p).p := rfl
@[simp] theorem addToA_pc (m : Byte) (s : State) : (addToA m s).pc = s.pc := rfl
@[simp] theorem addToA_other (m : Byte) (s : State) : (addToA m s).other = s.other := rfl
@[simp] theorem addToA_ir (m : Byte) (s : State) : (addToA m s).ir = s.ir := rfl
@[simp] theorem addToA_run (m : Byte) (s : State) : (addToA m s).run = s.run := rfl
@[simp] theorem addToA_pendReset (m : Byte) (s : State) : (addToA m s).pendReset = s.pendReset := rfl
@[simp] theorem addToA_pendNmi (m : Byte) (s : State) : (addToA m s).pendNmi = s.pendNmi := rfl
@[simp] theorem addToA_pendIrq (m : Byte) (s : State) : (addToA m s).pendIrq = s.pendIrq := rfl
@[simp] theorem addToA_pendSo (m : Byte) (s : State) : (addToA m s).pendSo = s.pendSo := rfl
@[simp] theorem addToA_addr (m : Byte) (s : State) : (addToA m s).addr = s.addr := rfl
@[simp] theorem addToA_data (m : Byte) (s : State) : (addToA m s).data = s.data := rfl
@[simp] theorem addToA_cycles (m : Byte) (s : State) : (addToA m s).cycles = s.cycles := rfl
@[simp] theorem addToA_trace (m : Byte) (s : State) : (addToA m s).trace = s.trace := rfl
@[simp] theorem addToA_pins (m : Byte) (s : State) : (addToA m s).pins = s.pins := rfl
@[simp] theorem addToA_variant (m : Byte) (s : State) : (addToA m s).variant = s.variant := rfl
@[simp] theorem addToA_regions (m : Byte) (s : State) : (addToA m s).regions = s.regions := rfl
@[simp] theorem addToA_mem (m : Byte) (s : State) : (addToA m s).mem = s.mem := rfl
@[simp] theorem addToA_freeIndex (m : Byte) (s : State) : (addToA m s).freeIndex = s.freeIndex := rfl

@[simp] theorem subFromA_a (m : Byte) (s : State) : (subFromA m s).a = (subWithCarry s.profile s.a m s.p).value := rfl
@[simp] theorem subFromA_x (m : Byte) (s : State) : (subFromA m s).x = s.x := rfl
@[simp] theorem subFromA_y (m : Byte) (s : State) : (subFromA m s).y = s.y := rfl
@[simp] theorem subFromA_sp (m : Byte) (s : State) : (subFromA m s).sp = s.sp := rfl
@[simp] theorem subFromA_p (m : Byte) (s : State) : (subFromA m s).p = (subWithCarry s.profile s.a m s.p).p := rfl
@[simp] theorem subFromA_pc (m : Byte) (s : State) : (subFromA m s).pc = s.pc := rfl
@[simp] theorem subFromA_other (m : Byte) (s : State) : (subFromA m s).other = s.other := rfl
@[simp] theorem subFromA_ir (m : Byte) (s : State) : (subFromA m s).ir = s.ir := rfl
@[simp] theorem subFromA_run (m : Byte) (s : State) : (subFromA m s).run = s.run := rfl
@[simp] theorem subFromA_pendReset (m : Byte) (s : State) : (subFromA m s).pendReset = s.pendReset := rfl
@[simp] theorem subFromA_pendNmi (m : Byte) (s : State) : (subFromA m s).pendNmi = s.pendNmi := rfl
@[simp] theorem subFromA_pendIrq (m : Byte) (s : State) : (subFromA m s).pendIrq = s.pendIrq := rfl
@[simp] theorem subFromA_pendSo (m : Byte) (s : State) : (subFromA m s).pendSo = s.pendSo := rfl
@[simp] theorem subFromA_addr (m : Byte) (s : State) : (subFromA m s).addr = s.addr := rfl
@[simp] theorem subFromA_data (m : Byte) (s : State) : (subFromA m s).data = s.data := rfl
@[simp] theorem subFromA_cycles (m : Byte) (s : State) : (subFromA m s).cycles = s.cycles := rfl
@[simp] theorem subFromA_trace (m : Byte) (s : State) : (subFromA m s).trace = s.trace := rfl
@[simp] theorem subFromA_pins (m : Byte) (s : State) : (subFromA m s).pins = s.pins := rfl
@[simp] theorem subFromA_variant (m : Byte) (s : State) : (subFromA m s).variant = s.variant := rfl
@[simp] theorem subFromA_regions (m : Byte) (s : State) : (subFromA m s).regions = s.regions := rfl
@[simp] theorem subFromA_mem (m : Byte) (s : State) : (subFromA m s).mem = s.mem := rfl
@[simp] theorem subFromA_freeIndex (m : Byte) (s : State) : (subFromA m s).freeIndex = s.freeIndex := rfl

@[simp] theorem compareA_a (m : Byte) (s : State) : (compareA m s).a = s.a := rfl
@[simp] theorem compareA_x (m : Byte) (s : State) : (compareA m s).x = s.x := rfl
@[simp] theorem compareA_y (m : Byte) (s : State) : (compareA m s).y = s.y := rfl
@[simp] theorem compareA_sp (m : Byte) (s : State) : (compareA m s).sp = s.sp := rfl
@[simp] theorem compareA_p (m : Byte) (s : State) : (compareA m s).p = cmpFlags s.a m s.p := rfl
@[simp] theorem compareA_pc (m : Byte) (s : State) : (compareA m s).pc = s.pc := rfl
@[simp] theorem compareA_other (m : Byte) (s : State) : (compareA m s).other = s.other := rfl
@[simp] theorem compareA_ir (m : Byte) (s : State) : (compareA m s).ir = s.ir := rfl
@[simp] theorem compareA_run (m : Byte) (s : State) : (compareA m s).run = s.run := rfl
@[simp] theorem compareA_pendReset (m : Byte) (s : State) : (compareA m s).pendReset = s.pendReset := rfl
@[simp] theorem compareA_pendNmi (m : Byte) (s : State) : (compareA m s).pendNmi = s.pendNmi := rfl
@[simp] theorem compareA_pendIrq (m : Byte) (s : State) : (compareA m s).pendIrq = s.pendIrq := rfl
@[simp] theorem compareA_pendSo (m : Byte) (s : State) : (compareA m s).pendSo = s.pendSo := rfl
@[simp] theorem compareA_addr (m : Byte) (s : State) : (compareA m s).addr = s.addr := rfl
@[simp] theorem compareA_data (m : Byte) (s : State) : (compareA m s).data = s.data := rfl
@[simp] theorem compareA_cycles (m : Byte) (s : State) : (compareA m s).cycles = s.cycles := rfl
@[simp] theorem compareA_trace (m : Byte) (s : State) : (compareA m s).trace = s.trace := rfl
@[simp] theorem compareA_pins (m : Byte) (s : State) : (compareA m s).pins = s.pins := rfl
@[simp] theorem compareA_variant (m : Byte) (s : State) : (compareA m s).variant = s.variant := rfl
@[simp] theorem compareA_regions (m : Byte) (s : State) : (compareA m s).regions = s.regions := rfl
@[simp] theorem compareA_mem (m : Byte) (s : State) : (compareA m s).mem = s.mem := rfl
@[simp] theorem compareA_freeIndex (m : Byte) (s : State) : (compareA m s).freeIndex = s.freeIndex := rfl

@[simp] theorem compareX_a (m : Byte) (s : State) : (compareX m s).a = s.a := rfl
@[simp] theorem compareX_x (m : Byte) (s : State) : (compareX m s).x = s.x := rfl
@[simp] theorem compareX_y (m : Byte) (s : State) : (compareX m s).y = s.y := rfl
@[simp] theorem compareX_sp (m : Byte) (s : State) : (compareX m s).sp = s.sp := rfl
@[simp] theorem compareX_p (m : Byte) (s : State) : (compareX m s).p = cmpFlags s.x m s.p := rfl
@[simp] theorem compareX_pc (m : Byte) (s : State) : (compareX m s).pc = s.pc := rfl
@[simp] theorem compareX_other (m : Byte) (s : State) : (compareX m s).other = s.other := rfl
@[simp] theorem compareX_ir (m : Byte) (s : State) : (compareX m s).ir = s.ir := rfl
@[simp] theorem compareX_run (m : Byte) (s : State) : (compareX m s).run = s.run := rfl
@[simp] theorem compareX_pendReset (m : Byte) (s : State) : (compareX m s).pendReset = s.pendReset := rfl
@[simp] theorem compareX_pendNmi (m : Byte) (s : State) : (compareX m s).pendNmi = s.pendNmi := rfl
@[simp] theorem compareX_pendIrq (m : Byte) (s : State) : (compareX m s).pendIrq = s.pendIrq := rfl
@[simp] theorem compareX_pendSo (m : Byte) (s : State) : (compareX m s).pendSo = s.pendSo := rfl
@[simp] theorem compareX_addr (m : Byte) (s : State) : (compareX m s).addr = s.addr := rfl
@[simp] theorem compareX_data (m : Byte) (s : State) : (compareX m s).data = s.data := rfl
@[simp] theorem compareX_cycles (m : Byte) (s : State) : (compareX m s).cycles = s.cycles := rfl
@[simp] theorem compareX_trace (m : Byte) (s : State) : (compareX m s).trace = s.trace := rfl
@[simp] theorem compareX_pins (m : Byte) (s : State) : (compareX m s).pins = s.pins := rfl
@[simp] theorem compareX_variant (m : Byte) (s : State) : (compareX m s).variant = s.variant := rfl
@[simp] theorem compareX_regions (m : Byte) (s : State) : (compareX m s).regions = s.regions := rfl
@[simp] theorem compareX_mem (m : Byte) (s : State) : (compareX m s).mem = s.mem := rfl
@[simp] theorem compareX_freeIndex (m : Byte) (s : State) : (compareX m s).freeIndex = s.freeIndex := rfl

@[simp] theorem compareY_a (m : Byte) (s : State) : (compareY m s).a = s.a := rfl
@[simp] theorem compareY_x (m : Byte) (s : State) : (compareY m s).x = s.x := rfl
@[simp] theorem compareY_y (m : Byte) (s : State) : (compareY m s).y = s.y := rfl
@[simp] theorem compareY_sp (m : Byte) (s : State) : (compareY m s).sp = s.sp := rfl
@[simp] theorem compareY_p (m : Byte) (s : State) : (compareY m s).p = cmpFlags s.y m s.p := rfl
@[simp] theorem compareY_pc (m : Byte) (s : State) : (compareY m s).pc = s.pc := rfl
@[simp] theorem compareY_other (m : Byte) (s : State) : (compareY m s).other = s.other := rfl
@[simp] theorem compareY_ir (m : Byte) (s : State) : (compareY m s).ir = s.ir := rfl
@[simp] theorem compareY_run (m : Byte) (s : State) : (compareY m s).run = s.run := rfl
@[simp] theorem compareY_pendReset (m : Byte) (s : State) : (compareY m s).pendReset = s.pendReset := rfl
@[simp] theorem compareY_pendNmi (m : Byte) (s : State) : (compareY m s).pendNmi = s.pendNmi := rfl
@[simp] theorem compareY_pendIrq (m : Byte) (s : State) : (compareY m s).pendIrq = s.pendIrq := rfl
@[simp] theorem compareY_pendSo (m : Byte) (s : State) : (compareY m s).pendSo = s.pendSo := rfl
@[simp] theorem compareY_addr (m : Byte) (s : State) : (compareY m s).addr = s.addr := rfl
@[simp] theorem compareY_data (m : Byte) (s : State) : (compareY m s).data = s.data := rfl
@[simp] theorem compareY_cycles (m : Byte) (s : State) : (compareY m s).cycles = s.cycles := rfl
@[simp] theorem compareY_trace (m : Byte) (s : State) : (compareY m s).trace = s.trace := rfl
@[simp] theorem compareY_pins (m : Byte) (s : State) : (compareY m s).pins = s.pins := rfl
@[simp] theorem compareY_variant (m : Byte) (s : State) : (compareY m s).variant = s.variant := rfl
@[simp] theorem compareY_regions (m : Byte) (s : State) : (compareY m s).regions = s.regions := rfl
@[simp] theorem compareY_mem (m : Byte) (s : State) : (compareY m s).mem = s.mem := rfl
@[simp] theorem compareY_freeIndex (m : Byte) (s : State) : (compareY m s).freeIndex = s.freeIndex := rfl

@[simp] theorem andToA_a (m : Byte) (s : State) : (andToA m s).a = (andWith s.a m s.p).value := rfl
@[simp] theorem andToA_x (m : Byte) (s : State) : (andToA m s).x = s.x := rfl
@[simp] theorem andToA_y (m : Byte) (s : State) : (andToA m s).y = s.y := rfl
@[simp] theorem andToA_sp (m : Byte) (s : State) : (andToA m s).sp = s.sp := rfl
@[simp] theorem andToA_p (m : Byte) (s : State) : (andToA m s).p = (andWith s.a m s.p).p := rfl
@[simp] theorem andToA_pc (m : Byte) (s : State) : (andToA m s).pc = s.pc := rfl
@[simp] theorem andToA_other (m : Byte) (s : State) : (andToA m s).other = s.other := rfl
@[simp] theorem andToA_ir (m : Byte) (s : State) : (andToA m s).ir = s.ir := rfl
@[simp] theorem andToA_run (m : Byte) (s : State) : (andToA m s).run = s.run := rfl
@[simp] theorem andToA_pendReset (m : Byte) (s : State) : (andToA m s).pendReset = s.pendReset := rfl
@[simp] theorem andToA_pendNmi (m : Byte) (s : State) : (andToA m s).pendNmi = s.pendNmi := rfl
@[simp] theorem andToA_pendIrq (m : Byte) (s : State) : (andToA m s).pendIrq = s.pendIrq := rfl
@[simp] theorem andToA_pendSo (m : Byte) (s : State) : (andToA m s).pendSo = s.pendSo := rfl
@[simp] theorem andToA_addr (m : Byte) (s : State) : (andToA m s).addr = s.addr := rfl
@[simp] theorem andToA_data (m : Byte) (s : State) : (andToA m s).data = s.data := rfl
@[simp] theorem andToA_cycles (m : Byte) (s : State) : (andToA m s).cycles = s.cycles := rfl
@[simp] theorem andToA_trace (m : Byte) (s : State) : (andToA m s).trace = s.trace := rfl
@[simp] theorem andToA_pins (m : Byte) (s : State) : (andToA m s).pins = s.pins := rfl
@[simp] theorem andToA_variant (m : Byte) (s : State) : (andToA m s).variant = s.variant := rfl
@[simp] theorem andToA_regions (m : Byte) (s : State) : (andToA m s).regions = s.regions := rfl
@[simp] theorem andToA_mem (m : Byte) (s : State) : (andToA m s).mem = s.mem := rfl
@[simp] theorem andToA_freeIndex (m : Byte) (s : State) : (andToA m s).freeIndex = s.freeIndex := rfl

@[simp] theorem orToA_a (m : Byte) (s : State) : (orToA m s).a = (orWith s.a m s.p).value := rfl
@[simp] theorem orToA_x (m : Byte) (s : State) : (orToA m s).x = s.x := rfl
@[simp] theorem orToA_y (m : Byte) (s : State) : (orToA m s).y = s.y := rfl
@[simp] theorem orToA_sp (m : Byte) (s : State) : (orToA m s).sp = s.sp := rfl
@[simp] theorem orToA_p (m : Byte) (s : State) : (orToA m s).p = (orWith s.a m s.p).p := rfl
@[simp] theorem orToA_pc (m : Byte) (s : State) : (orToA m s).pc = s.pc := rfl
@[simp] theorem orToA_other (m : Byte) (s : State) : (orToA m s).other = s.other := rfl
@[simp] theorem orToA_ir (m : Byte) (s : State) : (orToA m s).ir = s.ir := rfl
@[simp] theorem orToA_run (m : Byte) (s : State) : (orToA m s).run = s.run := rfl
@[simp] theorem orToA_pendReset (m : Byte) (s : State) : (orToA m s).pendReset = s.pendReset := rfl
@[simp] theorem orToA_pendNmi (m : Byte) (s : State) : (orToA m s).pendNmi = s.pendNmi := rfl
@[simp] theorem orToA_pendIrq (m : Byte) (s : State) : (orToA m s).pendIrq = s.pendIrq := rfl
@[simp] theorem orToA_pendSo (m : Byte) (s : State) : (orToA m s).pendSo = s.pendSo := rfl
@[simp] theorem orToA_addr (m : Byte) (s : State) : (orToA m s).addr = s.addr := rfl
@[simp] theorem orToA_data (m : Byte) (s : State) : (orToA m s).data = s.data := rfl
@[simp] theorem orToA_cycles (m : Byte) (s : State) : (orToA m s).cycles = s.cycles := rfl
@[simp] theorem orToA_trace (m : Byte) (s : State) : (orToA m s).trace = s.trace := rfl
@[simp] theorem orToA_pins (m : Byte) (s : State) : (orToA m s).pins = s.pins := rfl
@[simp] theorem orToA_variant (m : Byte) (s : State) : (orToA m s).variant = s.variant := rfl
@[simp] theorem orToA_regions (m : Byte) (s : State) : (orToA m s).regions = s.regions := rfl
@[simp] theorem orToA_mem (m : Byte) (s : State) : (orToA m s).mem = s.mem := rfl
@[simp] theorem orToA_freeIndex (m : Byte) (s : State) : (orToA m s).freeIndex = s.freeIndex := rfl

@[simp] theorem xorToA_a (m : Byte) (s : State) : (xorToA m s).a = (xorWith s.a m s.p).value := rfl
@[simp] theorem xorToA_x (m : Byte) (s : State) : (xorToA m s).x = s.x := rfl
@[simp] theorem xorToA_y (m : Byte) (s : State) : (xorToA m s).y = s.y := rfl
@[simp] theorem xorToA_sp (m : Byte) (s : State) : (xorToA m s).sp = s.sp := rfl
@[simp] theorem xorToA_p (m : Byte) (s : State) : (xorToA m s).p = (xorWith s.a m s.p).p := rfl
@[simp] theorem xorToA_pc (m : Byte) (s : State) : (xorToA m s).pc = s.pc := rfl
@[simp] theorem xorToA_other (m : Byte) (s : State) : (xorToA m s).other = s.other := rfl
@[simp] theorem xorToA_ir (m : Byte) (s : State) : (xorToA m s).ir = s.ir := rfl
@[simp] theorem xorToA_run (m : Byte) (s : State) : (xorToA m s).run = s.run := rfl
@[simp] theorem xorToA_pendReset (m : Byte) (s : State) : (xorToA m s).pendReset = s.pendReset := rfl
@[simp] theorem xorToA_pendNmi (m : Byte) (s : State) : (xorToA m s).pendNmi = s.pendNmi := rfl
@[simp] theorem xorToA_pendIrq (m : Byte) (s : State) : (xorToA m s).pendIrq = s.pendIrq := rfl
@[simp] theorem xorToA_pendSo (m : Byte) (s : State) : (xorToA m s).pendSo = s.pendSo := rfl
@[simp] theorem xorToA_addr (m : Byte) (s : State) : (xorToA m s).addr = s.addr := rfl
@[simp] theorem xorToA_data (m : Byte) (s : State) : (xorToA m s).data = s.data := rfl
@[simp] theorem xorToA_cycles (m : Byte) (s : State) : (xorToA m s).cycles = s.cycles := rfl
@[simp] theorem xorToA_trace (m : Byte) (s : State) : (xorToA m s).trace = s.trace := rfl
@[simp] theorem xorToA_pins (m : Byte) (s : State) : (xorToA m s).pins = s.pins := rfl
@[simp] theorem xorToA_variant (m : Byte) (s : State) : (xorToA m s).variant = s.variant := rfl
@[simp] theorem xorToA_regions (m : Byte) (s : State) : (xorToA m s).regions = s.regions := rfl
@[simp] theorem xorToA_mem (m : Byte) (s : State) : (xorToA m s).mem = s.mem := rfl
@[simp] theorem xorToA_freeIndex (m : Byte) (s : State) : (xorToA m s).freeIndex = s.freeIndex := rfl

@[simp] theorem testBits_a (m : Byte) (s : State) : (testBits m s).a = s.a := rfl
@[simp] theorem testBits_x (m : Byte) (s : State) : (testBits m s).x = s.x := rfl
@[simp] theorem testBits_y (m : Byte) (s : State) : (testBits m s).y = s.y := rfl
@[simp] theorem testBits_sp (m : Byte) (s : State) : (testBits m s).sp = s.sp := rfl
@[simp] theorem testBits_p (m : Byte) (s : State) : (testBits m s).p = bitFlags s.a m s.p := rfl
@[simp] theorem testBits_pc (m : Byte) (s : State) : (testBits m s).pc = s.pc := rfl
@[simp] theorem testBits_other (m : Byte) (s : State) : (testBits m s).other = s.other := rfl
@[simp] theorem testBits_ir (m : Byte) (s : State) : (testBits m s).ir = s.ir := rfl
@[simp] theorem testBits_run (m : Byte) (s : State) : (testBits m s).run = s.run := rfl
@[simp] theorem testBits_pendReset (m : Byte) (s : State) : (testBits m s).pendReset = s.pendReset := rfl
@[simp] theorem testBits_pendNmi (m : Byte) (s : State) : (testBits m s).pendNmi = s.pendNmi := rfl
@[simp] theorem testBits_pendIrq (m : Byte) (s : State) : (testBits m s).pendIrq = s.pendIrq := rfl
@[simp] theorem testBits_pendSo (m : Byte) (s : State) : (testBits m s).pendSo = s.pendSo := rfl
@[simp] theorem testBits_addr (m : Byte) (s : State) : (testBits m s).addr = s.addr := rfl
@[simp] theorem testBits_data (m : Byte) (s : State) : (testBits m s).data = s.data := rfl
@[simp] theorem testBits_cycles (m : Byte) (s : State) : (testBits m s).cycles = s.cycles := rfl
@[simp] theorem testBits_trace (m : Byte) (s : State) : (testBits m s).trace = s.trace := rfl
@[simp] theorem testBits_pins (m : Byte) (s : State) : (testBits m s).pins = s.pins := rfl
@[simp] theorem testBits_variant (m : Byte) (s : State) : (testBits m s).variant = s.variant := rfl
@[simp] theorem testBits_regions (m : Byte) (s : State) : (testBits m s).regions = s.regions := rfl
@[simp] theorem testBits_mem (m : Byte) (s : State) : (testBits m s).mem = s.mem := rfl
@[simp] theorem testBits_freeIndex (m : Byte) (s : State) : (testBits m s).freeIndex = s.freeIndex := rfl

@[simp] theorem onA_a (f : Byte → Byte → Alu) (s : State) : (onA f s).a = (f s.a s.p).value := rfl
@[simp] theorem onA_x (f : Byte → Byte → Alu) (s : State) : (onA f s).x = s.x := rfl
@[simp] theorem onA_y (f : Byte → Byte → Alu) (s : State) : (onA f s).y = s.y := rfl
@[simp] theorem onA_sp (f : Byte → Byte → Alu) (s : State) : (onA f s).sp = s.sp := rfl
@[simp] theorem onA_p (f : Byte → Byte → Alu) (s : State) : (onA f s).p = (f s.a s.p).p := rfl
@[simp] theorem onA_pc (f : Byte → Byte → Alu) (s : State) : (onA f s).pc = s.pc := rfl
@[simp] theorem onA_other (f : Byte → Byte → Alu) (s : State) : (onA f s).other = s.other := rfl
@[simp] theorem onA_ir (f : Byte → Byte → Alu) (s : State) : (onA f s).ir = s.ir := rfl
@[simp] theorem onA_run (f : Byte → Byte → Alu) (s : State) : (onA f s).run = s.run := rfl
@[simp] theorem onA_pendReset (f : Byte → Byte → Alu) (s : State) : (onA f s).pendReset = s.pendReset := rfl
@[simp] theorem onA_pendNmi (f : Byte → Byte → Alu) (s : State) : (onA f s).pendNmi = s.pendNmi := rfl
@[simp] theorem onA_pendIrq (f : Byte → Byte → Alu) (s : State) : (onA f s).pendIrq = s.pendIrq := rfl
@[simp] theorem onA_pendSo (f : Byte → Byte → Alu) (s : State) : (onA f s).pendSo = s.pendSo := rfl
@[simp] theorem onA_addr (f : Byte → Byte → Alu) (s : State) : (onA f s).addr = s.addr := rfl
@[simp] theorem onA_data (f : Byte → Byte → Alu) (s : State) : (onA f s).data = s.data := rfl
@[simp] theorem onA_cycles (f : Byte → Byte → Alu) (s : State) : (onA f s).cycles = s.cycles := rfl
@[simp] theorem onA_trace (f : Byte → Byte → Alu) (s : State) : (onA f s).trace = s.trace := rfl
@[simp] theorem onA_pins (f : Byte → Byte → Alu) (s : State) : (onA f s).pins = s.pins := rfl
@[simp] theorem onA_variant (f : Byte → Byte → Alu) (s : State) : (onA f s).variant = s.variant := rfl
@[simp] theorem onA_regions (f : Byte → Byte → Alu) (s : State) : (onA f s).regions = s.regions := rfl
@[simp] theorem onA_mem (f : Byte → Byte → Alu) (s : State) : (onA f s).mem = s.mem := rfl
@[simp] theorem onA_freeIndex (f : Byte → Byte → Alu) (s : State) : (onA f s).freeIndex = s.freeIndex := rfl

@[simp] theorem onMemory_a (f : Byte → Byte → Alu) (m : Byte) (s : State) : (onMemory f m s).2.a = s.a := rfl
@[simp] theorem onMemory_x (f : Byte → Byte → Alu) (m : Byte) (s : State) : (onMemory f m s).2.x = s.x := rfl
@[simp] theorem onMemory_y (f : Byte → Byte → Alu) (m : Byte) (s : State) : (onMemory f m s).2.y = s.y := rfl
@[simp] theorem onMemory_sp (f : Byte → Byte → Alu) (m : Byte) (s : State) : (onMemory f m s).2.sp = s.sp := rfl
@[simp] theorem onMemory_p (f : Byte → Byte → Alu) (m : Byte) (s : State) : (onMemory f m s).2.p = (f m s.p).p := rfl
@[simp] theorem onMemory_pc (f : Byte → Byte → Alu) (m : Byte) (s : State) : (onMemory f m s).2.pc = s.pc := rfl
@[simp] theorem onMemory_other (f : Byte → Byte → Alu) (m : Byte) (s : State) : (onMemory f m s).2.other = s.other := rfl
@[simp] theorem onMemory_ir (f : Byte → Byte → Alu) (m : Byte) (s : State) : (onMemory f m s).2.ir = s.ir := rfl
@[simp] theorem onMemory_run (f : Byte → Byte → Alu) (m : Byte) (s : State) : (onMemory f m s).2.run = s.run := rfl
@[simp] theorem onMemory_pendReset (f : Byte → Byte → Alu) (m : Byte) (s : State) : (onMemory f m s).2.pendReset = s.pendReset := rfl
@[simp] theorem onMemory_pendNmi (f : Byte → Byte → Alu) (m : Byte) (s : State) : (onMemory f m s).2.pendNmi = s.pendNmi := rfl
@[simp] theorem onMemory_pendIrq (f : Byte → Byte → Alu) (m : Byte) (s : State) : (onMemory f m s).2.pendIrq = s.pendIrq := rfl
@[simp] theorem onMemory_pendSo (f : Byte → Byte → Alu) (m : Byte) (s : State) : (onMemory f m s).2.pendSo = s.pendSo := rfl
@[simp] theorem onMemory_addr (f : Byte → Byte → Alu) (m : Byte) (s : State) : (onMemory f m s).2.addr = s.addr := rfl
@[simp] theorem onMemory_data (f : Byte → Byte → Alu) (m : Byte) (s : State) : (onMemory f m s).2.data = s.data := rfl
@[simp] theorem onMemory_cycles (f : Byte → Byte → Alu) (m : Byte) (s : State) : (onMemory f m s).2.cycles = s.cycles := rfl
@[simp] theorem onMemory_trace (f : Byte → Byte → Alu) (m : Byte) (s : State) : (onMemory f m s).2.trace = s.trace := rfl
@[simp] theorem onMemory_pins (f : Byte → Byte → Alu) (m : Byte) (s : State) : (onMemory f m s).2.pins = s.pins := rfl
@[simp] theorem onMemory_variant (f : Byte → Byte → Alu) (m : Byte) (s : State) : (onMemory f m s).2.variant = s.variant := rfl
@[simp] theorem onMemory_regions (f : Byte → Byte → Alu) (m : Byte) (s : State) : (onMemory f m s).2.regions = s.regions := rfl
@[simp] theorem onMemory_mem (f : Byte → Byte → Alu) (m : Byte) (s : State) : (onMemory f m s).2.mem = s.mem := rfl
@[simp] theorem onMemory_freeIndex (f : Byte → Byte → Alu) (m : Byte) (s : State) : (onMemory f m s).2.freeIndex = s.freeIndex := rfl

@[simp] theorem shiftThen_a (f : Byte → Byte → Alu) (g : Byte → Byte → Byte → Alu) (m : Byte) (s : State) :
    (shiftThen f g m s).2.a = (g s.a (f m s.p).value (f m s.p).p).value := rfl
@[simp] theorem shiftThen_x (f : Byte → Byte → Alu) (g : Byte → Byte → Byte → Alu) (m : Byte) (s : State) : (shiftThen f g m s).2.x = s.x := rfl
@[simp] theorem shiftThen_y (f : Byte → Byte → Alu) (g : Byte → Byte → Byte → Alu) (m : Byte) (s : State) : (shiftThen f g m s).2.y = s.y := rfl
@[simp] theorem shiftThen_sp (f : Byte → Byte → Alu) (g : Byte → Byte → Byte → Alu) (m : Byte) (s : State) : (shiftThen f g m s).2.sp = s.sp := rfl
@[simp] theorem shiftThen_p (f : Byte → Byte → Alu) (g : Byte → Byte → Byte → Alu) (m : Byte) (s : State) :
    (shiftThen f g m s).2.p = (g s.a (f m s.p).value (f m s.p).p).p := rfl
@[simp] theorem shiftThen_pc (f : Byte → Byte → Alu) (g : Byte → Byte → Byte → Alu) (m : Byte) (s : State) : (shiftThen f g m s).2.pc = s.pc := rfl
@[simp] theorem shiftThen_other (f : Byte → Byte → Alu) (g : Byte → Byte → Byte → Alu) (m : Byte) (s : State) :
    (shiftThen f g m s).2.other = s.other := rfl
@[simp] theorem shiftThen_ir (f : Byte → Byte → Alu) (g : Byte → Byte → Byte → Alu) (m : Byte) (s : State) : (shiftThen f g m s).2.ir = s.ir := rfl
@[simp] theorem shiftThen_run (f : Byte → Byte → Alu) (g : Byte → Byte → Byte → Alu) (m : Byte) (s : State) : (shiftThen f g m s).2.run = s.run := rfl
@[simp] theorem shiftThen_pendReset (f : Byte → Byte → Alu) (g : Byte → Byte → Byte → Alu) (m : Byte) (s : State) :
    (shiftThen f g m s).2.pendReset = s.pendReset := rfl
@[simp] theorem shiftThen_pendNmi (f : Byte → Byte → Alu) (g : Byte → Byte → Byte → Alu) (m : Byte) (s : State) :
    (shiftThen f g m s).2.pendNmi = s.pendNmi := rfl
@[simp] theorem shiftThen_pendIrq (f : Byte → Byte → Alu) (g : Byte → Byte → Byte → Alu) (m : Byte) (s : State) :
    (shiftThen f g m s).2.pendIrq = s.pendIrq := rfl
@[simp] theorem shiftThen_pendSo (f : Byte → Byte → Alu) (g : Byte → Byte → Byte → Alu) (m : Byte) (s : State) :
    (shiftThen f g m s).2.pendSo = s.pendSo := rfl
@[simp] theorem shiftThen_addr (f : Byte → Byte → Alu) (g : Byte → Byte → Byte → Alu) (m : Byte) (s : State) :
    (shiftThen f g m s).2.addr = s.addr := rfl
@[simp] theorem shiftThen_data (f : Byte → Byte → Alu) (g : Byte → Byte → Byte → Alu) (m : Byte) (s : State) :
    (shiftThen f g m s).2.data = s.data := rfl
@[simp] theorem shiftThen_cycles (f : Byte → Byte → Alu) (g : Byte → Byte → Byte → Alu) (m : Byte) (s : State) :
    (shiftThen f g m s).2.cycles = s.cycles := rfl
@[simp] theorem shiftThen_trace (f : Byte → Byte → Alu) (g : Byte → Byte → Byte → Alu) (m : Byte) (s : State) :
    (shiftThen f g m s).2.trace = s.trace := rfl
@[simp] theorem shiftThen_pins (f : Byte → Byte → Alu) (g : Byte → Byte → Byte → Alu) (m : Byte) (s : State) :
    (shiftThen f g m s).2.pins = s.pins := rfl
@[simp] theorem shiftThen_variant (f : Byte → Byte → Alu) (g : Byte → Byte → Byte → Alu) (m : Byte) (s : State) :
    (shiftThen f g m s).2.variant = s.variant := rfl
@[simp] theorem shiftThen_regions (f : Byte → Byte → Alu) (g : Byte → Byte → Byte → Alu) (m : Byte) (s : State) :
    (shiftThen f g m s).2.regions = s.regions := rfl
@[simp] theorem shiftThen_mem (f : Byte → Byte → Alu) (g : Byte → Byte → Byte → Alu) (m : Byte) (s : State) : (shiftThen f g m s).2.mem = s.mem := rfl
@[simp] theorem shiftThen_freeIndex (f : Byte → Byte → Alu) (g : Byte → Byte → Byte → Alu) (m : Byte) (s : State) :
    (shiftThen f g m s).2.freeIndex = s.freeIndex := rfl

@[simp] theorem rotateThenAdd_a (m : Byte) (s : State) :
    (rotateThenAdd m s).2.a = (addWithCarry s.profile s.a (ror m s.p).value (ror m s.p).p).value := rfl
@[simp] theorem rotateThenAdd_x (m : Byte) (s : State) : (rotateThenAdd m s).2.x = s.x := rfl
@[simp] theorem rotateThenAdd_y (m : Byte) (s : State) : (rotateThenAdd m s).2.y = s.y := rfl
@[simp] theorem rotateThenAdd_sp (m : Byte) (s : State) : (rotateThenAdd m s).2.sp = s.sp := rfl
@[simp] theorem rotateThenAdd_p (m : Byte) (s : State) :
    (rotateThenAdd m s).2.p = (addWithCarry s.profile s.a (ror m s.p).value (ror m s.p).p).p := rfl
@[simp] theorem rotateThenAdd_pc (m : Byte) (s : State) : (rotateThenAdd m s).2.pc = s.pc := rfl
@[simp] theorem rotateThenAdd_other (m : Byte) (s : State) : (rotateThenAdd m s).2.other = s.other := rfl
@[simp] theorem rotateThenAdd_ir (m : Byte) (s : State) : (rotateThenAdd m s).2.ir = s.ir := rfl
@[simp] theorem rotateThenAdd_run (m : Byte) (s : State) : (rotateThenAdd m s).2.run = s.run := rfl
@[simp] theorem rotateThenAdd_pendReset (m : Byte) (s : State) : (rotateThenAdd m s).2.pendReset = s.pendReset := rfl
@[simp] theorem rotateThenAdd_pendNmi (m : Byte) (s : State) : (rotateThenAdd m s).2.pendNmi = s.pendNmi := rfl
@[simp] theorem rotateThenAdd_pendIrq (m : Byte) (s : State) : (rotateThenAdd m s).2.pendIrq = s.pendIrq := rfl
@[simp] theorem rotateThenAdd_pendSo (m : Byte) (s : State) : (rotateThenAdd m s).2.pendSo = s.pendSo := rfl
@[simp] theorem rotateThenAdd_addr (m : Byte) (s : State) : (rotateThenAdd m s).2.addr = s.addr := rfl
@[simp] theorem rotateThenAdd_data (m : Byte) (s : State) : (rotateThenAdd m s).2.data = s.data := rfl
@[simp] theorem rotateThenAdd_cycles (m : Byte) (s : State) : (rotateThenAdd m s).2.cycles = s.cycles := rfl
@[simp] theorem rotateThenAdd_trace (m : Byte) (s : State) : (rotateThenAdd m s).2.trace = s.trace := rfl
@[simp] theorem rotateThenAdd_pins (m : Byte) (s : State) : (rotateThenAdd m s).2.pins = s.pins := rfl
@[simp] theorem rotateThenAdd_variant (m : Byte) (s : State) : (rotateThenAdd m s).2.variant = s.variant := rfl
@[simp] theorem rotateThenAdd_regions (m : Byte) (s : State) : (rotateThenAdd m s).2.regions = s.regions := rfl
@[simp] theorem rotateThenAdd_mem (m : Byte) (s : State) : (rotateThenAdd m s).2.mem = s.mem := rfl
@[simp] theorem rotateThenAdd_freeIndex (m : Byte) (s : State) : (rotateThenAdd m s).2.freeIndex = s.freeIndex := rfl

@[simp] theorem decThenCompare_a (m : Byte) (s : State) : (decThenCompare m s).2.a = s.a := rfl
@[simp] theorem decThenCompare_x (m : Byte) (s : State) : (decThenCompare m s).2.x = s.x := rfl
@[simp] theorem decThenCompare_y (m : Byte) (s : State) : (decThenCompare m s).2.y = s.y := rfl
@[simp] theorem decThenCompare_sp (m : Byte) (s : State) : (decThenCompare m s).2.sp = s.sp := rfl
@[simp] theorem decThenCompare_p (m : Byte) (s : State) : (decThenCompare m s).2.p = cmpFlags s.a (m - 1) s.p := rfl
@[simp] theorem decThenCompare_pc (m : Byte) (s : State) : (decThenCompare m s).2.pc = s.pc := rfl
@[simp] theorem decThenCompare_other (m : Byte) (s : State) : (decThenCompare m s).2.other = s.other := rfl
@[simp] theorem decThenCompare_ir (m : Byte) (s : State) : (decThenCompare m s).2.ir = s.ir := rfl
@[simp] theorem decThenCompare_run (m : Byte) (s : State) : (decThenCompare m s).2.run = s.run := rfl
@[simp] theorem decThenCompare_pendReset (m : Byte) (s : State) : (decThenCompare m s).2.pendReset = s.pendReset := rfl
@[simp] theorem decThenCompare_pendNmi (m : Byte) (s : State) : (decThenCompare m s).2.pendNmi = s.pendNmi := rfl
@[simp] theorem decThenCompare_pendIrq (m : Byte) (s : State) : (decThenCompare m s).2.pendIrq = s.pendIrq := rfl
@[simp] theorem decThenCompare_pendSo (m : Byte) (s : State) : (decThenCompare m s).2.pendSo = s.pendSo := rfl
@[simp] theorem decThenCompare_addr (m : Byte) (s : State) : (decThenCompare m s).2.addr = s.addr := rfl
@[simp] theorem decThenCompare_data (m : Byte) (s : State) : (decThenCompare m s).2.data = s.data := rfl
@[simp] theorem decThenCompare_cycles (m : Byte) (s : State) : (decThenCompare m s).2.cycles = s.cycles := rfl
@[simp] theorem decThenCompare_trace (m : Byte) (s : State) : (decThenCompare m s).2.trace = s.trace := rfl
@[simp] theorem decThenCompare_pins (m : Byte) (s : State) : (decThenCompare m s).2.pins = s.pins := rfl
@[simp] theorem decThenCompare_variant (m : Byte) (s : State) : (decThenCompare m s).2.variant = s.variant := rfl
@[simp] theorem decThenCompare_regions (m : Byte) (s : State) : (decThenCompare m s).2.regions = s.regions := rfl
@[simp] theorem decThenCompare_mem (m : Byte) (s : State) : (decThenCompare m s).2.mem = s.mem := rfl
@[simp] theorem decThenCompare_freeIndex (m : Byte) (s : State) : (decThenCompare m s).2.freeIndex = s.freeIndex := rfl

@[simp] theorem incThenSub_a (m : Byte) (s : State) : (incThenSub m s).2.a = (subWithCarry s.profile s.a (m + 1) s.p).value := rfl
@[simp] theorem incThenSub_x (m : Byte) (s : State) : (incThenSub m s).2.x = s.x := rfl
@[simp] theorem incThenSub_y (m : Byte) (s : State) : (incThenSub m s).2.y = s.y := rfl
@[simp] theorem incThenSub_sp (m : Byte) (s : State) : (incThenSub m s).2.sp = s.sp := rfl
@[simp] theorem incThenSub_p (m : Byte) (s : State) : (incThenSub m s).2.p = (subWithCarry s.profile s.a (m + 1) s.p).p := rfl
@[simp] theorem incThenSub_pc (m : Byte) (s : State) : (incThenSub m s).2.pc = s.pc := rfl
@[simp] theorem incThenSub_other (m : Byte) (s : State) : (incThenSub m s).2.other = s.other := rfl
@[simp] theorem incThenSub_ir (m : Byte) (s : State) : (incThenSub m s).2.ir = s.ir := rfl
@[simp] theorem incThenSub_run (m : Byte) (s : State) : (incThenSub m s).2.run = s.run := rfl
@[simp] theorem incThenSub_pendReset (m : Byte) (s : State) : (incThenSub m s).2.pendReset = s.pendReset := rfl
@[simp] theorem incThenSub_pendNmi (m : Byte) (s : State) : (incThenSub m s).2.pendNmi = s.pendNmi := rfl
@[simp] theorem incThenSub_pendIrq (m : Byte) (s : State) : (incThenSub m s).2.pendIrq = s.pendIrq := rfl
@[simp] theorem incThenSub_pendSo (m : Byte) (s : State) : (incThenSub m s).2.pendSo = s.pendSo := rfl
@[simp] theorem incThenSub_addr (m : Byte) (s : State) : (incThenSub m s).2.addr = s.addr := rfl
@[simp] theorem incThenSub_data (m : Byte) (s : State) : (incThenSub m s).2.data = s.data := rfl
@[simp] theorem incThenSub_cycles (m : Byte) (s : State) : (incThenSub m s).2.cycles = s.cycles := rfl
@[simp] theorem incThenSub_trace (m : Byte) (s : State) : (incThenSub m s).2.trace = s.trace := rfl
@[simp] theorem incThenSub_pins (m : Byte) (s : State) : (incThenSub m s).2.pins = s.pins := rfl
@[simp] theorem incThenSub_variant (m : Byte) (s : State) : (incThenSub m s).2.variant = s.variant := rfl
@[simp] theorem incThenSub_regions (m : Byte) (s : State) : (incThenSub m s).2.regions = s.regions := rfl
@[simp] theorem incThenSub_mem (m : Byte) (s : State) : (incThenSub m s).2.mem = s.mem := rfl
@[simp] theorem incThenSub_freeIndex (m : Byte) (s : State) : (incThenSub m s).2.freeIndex = s.freeIndex := rfl

@[simp] theorem loadAX_a (m : Byte) (s : State) : (loadAX m s).a = m := rfl
@[simp] theorem loadAX_x (m : Byte) (s : State) : (loadAX m s).x = m := rfl
@[simp] theorem loadAX_y (m : Byte) (s : State) : (loadAX m s).y = s.y := rfl
@[simp] theorem loadAX_sp (m : Byte) (s : State) : (loadAX m s).sp = s.sp := rfl
@[simp] theorem loadAX_p (m : Byte) (s : State) : (loadAX m s).p = setZN m s.p := rfl
@[simp] theorem loadAX_pc (m : Byte) (s : State) : (loadAX m s).pc = s.pc := rfl
@[simp] theorem loadAX_other (m : Byte) (s : State) : (loadAX m s).other = s.other := rfl
@[simp] theorem loadAX_ir (m : Byte) (s : State) : (loadAX m s).ir = s.ir := rfl
@[simp] theorem loadAX_run (m : Byte) (s : State) : (loadAX m s).run = s.run := rfl
@[simp] theorem loadAX_pendReset (m : Byte) (s : State) : (loadAX m s).pendReset = s.pendReset := rfl
@[simp] theorem loadAX_pendNmi (m : Byte) (s : State) : (loadAX m s).pendNmi = s.pendNmi := rfl
@[simp] theorem loadAX_pendIrq (m : Byte) (s : State) : (loadAX m s).pendIrq = s.pendIrq := rfl
@[simp] theorem loadAX_pendSo (m : Byte) (s : State) : (loadAX m s).pendSo = s.pendSo := rfl
@[simp] theorem loadAX_addr (m : Byte) (s : State) : (loadAX m s).addr = s.addr := rfl
@[simp] theorem loadAX_data (m : Byte) (s : State) : (loadAX m s).data = s.data := rfl
@[simp] theorem loadAX_cycles (m : Byte) (s : State) : (loadAX m s).cycles = s.cycles := rfl
@[simp] theorem loadAX_trace (m : Byte) (s : State) : (loadAX m s).trace = s.trace := rfl
@[simp] theorem loadAX_pins (m : Byte) (s : State) : (loadAX m s).pins = s.pins := rfl
@[simp] theorem loadAX_variant (m : Byte) (s : State) : (loadAX m s).variant = s.variant := rfl
@[simp] theorem loadAX_regions (m : Byte) (s : State) : (loadAX m s).regions = s.regions := rfl
@[simp] theorem loadAX_mem (m : Byte) (s : State) : (loadAX m s).mem = s.mem := rfl
@[simp] theorem loadAX_freeIndex (m : Byte) (s : State) : (loadAX m s).freeIndex = s.freeIndex := rfl

@[simp] theorem loadAXS_a (m : Byte) (s : State) : (loadAXS m s).a = m &&& s.sp := rfl
@[simp] theorem loadAXS_x (m : Byte) (s : State) : (loadAXS m s).x = m &&& s.sp := rfl
@[simp] theorem loadAXS_y (m : Byte) (s : State) : (loadAXS m s).y = s.y := rfl
@[simp] theorem loadAXS_sp (m : Byte) (s : State) : (loadAXS m s).sp = m &&& s.sp := rfl
@[simp] theorem loadAXS_p (m : Byte) (s : State) : (loadAXS m s).p = setZN (m &&& s.sp) s.p := rfl
@[simp] theorem loadAXS_pc (m : Byte) (s : State) : (loadAXS m s).pc = s.pc := rfl
@[simp] theorem loadAXS_other (m : Byte) (s : State) : (loadAXS m s).other = s.other := rfl
@[simp] theorem loadAXS_ir (m : Byte) (s : State) : (loadAXS m s).ir = s.ir := rfl
@[simp] theorem loadAXS_run (m : Byte) (s : State) : (loadAXS m s).run = s.run := rfl
@[simp] theorem loadAXS_pendReset (m : Byte) (s : State) : (loadAXS m s).pendReset = s.pendReset := rfl
@[simp] theorem loadAXS_pendNmi (m : Byte) (s : State) : (loadAXS m s).pendNmi = s.pendNmi := rfl
@[simp] theorem loadAXS_pendIrq (m : Byte) (s : State) : (loadAXS m s).pendIrq = s.pendIrq := rfl
@[simp] theorem loadAXS_pendSo (m : Byte) (s : State) : (loadAXS m s).pendSo = s.pendSo := rfl
@[simp] theorem loadAXS_addr (m : Byte) (s : State) : (loadAXS m s).addr = s.addr := rfl
@[simp] theorem loadAXS_data (m : Byte) (s : State) : (loadAXS m s).data = s.data := rfl
@[simp] theorem loadAXS_cycles (m : Byte) (s : State) : (loadAXS m s).cycles = s.cycles := rfl
@[simp] theorem loadAXS_trace (m : Byte) (s : State) : (loadAXS m s).trace = s.trace := rfl
@[simp] theorem loadAXS_pins (m : Byte) (s : State) : (loadAXS m s).pins = s.pins := rfl
@[simp] theorem loadAXS_variant (m : Byte) (s : State) : (loadAXS m s).variant = s.variant := rfl
@[simp] theorem loadAXS_regions (m : Byte) (s : State) : (loadAXS m s).regions = s.regions := rfl
@[simp] theorem loadAXS_mem (m : Byte) (s : State) : (loadAXS m s).mem = s.mem := rfl
@[simp] theorem loadAXS_freeIndex (m : Byte) (s : State) : (loadAXS m s).freeIndex = s.freeIndex := rfl

@[simp] theorem andCopyN_a (m : Byte) (s : State) : (andCopyN m s).a = (andWith s.a m s.p).value := rfl
@[simp] theorem andCopyN_x (m : Byte) (s : State) : (andCopyN m s).x = s.x := rfl
@[simp] theorem andCopyN_y (m : Byte) (s : State) : (andCopyN m s).y = s.y := rfl
@[simp] theorem andCopyN_sp (m : Byte) (s : State) : (andCopyN m s).sp = s.sp := rfl
@[simp] theorem andCopyN_p (m : Byte) (s : State) : (andCopyN m s).p = withFlag .c (flag .n (andWith s.a m s.p).p) (andWith s.a m s.p).p := rfl
@[simp] theorem andCopyN_pc (m : Byte) (s : State) : (andCopyN m s).pc = s.pc := rfl
@[simp] theorem andCopyN_other (m : Byte) (s : State) : (andCopyN m s).other = s.other := rfl
@[simp] theorem andCopyN_ir (m : Byte) (s : State) : (andCopyN m s).ir = s.ir := rfl
@[simp] theorem andCopyN_run (m : Byte) (s : State) : (andCopyN m s).run = s.run := rfl
@[simp] theorem andCopyN_pendReset (m : Byte) (s : State) : (andCopyN m s).pendReset = s.pendReset := rfl
@[simp] theorem andCopyN_pendNmi (m : Byte) (s : State) : (andCopyN m s).pendNmi = s.pendNmi := rfl
@[simp] theorem andCopyN_pendIrq (m : Byte) (s : State) : (andCopyN m s).pendIrq = s.pendIrq := rfl
@[simp] theorem andCopyN_pendSo (m : Byte) (s : State) : (andCopyN m s).pendSo = s.pendSo := rfl
@[simp] theorem andCopyN_addr (m : Byte) (s : State) : (andCopyN m s).addr = s.addr := rfl
@[simp] theorem andCopyN_data (m : Byte) (s : State) : (andCopyN m s).data = s.data := rfl
@[simp] theorem andCopyN_cycles (m : Byte) (s : State) : (andCopyN m s).cycles = s.cycles := rfl
@[simp] theorem andCopyN_trace (m : Byte) (s : State) : (andCopyN m s).trace = s.trace := rfl
@[simp] theorem andCopyN_pins (m : Byte) (s : State) : (andCopyN m s).pins = s.pins := rfl
@[simp] theorem andCopyN_variant (m : Byte) (s : State) : (andCopyN m s).variant = s.variant := rfl
@[simp] theorem andCopyN_regions (m : Byte) (s : State) : (andCopyN m s).regions = s.regions := rfl
@[simp] theorem andCopyN_mem (m : Byte) (s : State) : (andCopyN m s).mem = s.mem := rfl
@[simp] theorem andCopyN_freeIndex (m : Byte) (s : State) : (andCopyN m s).freeIndex = s.freeIndex := rfl

@[simp] theorem andThenLsr_a (m : Byte) (s : State) : (andThenLsr m s).a = (lsr (s.a &&& m) s.p).value := rfl
@[simp] theorem andThenLsr_x (m : Byte) (s : State) : (andThenLsr m s).x = s.x := rfl
@[simp] theorem andThenLsr_y (m : Byte) (s : State) : (andThenLsr m s).y = s.y := rfl
@[simp] theorem andThenLsr_sp (m : Byte) (s : State) : (andThenLsr m s).sp = s.sp := rfl
@[simp] theorem andThenLsr_p (m : Byte) (s : State) : (andThenLsr m s).p = (lsr (s.a &&& m) s.p).p := rfl
@[simp] theorem andThenLsr_pc (m : Byte) (s : State) : (andThenLsr m s).pc = s.pc := rfl
@[simp] theorem andThenLsr_other (m : Byte) (s : State) : (andThenLsr m s).other = s.other := rfl
@[simp] theorem andThenLsr_ir (m : Byte) (s : State) : (andThenLsr m s).ir = s.ir := rfl
@[simp] theorem andThenLsr_run (m : Byte) (s : State) : (andThenLsr m s).run = s.run := rfl
@[simp] theorem andThenLsr_pendReset (m : Byte) (s : State) : (andThenLsr m s).pendReset = s.pendReset := rfl
@[simp] theorem andThenLsr_pendNmi (m : Byte) (s : State) : (andThenLsr m s).pendNmi = s.pendNmi := rfl
@[simp] theorem andThenLsr_pendIrq (m : Byte) (s : State) : (andThenLsr m s).pendIrq = s.pendIrq := rfl
@[simp] theorem andThenLsr_pendSo (m : Byte) (s : State) : (andThenLsr m s).pendSo = s.pendSo := rfl
@[simp] theorem andThenLsr_addr (m : Byte) (s : State) : (andThenLsr m s).addr = s.addr := rfl
@[simp] theorem andThenLsr_data (m : Byte) (s : State) : (andThenLsr m s).data = s.data := rfl
@[simp] theorem andThenLsr_cycles (m : Byte) (s : State) : (andThenLsr m s).cycles = s.cycles := rfl
@[simp] theorem andThenLsr_trace (m : Byte) (s : State) : (andThenLsr m s).trace = s.trace := rfl
@[simp] theorem andThenLsr_pins (m : Byte) (s : State) : (andThenLsr m s).pins = s.pins := rfl
@[simp] theorem andThenLsr_variant (m : Byte) (s : State) : (andThenLsr m s).variant = s.variant := rfl
@[simp] theorem andThenLsr_regions (m : Byte) (s : State) : (andThenLsr m s).regions = s.regions := rfl
@[simp] theorem andThenLsr_mem (m : Byte) (s : State) : (andThenLsr m s).mem = s.mem := rfl
@[simp] theorem andThenLsr_freeIndex (m : Byte) (s : State) : (andThenLsr m s).freeIndex = s.freeIndex := rfl

@[simp] theorem andThenRor_a (m : Byte) (s : State) : (andThenRor m s).a = (arr s.profile.decimal s.a m s.p).value := rfl
@[simp] theorem andThenRor_x (m : Byte) (s : State) : (andThenRor m s).x = s.x := rfl
@[simp] theorem andThenRor_y (m : Byte) (s : State) : (andThenRor m s).y = s.y := rfl
@[simp] theorem andThenRor_sp (m : Byte) (s : State) : (andThenRor m s).sp = s.sp := rfl
@[simp] theorem andThenRor_p (m : Byte) (s : State) : (andThenRor m s).p = (arr s.profile.decimal s.a m s.p).p := rfl
@[simp] theorem andThenRor_pc (m : Byte) (s : State) : (andThenRor m s).pc = s.pc := rfl
@[simp] theorem andThenRor_other (m : Byte) (s : State) : (andThenRor m s).other = s.other := rfl
@[simp] theorem andThenRor_ir (m : Byte) (s : State) : (andThenRor m s).ir = s.ir := rfl
@[simp] theorem andThenRor_run (m : Byte) (s : State) : (andThenRor m s).run = s.run := rfl
@[simp] theorem andThenRor_pendReset (m : Byte) (s : State) : (andThenRor m s).pendReset = s.pendReset := rfl
@[simp] theorem andThenRor_pendNmi (m : Byte) (s : State) : (andThenRor m s).pendNmi = s.pendNmi := rfl
@[simp] theorem andThenRor_pendIrq (m : Byte) (s : State) : (andThenRor m s).pendIrq = s.pendIrq := rfl
@[simp] theorem andThenRor_pendSo (m : Byte) (s : State) : (andThenRor m s).pendSo = s.pendSo := rfl
@[simp] theorem andThenRor_addr (m : Byte) (s : State) : (andThenRor m s).addr = s.addr := rfl
@[simp] theorem andThenRor_data (m : Byte) (s : State) : (andThenRor m s).data = s.data := rfl
@[simp] theorem andThenRor_cycles (m : Byte) (s : State) : (andThenRor m s).cycles = s.cycles := rfl
@[simp] theorem andThenRor_trace (m : Byte) (s : State) : (andThenRor m s).trace = s.trace := rfl
@[simp] theorem andThenRor_pins (m : Byte) (s : State) : (andThenRor m s).pins = s.pins := rfl
@[simp] theorem andThenRor_variant (m : Byte) (s : State) : (andThenRor m s).variant = s.variant := rfl
@[simp] theorem andThenRor_regions (m : Byte) (s : State) : (andThenRor m s).regions = s.regions := rfl
@[simp] theorem andThenRor_mem (m : Byte) (s : State) : (andThenRor m s).mem = s.mem := rfl
@[simp] theorem andThenRor_freeIndex (m : Byte) (s : State) : (andThenRor m s).freeIndex = s.freeIndex := rfl

@[simp] theorem subFromAX_a (m : Byte) (s : State) : (subFromAX m s).a = s.a := rfl
@[simp] theorem subFromAX_x (m : Byte) (s : State) : (subFromAX m s).x = (sbx s.a s.x m s.p).value := rfl
@[simp] theorem subFromAX_y (m : Byte) (s : State) : (subFromAX m s).y = s.y := rfl
@[simp] theorem subFromAX_sp (m : Byte) (s : State) : (subFromAX m s).sp = s.sp := rfl
@[simp] theorem subFromAX_p (m : Byte) (s : State) : (subFromAX m s).p = (sbx s.a s.x m s.p).p := rfl
@[simp] theorem subFromAX_pc (m : Byte) (s : State) : (subFromAX m s).pc = s.pc := rfl
@[simp] theorem subFromAX_other (m : Byte) (s : State) : (subFromAX m s).other = s.other := rfl
@[simp] theorem subFromAX_ir (m : Byte) (s : State) : (subFromAX m s).ir = s.ir := rfl
@[simp] theorem subFromAX_run (m : Byte) (s : State) : (subFromAX m s).run = s.run := rfl
@[simp] theorem subFromAX_pendReset (m : Byte) (s : State) : (subFromAX m s).pendReset = s.pendReset := rfl
@[simp] theorem subFromAX_pendNmi (m : Byte) (s : State) : (subFromAX m s).pendNmi = s.pendNmi := rfl
@[simp] theorem subFromAX_pendIrq (m : Byte) (s : State) : (subFromAX m s).pendIrq = s.pendIrq := rfl
@[simp] theorem subFromAX_pendSo (m : Byte) (s : State) : (subFromAX m s).pendSo = s.pendSo := rfl
@[simp] theorem subFromAX_addr (m : Byte) (s : State) : (subFromAX m s).addr = s.addr := rfl
@[simp] theorem subFromAX_data (m : Byte) (s : State) : (subFromAX m s).data = s.data := rfl
@[simp] theorem subFromAX_cycles (m : Byte) (s : State) : (subFromAX m s).cycles = s.cycles := rfl
@[simp] theorem subFromAX_trace (m : Byte) (s : State) : (subFromAX m s).trace = s.trace := rfl
@[simp] theorem subFromAX_pins (m : Byte) (s : State) : (subFromAX m s).pins = s.pins := rfl
@[simp] theorem subFromAX_variant (m : Byte) (s : State) : (subFromAX m s).variant = s.variant := rfl
@[simp] theorem subFromAX_regions (m : Byte) (s : State) : (subFromAX m s).regions = s.regions := rfl
@[simp] theorem subFromAX_mem (m : Byte) (s : State) : (subFromAX m s).mem = s.mem := rfl
@[simp] theorem subFromAX_freeIndex (m : Byte) (s : State) : (subFromAX m s).freeIndex = s.freeIndex := rfl

@[simp] theorem aneA_a (m : Byte) (s : State) : (aneA m s).a = (s.a ||| magicAne) &&& s.x &&& m := rfl
@[simp] theorem aneA_x (m : Byte) (s : State) : (aneA m s).x = s.x := rfl
@[simp] theorem aneA_y (m : Byte) (s : State) : (aneA m s).y = s.y := rfl
@[simp] theorem aneA_sp (m : Byte) (s : State) : (aneA m s).sp = s.sp := rfl
@[simp] theorem aneA_p (m : Byte) (s : State) : (aneA m s).p = setZN ((s.a ||| magicAne) &&& s.x &&& m) s.p := rfl
@[simp] theorem aneA_pc (m : Byte) (s : State) : (aneA m s).pc = s.pc := rfl
@[simp] theorem aneA_other (m : Byte) (s : State) : (aneA m s).other = s.other := rfl
@[simp] theorem aneA_ir (m : Byte) (s : State) : (aneA m s).ir = s.ir := rfl
@[simp] theorem aneA_run (m : Byte) (s : State) : (aneA m s).run = s.run := rfl
@[simp] theorem aneA_pendReset (m : Byte) (s : State) : (aneA m s).pendReset = s.pendReset := rfl
@[simp] theorem aneA_pendNmi (m : Byte) (s : State) : (aneA m s).pendNmi = s.pendNmi := rfl
@[simp] theorem aneA_pendIrq (m : Byte) (s : State) : (aneA m s).pendIrq = s.pendIrq := rfl
@[simp] theorem aneA_pendSo (m : Byte) (s : State) : (aneA m s).pendSo = s.pendSo := rfl
@[simp] theorem aneA_addr (m : Byte) (s : State) : (aneA m s).addr = s.addr := rfl
@[simp] theorem aneA_data (m : Byte) (s : State) : (aneA m s).data = s.data := rfl
@[simp] theorem aneA_cycles (m : Byte) (s : State) : (aneA m s).cycles = s.cycles := rfl
@[simp] theorem aneA_trace (m : Byte) (s : State) : (aneA m s).trace = s.trace := rfl
@[simp] theorem aneA_pins (m : Byte) (s : State) : (aneA m s).pins = s.pins := rfl
@[simp] theorem aneA_variant (m : Byte) (s : State) : (aneA m s).variant = s.variant := rfl
@[simp] theorem aneA_regions (m : Byte) (s : State) : (aneA m s).regions = s.regions := rfl
@[simp] theorem aneA_mem (m : Byte) (s : State) : (aneA m s).mem = s.mem := rfl
@[simp] theorem aneA_freeIndex (m : Byte) (s : State) : (aneA m s).freeIndex = s.freeIndex := rfl

@[simp] theorem lxaAX_a (m : Byte) (s : State) : (lxaAX m s).a = (s.a ||| magicLxa) &&& m := rfl
@[simp] theorem lxaAX_x (m : Byte) (s : State) : (lxaAX m s).x = (s.a ||| magicLxa) &&& m := rfl
@[simp] theorem lxaAX_y (m : Byte) (s : State) : (lxaAX m s).y = s.y := rfl
@[simp] theorem lxaAX_sp (m : Byte) (s : State) : (lxaAX m s).sp = s.sp := rfl
@[simp] theorem lxaAX_p (m : Byte) (s : State) : (lxaAX m s).p = setZN ((s.a ||| magicLxa) &&& m) s.p := rfl
@[simp] theorem lxaAX_pc (m : Byte) (s : State) : (lxaAX m s).pc = s.pc := rfl
@[simp] theorem lxaAX_other (m : Byte) (s : State) : (lxaAX m s).other = s.other := rfl
@[simp] theorem lxaAX_ir (m : Byte) (s : State) : (lxaAX m s).ir = s.ir := rfl
@[simp] theorem lxaAX_run (m : Byte) (s : State) : (lxaAX m s).run = s.run := rfl
@[simp] theorem lxaAX_pendReset (m : Byte) (s : State) : (lxaAX m s).pendReset = s.pendReset := rfl
@[simp] theorem lxaAX_pendNmi (m : Byte) (s : State) : (lxaAX m s).pendNmi = s.pendNmi := rfl
@[simp] theorem lxaAX_pendIrq (m : Byte) (s : State) : (lxaAX m s).pendIrq = s.pendIrq := rfl
@[simp] theorem lxaAX_pendSo (m : Byte) (s : State) : (lxaAX m s).pendSo = s.pendSo := rfl
@[simp] theorem lxaAX_addr (m : Byte) (s : State) : (lxaAX m s).addr = s.addr := rfl
@[simp] theorem lxaAX_data (m : Byte) (s : State) : (lxaAX m s).data = s.data := rfl
@[simp] theorem lxaAX_cycles (m : Byte) (s : State) : (lxaAX m s).cycles = s.cycles := rfl
@[simp] theorem lxaAX_trace (m : Byte) (s : State) : (lxaAX m s).trace = s.trace := rfl
@[simp] theorem lxaAX_pins (m : Byte) (s : State) : (lxaAX m s).pins = s.pins := rfl
@[simp] theorem lxaAX_variant (m : Byte) (s : State) : (lxaAX m s).variant = s.variant := rfl
@[simp] theorem lxaAX_regions (m : Byte) (s : State) : (lxaAX m s).regions = s.regions := rfl
@[simp] theorem lxaAX_mem (m : Byte) (s : State) : (lxaAX m s).mem = s.mem := rfl
@[simp] theorem lxaAX_freeIndex (m : Byte) (s : State) : (lxaAX m s).freeIndex = s.freeIndex := rfl

@[simp] theorem discard_a (m : Byte) (s : State) : (discard m s).a = s.a := rfl
@[simp] theorem discard_x (m : Byte) (s : State) : (discard m s).x = s.x := rfl
@[simp] theorem discard_y (m : Byte) (s : State) : (discard m s).y = s.y := rfl
@[simp] theorem discard_sp (m : Byte) (s : State) : (discard m s).sp = s.sp := rfl
@[simp] theorem discard_p (m : Byte) (s : State) : (discard m s).p = s.p := rfl
@[simp] theorem discard_pc (m : Byte) (s : State) : (discard m s).pc = s.pc := rfl
@[simp] theorem discard_other (m : Byte) (s : State) : (discard m s).other = s.other := rfl
@[simp] theorem discard_ir (m : Byte) (s : State) : (discard m s).ir = s.ir := rfl
@[simp] theorem discard_run (m : Byte) (s : State) : (discard m s).run = s.run := rfl
@[simp] theorem discard_pendReset (m : Byte) (s : State) : (discard m s).pendReset = s.pendReset := rfl
@[simp] theorem discard_pendNmi (m : Byte) (s : State) : (discard m s).pendNmi = s.pendNmi := rfl
@[simp] theorem discard_pendIrq (m : Byte) (s : State) : (discard m s).pendIrq = s.pendIrq := rfl
@[simp] theorem discard_pendSo (m : Byte) (s : State) : (discard m s).pendSo = s.pendSo := rfl
@[simp] theorem discard_addr (m : Byte) (s : State) : (discard m s).addr = s.addr := rfl
@[simp] theorem discard_data (m : Byte) (s : State) : (discard m s).data = s.data := rfl
@[simp] theorem discard_cycles (m : Byte) (s : State) : (discard m s).cycles = s.cycles := rfl
@[simp] theorem discard_trace (m : Byte) (s : State) : (discard m s).trace = s.trace := rfl
@[simp] theorem discard_pins (m : Byte) (s : State) : (discard m s).pins = s.pins := rfl
@[simp] theorem discard_variant (m : Byte) (s : State) : (discard m s).variant = s.variant := rfl
@[simp] theorem discard_regions (m : Byte) (s : State) : (discard m s).regions = s.regions := rfl
@[simp] theorem discard_mem (m : Byte) (s : State) : (discard m s).mem = s.mem := rfl
@[simp] theorem discard_freeIndex (m : Byte) (s : State) : (discard m s).freeIndex = s.freeIndex := rfl

end Sys2Proof.Machine
end

