-- ==== Sys2Proof/Laws/Profile.lean ====
section
/-! SUPPORT. What the hooks are in profile NMOS6502, which profiles a step runs, and that the types and tables of the model
agree with the record of that profile. -/

namespace Sys2Proof.Machine

open Config

/-! ### The hooks of a state whose profile is NMOS6502 -/

theorem profile_congr {s t : State} (h : t.variant = s.variant) : t.profile = s.profile := by
  rw [State.profile, State.profile, h]

theorem profile_nmos {s : State} (h : s.variant = .nmos6502) : s.profile = nmos := by
  rw [State.profile, h]; rfl

theorem fixup_nmos {s : State} (h : s.variant = .nmos6502) : s.fixup = nmosFixup := by
  funext op; rw [State.fixup, profile_nmos h]; rfl

/-- The search finds an element that no other one of the list rivals. -/
theorem find?_eq_of_unique {l : List Source} {f : Source → Bool} {x : Source} (hx : x ∈ l) (hf : f x = true)
    (h : ∀ y ∈ l, f y = true → y = x) : l.find? f = some x := by
  cases e : l.find? f with
  | none => exact absurd hf (List.find?_eq_none.mp e x hx)
  | some y => rw [h y (List.mem_of_find?_eq_some e) (List.find?_some e)]

/-- A listed source is serviced when it is pending, none that outranks it is, and it outranks every other that is. -/
theorem selectEvent_of_listedPending {s : State} {x : Source} (hx : listedPending s x = true)
    (h0 : (outranking x).any (listedPending s) = false)
    (h : ∀ y, listedPending s y = true → y ≠ x → x ∈ outranking y) : selectEvent s = entryOf x := by
  have hx' := hx
  rw [listedPending, Bool.and_eq_true, List.contains_iff_mem] at hx'
  rw [selectEvent, find?_eq_of_unique hx'.1 (by simp only [hx'.2, h0]; rfl), Option.bind_some]
  intro y hy hp
  by_contra hne
  rw [Bool.and_eq_true, Bool.not_eq_true', List.any_eq_false] at hp
  exact hp.2 x (h y (by simp [listedPending, hy, hp.1]) hne) hx

/-- In every profile the event serviced is that of RESET, of NMI or of an unmasked IRQ, in this order, of the sources that the
profile has (R372, R378, R405). -/
theorem selectEvent_eq (s : State) : selectEvent s =
    if listedPending s .reset then some .reset else if listedPending s .nmi then some .nmi
      else if listedPending s .int then some .irq else none := by
  have other (n : String) (v : Word) (ps : List Pushed) : listedPending s (.other n v ps) = false := by
    simp [listedPending, pending]
  split_ifs with hr hn hi
  · exact selectEvent_of_listedPending hr rfl fun y _ hne => by cases y <;> simp_all [outranking]
  · exact selectEvent_of_listedPending hn (by simp [outranking, hr]) fun y hy hne => by
      cases y <;> simp_all [outranking]
  · exact selectEvent_of_listedPending hi (by simp [outranking, hr, hn]) fun y hy hne => by
      cases y <;> simp_all
  · rw [selectEvent, List.find?_eq_none.mpr, Option.bind_none]
    intro y hy hp
    have : listedPending s y = true := by simp_all [listedPending]
    cases y <;> simp_all

theorem sources_nmos : nmos.interruptSources = [.reset, .nmi, .int] := rfl

theorem interruptsMasked_nmos {s : State} (h : s.variant = .nmos6502) : s.interruptsMasked = flag .i s.p := by
  have k : ∀ q : Byte, (q &&& 0x04#8 != 0#8) = flag .i q := by decide
  rw [State.interruptsMasked, profile_nmos h]
  exact k s.p

theorem selectEvent_nmos {s : State} (h : s.variant = .nmos6502) :
    selectEvent s = if s.pendReset then some .reset else if s.pendNmi then some .nmi
      else if s.pendIrq && !flag .i s.p then some .irq else none := by
  simp [selectEvent_eq, listedPending, profile_nmos h, sources_nmos, pending, interruptsMasked_nmos h]

theorem mem_givenSources {x : Source} {present rest : List Source} (h : x ∈ present) : x ∈ givenSources present rest := by
  by_cases hr : x ∈ rest <;> simp [givenSources, h, hr]

/-- Every profile has RESET and INT, and every one but I8080 has NMI (R378, R379). -/
theorem sources_listed (v : Variant) : .reset ∈ (profileOf v).interruptSources ∧ .int ∈ (profileOf v).interruptSources ∧
    (v ≠ .i8080 → .nmi ∈ (profileOf v).interruptSources) := by
  cases v
  · simp [profileOf, nmos]
  · simp [profileOf, cmos, nmos]
  all_goals exact ⟨mem_givenSources (by simp), mem_givenSources (by simp), fun h => by
    first | exact absurd rfl h | exact mem_givenSources (by simp)⟩

/-- The byte order of profile NMOS6502 (R84). -/
theorem byteOrder_nmos {s : State} (h : s.variant = .nmos6502) : s.profile.byteOrder = .littleEndian := by
  rw [profile_nmos h]; rfl

@[simp] theorem joinWord_little (first second : Byte) : joinWord .littleEndian first second = wordOf second first := rfl

@[simp] theorem firstByte_little (w : Word) : firstByte .littleEndian w = lo w := rfl

@[simp] theorem secondByte_little (w : Word) : secondByte .littleEndian w = hi w := rfl

@[simp] theorem firstByte_joinWord (o : ByteOrder) (x y : Byte) : firstByte o (joinWord o x y) = x := by
  cases o <;> simp [joinWord, firstByte]

@[simp] theorem secondByte_joinWord (o : ByteOrder) (x y : Byte) : secondByte o (joinWord o x y) = y := by
  cases o <;> simp [joinWord, secondByte]

/-- Splitting a word in an order and joining it in the same order gives it back. -/
theorem joinWord_firstByte_secondByte (o : ByteOrder) (w : Word) : joinWord o (firstByte o w) (secondByte o w) = w := by
  cases o <;> exact wordOf_hi_lo w

@[simp] theorem spareReads_zero (s : State) : spareReads 0 s = .ok s := rfl

theorem decimalCycles_nmos {s : State} (h : s.variant = .nmos6502) : decimalCycles s = 0 := by
  rw [decimalCycles, profile_nmos h]; rfl

/-- The stack cycles of an entry in profile NMOS6502: `PCH`, `PCL`, `P` (R411). -/
theorem entryPushes_nmos (e : Entry) (s : State) :
    entryPushes nmos e (stackCycles nmos e) s = (do
      let s ← entryPush e (hi s.pc) s
      let s ← entryPush e (lo s.pc) s
      entryPush e (pushedStatus nmos e s.p) s) := by
  have k : ∀ x : Except Fault State, (x >>= fun s => (pure s : Except Fault State)) = x := by
    intro x; cases x <;> rfl
  have hc : stackCycles nmos e = [.pcHigh, .pcLow, .status] := by cases e <;> rfl
  rw [hc]
  show (entryPush e (hi s.pc) s >>= fun s => entryPush e (lo s.pc) s >>= fun s =>
    entryPush e (pushedStatus nmos e s.p) s >>= fun s => pure s) = _
  simp only [k]

/-- In little-endian order the operand bytes go to the table as they were fetched (R84). -/
theorem wideEntry_nmos (table : OpcodeTable) (x y : Byte) {s : State} (h : s.variant = .nmos6502) :
    wideEntry table x y s = table s.ir x y := by
  rw [wideEntry, byteOrder_nmos h, joinWord_little, lo_wordOf, hi_wordOf]

/-! ### Addition and subtraction in the other profiles (R383) -/

/-- The places of the signals in profile Z80 (R375). -/
theorem placeSignals_z80 (f : Signal → Bool) (p : Byte) : placeSignals z80 f p =
    withBits 0x02#8 (f .subtraction) (withBits 0x10#8 (f .halfCarry) (withBits 0x80#8 (f .negative)
      (withBits 0x04#8 (f .overflow) (withBits 0x40#8 (f .zero) (withBits 0x01#8 (f .carry) p))))) := rfl

/-- The places of the signals in profile I8080, which stores neither overflow nor the kind of operation (R375). -/
theorem placeSignals_i8080 (f : Signal → Bool) (p : Byte) : placeSignals i8080 f p =
    withBits 0x00#8 (f .subtraction) (withBits 0x10#8 (f .halfCarry) (withBits 0x80#8 (f .negative)
      (withBits 0x00#8 (f .overflow) (withBits 0x40#8 (f .zero) (withBits 0x01#8 (f .carry) p))))) := rfl

/-- The places of the signals in profile MC6809 (R375). -/
theorem placeSignals_mc6809 (f : Signal → Bool) (p : Byte) : placeSignals mc6809 f p =
    withBits 0x00#8 (f .subtraction) (withBits 0x20#8 (f .halfCarry) (withBits 0x08#8 (f .negative)
      (withBits 0x02#8 (f .overflow) (withBits 0x04#8 (f .zero) (withBits 0x01#8 (f .carry) p))))) := rfl

/-- The carry stands in bit 0 in all three (R375). -/
theorem carryOf_others (p : Byte) :
    carryOf z80 p = p.getLsbD 0 ∧ carryOf i8080 p = p.getLsbD 0 ∧ carryOf mc6809 p = p.getLsbD 0 := by
  have h : ∀ q : Byte, (q &&& 0x01#8 != 0#8) = q.getLsbD 0 := by decide
  exact ⟨h p, h p, h p⟩

/-- None of the three has decimal arithmetic by a mode flag. -/
theorem decimalOn_others (p : Byte) :
    decimalOn z80.decimal p = false ∧ decimalOn i8080.decimal p = false ∧ decimalOn mc6809.decimal p = false :=
  ⟨rfl, rfl, rfl⟩

/-- An addition in profile Z80 clears `N` and stores `H_add` in `H`. -/
theorem addWithCarry_z80 (a m p : Byte) :
    let r := addWithCarry z80 a m p
    let sum := addBinary a m (p.getLsbD 0) p
    r.value = sum.value ∧ r.p.getLsbD 0 = flag .c sum.p ∧ r.p.getLsbD 2 = flag .v sum.p ∧
      r.p.getLsbD 1 = false ∧ r.p.getLsbD 4 = halfCarryAdd a m (p.getLsbD 0) := by
  simp only [addWithCarry, (carryOf_others p).1, (decimalOn_others p).1, placeSignals_z80]
  simp [getElem_withBits, aluSignals]

/-- A subtraction in profile Z80 takes and gives the carry as a true borrow, sets `N`, and sets `H` on a borrow from bit 4. -/
theorem subWithCarry_z80 (a m p : Byte) :
    let r := subWithCarry z80 a m p
    let diff := subBinary a m (!p.getLsbD 0) p
    r.value = diff.value ∧ r.p.getLsbD 0 = !flag .c diff.p ∧ r.p.getLsbD 2 = flag .v diff.p ∧
      r.p.getLsbD 1 = true ∧ r.p.getLsbD 4 = !halfCarrySub a m (!p.getLsbD 0) := by
  have hb : ∀ c, borrowSense z80 c = !c := by decide
  simp only [subWithCarry, (carryOf_others p).1, (decimalOn_others p).1, placeSignals_z80, hb]
  simp [getElem_withBits, aluSignals, subHalfCarryFlag, z80]

/-- A subtraction in profile I8080 takes and gives the carry as a true borrow. -/
theorem subWithCarry_i8080 (a m p : Byte) :
    let r := subWithCarry i8080 a m p
    let diff := subBinary a m (!p.getLsbD 0) p
    r.value = diff.value ∧ r.p.getLsbD 0 = !flag .c diff.p ∧ r.p.getLsbD 4 = halfCarrySub a m (!p.getLsbD 0) := by
  have hb : ∀ c, borrowSense i8080 c = !c := by decide
  simp only [subWithCarry, (carryOf_others p).2.1, (decimalOn_others p).2.1, placeSignals_i8080, hb]
  simp [getElem_withBits, aluSignals, subHalfCarryFlag, i8080]

/-- A subtraction in profile MC6809 leaves `H` with a free value. -/
theorem subWithCarry_mc6809 (a m p : Byte) :
    (subWithCarry mc6809 a m p).p.getLsbD 5 = undefinedHalfCarry a m p := by
  simp only [subWithCarry, placeSignals_mc6809]
  simp [getElem_withBits, aluSignals, subHalfCarryFlag, mc6809]

/-! ### Entries in the other profiles -/

/-- What gates the maskable interrupt in the other profiles: a flip-flop in Z80 and I8080, bit 4 of `CC` in MC6809 (R375, C4). -/
theorem interruptsMasked_others (s : State) :
    (s.variant = .z80 → s.interruptsMasked = !s.other.iff1) ∧ (s.variant = .i8080 → s.interruptsMasked = !s.other.inte) ∧
    (s.variant = .mc6809 → s.interruptsMasked = s.p.getLsbD 4) := by
  have k : ∀ q : Byte, (q &&& 0x10#8 != 0#8) = q.getLsbD 4 := by decide
  refine ⟨fun h => ?_, fun h => ?_, fun h => ?_⟩ <;> rw [State.interruptsMasked, State.profile, h]
  · rfl
  · rfl
  · exact k s.p

/-- The flags byte after an entry in the other profiles: MC6809 sets its mask, bit 4; Z80 and I8080 change nothing (C4). -/
theorem entryStatus_others (p : Byte) :
    entryStatus z80 p = p ∧ entryStatus i8080 p = p ∧ entryStatus mc6809 p = p ||| 0x10#8 := ⟨rfl, rfl, rfl⟩

/-- The flip-flop that an entry clears in the other profiles (C4). -/
theorem entryFlipFlops_others (o : OtherRegisters) : entryFlipFlops z80 o = { o with iff1 := false } ∧
    entryFlipFlops i8080 o = { o with inte := false } ∧ entryFlipFlops mc6809 o = o := ⟨rfl, rfl, rfl⟩

/-- RESET touches the stack in the 6502's profiles only (R379, C5). -/
theorem stackCycles_reset (v : Variant) :
    stackCycles (profileOf v) .reset = if v = .nmos6502 ∨ v = .cmos65c02 then nmos.pushOrder else [] := by
  cases v <;> rfl

/-! ### Which profiles a step runs -/

theorem driverRuns_nmos : driverRuns nmos = true := by decide

theorem driverRuns_cmos : driverRuns cmos = true := by decide

/-- The driver's structure is that of the two 6502 profiles. -/
theorem driverRuns_others : driverRuns z80 = false ∧ driverRuns i8080 = false ∧ driverRuns mc6809 = false :=
  ⟨by simp [driverRuns, z80], by simp [driverRuns, i8080], by simp [driverRuns, mc6809]⟩

theorem tableOf_nmos {s : State} (h : s.variant = .nmos6502) : tableOf s.profile = some decodeOp := by
  rw [profile_nmos h, tableOf, if_pos driverRuns_nmos]; rfl

theorem tableOf_none {prof : Profile} (h : prof.dispatchTable = none) : tableOf prof = none := by
  rw [tableOf, h]; split <;> rfl

theorem tableOf_open {s : State} (h : s.variant ≠ .nmos6502) : tableOf s.profile = none := by
  rw [State.profile]
  cases hv : s.variant
  · exact absurd hv h
  all_goals exact tableOf_none rfl

/-! ### The model's own types and tables agree with the record -/

/-- The width of a register's type. -/
def widthOf {n : Nat} (_ : BitVec n) : Nat := n

theorem driverRegisters_widths (s : State) : driverRegisters =
    [(.a, widthOf s.a), (.x, widthOf s.x), (.y, widthOf s.y), (.s, widthOf s.sp), (.p, widthOf s.p),
     (.pc, widthOf s.pc)] := rfl

theorem toNat_zext (b : Byte) : (zext b).toNat = b.toNat := BitVec.toNat_setWidth_of_le (by decide)

/-- Each register of each profile's record is held at the record's width. -/
theorem register_lt (v : Config.Variant) (s : State) :
    ∀ x ∈ (profileOf v).registers, (s.register x.1 x.2).toNat < 2 ^ x.2 := by
  have byte (b : Byte) : (zext b).toNat < 2 ^ 8 := by rw [toNat_zext]; exact b.isLt
  have word (w : Word) : w.toNat < 2 ^ 16 := w.isLt
  have bit (b : Bool) : (BitVec.ofNat 16 b.toNat).toNat < 2 ^ 1 := by cases b <;> decide
  have mode : (s.other.im.setWidth 16).toNat < 2 ^ 2 := by
    rw [BitVec.toNat_setWidth_of_le (by decide)]; exact s.other.im.isLt
  cases v <;> simp only [profileOf, nmos, cmos, z80, i8080, mc6809, List.forall_mem_cons, List.not_mem_nil,
    false_implies, implies_true, and_true]
  all_goals and_intros
  all_goals first | exact byte _ | exact word _ | exact bit _ | exact mode

/-- What the host reads in the 6502 profiles. -/
theorem readRegisters_nmos {s : State} (h : s.variant = .nmos6502) : readRegisters s =
    [(.a, s.a.toNat), (.x, s.x.toNat), (.y, s.y.toNat), (.s, s.sp.toNat), (.p, s.p.toNat), (.pc, s.pc.toNat)] := by
  have e : nmos.registers = driverRegisters := rfl
  rw [readRegisters, profile_nmos h, e]
  simp [driverRegisters, State.register, toNat_zext]

theorem nmos_widths (s : State) : nmos.dataWidth = widthOf s.data ∧ nmos.addressWidth = widthOf s.addr ∧
    nmos.stackPointerWidth = widthOf s.sp ∧ nmos.pageSize = 2 ^ widthOf (lo s.pc) := ⟨rfl, rfl, rfl, rfl⟩

/-- A 16-bit operand is encoded in the record's byte order. -/
theorem nmos_byteOrder (w : Word) : encode (.jmpAbs w) =
    0x4C :: (match nmos.byteOrder with | .littleEndian => [lo w, hi w] | .bigEndian => [hi w, lo w]) := rfl

/-- The pins of the record: the six inputs that the board drives, and the three outputs that the state holds. -/
theorem nmos_pins :
    nmos.pins = [InputPin.power, .reset, .nmi, .int, .rdy, .so].map InputPin.surface ++ [.syncM1, .rd, .wr] := rfl

theorem nmos_pins_contains (pin : InputPin) : nmos.pins.contains pin.surface = true := by cases pin <;> rfl

/-- Every profile has the pins of the three sources and the outputs, so that their edges count in each (R42 to R44, R372). -/
theorem sharedPins_mem (v : Variant) {pin : Pin} (h : pin ∈ sharedPins) : pin ∈ (profileOf v).pins := by
  cases v <;> simp only [profileOf, z80, i8080, mc6809, givenPins, List.mem_append, h, true_or]
  all_goals revert h; cases pin <;> decide

/-- The pin `HALT` in the other profiles (R374, R381). -/
theorem haltPin_others : Pin.halt ∈ z80.pins ∧ Pin.halt ∉ i8080.pins ∧ Pin.halt ∈ mc6809.pins := by
  refine ⟨?_, ?_, ?_⟩ <;> simp [z80, i8080, mc6809, givenPins, sharedPins]

/-- In every profile a falling edge on the pin of a source sets its latch while the engine is powered (R44, R378). -/
theorem drivePin_latches (s : State) {pin : InputPin} (hs : pin.surface ∈ sharedPins) (hp : s.pins.power = .raised)
    (hl : s.pins.level pin = .raised) :
    drivePin pin .lowered s = (.fellEdge, latch { s with pins := s.pins.withLevel .lowered pin } pin) := by
  have hc : s.profile.pins.contains pin.surface = true := List.contains_iff_mem.2 (sharedPins_mem s.variant hs)
  rw [drivePin, hc, hl, transition_input]
  simp [State.powered, hp]

/-- Each flag stands in the layout at the bit that the flag operations use, the first slot being bit 7. -/
theorem nmos_flagLayout (f : Flag) :
    nmos.flagLayout[7 - flagBit f]? = some (match f with
      | .n => .signal "N" .negative | .v => .signal "V" .overflow | .b => .copyOnly "B" false | .d => .named "D"
      | .i => .interruptMask "I" | .z => .signal "Z" .zero | .c => .signal "C" .carry) := by
  cases f <;> rfl

/-- The bits that the model's invariant holds constant are the layout's constants. -/
theorem nmos_reserved (p : Byte) : reservedBitsHold p = true ↔ p &&& reservedMask nmos = reservedConst nmos := by
  rw [reservedMask_nmos, reservedConst_nmos]; revert p; decide

/-- The jam opcodes of the record are those whose table row is a jam. -/
theorem nmos_jamOpcodes (op : Byte) : op ∈ nmos.jamOpcodes ↔ decodeOp op 0 0 ∈
    [.jam02, .jam12, .jam22, .jam32, .jam42, .jam52, .jam62, .jam72, .jam92, .jamB2, .jamD2, .jamF2] := by
  revert op; decide

end Sys2Proof.Machine
end

