-- ==== Sys2Proof/Laws/Ops.lean ====
section
/-! SUPPORT. One lemma per shared operation that says what it does where it answers; and `Path`, what any bus sequence can
do. -/

namespace Sys2Proof.Machine

open Config

/-! ### Sequencing -/

@[simp] theorem bind_eq_ok {α β : Type} (x : Except Fault α) (k : α → Except Fault β) (b : β) :
    (x >>= k) = .ok b ↔ ∃ a, x = .ok a ∧ k a = .ok b := by
  cases x <;> simp [bind, Except.bind]

@[simp] theorem bind_ok {α β : Type} (a : α) (k : α → Except Fault β) : ((Except.ok a : Except Fault α) >>= k) = k a := rfl

@[simp] theorem pure_eq {α : Type} (a : α) : (pure a : Except Fault α) = .ok a := rfl

@[simp] theorem conclude_eq_next (r : Except Fault State) (t : State) : conclude r = .next t ↔ r = .ok t := by
  cases r <;> simp [conclude]

@[simp] theorem conclude_ok (t : State) : conclude (.ok t) = .next t := rfl

@[simp] theorem conclude_error (f : Fault) : conclude (.error f) = .fault f := rfl

/-! ### Regions -/

/-- The region of an address depends on the map alone. -/
theorem regionAt_congr {s t : State} (h : t.regions = s.regions) (a : Word) : t.regionAt a = s.regionAt a := by
  simp [State.regionAt, h]

theorem claims_iff (r : Region) (a : Word) : claims r a = true ↔ r.base ≤ a.toNat ∧ a.toNat < r.base + r.size := by
  have := a.isLt
  simp only [claims, Bool.or_eq_true, Bool.and_eq_true, beq_iff_eq, decide_eq_true_eq]
  omega

/-- On the default map every address lies in the one read-write region. -/
@[simp] theorem regionAt_wholeSpace {s : State} (h : s.regions = wholeSpace) (a : Word) :
    s.regionAt a = some ⟨0, 65536, .readWrite⟩ := by
  simp [State.regionAt, h, wholeSpace, claims]

/-! ### Bus cycles and the operations over them -/

theorem memRead_ok_iff (a : Word) (s t : State) (v : Byte) :
    memRead a s = .ok (v, t) ↔ ∃ r, s.regionAt a = some r ∧ v = busByte r a s ∧ t = readCycle r a s := by
  unfold memRead
  cases h : s.regionAt a with
  | none => simp
  | some r => simp [eq_comm]

theorem memRead_eq {a : Word} {s : State} {r : Region} (h : s.regionAt a = some r) :
    memRead a s = .ok (busByte r a s, readCycle r a s) := by
  simp [memRead, h]

theorem memWrite_ok_iff (a : Word) (v : Byte) (s t : State) :
    memWrite a v s = .ok t ↔ ∃ r, s.regionAt a = some r ∧ t = writeCycle r a v s := by
  unfold memWrite
  cases h : s.regionAt a with
  | none => simp
  | some r => simp [eq_comm]

theorem memWrite_eq {a : Word} {v : Byte} {s : State} {r : Region} (h : s.regionAt a = some r) :
    memWrite a v s = .ok (writeCycle r a v s) := by
  simp [memWrite, h]

theorem dummyRead_ok_iff (a : Word) (s t : State) :
    dummyRead a s = .ok t ↔ ∃ r, s.regionAt a = some r ∧ t = readCycle r a s := by
  unfold dummyRead memRead
  cases h : s.regionAt a with
  | none => simp [bind, Except.bind]
  | some r => simp [bind, Except.bind, eq_comm]

theorem dummyRead_eq {a : Word} {s : State} {r : Region} (h : s.regionAt a = some r) :
    dummyRead a s = .ok (readCycle r a s) := by
  simp [dummyRead, memRead, h]

theorem fetchByte_ok_iff (s t : State) (v : Byte) :
    fetchByte s = .ok (v, t) ↔
      ∃ r, s.regionAt s.pc = some r ∧ v = busByte r s.pc s ∧ t = { readCycle r s.pc s with pc := s.pc + 1 } := by
  unfold fetchByte memRead
  cases h : s.regionAt s.pc with
  | none => simp [bind, Except.bind]
  | some r => simp [bind, Except.bind, eq_comm]

theorem push_ok_iff (v : Byte) (s t : State) :
    push v s = .ok t ↔
      ∃ r, s.regionAt s.stackAddr = some r ∧ t = { writeCycle r s.stackAddr v s with sp := s.sp - 1 } := by
  unfold push memWrite
  cases h : s.regionAt s.stackAddr with
  | none => simp [bind, Except.bind]
  | some r => simp [bind, Except.bind, eq_comm]

theorem dummyPush_ok_iff (s t : State) :
    dummyPush s = .ok t ↔
      ∃ r, s.regionAt s.stackAddr = some r ∧ t = { readCycle r s.stackAddr s with sp := s.sp - 1 } := by
  unfold dummyPush
  simp only [bind_eq_ok, dummyRead_ok_iff, pure_eq, Except.ok.injEq]
  constructor
  · rintro ⟨u, ⟨r, hr, rfl⟩, rfl⟩; exact ⟨r, hr, rfl⟩
  · rintro ⟨r, hr, rfl⟩; exact ⟨_, ⟨r, hr, rfl⟩, rfl⟩

theorem pull_ok_iff (s t : State) (v : Byte) :
    pull s = .ok (v, t) ↔
      ∃ r, s.regionAt (wordOf 0x01 (s.sp + 1)) = some r ∧
        v = busByte r (wordOf 0x01 (s.sp + 1)) s ∧
        t = { readCycle r (wordOf 0x01 (s.sp + 1)) s with sp := s.sp + 1 } := by
  unfold pull
  rw [memRead_ok_iff]
  rfl

/-! ### What any bus sequence can do -/

/-- A change of registers and latches alone: the bus, the platform and the model's counter are untouched, and in profile
NMOS6502 bits 5 and 4 of `P` keep their constants and the registers of the other profiles their values. -/
structure RegsOnly (s t : State) : Prop where
  mem : t.mem = s.mem
  regions : t.regions = s.regions
  variant : t.variant = s.variant
  cycles : t.cycles = s.cycles
  trace : t.trace = s.trace
  addr : t.addr = s.addr
  data : t.data = s.data
  pins : t.pins = s.pins
  freeIndex : t.freeIndex = s.freeIndex
  status : s.variant = .nmos6502 → reservedBitsHold s.p = true → reservedBitsHold t.p = true
  other : s.variant = .nmos6502 → t.other = s.other

/-- `t` is reached from `s` by bus cycles at mapped addresses and changes of registers and latches. -/
inductive Path : State → State → Prop where
  | refl (s : State) : Path s s
  | read {s t : State} {r : Region} {a : Word} : Path s t → t.regionAt a = some r → Path s (readCycle r a t)
  | write {s t : State} {r : Region} {a : Word} {v : Byte} :
      Path s t → t.regionAt a = some r → Path s (writeCycle r a v t)
  | regs {s t u : State} : Path s t → RegsOnly t u → Path s u

theorem Path.trans {s t u : State} (h : Path s t) (k : Path t u) : Path s u := by
  induction k with
  | refl => exact h
  | read _ hr ih => exact .read ih hr
  | write _ hr ih => exact .write ih hr
  | regs _ hr ih => exact .regs ih hr

/-- No bus cycle and no change of registers touches the profile. -/
theorem Path.variant {s t : State} (h : Path s t) : t.variant = s.variant := by
  induction h with
  | refl => rfl
  | read _ _ ih => rw [readCycle_variant, ih]
  | write _ _ ih => rw [writeCycle_variant, ih]
  | regs _ hr ih => rw [hr.variant, ih]

/-- Nor, in profile NMOS6502, do they touch the registers of the other profiles. -/
theorem Path.other {s t : State} (h : Path s t) (hv : s.variant = .nmos6502) : t.other = s.other := by
  induction h with
  | refl => rfl
  | read _ _ ih => exact ih
  | write _ _ ih => exact ih
  | regs h hr ih => rw [hr.other (h.variant.trans hv), ih]

theorem memRead_path {a : Word} {s t : State} {v : Byte} (h : memRead a s = .ok (v, t)) : Path s t := by
  obtain ⟨r, hr, -, rfl⟩ := (memRead_ok_iff a s t v).1 h
  exact .read (.refl s) hr

theorem memWrite_path {a : Word} {s t : State} {v : Byte} (h : memWrite a v s = .ok t) : Path s t := by
  obtain ⟨r, hr, rfl⟩ := (memWrite_ok_iff a v s t).1 h
  exact .write (.refl s) hr

theorem dummyRead_path {a : Word} {s t : State} (h : dummyRead a s = .ok t) : Path s t := by
  obtain ⟨r, hr, rfl⟩ := (dummyRead_ok_iff a s t).1 h
  exact .read (.refl s) hr

theorem RegsOnly.of_pc (s : State) (w : Word) : RegsOnly s { s with pc := w } :=
  ⟨rfl, rfl, rfl, rfl, rfl, rfl, rfl, rfl, rfl, fun _ h => h, fun _ => rfl⟩

theorem RegsOnly.of_sp (s : State) (v : Byte) : RegsOnly s { s with sp := v } :=
  ⟨rfl, rfl, rfl, rfl, rfl, rfl, rfl, rfl, rfl, fun _ h => h, fun _ => rfl⟩

theorem RegsOnly.rfl' (s : State) : RegsOnly s s := ⟨rfl, rfl, rfl, rfl, rfl, rfl, rfl, rfl, rfl, fun _ h => h, fun _ => rfl⟩

theorem push_path {v : Byte} {s t : State} (h : push v s = .ok t) : Path s t := by
  obtain ⟨r, hr, rfl⟩ := (push_ok_iff v s t).1 h
  exact .regs (.write (.refl s) hr) (.of_sp _ _)

theorem dummyPush_path {s t : State} (h : dummyPush s = .ok t) : Path s t := by
  obtain ⟨r, hr, rfl⟩ := (dummyPush_ok_iff s t).1 h
  exact .regs (.read (.refl s) hr) (.of_sp _ _)

theorem pull_path {s t : State} {v : Byte} (h : pull s = .ok (v, t)) : Path s t := by
  obtain ⟨r, hr, -, rfl⟩ := (pull_ok_iff s t v).1 h
  exact .regs (.read (.refl s) hr) (.of_sp _ _)

theorem fetchByte_path {s t : State} {v : Byte} (h : fetchByte s = .ok (v, t)) : Path s t := by
  obtain ⟨r, hr, -, rfl⟩ := (fetchByte_ok_iff s t v).1 h
  exact .regs (.read (.refl s) hr) (.of_pc _ _)

theorem entryPush_path {e : Entry} {v : Byte} {s t : State} (h : entryPush e v s = .ok t) : Path s t := by
  cases e with
  | reset => exact dummyPush_path h
  | nmi => exact push_path h
  | irq => exact push_path h
  | brk => exact push_path h

theorem entryPushes_path {prof : Profile} {e : Entry} {l : List Pushed} {s t : State} (h : entryPushes prof e l s = .ok t) : Path s t := by
  induction l generalizing s with
  | nil => cases h; exact .refl _
  | cons x l ih =>
    simp only [entryPushes, bind_eq_ok] at h
    obtain ⟨u, hu, h⟩ := h
    exact (entryPush_path hu).trans (ih h)

theorem enter_path {e : Entry} {s t : State} (h : enter e s = .ok t) : Path s t := by
  simp only [enter, bind_eq_ok, pure_eq, Except.ok.injEq, Prod.exists] at h
  obtain ⟨s1, h1, s4, h4, l, s5, h5, hh, s6, h6, rfl⟩ := h
  have k1 : Path s1 (if e = .brk then { s1 with pc := s1.pc + 1 } else s1) := by
    split
    · exact .regs (.refl _) (.of_pc _ _)
    · exact .refl _
  have hv : s5.variant = s.variant := (((dummyRead_path h1).trans k1).trans (entryPushes_path h4)).trans (memRead_path h5) |>.variant
  have k5 : Path s5 { s5 with p := entryStatus s.profile s5.p, other := entryFlipFlops s.profile s5.other } :=
    .regs (.refl _) ⟨rfl, rfl, rfl, rfl, rfl, rfl, rfl, rfl, rfl, fun h => by simp [profile_nmos (hv.symm.trans h)],
      fun h => by simp [profile_nmos (hv.symm.trans h)]⟩
  exact .regs ((((((dummyRead_path h1).trans k1).trans (entryPushes_path h4)).trans (memRead_path h5)).trans k5).trans
    (memRead_path h6)) (.of_pc _ _)

/-- A status loaded under the state's own profile. -/
theorem RegsOnly.of_status (s : State) (v : Byte) : RegsOnly s { s with p := statusFrom s.profile v } :=
  ⟨rfl, rfl, rfl, rfl, rfl, rfl, rfl, rfl, rfl, fun hv _ => by simp [profile_nmos hv], fun _ => rfl⟩

theorem returnFromEvent_path {s t : State} (h : returnFromEvent s = .ok t) : Path s t := by
  simp only [returnFromEvent, bind_eq_ok, pure_eq, Except.ok.injEq, Prod.exists] at h
  obtain ⟨s1, h1, s2, h2, p, s3, h3, l, s4, h4, hh, s5, h5, rfl⟩ := h
  exact .regs ((((((dummyRead_path h1).trans (dummyRead_path h2)).trans (pull_path h3)).trans
    (.regs (.refl _) (.of_status _ _))).trans (pull_path h4)).trans (pull_path h5)) (.of_pc _ _)

/-! ### The resolver -/

theorem fixupRead_path {f : Fixup} {base : Word} {i : Byte} {s t : State} (h : fixupRead f base i s = .ok t) :
    Path s t := by
  unfold fixupRead at h
  split at h
  · exact dummyRead_path h
  · cases h; exact .refl s

theorem indexed_path {f : Fixup} {base ea : Word} {i : Byte} {s t : State} (h : indexed f base i s = .ok (ea, t)) :
    Path s t := by
  simp only [indexed, bind_eq_ok, pure_eq, Except.ok.injEq, Prod.mk.injEq] at h
  obtain ⟨u, hu, -, rfl⟩ := h
  exact fixupRead_path hu

theorem spareReads_path {n : Nat} {s t : State} (h : spareReads n s = .ok t) : Path s t := by
  induction n generalizing s with
  | zero => cases h; exact .refl _
  | succ n ih =>
    simp only [spareReads, bind_eq_ok] at h
    obtain ⟨u, hu, h⟩ := h
    exact (dummyRead_path hu).trans (ih h)

theorem zeroPagePointer_path {p : Byte} {ea : Word} {s t : State} (h : zeroPagePointer p s = .ok (ea, t)) :
    Path s t := by
  simp only [zeroPagePointer, bind_eq_ok, pure_eq, Except.ok.injEq, Prod.exists, Prod.mk.injEq] at h
  obtain ⟨l, s1, h1, hh, s2, h2, -, rfl⟩ := h
  exact (memRead_path h1).trans (memRead_path h2)

theorem effectiveAddress_path {o : Mem} {ea : Word} {s t : State} (h : effectiveAddress o s = .ok (ea, t)) :
    Path s t := by
  cases o <;> simp only [effectiveAddress, bind_eq_ok, pure_eq, Except.ok.injEq, Prod.exists, Prod.mk.injEq] at h
  case zp => obtain ⟨-, rfl⟩ := h; exact .refl s
  case abs => obtain ⟨-, rfl⟩ := h; exact .refl s
  case zpx => obtain ⟨u, hu, -, rfl⟩ := h; exact dummyRead_path hu
  case zpy => obtain ⟨u, hu, -, rfl⟩ := h; exact dummyRead_path hu
  case abx => exact indexed_path h
  case aby => exact indexed_path h
  case izx => obtain ⟨u, hu, hz⟩ := h; exact (dummyRead_path hu).trans (zeroPagePointer_path hz)
  case izy => obtain ⟨b, u, hz, hi⟩ := h; exact (zeroPagePointer_path hz).trans (indexed_path hi)

theorem readOperand_path {o : Mem} {m : Byte} {s t : State} (h : readOperand o s = .ok (m, t)) : Path s t := by
  simp only [readOperand, bind_eq_ok, Prod.exists] at h
  obtain ⟨ea, u, hu, hm⟩ := h
  exact (effectiveAddress_path hu).trans (memRead_path hm)

theorem writeOperand_path {o : Mem} {v : Byte} {s t : State} (h : writeOperand o v s = .ok t) : Path s t := by
  simp only [writeOperand, bind_eq_ok, Prod.exists] at h
  obtain ⟨ea, u, hu, hm⟩ := h
  exact (effectiveAddress_path hu).trans (memWrite_path hm)

theorem secondAccess_path {ord : ModifyWriteOrder} {ea : Word} {m : Byte} {s t : State}
    (h : secondAccess ord ea m s = .ok t) : Path s t := by
  cases ord with
  | writeOldValue => exact memWrite_path h
  | readAgain => exact dummyRead_path h

theorem modifyOperand_path {o : Mem} {f : Byte → State → Byte × State} {s t : State}
    (hf : ∀ m u, RegsOnly u (f m u).2) (h : modifyOperand o f s = .ok t) : Path s t := by
  simp only [modifyOperand, bind_eq_ok, Prod.exists] at h
  obtain ⟨ea, s1, h1, m, s2, h2, s3, h3, h4⟩ := h
  exact ((((effectiveAddress_path h1).trans (memRead_path h2)).trans (secondAccess_path h3)).trans
    (.regs (.refl _) (hf m s3))).trans (memWrite_path h4)

theorem reading_path {f : Byte → State → State} {o : Mem} {s t : State} (hf : ∀ m u, RegsOnly u (f m u))
    (h : reading f o s = .next t) : Path s t := by
  simp only [reading, conclude_eq_next, bind_eq_ok, pure_eq, Except.ok.injEq, Prod.exists] at h
  obtain ⟨m, u, hu, rfl⟩ := h
  exact .regs (readOperand_path hu) (hf m u)

theorem calculating_path {f : Byte → State → State} {o : Mem} {s t : State} (hf : ∀ m u, RegsOnly u (f m u))
    (h : calculating f o s = .next t) : Path s t := by
  simp only [calculating, conclude_eq_next, bind_eq_ok, pure_eq, Except.ok.injEq, Prod.exists] at h
  obtain ⟨m, u, hu, v, hv, rfl⟩ := h
  exact .regs ((readOperand_path hu).trans (spareReads_path hv)) (hf m v)

theorem calculatingImm_path {f : Byte → State → State} {m : Byte} {s t : State} (hf : ∀ m u, RegsOnly u (f m u))
    (h : calculatingImm f m s = .next t) : Path s t := by
  simp only [calculatingImm, conclude_eq_next, bind_eq_ok, pure_eq, Except.ok.injEq] at h
  obtain ⟨v, hv, rfl⟩ := h
  exact .regs (spareReads_path hv) (hf m v)

theorem storing_path {v : Byte} {o : Mem} {s t : State} (h : storing v o s = .next t) : Path s t := by
  rw [storing, conclude_eq_next] at h
  exact writeOperand_path h

theorem modifying_path {f : Byte → State → Byte × State} {o : Mem} {s t : State}
    (hf : ∀ m u, RegsOnly u (f m u).2) (h : modifying f o s = .next t) : Path s t := by
  rw [modifying, conclude_eq_next] at h
  exact modifyOperand_path hf h

theorem implied_path {f : State → State} {s t : State} (hf : ∀ u, RegsOnly u (f u))
    (h : implied f s = .next t) : Path s t := by
  simp only [implied, conclude_eq_next, bind_eq_ok, pure_eq, Except.ok.injEq] at h
  obtain ⟨u, hu, rfl⟩ := h
  exact .regs (dummyRead_path hu) (hf u)

/-! ### The fetch -/

theorem syncRead_ok_iff (s t : State) (v : Byte) :
    syncRead s = .ok (v, t) ↔
      ∃ r, s.regionAt s.pc = some r ∧ v = busByte r s.pc s ∧
        t = (readCycle r s.pc (s.setSync .raised)).setSync .lowered := by
  unfold syncRead
  simp only [bind_eq_ok, pure_eq, Except.ok.injEq, Prod.exists, Prod.mk.injEq, memRead_ok_iff]
  rw [regionAt_congr (s := s) (t := s.setSync .raised) rfl]
  constructor
  · rintro ⟨w, u, ⟨r, hr, rfl, rfl⟩, rfl, rfl⟩; exact ⟨r, hr, rfl, rfl⟩
  · rintro ⟨r, hr, rfl, rfl⟩; exact ⟨_, _, ⟨r, hr, rfl, rfl⟩, rfl, rfl⟩

end Sys2Proof.Machine
end

