-- ==== Sys2Proof/Laws/Shape.lean ====
section
/-! SUPPORT. The shapes an instruction's meaning has, and which instruction has which (`exec_shape`): a statement about every
instruction is proved once per shape and once per register change, not once per constructor. -/

namespace Sys2Proof.Machine

open Config

/-- What a read-kind instruction does with its operand byte. -/
inductive ReadOp where
  | loadA
  | loadX
  | loadY
  | andToA
  | orToA
  | xorToA
  | compareA
  | compareX
  | compareY
  | testBits
  | loadAX
  | loadAXS
  | discard

/-- The change it makes. -/
def ReadOp.run : ReadOp → Byte → State → State
  | .loadA => Sys2Proof.Machine.loadA
  | .loadX => Sys2Proof.Machine.loadX
  | .loadY => Sys2Proof.Machine.loadY
  | .andToA => Sys2Proof.Machine.andToA
  | .orToA => Sys2Proof.Machine.orToA
  | .xorToA => Sys2Proof.Machine.xorToA
  | .compareA => Sys2Proof.Machine.compareA
  | .compareX => Sys2Proof.Machine.compareX
  | .compareY => Sys2Proof.Machine.compareY
  | .testBits => Sys2Proof.Machine.testBits
  | .loadAX => Sys2Proof.Machine.loadAX
  | .loadAXS => Sys2Proof.Machine.loadAXS
  | .discard => Sys2Proof.Machine.discard

/-- ADC and SBC. -/
inductive CalcOp where
  | addToA
  | subFromA

/-- The change it makes. -/
def CalcOp.run : CalcOp → Byte → State → State
  | .addToA => Sys2Proof.Machine.addToA
  | .subFromA => Sys2Proof.Machine.subFromA

/-- What an immediate instruction does with its operand byte. -/
inductive ImmOp where
  | loadA
  | loadX
  | loadY
  | andToA
  | orToA
  | xorToA
  | compareA
  | compareX
  | compareY
  | andCopyN
  | andThenLsr
  | andThenRor
  | subFromAX
  | aneA
  | lxaAX
  | discard

/-- The change it makes. -/
def ImmOp.run : ImmOp → Byte → State → State
  | .loadA => Sys2Proof.Machine.loadA
  | .loadX => Sys2Proof.Machine.loadX
  | .loadY => Sys2Proof.Machine.loadY
  | .andToA => Sys2Proof.Machine.andToA
  | .orToA => Sys2Proof.Machine.orToA
  | .xorToA => Sys2Proof.Machine.xorToA
  | .compareA => Sys2Proof.Machine.compareA
  | .compareX => Sys2Proof.Machine.compareX
  | .compareY => Sys2Proof.Machine.compareY
  | .andCopyN => Sys2Proof.Machine.andCopyN
  | .andThenLsr => Sys2Proof.Machine.andThenLsr
  | .andThenRor => Sys2Proof.Machine.andThenRor
  | .subFromAX => Sys2Proof.Machine.subFromAX
  | .aneA => Sys2Proof.Machine.aneA
  | .lxaAX => Sys2Proof.Machine.lxaAX
  | .discard => Sys2Proof.Machine.discard

/-- The middle of a read-modify-write. -/
inductive ModifyOp where
  | asl
  | lsr
  | rol
  | ror
  | inc
  | dec
  | slo
  | rla
  | sre
  | rra
  | dcp
  | isc

/-- The change it makes. -/
def ModifyOp.run : ModifyOp → Byte → State → Byte × State
  | .asl => onMemory Sys2Proof.Machine.asl
  | .lsr => onMemory Sys2Proof.Machine.lsr
  | .rol => onMemory Sys2Proof.Machine.rol
  | .ror => onMemory Sys2Proof.Machine.ror
  | .inc => onMemory Sys2Proof.Machine.inc
  | .dec => onMemory Sys2Proof.Machine.dec
  | .slo => shiftThen Sys2Proof.Machine.asl orWith
  | .rla => shiftThen Sys2Proof.Machine.rol andWith
  | .sre => shiftThen Sys2Proof.Machine.lsr xorWith
  | .rra => rotateThenAdd
  | .dcp => decThenCompare
  | .isc => incThenSub

/-- What an implied or accumulator instruction does. -/
inductive ImpliedOp where
  | aslAcc
  | clc
  | nop
  | rolAcc
  | sec
  | lsrAcc
  | cli
  | rorAcc
  | sei
  | dey
  | txa
  | tya
  | txs
  | tay
  | tax
  | clv
  | tsx
  | iny
  | dex
  | cld
  | inx
  | sed

/-- The change it makes. -/
def ImpliedOp.run : ImpliedOp → State → State
  | .aslAcc => onA asl
  | .clc => fun s => { s with p := withFlag .c false s.p }
  | .nop => fun s => s
  | .rolAcc => onA rol
  | .sec => fun s => { s with p := withFlag .c true s.p }
  | .lsrAcc => onA lsr
  | .cli => fun s => { s with p := withFlag .i false s.p }
  | .rorAcc => onA ror
  | .sei => fun s => { s with p := withFlag .i true s.p }
  | .dey => fun s => { s with y := (dec s.y s.p).value, p := (dec s.y s.p).p }
  | .txa => fun s => loadA s.x s
  | .tya => fun s => loadA s.y s
  | .txs => fun s => { s with sp := s.x }
  | .tay => fun s => loadY s.a s
  | .tax => fun s => loadX s.a s
  | .clv => fun s => { s with p := withFlag .v false s.p }
  | .tsx => fun s => loadX s.sp s
  | .iny => fun s => { s with y := (inc s.y s.p).value, p := (inc s.y s.p).p }
  | .dex => fun s => { s with x := (dec s.x s.p).value, p := (dec s.x s.p).p }
  | .cld => fun s => { s with p := withFlag .d false s.p }
  | .inx => fun s => { s with x := (inc s.x s.p).value, p := (inc s.x s.p).p }
  | .sed => fun s => { s with p := withFlag .d true s.p }

/-- The byte a write-kind instruction stores. -/
inductive StoreOp where
  | a
  | x
  | y
  | ax

/-- The byte it stores. -/
def StoreOp.run : StoreOp → State → Byte
  | .a, s => s.a
  | .x, s => s.x
  | .y, s => s.y
  | .ax, s => s.a &&& s.x

/-- The push instructions. -/
inductive PushOp where
  | pha
  | php

/-- The byte it pushes. -/
def PushOp.run : PushOp → State → Byte
  | .pha, s => s.a
  | .php, s => statusWithBreak s.p

/-- The pull instructions. -/
inductive PullOp where
  | pla
  | plp

/-- What it does with the byte pulled. -/
def PullOp.run : PullOp → Byte → State → State
  | .pla => Sys2Proof.Machine.loadA
  | .plp => fun v s => { s with p := statusFrom s.profile v }

/-- The unstable stores whose base is an absolute operand and that write no register. -/
inductive UnstableOp where
  | sha
  | shx
  | shy

/-- The register value it stores, and the index. -/
def UnstableOp.run : UnstableOp → State → Byte × Byte
  | .sha, s => (s.a &&& s.x, s.y)
  | .shx, s => (s.x, s.y)
  | .shy, s => (s.y, s.x)

/-- The shape of a meaning: a shared operation with its arguments. -/
inductive Shape where
  | reading (f : ReadOp) (o : Mem)
  | calculating (f : CalcOp) (o : Mem)
  | calculatingImm (f : CalcOp) (m : Byte)
  | storing (v : StoreOp) (o : Mem)
  | modifying (f : ModifyOp) (o : Mem)
  | implied (f : ImpliedOp)
  | immediate (f : ImmOp) (m : Byte)
  | branch (f : Flag) (v : Bool) (d : Byte)
  | pushing (v : PushOp)
  | pulling (f : PullOp)
  | unstable (r : UnstableOp) (f : Fixup) (w : Word)
  | shaIzy (b : Byte)
  | tas (w : Word)
  | jmpAbs (w : Word)
  | jmpInd (w : Word)
  | jsr (w : Word)
  | rts
  | rti
  | brk
  | jam

/-- What a shape does. -/
def Shape.run : Shape → State → Out
  | .reading f o, s => Sys2Proof.Machine.reading f.run o s
  | .calculating f o, s => Sys2Proof.Machine.calculating f.run o s
  | .calculatingImm f m, s => Sys2Proof.Machine.calculatingImm f.run m s
  | .storing v o, s => Sys2Proof.Machine.storing (v.run s) o s
  | .modifying f o, s => Sys2Proof.Machine.modifying f.run o s
  | .implied f, s => Sys2Proof.Machine.implied f.run s
  | .immediate f m, s => .next (f.run m s)
  | .branch f v d, s => Sys2Proof.Machine.branch (if v then flag f s.p else !flag f s.p) d s
  | .pushing v, s => Sys2Proof.Machine.pushing (v.run s) s
  | .pulling f, s => Sys2Proof.Machine.pulling f.run s
  | .unstable r f w, s => conclude (unstableStore f (r.run s).1 w (r.run s).2 s)
  | .shaIzy b, s => execShaIzy b s
  | .tas w, s => execTasAby w s
  | .jmpAbs w, s => .next { s with pc := w }
  | .jmpInd w, s => execJmpInd w s
  | .jsr w, s => execJsrAbs w s
  | .rts, s => execRts s
  | .rti, s => conclude (returnFromEvent s)
  | .brk, s => conclude (enter .brk s)
  | .jam, s => Sys2Proof.Machine.jam s

/-- The shape of each instruction, under a fixup policy. -/
def shapeOf (fx : Byte → Fixup) : Instr → Shape
  | .brk => .brk
  | .oraIzx b => .reading .orToA (.izx b)
  | .jam02 => .jam
  | .sloIzx b => .modifying .slo (.izx b)
  | .nopZp04 b => .reading .discard (.zp b)
  | .oraZp b => .reading .orToA (.zp b)
  | .aslZp b => .modifying .asl (.zp b)
  | .sloZp b => .modifying .slo (.zp b)
  | .php => .pushing .php
  | .oraImm m => .immediate .orToA m
  | .aslAcc => .implied .aslAcc
  | .ancImm0B m => .immediate .andCopyN m
  | .nopAbs w => .reading .discard (.abs w)
  | .oraAbs w => .reading .orToA (.abs w)
  | .aslAbs w => .modifying .asl (.abs w)
  | .sloAbs w => .modifying .slo (.abs w)
  | .bpl d => .branch .n false d
  | .oraIzy b => .reading .orToA (.izy (fx 0x11) b)
  | .jam12 => .jam
  | .sloIzy b => .modifying .slo (.izy (fx 0x13) b)
  | .nopZpx14 b => .reading .discard (.zpx b)
  | .oraZpx b => .reading .orToA (.zpx b)
  | .aslZpx b => .modifying .asl (.zpx b)
  | .sloZpx b => .modifying .slo (.zpx b)
  | .clc => .implied .clc
  | .oraAby w => .reading .orToA (.aby (fx 0x19) w)
  | .nop1A => .implied .nop
  | .sloAby w => .modifying .slo (.aby (fx 0x1B) w)
  | .nopAbx1C w => .reading .discard (.abx (fx 0x1C) w)
  | .oraAbx w => .reading .orToA (.abx (fx 0x1D) w)
  | .aslAbx w => .modifying .asl (.abx (fx 0x1E) w)
  | .sloAbx w => .modifying .slo (.abx (fx 0x1F) w)
  | .jsrAbs w => .jsr w
  | .andIzx b => .reading .andToA (.izx b)
  | .jam22 => .jam
  | .rlaIzx b => .modifying .rla (.izx b)
  | .bitZp b => .reading .testBits (.zp b)
  | .andZp b => .reading .andToA (.zp b)
  | .rolZp b => .modifying .rol (.zp b)
  | .rlaZp b => .modifying .rla (.zp b)
  | .plp => .pulling .plp
  | .andImm m => .immediate .andToA m
  | .rolAcc => .implied .rolAcc
  | .ancImm2B m => .immediate .andCopyN m
  | .bitAbs w => .reading .testBits (.abs w)
  | .andAbs w => .reading .andToA (.abs w)
  | .rolAbs w => .modifying .rol (.abs w)
  | .rlaAbs w => .modifying .rla (.abs w)
  | .bmi d => .branch .n true d
  | .andIzy b => .reading .andToA (.izy (fx 0x31) b)
  | .jam32 => .jam
  | .rlaIzy b => .modifying .rla (.izy (fx 0x33) b)
  | .nopZpx34 b => .reading .discard (.zpx b)
  | .andZpx b => .reading .andToA (.zpx b)
  | .rolZpx b => .modifying .rol (.zpx b)
  | .rlaZpx b => .modifying .rla (.zpx b)
  | .sec => .implied .sec
  | .andAby w => .reading .andToA (.aby (fx 0x39) w)
  | .nop3A => .implied .nop
  | .rlaAby w => .modifying .rla (.aby (fx 0x3B) w)
  | .nopAbx3C w => .reading .discard (.abx (fx 0x3C) w)
  | .andAbx w => .reading .andToA (.abx (fx 0x3D) w)
  | .rolAbx w => .modifying .rol (.abx (fx 0x3E) w)
  | .rlaAbx w => .modifying .rla (.abx (fx 0x3F) w)
  | .rti => .rti
  | .eorIzx b => .reading .xorToA (.izx b)
  | .jam42 => .jam
  | .sreIzx b => .modifying .sre (.izx b)
  | .nopZp44 b => .reading .discard (.zp b)
  | .eorZp b => .reading .xorToA (.zp b)
  | .lsrZp b => .modifying .lsr (.zp b)
  | .sreZp b => .modifying .sre (.zp b)
  | .pha => .pushing .pha
  | .eorImm m => .immediate .xorToA m
  | .lsrAcc => .implied .lsrAcc
  | .alrImm m => .immediate .andThenLsr m
  | .jmpAbs w => .jmpAbs w
  | .eorAbs w => .reading .xorToA (.abs w)
  | .lsrAbs w => .modifying .lsr (.abs w)
  | .sreAbs w => .modifying .sre (.abs w)
  | .bvc d => .branch .v false d
  | .eorIzy b => .reading .xorToA (.izy (fx 0x51) b)
  | .jam52 => .jam
  | .sreIzy b => .modifying .sre (.izy (fx 0x53) b)
  | .nopZpx54 b => .reading .discard (.zpx b)
  | .eorZpx b => .reading .xorToA (.zpx b)
  | .lsrZpx b => .modifying .lsr (.zpx b)
  | .sreZpx b => .modifying .sre (.zpx b)
  | .cli => .implied .cli
  | .eorAby w => .reading .xorToA (.aby (fx 0x59) w)
  | .nop5A => .implied .nop
  | .sreAby w => .modifying .sre (.aby (fx 0x5B) w)
  | .nopAbx5C w => .reading .discard (.abx (fx 0x5C) w)
  | .eorAbx w => .reading .xorToA (.abx (fx 0x5D) w)
  | .lsrAbx w => .modifying .lsr (.abx (fx 0x5E) w)
  | .sreAbx w => .modifying .sre (.abx (fx 0x5F) w)
  | .rts => .rts
  | .adcIzx b => .calculating .addToA (.izx b)
  | .jam62 => .jam
  | .rraIzx b => .modifying .rra (.izx b)
  | .nopZp64 b => .reading .discard (.zp b)
  | .adcZp b => .calculating .addToA (.zp b)
  | .rorZp b => .modifying .ror (.zp b)
  | .rraZp b => .modifying .rra (.zp b)
  | .pla => .pulling .pla
  | .adcImm m => .calculatingImm .addToA m
  | .rorAcc => .implied .rorAcc
  | .arrImm m => .immediate .andThenRor m
  | .jmpInd w => .jmpInd w
  | .adcAbs w => .calculating .addToA (.abs w)
  | .rorAbs w => .modifying .ror (.abs w)
  | .rraAbs w => .modifying .rra (.abs w)
  | .bvs d => .branch .v true d
  | .adcIzy b => .calculating .addToA (.izy (fx 0x71) b)
  | .jam72 => .jam
  | .rraIzy b => .modifying .rra (.izy (fx 0x73) b)
  | .nopZpx74 b => .reading .discard (.zpx b)
  | .adcZpx b => .calculating .addToA (.zpx b)
  | .rorZpx b => .modifying .ror (.zpx b)
  | .rraZpx b => .modifying .rra (.zpx b)
  | .sei => .implied .sei
  | .adcAby w => .calculating .addToA (.aby (fx 0x79) w)
  | .nop7A => .implied .nop
  | .rraAby w => .modifying .rra (.aby (fx 0x7B) w)
  | .nopAbx7C w => .reading .discard (.abx (fx 0x7C) w)
  | .adcAbx w => .calculating .addToA (.abx (fx 0x7D) w)
  | .rorAbx w => .modifying .ror (.abx (fx 0x7E) w)
  | .rraAbx w => .modifying .rra (.abx (fx 0x7F) w)
  | .nopImm80 m => .immediate .discard m
  | .staIzx b => .storing .a (.izx b)
  | .nopImm82 m => .immediate .discard m
  | .saxIzx b => .storing .ax (.izx b)
  | .styZp b => .storing .y (.zp b)
  | .staZp b => .storing .a (.zp b)
  | .stxZp b => .storing .x (.zp b)
  | .saxZp b => .storing .ax (.zp b)
  | .dey => .implied .dey
  | .nopImm89 m => .immediate .discard m
  | .txa => .implied .txa
  | .aneImm m => .immediate .aneA m
  | .styAbs w => .storing .y (.abs w)
  | .staAbs w => .storing .a (.abs w)
  | .stxAbs w => .storing .x (.abs w)
  | .saxAbs w => .storing .ax (.abs w)
  | .bcc d => .branch .c false d
  | .staIzy b => .storing .a (.izy (fx 0x91) b)
  | .jam92 => .jam
  | .shaIzy b => .shaIzy b
  | .styZpx b => .storing .y (.zpx b)
  | .staZpx b => .storing .a (.zpx b)
  | .stxZpy b => .storing .x (.zpy b)
  | .saxZpy b => .storing .ax (.zpy b)
  | .tya => .implied .tya
  | .staAby w => .storing .a (.aby (fx 0x99) w)
  | .txs => .implied .txs
  | .tasAby w => .tas w
  | .shyAbx w => .unstable .shy (fx 0x9C) w
  | .staAbx w => .storing .a (.abx (fx 0x9D) w)
  | .shxAby w => .unstable .shx (fx 0x9E) w
  | .shaAby w => .unstable .sha (fx 0x9F) w
  | .ldyImm m => .immediate .loadY m
  | .ldaIzx b => .reading .loadA (.izx b)
  | .ldxImm m => .immediate .loadX m
  | .laxIzx b => .reading .loadAX (.izx b)
  | .ldyZp b => .reading .loadY (.zp b)
  | .ldaZp b => .reading .loadA (.zp b)
  | .ldxZp b => .reading .loadX (.zp b)
  | .laxZp b => .reading .loadAX (.zp b)
  | .tay => .implied .tay
  | .ldaImm m => .immediate .loadA m
  | .tax => .implied .tax
  | .lxaImm m => .immediate .lxaAX m
  | .ldyAbs w => .reading .loadY (.abs w)
  | .ldaAbs w => .reading .loadA (.abs w)
  | .ldxAbs w => .reading .loadX (.abs w)
  | .laxAbs w => .reading .loadAX (.abs w)
  | .bcs d => .branch .c true d
  | .ldaIzy b => .reading .loadA (.izy (fx 0xB1) b)
  | .jamB2 => .jam
  | .laxIzy b => .reading .loadAX (.izy (fx 0xB3) b)
  | .ldyZpx b => .reading .loadY (.zpx b)
  | .ldaZpx b => .reading .loadA (.zpx b)
  | .ldxZpy b => .reading .loadX (.zpy b)
  | .laxZpy b => .reading .loadAX (.zpy b)
  | .clv => .implied .clv
  | .ldaAby w => .reading .loadA (.aby (fx 0xB9) w)
  | .tsx => .implied .tsx
  | .lasAby w => .reading .loadAXS (.aby (fx 0xBB) w)
  | .ldyAbx w => .reading .loadY (.abx (fx 0xBC) w)
  | .ldaAbx w => .reading .loadA (.abx (fx 0xBD) w)
  | .ldxAby w => .reading .loadX (.aby (fx 0xBE) w)
  | .laxAby w => .reading .loadAX (.aby (fx 0xBF) w)
  | .cpyImm m => .immediate .compareY m
  | .cmpIzx b => .reading .compareA (.izx b)
  | .nopImmC2 m => .immediate .discard m
  | .dcpIzx b => .modifying .dcp (.izx b)
  | .cpyZp b => .reading .compareY (.zp b)
  | .cmpZp b => .reading .compareA (.zp b)
  | .decZp b => .modifying .dec (.zp b)
  | .dcpZp b => .modifying .dcp (.zp b)
  | .iny => .implied .iny
  | .cmpImm m => .immediate .compareA m
  | .dex => .implied .dex
  | .sbxImm m => .immediate .subFromAX m
  | .cpyAbs w => .reading .compareY (.abs w)
  | .cmpAbs w => .reading .compareA (.abs w)
  | .decAbs w => .modifying .dec (.abs w)
  | .dcpAbs w => .modifying .dcp (.abs w)
  | .bne d => .branch .z false d
  | .cmpIzy b => .reading .compareA (.izy (fx 0xD1) b)
  | .jamD2 => .jam
  | .dcpIzy b => .modifying .dcp (.izy (fx 0xD3) b)
  | .nopZpxD4 b => .reading .discard (.zpx b)
  | .cmpZpx b => .reading .compareA (.zpx b)
  | .decZpx b => .modifying .dec (.zpx b)
  | .dcpZpx b => .modifying .dcp (.zpx b)
  | .cld => .implied .cld
  | .cmpAby w => .reading .compareA (.aby (fx 0xD9) w)
  | .nopDA => .implied .nop
  | .dcpAby w => .modifying .dcp (.aby (fx 0xDB) w)
  | .nopAbxDC w => .reading .discard (.abx (fx 0xDC) w)
  | .cmpAbx w => .reading .compareA (.abx (fx 0xDD) w)
  | .decAbx w => .modifying .dec (.abx (fx 0xDE) w)
  | .dcpAbx w => .modifying .dcp (.abx (fx 0xDF) w)
  | .cpxImm m => .immediate .compareX m
  | .sbcIzx b => .calculating .subFromA (.izx b)
  | .nopImmE2 m => .immediate .discard m
  | .iscIzx b => .modifying .isc (.izx b)
  | .cpxZp b => .reading .compareX (.zp b)
  | .sbcZp b => .calculating .subFromA (.zp b)
  | .incZp b => .modifying .inc (.zp b)
  | .iscZp b => .modifying .isc (.zp b)
  | .inx => .implied .inx
  | .sbcImm m => .calculatingImm .subFromA m
  | .nop => .implied .nop
  | .sbcImmEB m => .calculatingImm .subFromA m
  | .cpxAbs w => .reading .compareX (.abs w)
  | .sbcAbs w => .calculating .subFromA (.abs w)
  | .incAbs w => .modifying .inc (.abs w)
  | .iscAbs w => .modifying .isc (.abs w)
  | .beq d => .branch .z true d
  | .sbcIzy b => .calculating .subFromA (.izy (fx 0xF1) b)
  | .jamF2 => .jam
  | .iscIzy b => .modifying .isc (.izy (fx 0xF3) b)
  | .nopZpxF4 b => .reading .discard (.zpx b)
  | .sbcZpx b => .calculating .subFromA (.zpx b)
  | .incZpx b => .modifying .inc (.zpx b)
  | .iscZpx b => .modifying .isc (.zpx b)
  | .sed => .implied .sed
  | .sbcAby w => .calculating .subFromA (.aby (fx 0xF9) w)
  | .nopFA => .implied .nop
  | .iscAby w => .modifying .isc (.aby (fx 0xFB) w)
  | .nopAbxFC w => .reading .discard (.abx (fx 0xFC) w)
  | .sbcAbx w => .calculating .subFromA (.abx (fx 0xFD) w)
  | .incAbx w => .modifying .inc (.abx (fx 0xFE) w)
  | .iscAbx w => .modifying .isc (.abx (fx 0xFF) w)

/-- Every instruction does what its shape does. -/
theorem exec_shape (i : Instr) (s : State) : exec i s = (shapeOf s.fixup i).run s := by
  cases i <;> rfl

/-- In profile NMOS6502 the policy is that of R152. -/
theorem exec_shape_nmos (i : Instr) {s : State} (h : s.variant = .nmos6502) : exec i s = (shapeOf nmosFixup i).run s := by
  rw [exec_shape, fixup_nmos h]

/-! ### No register change touches more than registers -/

/-- A change of registers, of `P` to a value with the same reserved bits in profile NMOS6502, and of nothing else. -/
theorem RegsOnly.of_all {s t : State} (h : t = { s with a := t.a, x := t.x, y := t.y, sp := t.sp, p := t.p, pc := t.pc })
    (hp : s.profile = nmos → reservedBitsHold s.p = true → reservedBitsHold t.p = true) : RegsOnly s t := by
  rw [h]; exact ⟨rfl, rfl, rfl, rfl, rfl, rfl, rfl, rfl, rfl, fun hv => hp (profile_nmos hv), fun _ => rfl⟩

theorem ReadOp.regsOnly (f : ReadOp) (m : Byte) (u : State) : RegsOnly u (f.run m u) := by
  cases f <;> exact .of_all rfl (by simp [ReadOp.run])

theorem CalcOp.regsOnly (f : CalcOp) (m : Byte) (u : State) : RegsOnly u (f.run m u) := by
  cases f <;> exact .of_all rfl (by intro h; simp [CalcOp.run, h])

theorem ImmOp.regsOnly (f : ImmOp) (m : Byte) (u : State) : RegsOnly u (f.run m u) := by
  cases f <;> exact .of_all rfl (by simp [ImmOp.run])

theorem ModifyOp.regsOnly (f : ModifyOp) (m : Byte) (u : State) : RegsOnly u (f.run m u).2 := by
  cases f <;> exact .of_all rfl (by intro h; simp [ModifyOp.run, h])

theorem ImpliedOp.regsOnly (f : ImpliedOp) (u : State) : RegsOnly u (f.run u) := by
  cases f <;> exact .of_all rfl (by simp [ImpliedOp.run])

theorem PullOp.regsOnly (f : PullOp) (m : Byte) (u : State) : RegsOnly u (f.run m u) := by
  cases f <;> exact .of_all rfl (by intro h; simp [PullOp.run, h])

end Sys2Proof.Machine
end

