-- ==== Sys2Proof/Laws/Exec.lean ====
section
/-! SUPPORT. What any instruction does to everything but registers and flags: it is a path of bus cycles (`exec_path`). -/

namespace Sys2Proof.Machine

open Config

/-! ### The remaining shared operations -/

theorem unstableStore_path {f : Fixup} {reg : Byte} {base : Word} {i : Byte} {s t : State}
    (h : unstableStore f reg base i s = .ok t) : Path s t := by
  simp only [unstableStore, bind_eq_ok] at h
  obtain ⟨u, hu, hw⟩ := h
  exact (fixupRead_path hu).trans (memWrite_path hw)

theorem pushing_path {v : Byte} {s t : State} (h : pushing v s = .next t) : Path s t := by
  simp only [pushing, conclude_eq_next, bind_eq_ok] at h
  obtain ⟨u, hu, hw⟩ := h
  exact (dummyRead_path hu).trans (push_path hw)

theorem pulling_path {f : Byte → State → State} {s t : State} (hf : ∀ m u, RegsOnly u (f m u))
    (h : pulling f s = .next t) : Path s t := by
  simp only [pulling, conclude_eq_next, bind_eq_ok, pure_eq, Except.ok.injEq, Prod.exists] at h
  obtain ⟨s1, h1, s2, h2, v, s3, h3, rfl⟩ := h
  exact .regs (((dummyRead_path h1).trans (dummyRead_path h2)).trans (pull_path h3)) (hf v s3)

theorem branch_path {taken : Bool} {d : Byte} {s t : State} (h : branch taken d s = .next t) : Path s t := by
  simp only [branch, conclude_eq_next] at h
  split at h
  · simp only [bind_eq_ok] at h
    obtain ⟨u, hu, h⟩ := h
    split at h
    · simp only [pure_eq, Except.ok.injEq] at h
      subst h
      exact .regs (dummyRead_path hu) (.of_pc _ _)
    · simp only [bind_eq_ok, pure_eq, Except.ok.injEq] at h
      obtain ⟨v, hv, rfl⟩ := h
      exact .regs ((dummyRead_path hu).trans (dummyRead_path hv)) (.of_pc _ _)
  · simp only [pure_eq, Except.ok.injEq] at h
    subst h
    exact .refl s

theorem jam_path {s t : State} (h : jam s = .next t) : Path s t := by
  simp only [jam, conclude_eq_next, bind_eq_ok, pure_eq, Except.ok.injEq] at h
  obtain ⟨s1, h1, s2, h2, s3, h3, s4, h4, rfl⟩ := h
  exact .regs ((((dummyRead_path h1).trans (dummyRead_path h2)).trans (dummyRead_path h3)).trans (dummyRead_path h4))
    ⟨rfl, rfl, rfl, rfl, rfl, rfl, rfl, rfl, rfl, fun _ h => h, fun _ => rfl⟩

theorem execJmpInd_path {w : Word} {s t : State} (h : execJmpInd w s = .next t) : Path s t := by
  simp only [execJmpInd, conclude_eq_next, bind_eq_ok, pure_eq, Except.ok.injEq, Prod.exists] at h
  obtain ⟨l, s1, h1, hh, s2, h2, s3, h3, rfl⟩ := h
  exact .regs (((memRead_path h1).trans (memRead_path h2)).trans (spareReads_path h3)) (.of_pc _ _)

theorem execJsrAbs_path {w : Word} {s t : State} (h : execJsrAbs w s = .next t) : Path s t := by
  simp only [execJsrAbs, conclude_eq_next, bind_eq_ok, pure_eq, Except.ok.injEq, Prod.exists] at h
  obtain ⟨s1, h1, s2, h2, s3, h3, hh, s4, h4, rfl⟩ := h
  exact .regs ((((dummyRead_path h1).trans (push_path h2)).trans (push_path h3)).trans (memRead_path h4)) (.of_pc _ _)

theorem execRts_path {s t : State} (h : execRts s = .next t) : Path s t := by
  simp only [execRts, conclude_eq_next, bind_eq_ok, pure_eq, Except.ok.injEq, Prod.exists] at h
  obtain ⟨s1, h1, s2, h2, l, s3, h3, hh, s4, h4, s5, h5, rfl⟩ := h
  have k : Path s4 s5 := (Path.regs (.refl _) (.of_pc s4 (joinWord s.profile.byteOrder l hh))).trans (dummyRead_path h5)
  exact .regs (((((dummyRead_path h1).trans (dummyRead_path h2)).trans (pull_path h3)).trans (pull_path h4)).trans k)
    (.of_pc _ _)

theorem execShaIzy_path {b : Byte} {s t : State} (h : execShaIzy b s = .next t) : Path s t := by
  simp only [execShaIzy, conclude_eq_next, bind_eq_ok, Prod.exists] at h
  obtain ⟨base, u, hu, hw⟩ := h
  exact (zeroPagePointer_path hu).trans (unstableStore_path hw)

theorem execTasAby_path {w : Word} {s t : State} (h : execTasAby w s = .next t) : Path s t := by
  rw [execTasAby, conclude_eq_next] at h
  exact (Path.regs (.refl s) (.of_sp s _)).trans (unstableStore_path h)

/-- Any instruction that completes is a path of bus cycles at mapped addresses and changes of registers. -/
theorem exec_path {i : Instr} {s t : State} (h : exec i s = .next t) : Path s t := by
  rw [exec_shape] at h
  cases e : shapeOf s.fixup i <;> rw [e] at h <;> simp only [Shape.run] at h
  case reading f o => exact reading_path f.regsOnly h
  case calculating f o => exact calculating_path f.regsOnly h
  case calculatingImm f m => exact calculatingImm_path f.regsOnly h
  case storing v o => exact storing_path h
  case modifying f o => exact modifying_path f.regsOnly h
  case implied f => exact implied_path f.regsOnly h
  case immediate f m => cases h; exact .regs (.refl s) (f.regsOnly m s)
  case branch f v d => exact branch_path h
  case pushing v => exact pushing_path h
  case pulling f => exact pulling_path f.regsOnly h
  case unstable r w => exact unstableStore_path ((conclude_eq_next _ _).1 h)
  case shaIzy b => exact execShaIzy_path h
  case tas w => exact execTasAby_path h
  case jmpAbs w => cases h; exact .regs (.refl s) (.of_pc s w)
  case jmpInd w => exact execJmpInd_path h
  case jsr w => exact execJsrAbs_path h
  case rts => exact execRts_path h
  case rti => exact returnFromEvent_path ((conclude_eq_next _ _).1 h)
  case brk => exact enter_path ((conclude_eq_next _ _).1 h)
  case jam => exact jam_path h

end Sys2Proof.Machine
end

