-- ==== Sys2Proof/Laws/Marks.lean ====
section
/-! SUPPORT. Bus cycles in the terms of Safety.lean: which marks they leave (`busMarks`), what they drive (`Drives`), what they
read (`ReadsAs`) and store (`Stores`), and that on a complete map they answer. -/

namespace Sys2Proof.Machine

open Config

/-! ### Marks and driven addresses compose -/

theorem busMarks_trans {s t u : State} (h : t = busMarks s t) (k : u = busMarks t u) : u = busMarks s u := by
  rw [h] at k; exact k

theorem busMarks_refl (s : State) : s = busMarks s s := rfl

theorem Drives.refl (s : State) : Drives s s [] := ⟨rfl, [], by simp, rfl⟩

theorem Drives.trans {s t u : State} {l m : List (Word × Action)} (h : Drives s t l) (k : Drives t u m) :
    Drives s u (l ++ m) := by
  obtain ⟨hc, es, he, hm⟩ := h
  obtain ⟨kc, fs, ke, km⟩ := k
  refine ⟨by rw [kc, hc, List.length_append]; omega, es ++ fs, by rw [ke, he, List.append_assoc], by simp [hm, km]⟩

/-- What a read-only stretch of bus cycles leaves: marks alone, and the reads driven. -/
structure Reads (s t : State) (l : List Word) : Prop where
  marks : t = busMarks s t
  drives : Drives s t (l.map (fun a => (a, .read)))

theorem Reads.refl (s : State) : Reads s s [] := ⟨rfl, .refl s⟩

theorem Reads.trans {s t u : State} {l m : List Word} (h : Reads s t l) (k : Reads t u m) : Reads s u (l ++ m) :=
  ⟨busMarks_trans h.marks k.marks, by rw [List.map_append]; exact h.drives.trans k.drives⟩

/-- Memory and map are among what a stretch of reads leaves alone. -/
theorem Reads.mem {s t : State} {l : List Word} (h : Reads s t l) : t.mem = s.mem := by rw [h.marks]; rfl

theorem Reads.regions {s t : State} {l : List Word} (h : Reads s t l) : t.regions = s.regions := by rw [h.marks]; rfl

theorem Reads.byteAt {s t : State} {l : List Word} (h : Reads s t l) (a : Word) :
    Machine.byteAt t a = Machine.byteAt s a := by
  simp [Machine.byteAt, h.mem]

/-! ### Properties of the map -/

theorem Mapped_congr {s t : State} (h : t.regions = s.regions) (a : Word) : Mapped t a ↔ Mapped s a := by
  simp [Mapped, regionAt_congr h]

theorem AllMapped_congr {s t : State} (h : t.regions = s.regions) : AllMapped t ↔ AllMapped s := by
  simp [AllMapped, Mapped_congr h]

theorem Readable_congr {s t : State} (h : t.regions = s.regions) (a : Word) : Readable t a ↔ Readable s a := by
  simp [Readable, regionAt_congr h]

theorem Writable_congr {s t : State} (h : t.regions = s.regions) (a : Word) : Writable t a ↔ Writable s a := by
  simp [Writable, regionAt_congr h]

theorem Reads.allMapped {s t : State} {l : List Word} (h : Reads s t l) (ha : AllMapped s) : AllMapped t :=
  (AllMapped_congr h.regions).2 ha

theorem ReadsAs_congr {s t : State} (h : t.regions = s.regions) {a : Word} (hm : byteAt t a = byteAt s a) {v : Byte} :
    ReadsAs t a v ↔ ReadsAs s a v := by
  simp [ReadsAs, Readable_congr h, hm]

theorem Reads.readsAs {s t : State} {l : List Word} (h : Reads s t l) {a : Word} {v : Byte} :
    ReadsAs t a v ↔ ReadsAs s a v := ReadsAs_congr h.regions (h.byteAt a)

/-! ### Read cycles -/

theorem readCycle_reads (r : Region) (a : Word) (s : State) : Reads s (readCycle r a s) [a] :=
  ⟨by rw [readCycle_eq]; rfl, by simp, [_], readCycle_trace r a s, rfl⟩

theorem memRead_reads {a : Word} {s t : State} {v : Byte} (h : memRead a s = .ok (v, t)) :
    Reads s t [a] ∧ ReadsAs s a v := by
  obtain ⟨r, hr, rfl, rfl⟩ := (memRead_ok_iff a s t v).1 h
  refine ⟨readCycle_reads r a s, ?_⟩
  rintro ⟨q, hq, hw⟩
  rw [hr, Option.some.injEq] at hq
  subst hq
  simp [busByte, hw, byteAt]

theorem dummyRead_reads {a : Word} {s t : State} (h : dummyRead a s = .ok t) : Reads s t [a] := by
  obtain ⟨r, -, rfl⟩ := (dummyRead_ok_iff a s t).1 h
  exact readCycle_reads r a s

theorem memRead_exists {a : Word} {s : State} (h : Mapped s a) : ∃ v t, memRead a s = .ok (v, t) := by
  obtain ⟨r, hr⟩ := Option.isSome_iff_exists.1 h
  exact ⟨_, _, memRead_eq hr⟩

theorem dummyRead_exists {a : Word} {s : State} (h : Mapped s a) : ∃ t, dummyRead a s = .ok t := by
  obtain ⟨r, hr⟩ := Option.isSome_iff_exists.1 h
  exact ⟨_, dummyRead_eq hr⟩

/-! ### Write cycles -/

/-- What one write leaves: marks and memory, the write driven, the byte stored. -/
structure Wrote (s t : State) (a : Word) (v : Byte) : Prop where
  marks : t = { busMarks s t with mem := t.mem }
  cycles : t.cycles = s.cycles + 1
  trace : t.trace = s.trace ++ [⟨a, v, .write, false⟩]
  stores : Stores s t [(a, v)]

theorem toNat_ne {a b : Word} (h : b ≠ a) : b.toNat ≠ a.toNat := fun e => h (BitVec.eq_of_toNat_eq e)

theorem writeCycle_wrote {r : Region} {a : Word} {v : Byte} {s : State} (h : s.regionAt a = some r) :
    Wrote s (writeCycle r a v s) a v := by
  refine ⟨by rw [writeCycle_eq]; rfl, by simp, by simp, ?_⟩
  intro b
  by_cases hb : b = a
  · subst hb
    refine ⟨?_, ?_⟩
    · rintro ⟨q, hq, hw⟩
      rw [h, Option.some.injEq] at hq
      subst hq
      simp [byteAt, hw]
    · intro hn
      have : r.access = .readOnly := by
        by_contra hw
        exact hn ⟨r, h, hw⟩
      simp [byteAt, this]
  · have hl : ([(a, v)] : List (Word × Byte)).lookup b = none := by
      rw [List.lookup_cons, beq_false_of_ne hb]; rfl
    have hm : byteAt (writeCycle r a v s) b = byteAt s b := by
      simp only [byteAt, writeCycle_mem]
      split
      · rfl
      · exact Memory.read_write_other _ _ (toNat_ne hb)
    simp [hl, hm]

theorem memWrite_wrote {a : Word} {v : Byte} {s t : State} (h : memWrite a v s = .ok t) : Wrote s t a v := by
  obtain ⟨r, hr, rfl⟩ := (memWrite_ok_iff a v s t).1 h
  exact writeCycle_wrote hr

theorem memWrite_exists {a : Word} {v : Byte} {s : State} (h : Mapped s a) : ∃ t, memWrite a v s = .ok t := by
  obtain ⟨r, hr⟩ := Option.isSome_iff_exists.1 h
  exact ⟨_, memWrite_eq hr⟩

theorem Wrote.regions {s t : State} {a : Word} {v : Byte} (h : Wrote s t a v) : t.regions = s.regions := by
  rw [h.marks]; rfl

theorem Wrote.drives {s t : State} {a : Word} {v : Byte} (h : Wrote s t a v) : Drives s t [(a, .write)] :=
  ⟨h.cycles, [⟨a, v, .write, false⟩], h.trace, rfl⟩

theorem Stores.refl (s : State) : Stores s s [] := fun _ => ⟨fun _ => rfl, fun _ => rfl⟩

/-- Stores compose: the later ones stand first. -/
theorem Stores.trans {s t u : State} {l m : List (Word × Byte)} (h : Stores s t l) (k : Stores t u m)
    (hr : t.regions = s.regions) : Stores s u (m ++ l) := by
  intro b
  obtain ⟨h1, h2⟩ := h b
  obtain ⟨k1, k2⟩ := k b
  rw [Writable_congr hr] at k1 k2
  refine ⟨fun hw => ?_, fun hn => by rw [k2 hn, h2 hn]⟩
  rw [k1 hw, h1 hw, List.lookup_append]
  cases m.lookup b <;> rfl

/-- Stores depend on the bytes and the map alone. -/
theorem Stores.congr {s t s' t' : State} {l : List (Word × Byte)} (h : Stores s t l) (hs : ∀ b, byteAt s' b = byteAt s b)
    (ht : ∀ b, byteAt t' b = byteAt t b) (hr : s'.regions = s.regions) : Stores s' t' l := by
  intro b
  rw [hs, ht, Writable_congr hr]
  exact h b

theorem Reads.stores {s t : State} {l : List Word} (h : Reads s t l) : Stores s t [] :=
  (Stores.refl s).congr (fun _ => rfl) h.byteAt rfl

end Sys2Proof.Machine
end

