-- ==== Sys2Proof/Laws/Operands.lean ====
section
/-! SUPPORT. The resolver and the access kinds in the terms of Safety.lean: the address computation only reads, and on a complete
map every access answers. -/

namespace Sys2Proof.Machine

open Config

/-! ### The address computation -/

theorem fixupRead_reads {f : Fixup} {base : Word} {i : Byte} {s t : State} (h : fixupRead f base i s = .ok t) :
    Reads s t (if fixupHappens f base i then [uncorrected base i] else []) := by
  unfold fixupRead at h
  split at h
  · rename_i c; rw [if_pos c]; exact dummyRead_reads h
  · rename_i c; rw [if_neg c]; cases h; exact .refl s

theorem fixupRead_exists (f : Fixup) (base : Word) (i : Byte) {s : State} (h : AllMapped s) :
    ∃ t, fixupRead f base i s = .ok t := by
  unfold fixupRead
  split
  · exact dummyRead_exists (h _)
  · exact ⟨s, rfl⟩

theorem indexed_reads {f : Fixup} {base ea : Word} {i : Byte} {s t : State} (h : indexed f base i s = .ok (ea, t)) :
    ea = corrected base i ∧ Reads s t (if fixupHappens f base i then [uncorrected base i] else []) := by
  simp only [indexed, bind_eq_ok, pure_eq, Except.ok.injEq, Prod.mk.injEq] at h
  obtain ⟨u, hu, rfl, rfl⟩ := h
  exact ⟨rfl, fixupRead_reads hu⟩

theorem indexed_exists (f : Fixup) (base : Word) (i : Byte) {s : State} (h : AllMapped s) :
    ∃ t, indexed f base i s = .ok (corrected base i, t) := by
  obtain ⟨t, ht⟩ := fixupRead_exists f base i h
  exact ⟨t, by simp [indexed, ht]⟩

/-- A pointer in page 0 is read in two cycles and lies there in the profile's byte order (R84, R154, R155). -/
theorem zeroPagePointer_reads {p : Byte} {w : Word} {s t : State} (h : zeroPagePointer p s = .ok (w, t)) :
    Reads s t [zext p, zext (p + 1)] ∧ ReadsAs s (zext p) (firstByte s.profile.byteOrder w) ∧
      ReadsAs s (zext (p + 1)) (secondByte s.profile.byteOrder w) := by
  simp only [zeroPagePointer, bind_eq_ok, pure_eq, Except.ok.injEq, Prod.exists, Prod.mk.injEq] at h
  obtain ⟨l, s1, h1, hh, s2, h2, rfl, rfl⟩ := h
  obtain ⟨r1, v1⟩ := memRead_reads h1
  obtain ⟨r2, v2⟩ := memRead_reads h2
  refine ⟨r1.trans r2, by simpa using v1, ?_⟩
  rw [secondByte_joinWord]
  exact r1.readsAs.1 v2

theorem zeroPagePointer_exists (p : Byte) {s : State} (h : AllMapped s) : ∃ w t, zeroPagePointer p s = .ok (w, t) := by
  obtain ⟨l, s1, h1⟩ := memRead_exists (h (zext p))
  obtain ⟨hh, s2, h2⟩ := memRead_exists ((memRead_reads h1).1.allMapped h (zext (p + 1)))
  exact ⟨joinWord s.profile.byteOrder l hh, s2, by rw [zeroPagePointer, h1, bind_ok]; dsimp only; rw [h2]; rfl⟩

/-- The address computation only reads (R140). -/
theorem effectiveAddress_reads {o : Mem} {ea : Word} {s t : State} (h : effectiveAddress o s = .ok (ea, t)) :
    ∃ l, Reads s t l := by
  cases o <;> simp only [effectiveAddress, bind_eq_ok, pure_eq, Except.ok.injEq, Prod.exists, Prod.mk.injEq] at h
  case zp => obtain ⟨-, rfl⟩ := h; exact ⟨_, .refl s⟩
  case abs => obtain ⟨-, rfl⟩ := h; exact ⟨_, .refl s⟩
  case zpx => obtain ⟨u, hu, -, rfl⟩ := h; exact ⟨_, dummyRead_reads hu⟩
  case zpy => obtain ⟨u, hu, -, rfl⟩ := h; exact ⟨_, dummyRead_reads hu⟩
  case abx => exact ⟨_, (indexed_reads h).2⟩
  case aby => exact ⟨_, (indexed_reads h).2⟩
  case izx => obtain ⟨u, hu, hz⟩ := h; exact ⟨_, (dummyRead_reads hu).trans (zeroPagePointer_reads hz).1⟩
  case izy => obtain ⟨b, u, hz, hi⟩ := h; exact ⟨_, (zeroPagePointer_reads hz).1.trans (indexed_reads hi).2⟩

theorem effectiveAddress_exists (o : Mem) {s : State} (h : AllMapped s) : ∃ ea t, effectiveAddress o s = .ok (ea, t) := by
  cases o <;> simp only [effectiveAddress]
  case zp => exact ⟨_, _, rfl⟩
  case abs => exact ⟨_, _, rfl⟩
  case zpx b => obtain ⟨u, hu⟩ := dummyRead_exists (h (zext b)); exact ⟨zext (b + u.x), u, by simp [hu]⟩
  case zpy b => obtain ⟨u, hu⟩ := dummyRead_exists (h (zext b)); exact ⟨zext (b + u.y), u, by simp [hu]⟩
  case abx => obtain ⟨t, ht⟩ := indexed_exists _ _ _ h; exact ⟨_, t, ht⟩
  case aby => obtain ⟨t, ht⟩ := indexed_exists _ _ _ h; exact ⟨_, t, ht⟩
  case izx b =>
    obtain ⟨u, hu⟩ := dummyRead_exists (h (zext b))
    obtain ⟨w, t, ht⟩ := zeroPagePointer_exists (b + u.x) ((dummyRead_reads hu).allMapped h)
    exact ⟨w, t, by simp [hu, ht]⟩
  case izy f b =>
    obtain ⟨w, u, hu⟩ := zeroPagePointer_exists b h
    obtain ⟨t, ht⟩ := indexed_exists f w u.y ((zeroPagePointer_reads hu).1.allMapped h)
    exact ⟨corrected w u.y, t, by simp [hu, ht]⟩

/-! ### The access kinds -/

/-- A read-kind access reads the byte at the effective address after the address computation (R144). -/
theorem readOperand_ok_iff (o : Mem) (m : Byte) (s t : State) :
    readOperand o s = .ok (m, t) ↔ ∃ ea u, effectiveAddress o s = .ok (ea, u) ∧ memRead ea u = .ok (m, t) := by
  simp [readOperand]

theorem readOperand_reads {o : Mem} {m : Byte} {s t : State} (h : readOperand o s = .ok (m, t)) :
    ∃ l, Reads s t l := by
  obtain ⟨ea, u, hu, hm⟩ := (readOperand_ok_iff o m s t).1 h
  obtain ⟨l, hl⟩ := effectiveAddress_reads hu
  exact ⟨_, hl.trans (memRead_reads hm).1⟩

theorem readOperand_exists (o : Mem) {s : State} (h : AllMapped s) : ∃ m t, readOperand o s = .ok (m, t) := by
  obtain ⟨ea, u, hu⟩ := effectiveAddress_exists o h
  obtain ⟨l, hl⟩ := effectiveAddress_reads hu
  obtain ⟨m, t, hm⟩ := memRead_exists (hl.allMapped h ea)
  exact ⟨m, t, (readOperand_ok_iff o m s t).2 ⟨ea, u, hu, hm⟩⟩

/-- What a read-kind meaning does: the operand, then the change. -/
theorem reading_eq_next_iff (f : Byte → State → State) (o : Mem) (s t : State) :
    reading f o s = .next t ↔ ∃ m u, readOperand o s = .ok (m, u) ∧ t = f m u := by
  simp only [reading, conclude_eq_next, bind_eq_ok, pure_eq, Except.ok.injEq, Prod.exists]
  simp only [eq_comm (a := t)]

/-- What a write-kind meaning does: the address, then the write. -/
theorem storing_eq_next_iff (v : Byte) (o : Mem) (s t : State) :
    storing v o s = .next t ↔ ∃ ea u, effectiveAddress o s = .ok (ea, u) ∧ memWrite ea v u = .ok t := by
  simp [storing, writeOperand]

/-- ADC and SBC in profile NMOS6502 are read-kind instructions with no cycle added (R190). -/
theorem calculating_nmos (f : Byte → State → State) (o : Mem) {s : State} (h : s.variant = .nmos6502) :
    calculating f o s = reading f o s := by
  unfold calculating reading
  cases hr : readOperand o s with
  | error e => rfl
  | ok q =>
    obtain ⟨m, u⟩ := q
    obtain ⟨l, hl⟩ := readOperand_reads hr
    have hu : u.variant = .nmos6502 := by rw [hl.marks]; exact h
    simp [decimalCycles_nmos hu]

theorem calculatingImm_nmos (f : Byte → State → State) (m : Byte) {s : State} (h : s.variant = .nmos6502) :
    calculatingImm f m s = .next (f m s) := by
  simp [calculatingImm, decimalCycles_nmos h]

/-- What a read-modify-write meaning does (R144): the address, the read, the profile's second access, the write of the new. -/
theorem modifying_eq_next_iff (f : Byte → State → Byte × State) (o : Mem) (s t : State) :
    modifying f o s = .next t ↔ ∃ ea u m v w, effectiveAddress o s = .ok (ea, u) ∧ memRead ea u = .ok (m, v) ∧
      secondAccess s.profile.modifyWriteOrder ea m v = .ok w ∧ memWrite ea (f m w).1 (f m w).2 = .ok t := by
  simp [modifying, modifyOperand]

/-- In profile NMOS6502 the second access writes back the byte read. -/
theorem secondAccess_nmos {s : State} (h : s.variant = .nmos6502) (ea : Word) (m : Byte) (v : State) :
    secondAccess s.profile.modifyWriteOrder ea m v = memWrite ea m v := by
  rw [profile_nmos h]; rfl

/-- What an implied meaning does: the dummy read at `PC`, then the change (R142). -/
theorem implied_eq_next_iff (f : State → State) (s t : State) :
    implied f s = .next t ↔ ∃ u, dummyRead s.pc s = .ok u ∧ t = f u := by
  simp only [implied, conclude_eq_next, bind_eq_ok, pure_eq, Except.ok.injEq]
  simp only [eq_comm (a := t)]

end Sys2Proof.Machine
end

