-- ==== Sys2Proof/Laws/Step.lean ====
section
/-! SUPPORT. What a step can come to (`step_next_cases`), and what its fetch leaves. -/

namespace Sys2Proof.Machine

open Config

theorem fetchOpcode_ok_iff (s t : State) :
    fetchOpcode s = .ok t ↔ ∃ v u, syncRead s = .ok (v, u) ∧ t = { u with ir := v } := by
  simp only [fetchOpcode, bind_eq_ok, pure_eq, Except.ok.injEq, Prod.exists]
  constructor
  · rintro ⟨v, u, h, rfl⟩; exact ⟨v, u, h, rfl⟩
  · rintro ⟨v, u, h, rfl⟩; exact ⟨v, u, h, rfl⟩

theorem stallCycle_ok_iff (s t : State) : stallCycle s = .ok t ↔ ∃ v, syncRead s = .ok (v, t) := by
  simp [stallCycle]

/-- The four ways the operand fetch answers: one byte, two bytes, JSR, three bytes. -/
theorem fetchOperands_ok_iff (s t : State) (i : Instr) (hv : s.variant = .nmos6502) :
    fetchOperands decodeOp s = .ok (i, t) ↔
      (lengthOf s.ir = 1 ∧ i = decodeOp s.ir 0 0 ∧ t = s) ∨
      (lengthOf s.ir ≠ 1 ∧ ∃ b u, fetchByte s = .ok (b, u) ∧
        ((lengthOf s.ir = 2 ∧ i = decodeOp s.ir b 0 ∧ t = u) ∨
         (lengthOf s.ir ≠ 2 ∧ s.ir = jsrOpcode ∧ i = decodeOp s.ir b (u.mem.read u.pc.toNat) ∧ t = u) ∨
         (lengthOf s.ir ≠ 2 ∧ s.ir ≠ jsrOpcode ∧ ∃ c, fetchByte u = .ok (c, t) ∧ i = decodeOp s.ir b c))) := by
  have hl : ∀ op, lengthIn decodeOp op = lengthOf op := fun _ => rfl
  have kept : ∀ b x u, fetchByte x = .ok (b, u) → u.ir = x.ir ∧ u.variant = x.variant := by
    intro b x u h
    obtain ⟨r, -, -, rfl⟩ := (fetchByte_ok_iff x u b).1 h
    exact ⟨rfl, rfl⟩
  have key : ∀ b u, fetchByte s = .ok (b, u) → u.ir = s.ir := fun b u h => (kept b s u h).1
  have wide : ∀ b u x y, fetchByte s = .ok (b, u) → wideEntry decodeOp x y u = decodeOp s.ir x y := fun b u x y h => by
    rw [wideEntry_nmos decodeOp x y ((kept b s u h).2.trans hv), key b u h]
  have wide' : ∀ b u c v x y, fetchByte s = .ok (b, u) → fetchByte u = .ok (c, v) →
      wideEntry decodeOp x y v = decodeOp s.ir x y := fun b u c v x y h k => by
    rw [wideEntry_nmos decodeOp x y ((kept c u v k).2.trans ((kept b s u h).2.trans hv)), (kept c u v k).1, key b u h]
  constructor
  · intro h
    unfold fetchOperands at h
    simp only [hl] at h
    split at h
    · rename_i h1
      simp only [pure_eq, Except.ok.injEq, Prod.mk.injEq] at h
      exact .inl ⟨h1, h.1.symm, h.2.symm⟩
    · rename_i h1
      simp only [bind_eq_ok, Prod.exists] at h
      obtain ⟨b, u, hu, h⟩ := h
      refine .inr ⟨h1, b, u, hu, ?_⟩
      rw [key b u hu] at h
      split at h
      · rename_i h2
        simp only [pure_eq, Except.ok.injEq, Prod.mk.injEq] at h
        exact .inl ⟨h2, h.1.symm, h.2.symm⟩
      · rename_i h2
        split at h
        · rename_i h3
          simp only [pure_eq, Except.ok.injEq, Prod.mk.injEq] at h
          exact .inr (.inl ⟨h2, h3, h.1.symm.trans (wide b u _ _ hu), h.2.symm⟩)
        · rename_i h3
          simp only [bind_eq_ok, Prod.exists, pure_eq, Except.ok.injEq, Prod.mk.injEq] at h
          obtain ⟨c, v, hc, hi, rfl⟩ := h
          exact .inr (.inr ⟨h2, h3, c, hc, hi.symm.trans (wide' b u c _ _ _ hu hc)⟩)
  · rintro (⟨h1, rfl, rfl⟩ | ⟨h1, b, u, hu, ⟨h2, rfl, rfl⟩ | ⟨h2, h3, rfl, rfl⟩ | ⟨h2, h3, c, hc, rfl⟩⟩)
    · simp [fetchOperands, hl, h1]
    · rw [fetchOperands, hl, if_neg h1, hu, bind_ok]
      dsimp only
      rw [key b _ hu, hl, if_pos h2]
      rfl
    · rw [fetchOperands, hl, if_neg h1, hu, bind_ok]
      dsimp only
      rw [key b _ hu, hl, if_neg h2, if_pos h3, wide b _ _ _ hu]
      rfl
    · rw [fetchOperands, hl, if_neg h1, hu, bind_ok]
      dsimp only
      rw [key b _ hu, hl, if_neg h2, if_neg h3, hc, bind_ok]
      dsimp only
      rw [wide' b u c t _ _ hu hc]
      rfl

/-- What a completed step was: nothing (unpowered), a jam cycle, a stall cycle, an entry sequence, or an instruction. -/
theorem step_next_cases {s t : State} (h : step s = .next t) :
    (s.pins.power = .lowered ∧ t = s) ∨
    (s.pins.power = .raised ∧ s.variant = .nmos6502 ∧
      (((applySo s).run = .jammed ∧ (applySo s).pendReset = false ∧ jamCycle (applySo s) = .ok t) ∨
       (¬((applySo s).run = .jammed ∧ (applySo s).pendReset = false) ∧
        (((applySo s).pins.rdy = .lowered ∧ stallCycle (applySo s) = .ok t) ∨
         ((applySo s).pins.rdy = .raised ∧ ∃ u, fetchOpcode (applySo s) = .ok u ∧
           ((∃ e, selectEvent u = some e ∧ enter e (onSelection e u) = .ok t) ∨
            (selectEvent u = none ∧ ∃ i v, fetchOperands decodeOp { u with pc := u.pc + 1 } = .ok (i, v) ∧
              exec i v = .next t))))))) := by
  have fin : ∀ {r : Except Fault State}, (match finish r with
      | .finished t => (.next t : Out)
      | .failed f => .fault f
      | .turnedAway r => .refused r
      | .dispatch i t => exec i t) = .next t → r = .ok t := by
    intro r hr
    cases r <;> simp_all [finish]
  unfold step boundary at h
  by_cases hp : s.pins.power = .lowered
  · rw [if_pos hp] at h
    left; exact ⟨hp, by simpa using h.symm⟩
  rw [if_neg hp] at h
  by_cases hv : s.variant = .nmos6502
  swap
  · rw [tableOf_open hv] at h; exact absurd h (by simp)
  rw [tableOf_nmos hv] at h
  dsimp only at h
  right
  refine ⟨by cases e : s.pins.power <;> simp_all, hv, ?_⟩
  split_ifs at h with hj hr
  · left
    simp only [Bool.and_eq_true, decide_eq_true_eq, Bool.not_eq_true'] at hj
    exact ⟨hj.1, hj.2, fin h⟩
  · right
    refine ⟨by simpa using hj, .inl ⟨hr, fin h⟩⟩
  · right
    refine ⟨by simpa using hj, .inr ⟨by cases e : (applySo s).pins.rdy <;> simp_all, ?_⟩⟩
    cases hu : fetchOpcode (applySo s) with
    | error f => rw [hu] at h; simp at h
    | ok u =>
      refine ⟨u, rfl, ?_⟩
      rw [hu] at h
      simp only [afterFetch] at h
      cases he : selectEvent u with
      | some e =>
        rw [he] at h
        exact .inl ⟨e, rfl, fin h⟩
      | none =>
        rw [he] at h
        refine .inr ⟨rfl, ?_⟩
        cases hf : fetchOperands decodeOp { u with pc := u.pc + 1 } with
        | error f => rw [hf] at h; simp at h
        | ok q => rw [hf] at h; exact ⟨q.1, q.2, rfl, h⟩

end Sys2Proof.Machine
end

