-- ==== Sys2Proof/Tests/Slice0.lean ====
section
/-! SUPPORT. Tests: the region map's legality check, the decoder on words written out from the opcode map of
30_encoding.md R118, one step on vectors of 95_test_vectors.md, and witnesses of the hypotheses of the obligations. -/

namespace Sys2Proof.Tests

open Machine Config

/-! ### Legal region maps (R72, R422) -/

theorem test_map_whole_space_is_legal : mapLegal wholeSpace = true := by decide

theorem test_map_adjacent_regions_are_legal :
    mapLegal [⟨0x0000, 0x8000, .readWrite⟩, ⟨0x8000, 0x8000, .readOnly⟩] = true := by decide

theorem test_map_overlap_is_refused :
    mapLegal [⟨0x0000, 0x8001, .readWrite⟩, ⟨0x8000, 0x8000, .readOnly⟩] = false := by decide

theorem test_map_past_the_space_is_refused : mapLegal [⟨0x8000, 0x8001, .readWrite⟩] = false := by decide

/-! ### Decoding: one word for every opcode, byte 1 is `22`, byte 2 is `33` (R84, R111, R118) -/

/-- What the decoder reads from three-byte words, the first byte in the low bits. -/
def decodes (l : List Nat) : List Instr := l.filterMap (decodeTableWord 24)

theorem test_decode_row_0 :
    decodes
      [0x332200, 0x332201, 0x332202, 0x332203, 0x332204, 0x332205, 0x332206, 0x332207, 0x332208, 0x332209,
       0x33220A, 0x33220B, 0x33220C, 0x33220D, 0x33220E, 0x33220F] =
      [.brk, .oraIzx 0x22, .jam02, .sloIzx 0x22, .nopZp04 0x22, .oraZp 0x22, .aslZp 0x22, .sloZp 0x22, .php,
       .oraImm 0x22, .aslAcc, .ancImm0B 0x22, .nopAbs 0x3322, .oraAbs 0x3322, .aslAbs 0x3322, .sloAbs 0x3322] := by
  decide

theorem test_decode_row_1 :
    decodes
      [0x332210, 0x332211, 0x332212, 0x332213, 0x332214, 0x332215, 0x332216, 0x332217, 0x332218, 0x332219,
       0x33221A, 0x33221B, 0x33221C, 0x33221D, 0x33221E, 0x33221F] =
      [.bpl 0x22, .oraIzy 0x22, .jam12, .sloIzy 0x22, .nopZpx14 0x22, .oraZpx 0x22, .aslZpx 0x22, .sloZpx 0x22,
       .clc, .oraAby 0x3322, .nop1A, .sloAby 0x3322, .nopAbx1C 0x3322, .oraAbx 0x3322, .aslAbx 0x3322,
       .sloAbx 0x3322] := by
  decide

theorem test_decode_row_2 :
    decodes
      [0x332220, 0x332221, 0x332222, 0x332223, 0x332224, 0x332225, 0x332226, 0x332227, 0x332228, 0x332229,
       0x33222A, 0x33222B, 0x33222C, 0x33222D, 0x33222E, 0x33222F] =
      [.jsrAbs 0x3322, .andIzx 0x22, .jam22, .rlaIzx 0x22, .bitZp 0x22, .andZp 0x22, .rolZp 0x22, .rlaZp 0x22,
       .plp, .andImm 0x22, .rolAcc, .ancImm2B 0x22, .bitAbs 0x3322, .andAbs 0x3322, .rolAbs 0x3322,
       .rlaAbs 0x3322] := by
  decide

theorem test_decode_row_3 :
    decodes
      [0x332230, 0x332231, 0x332232, 0x332233, 0x332234, 0x332235, 0x332236, 0x332237, 0x332238, 0x332239,
       0x33223A, 0x33223B, 0x33223C, 0x33223D, 0x33223E, 0x33223F] =
      [.bmi 0x22, .andIzy 0x22, .jam32, .rlaIzy 0x22, .nopZpx34 0x22, .andZpx 0x22, .rolZpx 0x22, .rlaZpx 0x22,
       .sec, .andAby 0x3322, .nop3A, .rlaAby 0x3322, .nopAbx3C 0x3322, .andAbx 0x3322, .rolAbx 0x3322,
       .rlaAbx 0x3322] := by
  decide

theorem test_decode_row_4 :
    decodes
      [0x332240, 0x332241, 0x332242, 0x332243, 0x332244, 0x332245, 0x332246, 0x332247, 0x332248, 0x332249,
       0x33224A, 0x33224B, 0x33224C, 0x33224D, 0x33224E, 0x33224F] =
      [.rti, .eorIzx 0x22, .jam42, .sreIzx 0x22, .nopZp44 0x22, .eorZp 0x22, .lsrZp 0x22, .sreZp 0x22, .pha,
       .eorImm 0x22, .lsrAcc, .alrImm 0x22, .jmpAbs 0x3322, .eorAbs 0x3322, .lsrAbs 0x3322, .sreAbs 0x3322] := by
  decide

theorem test_decode_row_5 :
    decodes
      [0x332250, 0x332251, 0x332252, 0x332253, 0x332254, 0x332255, 0x332256, 0x332257, 0x332258, 0x332259,
       0x33225A, 0x33225B, 0x33225C, 0x33225D, 0x33225E, 0x33225F] =
      [.bvc 0x22, .eorIzy 0x22, .jam52, .sreIzy 0x22, .nopZpx54 0x22, .eorZpx 0x22, .lsrZpx 0x22, .sreZpx 0x22,
       .cli, .eorAby 0x3322, .nop5A, .sreAby 0x3322, .nopAbx5C 0x3322, .eorAbx 0x3322, .lsrAbx 0x3322,
       .sreAbx 0x3322] := by
  decide

theorem test_decode_row_6 :
    decodes
      [0x332260, 0x332261, 0x332262, 0x332263, 0x332264, 0x332265, 0x332266, 0x332267, 0x332268, 0x332269,
       0x33226A, 0x33226B, 0x33226C, 0x33226D, 0x33226E, 0x33226F] =
      [.rts, .adcIzx 0x22, .jam62, .rraIzx 0x22, .nopZp64 0x22, .adcZp 0x22, .rorZp 0x22, .rraZp 0x22, .pla,
       .adcImm 0x22, .rorAcc, .arrImm 0x22, .jmpInd 0x3322, .adcAbs 0x3322, .rorAbs 0x3322, .rraAbs 0x3322] := by
  decide

theorem test_decode_row_7 :
    decodes
      [0x332270, 0x332271, 0x332272, 0x332273, 0x332274, 0x332275, 0x332276, 0x332277, 0x332278, 0x332279,
       0x33227A, 0x33227B, 0x33227C, 0x33227D, 0x33227E, 0x33227F] =
      [.bvs 0x22, .adcIzy 0x22, .jam72, .rraIzy 0x22, .nopZpx74 0x22, .adcZpx 0x22, .rorZpx 0x22, .rraZpx 0x22,
       .sei, .adcAby 0x3322, .nop7A, .rraAby 0x3322, .nopAbx7C 0x3322, .adcAbx 0x3322, .rorAbx 0x3322,
       .rraAbx 0x3322] := by
  decide

theorem test_decode_row_8 :
    decodes
      [0x332280, 0x332281, 0x332282, 0x332283, 0x332284, 0x332285, 0x332286, 0x332287, 0x332288, 0x332289,
       0x33228A, 0x33228B, 0x33228C, 0x33228D, 0x33228E, 0x33228F] =
      [.nopImm80 0x22, .staIzx 0x22, .nopImm82 0x22, .saxIzx 0x22, .styZp 0x22, .staZp 0x22, .stxZp 0x22,
       .saxZp 0x22, .dey, .nopImm89 0x22, .txa, .aneImm 0x22, .styAbs 0x3322, .staAbs 0x3322, .stxAbs 0x3322,
       .saxAbs 0x3322] := by
  decide

theorem test_decode_row_9 :
    decodes
      [0x332290, 0x332291, 0x332292, 0x332293, 0x332294, 0x332295, 0x332296, 0x332297, 0x332298, 0x332299,
       0x33229A, 0x33229B, 0x33229C, 0x33229D, 0x33229E, 0x33229F] =
      [.bcc 0x22, .staIzy 0x22, .jam92, .shaIzy 0x22, .styZpx 0x22, .staZpx 0x22, .stxZpy 0x22, .saxZpy 0x22,
       .tya, .staAby 0x3322, .txs, .tasAby 0x3322, .shyAbx 0x3322, .staAbx 0x3322, .shxAby 0x3322,
       .shaAby 0x3322] := by
  decide

theorem test_decode_row_A :
    decodes
      [0x3322A0, 0x3322A1, 0x3322A2, 0x3322A3, 0x3322A4, 0x3322A5, 0x3322A6, 0x3322A7, 0x3322A8, 0x3322A9,
       0x3322AA, 0x3322AB, 0x3322AC, 0x3322AD, 0x3322AE, 0x3322AF] =
      [.ldyImm 0x22, .ldaIzx 0x22, .ldxImm 0x22, .laxIzx 0x22, .ldyZp 0x22, .ldaZp 0x22, .ldxZp 0x22,
       .laxZp 0x22, .tay, .ldaImm 0x22, .tax, .lxaImm 0x22, .ldyAbs 0x3322, .ldaAbs 0x3322, .ldxAbs 0x3322,
       .laxAbs 0x3322] := by
  decide

theorem test_decode_row_B :
    decodes
      [0x3322B0, 0x3322B1, 0x3322B2, 0x3322B3, 0x3322B4, 0x3322B5, 0x3322B6, 0x3322B7, 0x3322B8, 0x3322B9,
       0x3322BA, 0x3322BB, 0x3322BC, 0x3322BD, 0x3322BE, 0x3322BF] =
      [.bcs 0x22, .ldaIzy 0x22, .jamB2, .laxIzy 0x22, .ldyZpx 0x22, .ldaZpx 0x22, .ldxZpy 0x22, .laxZpy 0x22,
       .clv, .ldaAby 0x3322, .tsx, .lasAby 0x3322, .ldyAbx 0x3322, .ldaAbx 0x3322, .ldxAby 0x3322,
       .laxAby 0x3322] := by
  decide

theorem test_decode_row_C :
    decodes
      [0x3322C0, 0x3322C1, 0x3322C2, 0x3322C3, 0x3322C4, 0x3322C5, 0x3322C6, 0x3322C7, 0x3322C8, 0x3322C9,
       0x3322CA, 0x3322CB, 0x3322CC, 0x3322CD, 0x3322CE, 0x3322CF] =
      [.cpyImm 0x22, .cmpIzx 0x22, .nopImmC2 0x22, .dcpIzx 0x22, .cpyZp 0x22, .cmpZp 0x22, .decZp 0x22,
       .dcpZp 0x22, .iny, .cmpImm 0x22, .dex, .sbxImm 0x22, .cpyAbs 0x3322, .cmpAbs 0x3322, .decAbs 0x3322,
       .dcpAbs 0x3322] := by
  decide

theorem test_decode_row_D :
    decodes
      [0x3322D0, 0x3322D1, 0x3322D2, 0x3322D3, 0x3322D4, 0x3322D5, 0x3322D6, 0x3322D7, 0x3322D8, 0x3322D9,
       0x3322DA, 0x3322DB, 0x3322DC, 0x3322DD, 0x3322DE, 0x3322DF] =
      [.bne 0x22, .cmpIzy 0x22, .jamD2, .dcpIzy 0x22, .nopZpxD4 0x22, .cmpZpx 0x22, .decZpx 0x22, .dcpZpx 0x22,
       .cld, .cmpAby 0x3322, .nopDA, .dcpAby 0x3322, .nopAbxDC 0x3322, .cmpAbx 0x3322, .decAbx 0x3322,
       .dcpAbx 0x3322] := by
  decide

theorem test_decode_row_E :
    decodes
      [0x3322E0, 0x3322E1, 0x3322E2, 0x3322E3, 0x3322E4, 0x3322E5, 0x3322E6, 0x3322E7, 0x3322E8, 0x3322E9,
       0x3322EA, 0x3322EB, 0x3322EC, 0x3322ED, 0x3322EE, 0x3322EF] =
      [.cpxImm 0x22, .sbcIzx 0x22, .nopImmE2 0x22, .iscIzx 0x22, .cpxZp 0x22, .sbcZp 0x22, .incZp 0x22,
       .iscZp 0x22, .inx, .sbcImm 0x22, .nop, .sbcImmEB 0x22, .cpxAbs 0x3322, .sbcAbs 0x3322, .incAbs 0x3322,
       .iscAbs 0x3322] := by
  decide

theorem test_decode_row_F :
    decodes
      [0x3322F0, 0x3322F1, 0x3322F2, 0x3322F3, 0x3322F4, 0x3322F5, 0x3322F6, 0x3322F7, 0x3322F8, 0x3322F9,
       0x3322FA, 0x3322FB, 0x3322FC, 0x3322FD, 0x3322FE, 0x3322FF] =
      [.beq 0x22, .sbcIzy 0x22, .jamF2, .iscIzy 0x22, .nopZpxF4 0x22, .sbcZpx 0x22, .incZpx 0x22, .iscZpx 0x22,
       .sed, .sbcAby 0x3322, .nopFA, .iscAby 0x3322, .nopAbxFC 0x3322, .sbcAbx 0x3322, .incAbx 0x3322,
       .iscAbx 0x3322] := by
  decide

/-- An operand byte that is missing is refused, and what follows an instruction is left over. -/
theorem test_decode_truncated : decode [0xAD, 0x34] = .error (.truncated 0xAD) := rfl

theorem test_decode_leaves_the_rest : decode [0xA9, 0x01, 0x18] = .ok (.ldaImm 0x01, [0x18]) := rfl

theorem test_encode_low_byte_first : encode (.staAbs 0x1234) = [0x8D, 0x34, 0x12] := rfl

/-! ### One step (95_test_vectors.md; the number in a name is the vector's) -/

/-- `A`, `X`, `Y`, `S`, `P`, `PC`, the cycles and some bytes of memory after one step from the given registers and memory. -/
def after (r : Byte × Byte × Byte × Byte × Byte) (pc : Word) (mem : Memory) (look : List Word) :
    Option (List Nat × List Byte) :=
  let s := { State.reset with
    a := r.1, x := r.2.1, y := r.2.2.1, sp := r.2.2.2.1, p := r.2.2.2.2, pc := pc, mem := mem, cycles := 0, trace := [] }
  match step s with
  | .next t =>
    some ([t.a.toNat, t.x.toNat, t.y.toNat, t.sp.toNat, t.p.toNat, t.pc.toNat, t.cycles], look.map (byteAt t))
  | _ => none

theorem test_V1_ldaImm :
    after (0x00, 0x00, 0x00, 0xFF, 0x20) 0x0200
        [(0x0200, 0xA9), (0x0201, 0x80)] [] =
      some ([0x80, 0x00, 0x00, 0xFF, 0xA0, 0x0202, 2], []) := by decide

theorem test_V4_ldxZpy :
    after (0x00, 0x00, 0x05, 0xFF, 0x20) 0x0200
        [(0x0015, 0x7F), (0x0200, 0xB6), (0x0201, 0x10)] [] =
      some ([0x00, 0x7F, 0x05, 0xFF, 0x20, 0x0202, 4], []) := by decide

theorem test_V15_staAbx :
    after (0xAA, 0x10, 0x00, 0xFF, 0x20) 0x0200
        [(0x0200, 0x9D), (0x0201, 0x00), (0x0202, 0x12)] [0x1210] =
      some ([0xAA, 0x10, 0x00, 0xFF, 0x20, 0x0203, 5], [0xAA]) := by decide

theorem test_V19_incAbx :
    after (0x00, 0x01, 0x00, 0xFF, 0x20) 0x0200
        [(0x0200, 0xFE), (0x0201, 0xFF), (0x0202, 0x12), (0x1300, 0x7F)] [0x1300] =
      some ([0x00, 0x01, 0x00, 0xFF, 0xA0, 0x0203, 7], [0x80]) := by decide

theorem test_V20_jmpInd :
    after (0x00, 0x00, 0x00, 0xFF, 0x20) 0x0200
        [(0x0200, 0x6C), (0x0201, 0xFF), (0x0202, 0x12), (0x1200, 0x56), (0x12FF, 0x34), (0x1300, 0x78)] [] =
      some ([0x00, 0x00, 0x00, 0xFF, 0x20, 0x5634, 5], []) := by decide

theorem test_V22_ldyAbx :
    after (0x00, 0x01, 0x09, 0xFF, 0x20) 0x0200
        [(0x0200, 0xBC), (0x0201, 0x00), (0x0202, 0x30), (0x3001, 0x00)] [] =
      some ([0x00, 0x01, 0x00, 0xFF, 0x22, 0x0203, 4], []) := by decide

theorem test_V24_stxZpy :
    after (0x00, 0x12, 0x02, 0xFF, 0x20) 0x0200
        [(0x0200, 0x96), (0x0201, 0xFF)] [0x0001] =
      some ([0x00, 0x12, 0x02, 0xFF, 0x20, 0x0202, 4], [0x12]) := by decide

theorem test_V25_styZpx :
    after (0x00, 0x01, 0xAA, 0xFF, 0x20) 0x0200
        [(0x0200, 0x94), (0x0201, 0x10)] [0x0011] =
      some ([0x00, 0x01, 0xAA, 0xFF, 0x20, 0x0202, 4], [0xAA]) := by decide

theorem test_V27_tax :
    after (0x00, 0x55, 0x00, 0xFF, 0xA0) 0x0200
        [(0x0200, 0xAA)] [] =
      some ([0x00, 0x00, 0x00, 0xFF, 0x22, 0x0201, 2], []) := by decide

theorem test_V28_tay :
    after (0x90, 0x00, 0x00, 0xFF, 0x20) 0x0200
        [(0x0200, 0xA8)] [] =
      some ([0x90, 0x00, 0x90, 0xFF, 0xA0, 0x0201, 2], []) := by decide

theorem test_V29_txa :
    after (0xFF, 0x01, 0x00, 0xFF, 0xA2) 0x0200
        [(0x0200, 0x8A)] [] =
      some ([0x01, 0x01, 0x00, 0xFF, 0x20, 0x0201, 2], []) := by decide

theorem test_V30_tya :
    after (0x00, 0x00, 0xFF, 0xFF, 0x20) 0x0200
        [(0x0200, 0x98)] [] =
      some ([0xFF, 0x00, 0xFF, 0xFF, 0xA0, 0x0201, 2], []) := by decide

theorem test_V31_tsx :
    after (0x00, 0x00, 0x00, 0xFD, 0x20) 0x0200
        [(0x0200, 0xBA)] [] =
      some ([0x00, 0xFD, 0x00, 0xFD, 0xA0, 0x0201, 2], []) := by decide

theorem test_V32_txs :
    after (0x00, 0x00, 0x00, 0x80, 0xA0) 0x0200
        [(0x0200, 0x9A)] [] =
      some ([0x00, 0x00, 0x00, 0x00, 0xA0, 0x0201, 2], []) := by decide

theorem test_V33_adcImm :
    after (0x3A, 0x00, 0x00, 0xFF, 0x21) 0x0200
        [(0x0200, 0x69), (0x0201, 0x7C)] [] =
      some ([0xB7, 0x00, 0x00, 0xFF, 0xE0, 0x0202, 2], []) := by decide

theorem test_V34_adcImm :
    after (0x58, 0x00, 0x00, 0xFF, 0x28) 0x0200
        [(0x0200, 0x69), (0x0201, 0x46)] [] =
      some ([0x04, 0x00, 0x00, 0xFF, 0xE9, 0x0202, 2], []) := by decide

theorem test_V37_sbcImm :
    after (0x10, 0x00, 0x00, 0xFF, 0x21) 0x0200
        [(0x0200, 0xE9), (0x0201, 0x01)] [] =
      some ([0x0F, 0x00, 0x00, 0xFF, 0x21, 0x0202, 2], []) := by decide

theorem test_V38_sbcImm :
    after (0x50, 0x00, 0x00, 0xFF, 0x20) 0x0200
        [(0x0200, 0xE9), (0x0201, 0x50)] [] =
      some ([0xFF, 0x00, 0x00, 0xFF, 0xA0, 0x0202, 2], []) := by decide

theorem test_V41_andImm :
    after (0xF0, 0x00, 0x00, 0xFF, 0x61) 0x0200
        [(0x0200, 0x29), (0x0201, 0x0F)] [] =
      some ([0x00, 0x00, 0x00, 0xFF, 0x63, 0x0202, 2], []) := by decide

theorem test_V42_oraZpx :
    after (0x01, 0x01, 0x00, 0xFF, 0x20) 0x0200
        [(0x0011, 0x80), (0x0200, 0x15), (0x0201, 0x10)] [] =
      some ([0x81, 0x01, 0x00, 0xFF, 0xA0, 0x0202, 4], []) := by decide

theorem test_V43_eorAbs :
    after (0xFF, 0x00, 0x00, 0xFF, 0x20) 0x0200
        [(0x0200, 0x4D), (0x0201, 0x00), (0x0202, 0x30), (0x3000, 0xFF)] [] =
      some ([0x00, 0x00, 0x00, 0xFF, 0x22, 0x0203, 4], []) := by decide

theorem test_V44_cmpImm :
    after (0x10, 0x00, 0x00, 0xFF, 0xE0) 0x0200
        [(0x0200, 0xC9), (0x0201, 0x10)] [] =
      some ([0x10, 0x00, 0x00, 0xFF, 0x63, 0x0202, 2], []) := by decide

theorem test_V47_cpxImm :
    after (0x00, 0x04, 0x00, 0xFF, 0x20) 0x0200
        [(0x0200, 0xE0), (0x0201, 0x05)] [] =
      some ([0x00, 0x04, 0x00, 0xFF, 0xA0, 0x0202, 2], []) := by decide

theorem test_V48_cpyZp :
    after (0x00, 0x00, 0x00, 0xFF, 0x20) 0x0200
        [(0x0010, 0x00), (0x0200, 0xC4), (0x0201, 0x10)] [] =
      some ([0x00, 0x00, 0x00, 0xFF, 0x23, 0x0202, 3], []) := by decide

theorem test_V49_bitZp :
    after (0x01, 0x00, 0x00, 0xFF, 0x20) 0x0200
        [(0x0010, 0xC0), (0x0200, 0x24), (0x0201, 0x10)] [] =
      some ([0x01, 0x00, 0x00, 0xFF, 0xE2, 0x0202, 3], []) := by decide

theorem test_V51_inx :
    after (0x00, 0xFF, 0x00, 0xFF, 0x61) 0x0200
        [(0x0200, 0xE8)] [] =
      some ([0x00, 0x00, 0x00, 0xFF, 0x63, 0x0201, 2], []) := by decide

theorem test_V52_iny :
    after (0x00, 0x00, 0x7F, 0xFF, 0x20) 0x0200
        [(0x0200, 0xC8)] [] =
      some ([0x00, 0x00, 0x80, 0xFF, 0xA0, 0x0201, 2], []) := by decide

theorem test_V53_dex :
    after (0x00, 0x01, 0x00, 0xFF, 0x20) 0x0200
        [(0x0200, 0xCA)] [] =
      some ([0x00, 0x00, 0x00, 0xFF, 0x22, 0x0201, 2], []) := by decide

theorem test_V54_dey :
    after (0x00, 0x00, 0x00, 0xFF, 0x20) 0x0200
        [(0x0200, 0x88)] [] =
      some ([0x00, 0x00, 0xFF, 0xFF, 0xA0, 0x0201, 2], []) := by decide

theorem test_V55_aslAcc :
    after (0x81, 0x00, 0x00, 0xFF, 0x20) 0x0200
        [(0x0200, 0x0A)] [] =
      some ([0x02, 0x00, 0x00, 0xFF, 0x21, 0x0201, 2], []) := by decide

theorem test_V57_lsrAcc :
    after (0x01, 0x00, 0x00, 0xFF, 0xA0) 0x0200
        [(0x0200, 0x4A)] [] =
      some ([0x00, 0x00, 0x00, 0xFF, 0x23, 0x0201, 2], []) := by decide

theorem test_V59_rolAcc :
    after (0x80, 0x00, 0x00, 0xFF, 0x21) 0x0200
        [(0x0200, 0x2A)] [] =
      some ([0x01, 0x00, 0x00, 0xFF, 0x21, 0x0201, 2], []) := by decide

theorem test_V61_rorAcc :
    after (0x01, 0x00, 0x00, 0xFF, 0x20) 0x0200
        [(0x0200, 0x6A)] [] =
      some ([0x00, 0x00, 0x00, 0xFF, 0x23, 0x0201, 2], []) := by decide

theorem test_V64_decZp :
    after (0x00, 0x00, 0x00, 0xFF, 0x20) 0x0200
        [(0x0010, 0x00), (0x0200, 0xC6), (0x0201, 0x10)] [0x0010] =
      some ([0x00, 0x00, 0x00, 0xFF, 0xA0, 0x0202, 5], [0xFF]) := by decide

theorem test_V66_bcc :
    after (0x00, 0x00, 0x00, 0xFF, 0x20) 0x0200
        [(0x0200, 0x90), (0x0201, 0x02)] [] =
      some ([0x00, 0x00, 0x00, 0xFF, 0x20, 0x0204, 3], []) := by decide

theorem test_V67_bcs :
    after (0x00, 0x00, 0x00, 0xFF, 0x20) 0x0200
        [(0x0200, 0xB0), (0x0201, 0x02)] [] =
      some ([0x00, 0x00, 0x00, 0xFF, 0x20, 0x0202, 2], []) := by decide

theorem test_V68_beq :
    after (0x00, 0x00, 0x00, 0xFF, 0x22) 0x02F0
        [(0x02F0, 0xF0), (0x02F1, 0x7F)] [] =
      some ([0x00, 0x00, 0x00, 0xFF, 0x22, 0x0371, 4], []) := by decide

theorem test_V69_bne :
    after (0x00, 0x00, 0x00, 0xFF, 0x20) 0x0210
        [(0x0210, 0xD0), (0x0211, 0xFB)] [] =
      some ([0x00, 0x00, 0x00, 0xFF, 0x20, 0x020D, 3], []) := by decide

theorem test_V70_bmi :
    after (0x00, 0x00, 0x00, 0xFF, 0xA0) 0x0200
        [(0x0200, 0x30), (0x0201, 0x10)] [] =
      some ([0x00, 0x00, 0x00, 0xFF, 0xA0, 0x0212, 3], []) := by decide

theorem test_V71_bpl :
    after (0x00, 0x00, 0x00, 0xFF, 0x20) 0x0200
        [(0x0200, 0x10), (0x0201, 0xFE)] [] =
      some ([0x00, 0x00, 0x00, 0xFF, 0x20, 0x0200, 3], []) := by decide

theorem test_V72_bvc :
    after (0x00, 0x00, 0x00, 0xFF, 0x60) 0x0200
        [(0x0200, 0x50), (0x0201, 0x05)] [] =
      some ([0x00, 0x00, 0x00, 0xFF, 0x60, 0x0202, 2], []) := by decide

theorem test_V73_bvs :
    after (0x00, 0x00, 0x00, 0xFF, 0x60) 0x0200
        [(0x0200, 0x70), (0x0201, 0x80)] [] =
      some ([0x00, 0x00, 0x00, 0xFF, 0x60, 0x0182, 4], []) := by decide

theorem test_V77_jsrAbs :
    after (0x00, 0x00, 0x00, 0xFF, 0x20) 0x0200
        [(0x0200, 0x20), (0x0201, 0x00), (0x0202, 0x03)] [0x01FE, 0x01FF] =
      some ([0x00, 0x00, 0x00, 0xFD, 0x20, 0x0300, 6], [0x02, 0x02]) := by decide

theorem test_V80_rts :
    after (0x00, 0x00, 0x00, 0xFD, 0x20) 0x0200
        [(0x01FE, 0xFF), (0x01FF, 0xFF), (0x0200, 0x60)] [] =
      some ([0x00, 0x00, 0x00, 0xFF, 0x20, 0x0000, 6], []) := by decide

theorem test_V81_rti :
    after (0x00, 0x00, 0x00, 0xFC, 0x20) 0x0200
        [(0x01FD, 0xA1), (0x01FE, 0x34), (0x01FF, 0x12), (0x0200, 0x40)] [] =
      some ([0x00, 0x00, 0x00, 0xFF, 0xA1, 0x1234, 6], []) := by decide

theorem test_V83_brk :
    after (0x00, 0x00, 0x00, 0xFF, 0x20) 0x0200
        [(0x0200, 0x00), (0x0201, 0xEA), (0xFFFE, 0x00), (0xFFFF, 0x80)] [0x01FD, 0x01FE, 0x01FF] =
      some ([0x00, 0x00, 0x00, 0xFC, 0x24, 0x8000, 7], [0x30, 0x02, 0x02]) := by decide

theorem test_V85_pha :
    after (0x42, 0x00, 0x00, 0xFF, 0x20) 0x0200
        [(0x0200, 0x48)] [0x01FF] =
      some ([0x42, 0x00, 0x00, 0xFE, 0x20, 0x0201, 3], [0x42]) := by decide

theorem test_V87_php :
    after (0x00, 0x00, 0x00, 0xFF, 0x23) 0x0200
        [(0x0200, 0x08)] [0x01FF] =
      some ([0x00, 0x00, 0x00, 0xFE, 0x23, 0x0201, 3], [0x33]) := by decide

theorem test_V88_pla :
    after (0x55, 0x00, 0x00, 0xFE, 0x20) 0x0200
        [(0x01FF, 0x00), (0x0200, 0x68)] [] =
      some ([0x00, 0x00, 0x00, 0xFF, 0x22, 0x0201, 4], []) := by decide

theorem test_V90_plp :
    after (0x00, 0x00, 0x00, 0xFE, 0x20) 0x0200
        [(0x01FF, 0xFF), (0x0200, 0x28)] [] =
      some ([0x00, 0x00, 0x00, 0xFF, 0xEF, 0x0201, 4], []) := by decide

theorem test_V92_clc :
    after (0x00, 0x00, 0x00, 0xFF, 0xEF) 0x0200
        [(0x0200, 0x18)] [] =
      some ([0x00, 0x00, 0x00, 0xFF, 0xEE, 0x0201, 2], []) := by decide

theorem test_V93_sec :
    after (0x00, 0x00, 0x00, 0xFF, 0x20) 0x0200
        [(0x0200, 0x38)] [] =
      some ([0x00, 0x00, 0x00, 0xFF, 0x21, 0x0201, 2], []) := by decide

theorem test_V94_cli :
    after (0x00, 0x00, 0x00, 0xFF, 0x24) 0x0200
        [(0x0200, 0x58)] [] =
      some ([0x00, 0x00, 0x00, 0xFF, 0x20, 0x0201, 2], []) := by decide

theorem test_V95_sei :
    after (0x00, 0x00, 0x00, 0xFF, 0x20) 0x0200
        [(0x0200, 0x78)] [] =
      some ([0x00, 0x00, 0x00, 0xFF, 0x24, 0x0201, 2], []) := by decide

theorem test_V96_cld :
    after (0x00, 0x00, 0x00, 0xFF, 0x28) 0x0200
        [(0x0200, 0xD8)] [] =
      some ([0x00, 0x00, 0x00, 0xFF, 0x20, 0x0201, 2], []) := by decide

theorem test_V97_sed :
    after (0x00, 0x00, 0x00, 0xFF, 0x20) 0x0200
        [(0x0200, 0xF8)] [] =
      some ([0x00, 0x00, 0x00, 0xFF, 0x28, 0x0201, 2], []) := by decide

theorem test_V98_clv :
    after (0x00, 0x00, 0x00, 0xFF, 0x60) 0x0200
        [(0x0200, 0xB8)] [] =
      some ([0x00, 0x00, 0x00, 0xFF, 0x20, 0x0201, 2], []) := by decide

theorem test_V99_nop :
    after (0x01, 0x02, 0x03, 0xFF, 0xEF) 0x0200
        [(0x0200, 0xEA)] [] =
      some ([0x01, 0x02, 0x03, 0xFF, 0xEF, 0x0201, 2], []) := by decide

theorem test_V100_sloZp :
    after (0x01, 0x00, 0x00, 0xFF, 0x20) 0x0200
        [(0x0010, 0x81), (0x0200, 0x07), (0x0201, 0x10)] [0x0010] =
      some ([0x03, 0x00, 0x00, 0xFF, 0x21, 0x0202, 5], [0x02]) := by decide

theorem test_V101_rlaZp :
    after (0xFF, 0x00, 0x00, 0xFF, 0x21) 0x0200
        [(0x0010, 0x80), (0x0200, 0x27), (0x0201, 0x10)] [0x0010] =
      some ([0x01, 0x00, 0x00, 0xFF, 0x21, 0x0202, 5], [0x01]) := by decide

theorem test_V102_sreZp :
    after (0x01, 0x00, 0x00, 0xFF, 0x20) 0x0200
        [(0x0010, 0x03), (0x0200, 0x47), (0x0201, 0x10)] [0x0010] =
      some ([0x00, 0x00, 0x00, 0xFF, 0x23, 0x0202, 5], [0x01]) := by decide

theorem test_V103_rraZp :
    after (0x10, 0x00, 0x00, 0xFF, 0x20) 0x0200
        [(0x0010, 0x03), (0x0200, 0x67), (0x0201, 0x10)] [0x0010] =
      some ([0x12, 0x00, 0x00, 0xFF, 0x20, 0x0202, 5], [0x01]) := by decide

theorem test_V105_saxZp :
    after (0xF0, 0x3C, 0x00, 0xFF, 0x20) 0x0200
        [(0x0200, 0x87), (0x0201, 0x10)] [0x0010] =
      some ([0xF0, 0x3C, 0x00, 0xFF, 0x20, 0x0202, 3], [0x30]) := by decide

theorem test_V106_laxZp :
    after (0x00, 0x00, 0x00, 0xFF, 0x20) 0x0200
        [(0x0010, 0x80), (0x0200, 0xA7), (0x0201, 0x10)] [] =
      some ([0x80, 0x80, 0x00, 0xFF, 0xA0, 0x0202, 3], []) := by decide

theorem test_V108_dcpZp :
    after (0x10, 0x00, 0x00, 0xFF, 0x20) 0x0200
        [(0x0010, 0x11), (0x0200, 0xC7), (0x0201, 0x10)] [0x0010] =
      some ([0x10, 0x00, 0x00, 0xFF, 0x23, 0x0202, 5], [0x10]) := by decide

theorem test_V110_iscZp :
    after (0x05, 0x00, 0x00, 0xFF, 0x21) 0x0200
        [(0x0010, 0x00), (0x0200, 0xE7), (0x0201, 0x10)] [0x0010] =
      some ([0x04, 0x00, 0x00, 0xFF, 0x21, 0x0202, 5], [0x01]) := by decide

theorem test_V112_ancImm0B :
    after (0xFF, 0x00, 0x00, 0xFF, 0x20) 0x0200
        [(0x0200, 0x0B), (0x0201, 0x80)] [] =
      some ([0x80, 0x00, 0x00, 0xFF, 0xA1, 0x0202, 2], []) := by decide

theorem test_V113_alrImm :
    after (0xFF, 0x00, 0x00, 0xFF, 0x20) 0x0200
        [(0x0200, 0x4B), (0x0201, 0x03)] [] =
      some ([0x01, 0x00, 0x00, 0xFF, 0x21, 0x0202, 2], []) := by decide

theorem test_V114_arrImm :
    after (0xFF, 0x00, 0x00, 0xFF, 0x21) 0x0200
        [(0x0200, 0x6B), (0x0201, 0xFF)] [] =
      some ([0xFF, 0x00, 0x00, 0xFF, 0xA1, 0x0202, 2], []) := by decide

theorem test_V115_arrImm :
    after (0xFF, 0x00, 0x00, 0xFF, 0x20) 0x0200
        [(0x0200, 0x6B), (0x0201, 0xC0)] [] =
      some ([0x60, 0x00, 0x00, 0xFF, 0x21, 0x0202, 2], []) := by decide

theorem test_V117_sbxImm :
    after (0x0F, 0x03, 0x00, 0xFF, 0x20) 0x0200
        [(0x0200, 0xCB), (0x0201, 0x01)] [] =
      some ([0x0F, 0x02, 0x00, 0xFF, 0x21, 0x0202, 2], []) := by decide

theorem test_V123_shaAby :
    after (0xFF, 0xFF, 0x10, 0xFF, 0x20) 0x0200
        [(0x0200, 0x9F), (0x0201, 0x00), (0x0202, 0x30)] [0x3010] =
      some ([0xFF, 0xFF, 0x10, 0xFF, 0x20, 0x0203, 5], [0x31]) := by decide

theorem test_V126_shxAby :
    after (0x00, 0xFF, 0x80, 0xFF, 0x20) 0x0200
        [(0x0200, 0x9E), (0x0201, 0x00), (0x0202, 0x02)] [0x0280] =
      some ([0x00, 0xFF, 0x80, 0xFF, 0x20, 0x0203, 5], [0x03]) := by decide

theorem test_V127_shyAbx :
    after (0x00, 0x00, 0x01, 0xFF, 0x20) 0x0200
        [(0x0200, 0x9C), (0x0201, 0x00), (0x0202, 0x30)] [0x3000] =
      some ([0x00, 0x00, 0x01, 0xFF, 0x20, 0x0203, 5], [0x01]) := by decide

theorem test_V128_tasAby :
    after (0xF3, 0x3F, 0x00, 0xFF, 0x20) 0x0200
        [(0x0200, 0x9B), (0x0201, 0x00), (0x0202, 0x30)] [0x3000] =
      some ([0xF3, 0x3F, 0x00, 0x33, 0x20, 0x0203, 5], [0x31]) := by decide

theorem test_V129_lasAby :
    after (0x00, 0x00, 0x00, 0x3F, 0x20) 0x0200
        [(0x0200, 0xBB), (0x0201, 0x00), (0x0202, 0x30), (0x3000, 0xF0)] [] =
      some ([0x30, 0x30, 0x00, 0x30, 0x20, 0x0203, 4], []) := by decide

/-- Opcode `02` (R351): five cycles, `PC` after the opcode, the engine jammed. -/
theorem test_jam02 :
    (match step { State.reset with mem := [(0x8000, 0x02)], cycles := 0 } with
      | .next t => some (t.run, t.pc, t.cycles)
      | _ => none) = some (.jammed, 0x8001, 5) := by decide

/-! ### The hooks are read from the profile: `exec` under two of them (R157, R373) -/

/-- `PC` and the cycles of `JMP ($12FF)` after its fetch, under a profile. -/
def jumpThrough12FF (v : Variant) : Option (Word × Nat) :=
  match exec (.jmpInd 0x12FF)
      { State.reset with variant := v, mem := [(0x1200, 0x40), (0x12FF, 0x10), (0x1300, 0x50)], cycles := 3 } with
  | .next t => some (t.pc, t.cycles)
  | _ => none

theorem test_jmpInd_wraps_in_page_nmos : jumpThrough12FF .nmos6502 = some (0x4010, 5) := by decide

theorem test_jmpInd_crosses_page_cmos : jumpThrough12FF .cmos65c02 = some (0x5010, 6) := by decide

/-! ### Output pins in a bus cycle (R41, R43) -/

/-- `RD` falls, stays lowered, and rises; the rise is what records the cycle. -/
theorem test_read_cycle_edges :
    let low := driveOutput .rd .lowered State.reset
    let high := driveOutput .rd .raised (low.2.tick 0x1234 0x56)
    low.1 = .fellEdge ∧ low.2.pins.rd = .lowered ∧ low.2.trace = State.reset.trace ∧
      high.1 = .roseEdge ∧ high.2.pins.rd = .raised ∧ high.2.trace.getLast? = some ⟨0x1234, 0x56, .read, false⟩ := by
  decide

/-! ### Witnesses: states and operands that meet the hypotheses of the obligations -/

/-- A map that reads and writes everywhere makes every address mapped, readable and writable. -/
theorem regionAt_wholeSpace {s : State} (h : s.regions = wholeSpace) (a : Word) :
    s.regionAt a = some ⟨0, 65536, .readWrite⟩ := by
  simp [State.regionAt, h, wholeSpace, claims]

theorem allMapped_of_wholeSpace {s : State} (h : s.regions = wholeSpace) : AllMapped s :=
  fun a => by rw [Mapped, regionAt_wholeSpace h]; rfl

theorem ram_of_wholeSpace {s : State} (h : s.regions = wholeSpace) (a : Word) : Ram s a :=
  ⟨⟨_, regionAt_wholeSpace h a, by decide⟩, ⟨_, regionAt_wholeSpace h a, by decide⟩⟩

/-- The hypothesis of every statement about instructions that asks for a complete map and nothing more:
TransferInstructions, RegisterIncrements, AccumulatorShifts, JamInstruction, PushInstructions, FlagInstructions,
AnInstructionStopsOnlyAtAnUnmappedAddress. -/
theorem witness_complete_map : AllMapped State.reset := allMapped_of_wholeSpace rfl

/-- The hypothesis of every statement that asks for profile NMOS6502 too: LoadInstructions, StoreInstructions, AddWithCarry,
SubtractWithBorrow, LogicalOperations, CompareInstructions, MemoryShiftsAndIncrements, ShiftsCombinedWithLogic,
ArithmeticOnMemoryAndA, UnstableStores, NoOperations, JumpInstructions, PullInstructions, BreakInstruction,
ReturnFromInterrupt, and the ARR clause of ImmediateCombinations. -/
theorem witness_configured : Configured State.reset := ⟨rfl, witness_complete_map⟩

/-- ReturnFromSubroutine, and with the operands of the witnesses below EffectiveAddressesAndTheirCycles and JumpToSubroutine. -/
theorem witness_little_endian : AllMapped State.reset ∧ State.reset.profile.byteOrder = .littleEndian :=
  ⟨witness_complete_map, rfl⟩

/-- TheDriverReadsItsHooksFromTheProfile, with the decimal flag of its last clause set. -/
theorem witness_cmos_hooks :
    let s := { State.reset with variant := .cmos65c02 }
    s.variant = .cmos65c02 ∧ AllMapped s ∧ flag .d s.p = true :=
  ⟨rfl, allMapped_of_wholeSpace rfl, by decide⟩

/-- A map with every kind of region and a hole from `A000`. -/
def patchwork : State :=
  { State.reset with
    regions := [⟨0x0000, 0x8000, .readWrite⟩, ⟨0x8000, 0x1000, .readOnly⟩, ⟨0x9000, 0x1000, .writeOnly⟩] }

/-- `EA` at the reset `PC`. -/
def idle : State := { State.reset with mem := [(0x8000, 0xEA)] }

/-- EncodeOfDecode. -/
theorem witness_decode_answers : decode [0x8D, 0x00, 0x02, 0x18] = .ok (.staAbs 0x0200, [0x18]) := rfl

/-- EveryStepKeepsTheInvariant. -/
theorem witness_invariant_and_step : Sys2Proof.Machine.Inv idle ∧ ∃ t, step idle = .next t :=
  ⟨⟨by decide, by decide, by decide, rfl, rfl, rfl⟩, _, rfl⟩

/-- A store, so that memory changes: EveryCycleIsCountedAndTraced, MemoryChangesOnlyByTracedWrites,
ThePlatformIsNeverChanged, NothingReadsTheCycleCounterOrTheTrace. -/
theorem witness_step_that_stores :
    ∃ t, step { State.reset with mem := [(0x8000, 0x85), (0x8001, 0x10)] } = .next t ∧ byteAt t 0x0010 = 0xAA ∧
      t.trace.length = 10 := ⟨_, rfl, rfl, rfl⟩

/-- ColdStartReachesTheResetVector. -/
theorem witness_cold_start :
    let s := { State.reset with pins := { State.reset.pins with power := .lowered } }
    s.pins.power = .lowered ∧ s.pins.reset = .raised ∧ s.pins.rdy = .raised ∧ s.variant = .nmos6502 ∧ AllMapped s :=
  ⟨rfl, rfl, rfl, rfl, allMapped_of_wholeSpace rfl⟩

/-- StepRunsDecodedInstruction: three bytes that wrap at the end of the space. -/
theorem witness_decoded_across_the_wrap :
    let s := { State.reset with pc := 0xFFFE, mem := [(0x0000, 0x12), (0xFFFE, 0xAD), (0xFFFF, 0x34)] }
    Ready s ∧ decode [byteAt s s.pc, byteAt s (s.pc + 1), byteAt s (s.pc + 2)] = .ok (.ldaAbs 0x1234, []) ∧
      byteAt s s.pc ≠ 0x20 ∧ (encode (.ldaAbs 0x1234)).length = 3 ∧ ∀ k < 3, Readable s (s.pc + BitVec.ofNat 16 k) :=
  ⟨⟨rfl, rfl, rfl, rfl, rfl⟩, rfl, by decide, rfl, fun _ _ => (ram_of_wholeSpace rfl _).1⟩

/-- StepRunsDecodedInstruction: JSR, of which the step fetches two bytes. -/
theorem witness_decoded_jsr :
    let s := { State.reset with mem := [(0x8000, 0x20), (0x8001, 0x34), (0x8002, 0x12)] }
    Ready s ∧ decode [byteAt s s.pc, byteAt s (s.pc + 1), byteAt s (s.pc + 2)] = .ok (.jsrAbs 0x1234, []) ∧
      byteAt s s.pc = 0x20 ∧ ∀ k < 2, Readable s (s.pc + BitVec.ofNat 16 k) :=
  ⟨⟨rfl, rfl, rfl, rfl, rfl⟩, rfl, rfl, fun _ _ => (ram_of_wholeSpace rfl _).1⟩

/-- StepsThatExecuteNothing, first and second clause. -/
theorem witness_unpowered_and_open_profile :
    ({ State.reset with pins := { State.reset.pins with power := .lowered } }).pins.power = .lowered ∧
      State.reset.pins.power = .raised ∧ ({ State.reset with variant := .z80 }).variant ≠ .nmos6502 :=
  ⟨rfl, rfl, by decide⟩

/-- StepsThatExecuteNothing, third clause: running, and jammed with a reset pending. -/
theorem witness_stall :
    let s := { State.reset with pins := { State.reset.pins with rdy := .lowered } }
    s.pins.power = .raised ∧ s.variant = .nmos6502 ∧ s.pins.rdy = .lowered ∧ s.run = .running ∧
      s.pins.sync = .lowered ∧ Mapped s s.pc ∧ ({ s with run := .jammed, pendReset := true }).pendReset = true :=
  ⟨rfl, rfl, rfl, rfl, rfl, allMapped_of_wholeSpace rfl _, rfl⟩

/-- JamLastsUntilReset, with the other latches set. -/
theorem witness_jammed :
    let s := { State.reset with run := .jammed, pendNmi := true, pendIrq := true, pendSo := true }
    0 < 1 ∧ s.pins.power = .raised ∧ s.variant = .nmos6502 ∧ s.run = .jammed ∧ s.pendReset = false ∧ Mapped s 0xFFFF :=
  ⟨by decide, rfl, rfl, rfl, rfl, allMapped_of_wholeSpace rfl _⟩

/-- SoLatchSetsOverflowFirst, its three clauses. -/
theorem witness_so_latch :
    let s := { idle with pendSo := true }
    s.pins.power = .raised ∧ s.pins.so = .raised ∧ s.variant = .nmos6502 ∧ s.pendSo = true ∧ ∃ t, step s = .next t :=
  ⟨rfl, rfl, rfl, rfl, _, rfl⟩

/-- ResetIsServicedFirst, in a jam with the other events pending. -/
theorem witness_reset_pending :
    let s := { State.reset with run := .jammed, pendReset := true, pendNmi := true, pendIrq := true }
    s.pins.power = .raised ∧ s.variant = .nmos6502 ∧ s.pins.rdy = .raised ∧ s.pins.sync = .lowered ∧
      s.pendReset = true ∧ AllMapped s :=
  ⟨rfl, rfl, rfl, rfl, rfl, allMapped_of_wholeSpace rfl⟩

/-- NmiEntry, with an IRQ pending too. -/
theorem witness_nmi_pending :
    let s := { State.reset with pendNmi := true, pendIrq := true }
    s.pins.power = .raised ∧ s.variant = .nmos6502 ∧ s.run = .running ∧ s.pins.rdy = .raised ∧ s.pins.sync = .lowered ∧
      s.pendReset = false ∧ s.pendNmi = true ∧ AllMapped s :=
  ⟨rfl, rfl, rfl, rfl, rfl, rfl, rfl, allMapped_of_wholeSpace rfl⟩

/-- IrqEntry. -/
theorem witness_irq_pending :
    let s := { State.reset with p := 0x20, pendIrq := true }
    s.pins.power = .raised ∧ s.variant = .nmos6502 ∧ s.run = .running ∧ s.pins.rdy = .raised ∧ s.pins.sync = .lowered ∧
      s.pendReset = false ∧ s.pendNmi = false ∧ s.pendIrq = true ∧ flag .i s.p = false ∧ AllMapped s :=
  ⟨rfl, rfl, rfl, rfl, rfl, rfl, rfl, rfl, by decide, allMapped_of_wholeSpace rfl⟩

/-- MaskedIrqIsIgnored: also where the step executes `CLI` and so ends unmasked. -/
theorem witness_masked_irq :
    let s := { State.reset with mem := [(0x8000, 0x58)] }
    flag .i s.p = true ∧ ∃ t, step { s with pendIrq := false } = .next t ∧ flag .i t.p = false :=
  ⟨by decide, _, rfl, by decide⟩

/-- SyncMarksTheFetchOnly: a step that fetches and one that does not. -/
theorem witness_sync :
    idle.pins.power = .raised ∧ idle.pins.sync = .lowered ∧ (∃ t, step idle = .next t) ∧
      ∃ t, step { idle with run := .jammed } = .next t :=
  ⟨rfl, rfl, ⟨_, rfl⟩, _, rfl⟩

/-- CycleCountsFollowTheOpcodeTable, PcAdvancesByTheInstructionLength. -/
theorem witness_ready_step : Ready idle ∧ ∃ t, step idle = .next t ∧ t.ir ∉ transferOpcodes :=
  ⟨⟨rfl, rfl, rfl, rfl, rfl⟩, _, rfl, by decide⟩

/-- RegistersAndFlagsHaveTheirWriters: an instruction that completes and changes a register. -/
theorem witness_exec_completes : State.reset.variant = .nmos6502 ∧ ∃ t, exec (.ldxImm 0x11) State.reset = .next t ∧ t.x ≠ State.reset.x :=
  ⟨rfl, _, rfl, by decide⟩

/-- BusCycles: each clause at the ends of its region, an unmapped address, a readable one, a write-only one, a mapped one
that cannot be written. -/
theorem witness_bus_cycles :
    patchwork.regionAt 0xA000 = none ∧ patchwork.regionAt 0xFFFF = none ∧
      Readable patchwork 0x0000 ∧ Readable patchwork 0x8FFF ∧
      patchwork.regionAt 0x9000 = some ⟨0x9000, 0x1000, .writeOnly⟩ ∧
      patchwork.regionAt 0x9FFF = some ⟨0x9000, 0x1000, .writeOnly⟩ ∧
      Mapped patchwork 0x8000 ∧ Mapped patchwork 0x9FFF :=
  ⟨rfl, rfl, ⟨_, rfl, by decide⟩, ⟨_, rfl, by decide⟩, rfl, rfl, rfl, rfl⟩

/-- EffectiveAddressesAndTheirCycles: pointers whose second byte wraps to `00`. -/
theorem witness_pointer_cells :
    AllMapped State.reset ∧ State.reset.profile.byteOrder = .littleEndian ∧
      (∀ c ∈ pointerCells State.reset (.izy .onCross 0xFF), Readable State.reset c) ∧
      (∀ c ∈ pointerCells State.reset (.izx 0x44), Readable State.reset c) ∧
      pointerCells State.reset (.izx 0x44) = [0x00FF, 0x0000] :=
  ⟨witness_complete_map, rfl, fun _ _ => (ram_of_wholeSpace rfl _).1, fun _ _ => (ram_of_wholeSpace rfl _).1, by decide⟩

/-- UnstableStores, its last clause. -/
theorem witness_unstable_store_pointer : ∀ c ∈ pointerCells State.reset (.izy .always 0xFF), Readable State.reset c :=
  fun _ _ => (ram_of_wholeSpace rfl _).1

/-- PinEdges: every clause has a pin and a level. -/
theorem witness_pin_edges :
    let off := { State.reset with pins := { State.reset.pins with power := .lowered, nmi := .lowered } }
    State.reset.variant = .nmos6502 ∧ off.variant = .nmos6502 ∧ State.reset.pins.level .nmi = .raised ∧
      InputPin.reset.surface ∈ ({ State.reset with variant := .z80 } : State).profile.pins ∧
      State.reset.pins.output .rd = .raised ∧ State.reset.pins.output .rd ≠ .lowered ∧
      State.reset.pins.output .sync ≠ .raised ∧
      State.reset.pins.level .nmi ≠ .lowered ∧ State.reset.pins.power = .raised ∧
      off.pins.level .power ≠ .raised ∧ off.pins.level .nmi ≠ .raised ∧ off.pins.level .so ≠ .lowered ∧
      off.pins.power = .lowered :=
  ⟨rfl, rfl, rfl, sharedPins_mem .z80 (by decide), rfl, by decide, by decide, by decide, rfl, by decide, by decide,
    by decide, rfl⟩

/-- HostAccess: mapped and unmapped addresses, a state of the profile, and a flag other than `B`. -/
theorem witness_host_access :
    Mapped patchwork 0x8FFF ∧ Mapped patchwork 0x9FFF ∧ ¬Mapped patchwork 0xA000 ∧ patchwork.variant = .nmos6502 ∧
      Flag.c ≠ Flag.b :=
  ⟨rfl, rfl, by unfold Mapped; decide, rfl, by decide⟩

/-- DecimalArithmeticOnDigits, at the largest digits. -/
theorem witness_digits : flag .d 0x28 = true ∧ validDigits 0x99 ∧ validDigits 0x00 :=
  ⟨by decide, by unfold validDigits; decide, by unfold validDigits; decide⟩

/-- OpenConstantInstructions: the operands of its two implications, and ImmediateCombinations, which has no hypothesis. -/
theorem witness_cancelling_operands : ({ State.reset with a := 0xFF }).a = 0xFF ∧ (0x00 : Byte) = 0 := ⟨rfl, rfl⟩

/-- BranchInstructions: one condition true and one false in a state with a complete map. -/
theorem witness_branch_conditions :
    AllMapped State.reset ∧ (!flag .c State.reset.p) = false ∧ flag .c State.reset.p = true :=
  ⟨witness_complete_map, by decide, by decide⟩

/-- JumpToSubroutine and SubroutineCallReturns: a stack pointer that wraps between the pushes. -/
theorem witness_call_at_the_stack_wrap :
    let s := { State.reset with sp := 0x00 }
    AllMapped s ∧ s.profile.byteOrder = .littleEndian ∧ (∀ k ∈ [0, 1], Ram s (slotBelow s k)) ∧ slotBelow s 0 = 0x0100 ∧ slotBelow s 1 = 0x01FF :=
  ⟨allMapped_of_wholeSpace rfl, rfl, fun _ _ => ram_of_wholeSpace rfl _, by decide, by decide⟩

/-- EntryThenRtiResumes: a hardware entry and BRK, at a stack pointer that wraps. -/
theorem witness_entry_at_the_stack_wrap :
    let s := { State.reset with sp := 0x01 }
    Configured s ∧ Entry.nmi ≠ .reset ∧ Entry.brk ≠ .reset ∧ reservedBitsHold s.p = true ∧
      ∀ k ∈ [0, 1, 2], Ram s (slotBelow s k) :=
  ⟨⟨rfl, allMapped_of_wholeSpace rfl⟩, by decide, by decide, by decide, fun _ _ => ram_of_wholeSpace rfl _⟩

end Sys2Proof.Tests
end

section
/-! PROOFS. What a powered step of profile NMOS6502 is, case by case: a jam cycle, a stall cycle, an entry sequence or an
instruction (R211); and what a step is outside that profile or without power. -/

namespace Sys2Proof.Machine

open Config

theorem step_unpowered {s : State} (hp : s.pins.power = .lowered) : step s = .next s := by
  rw [step, boundary, if_pos hp]

theorem step_openProfile {s : State} (hp : s.pins.power = .raised) (hv : s.variant ≠ .nmos6502) :
    step s = .refused (.openProfile s.variant) := by
  rw [step, boundary, if_neg (by simp [hp]), tableOf_open hv]

section

variable {s : State} (hp : s.pins.power = .raised) (hv : s.variant = .nmos6502)

include hp hv

/-- A jam lasts while no reset is latched (R220). -/
theorem step_of_jammed (hj : s.run = .jammed) (hr : s.pendReset = false) : step s = conclude (jamCycle (applySo s)) := by
  rw [step, boundary, if_neg (by simp [hp]), tableOf_nmos hv]
  simp only [applySo_run, applySo_pendReset, hj, hr, decide_true, Bool.not_false, Bool.and_self, if_true]
  cases jamCycle (applySo s) <;> rfl

variable (hj : ¬(s.run = .jammed ∧ s.pendReset = false))

include hj

theorem step_of_stalled (hrdy : s.pins.rdy = .lowered) : step s = conclude (stallCycle (applySo s)) := by
  have hj' : (decide (s.run = .jammed) && !s.pendReset) = false := by simpa using hj
  rw [step, boundary, if_neg (by simp [hp]), tableOf_nmos hv]
  simp only [applySo_run, applySo_pendReset, applySo_pins, hj', hrdy, Bool.false_eq_true, if_false, if_true]
  cases stallCycle (applySo s) <;> rfl

variable (hrdy : s.pins.rdy = .raised) {u : State} (hu : fetchOpcode (applySo s) = .ok u)

include hrdy hu

theorem boundary_of_fetched : boundary s = afterFetch decodeOp u := by
  have hj' : (decide (s.run = .jammed) && !s.pendReset) = false := by simpa using hj
  rw [boundary, if_neg (by simp [hp]), tableOf_nmos hv]
  simp [hj', hrdy, hu]

/-- The selected event's sequence replaces the instruction (R404, R405). -/
theorem step_of_selected {e : Entry} (he : selectEvent u = some e) : step s = conclude (enter e (onSelection e u)) := by
  rw [step, boundary_of_fetched hp hv hj hrdy hu, afterFetch, he]
  dsimp only
  cases enter e (onSelection e u) <;> rfl

theorem step_of_dispatched (he : selectEvent u = none) {i : Instr} {w : State}
    (hf : fetchOperands decodeOp { u with pc := u.pc + 1 } = .ok (i, w)) : step s = exec i w := by
  rw [step, boundary_of_fetched hp hv hj hrdy hu, afterFetch, he]
  simp only [hf]

end

end Sys2Proof.Machine
end

section
/-! PROOFS. A step as the SO latch, the boundary's fetch and a path of bus cycles (`step_path_cases`), and what follows for the
invariant (O7) and for the platform (O20). -/

namespace Sys2Proof.Machine

open Config

/-! ### A step as a path -/

/-- The SO latch is a change of `P` and a latch (R45). -/
theorem RegsOnly.of_applySo (s : State) : RegsOnly s (applySo s) :=
  ⟨by simp, by simp, by simp, by simp, by simp, by simp, by simp, by simp, by simp,
    fun _ h => by rw [applySo_p]; split <;> simp [h], fun _ => by simp⟩

theorem RegsOnly.of_ir (s : State) (v : Byte) : RegsOnly s { s with ir := v } :=
  ⟨rfl, rfl, rfl, rfl, rfl, rfl, rfl, rfl, rfl, fun _ h => h, fun _ => rfl⟩

theorem RegsOnly.of_onSelection (e : Entry) (s : State) : RegsOnly s (onSelection e s) := by
  cases e <;> exact ⟨rfl, rfl, rfl, rfl, rfl, rfl, rfl, rfl, rfl, fun _ h => h, fun _ => rfl⟩

/-- The read at `PC` with `SYNC` raised for its one cycle (R213, R214). -/
def syncCycle (r : Region) (s : State) : State := (readCycle r s.pc (s.setSync .raised)).setSync .lowered

theorem syncRead_eq_syncCycle {s t : State} {v : Byte} (h : syncRead s = .ok (v, t)) :
    ∃ r, s.regionAt s.pc = some r ∧ t = syncCycle r s := by
  obtain ⟨r, hr, -, rfl⟩ := (syncRead_ok_iff s t v).1 h
  exact ⟨r, hr, rfl⟩

/-- A cycle with `SYNC` leaves what a read cycle leaves, but for the mark of its event and the level of `SYNC`. -/
theorem syncCycle_eq (r : Region) (s : State) : syncCycle r s = { s with
    cycles := s.cycles + 1
    addr := s.pc
    data := busByte r s.pc s
    trace := s.trace ++ [⟨s.pc, busByte r s.pc s, .read, true⟩]
    freeIndex := if r.access = .writeOnly then s.freeIndex + 1 else s.freeIndex
    pins := { s.pins with sync := .lowered, rd := .raised } } := by
  rw [syncCycle, setSync_eq, setSync_eq, readCycle_eq]
  rfl

@[simp] theorem syncCycle_p (r : Region) (s : State) : (syncCycle r s).p = s.p := by rw [syncCycle_eq]

@[simp] theorem syncCycle_pc (r : Region) (s : State) : (syncCycle r s).pc = s.pc := by rw [syncCycle_eq]

@[simp] theorem syncCycle_pendReset (r : Region) (s : State) : (syncCycle r s).pendReset = s.pendReset := by
  rw [syncCycle_eq]

@[simp] theorem syncCycle_pendNmi (r : Region) (s : State) : (syncCycle r s).pendNmi = s.pendNmi := by
  rw [syncCycle_eq]

@[simp] theorem syncCycle_pendIrq (r : Region) (s : State) : (syncCycle r s).pendIrq = s.pendIrq := by
  rw [syncCycle_eq]

@[simp] theorem syncCycle_pendSo (r : Region) (s : State) : (syncCycle r s).pendSo = s.pendSo := by
  rw [syncCycle_eq]

@[simp] theorem syncCycle_pins (r : Region) (s : State) :
    (syncCycle r s).pins = { s.pins with sync := .lowered, rd := .raised } := by rw [syncCycle_eq]

@[simp] theorem syncCycle_variant (r : Region) (s : State) : (syncCycle r s).variant = s.variant := by
  rw [syncCycle_eq]

@[simp] theorem syncCycle_regions (r : Region) (s : State) : (syncCycle r s).regions = s.regions := by
  rw [syncCycle_eq]

@[simp] theorem syncCycle_mem (r : Region) (s : State) : (syncCycle r s).mem = s.mem := by rw [syncCycle_eq]

/-- The opcode fetch is a cycle with `SYNC`, whose byte goes to `IR` (R213). -/
theorem fetchOpcode_syncCycle {s u : State} (h : fetchOpcode s = .ok u) :
    ∃ r v, s.regionAt s.pc = some r ∧ u = { syncCycle r s with ir := v } := by
  obtain ⟨v, w, hw, rfl⟩ := (fetchOpcode_ok_iff s u).1 h
  obtain ⟨r, hr, rfl⟩ := syncRead_eq_syncCycle hw
  exact ⟨r, v, hr, rfl⟩

theorem fetchOperands_path {s t : State} {i : Instr} (hv : s.variant = .nmos6502)
    (h : fetchOperands decodeOp s = .ok (i, t)) : Path s t := by
  rcases (fetchOperands_ok_iff s t i hv).1 h with
    ⟨-, -, rfl⟩ | ⟨-, b, u, hu, ⟨-, -, rfl⟩ | ⟨-, -, -, rfl⟩ | ⟨-, -, c, hc, -⟩⟩
  · exact .refl _
  · exact fetchByte_path hu
  · exact fetchByte_path hu
  · exact (fetchByte_path hu).trans (fetchByte_path hc)

/-- After the opcode fetch: an entry sequence, or the operand fetch and an instruction. -/
theorem afterFetch_path {u t : State} (hv : u.variant = .nmos6502)
    (h : (∃ e, selectEvent u = some e ∧ enter e (onSelection e u) = .ok t) ∨
      (selectEvent u = none ∧ ∃ i v, fetchOperands decodeOp { u with pc := u.pc + 1 } = .ok (i, v) ∧
        exec i v = .next t)) : Path u t := by
  rcases h with ⟨e, -, he⟩ | ⟨-, i, v, hf, hx⟩
  · exact (Path.regs (.refl _) (.of_onSelection e u)).trans (enter_path he)
  · exact ((Path.regs (.refl _) (.of_pc u (u.pc + 1))).trans (fetchOperands_path hv hf)).trans (exec_path hx)

/-- What a completed step is to the bus: nothing; a jam cycle after the SO latch; or the SO latch, one cycle with `SYNC` at `PC`,
and a path of bus cycles. -/
theorem step_path_cases {s t : State} (h : step s = .next t) :
    (s.pins.power = .lowered ∧ t = s) ∨
    (s.pins.power = .raised ∧ s.variant = .nmos6502 ∧
      (Path (applySo s) t ∨
        ∃ r, (applySo s).regionAt (applySo s).pc = some r ∧ Path (syncCycle r (applySo s)) t)) := by
  rcases step_next_cases h with off | ⟨hp, hv, hstep⟩
  · exact .inl off
  refine .inr ⟨hp, hv, ?_⟩
  rcases hstep with ⟨-, -, hj⟩ | ⟨-, ⟨-, hs⟩ | ⟨-, u, hu, hexec⟩⟩
  · exact .inl (dummyRead_path hj)
  · obtain ⟨v, hv⟩ := (stallCycle_ok_iff _ _).1 hs
    obtain ⟨r, hr, rfl⟩ := syncRead_eq_syncCycle hv
    exact .inr ⟨r, hr, .refl _⟩
  · obtain ⟨r, v, hr, huv⟩ := fetchOpcode_syncCycle hu
    have hru : RegsOnly (syncCycle r (applySo s)) u := huv ▸ .of_ir _ v
    have hvu : u.variant = .nmos6502 := by rw [hru.variant, syncCycle_variant, applySo_variant, hv]
    exact .inr ⟨r, hr, (Path.regs (.refl _) hru).trans (afterFetch_path hvu hexec)⟩

/-- What the parts of a step keep, in profile NMOS6502: changes of registers and latches, bus cycles, the cycle with `SYNC`. -/
structure KeptByCycles (P : State → Prop) : Prop where
  regs : ∀ {s t}, s.variant = .nmos6502 → RegsOnly s t → P s → P t
  read : ∀ {s r} (a), s.regionAt a = some r → P s → P (readCycle r a s)
  write : ∀ {s r} (a v), s.regionAt a = some r → P s → P (writeCycle r a v s)
  sync : ∀ {s} (r), P s → P (syncCycle r s)

theorem KeptByCycles.path {P : State → Prop} (k : KeptByCycles P) {s t : State} (h : Path s t)
    (hv : s.variant = .nmos6502) (hs : P s) : P t := by
  induction h with
  | refl => exact hs
  | read _ hr ih => exact k.read _ hr ih
  | write _ hr ih => exact k.write _ _ hr ih
  | regs h hr ih => exact k.regs (h.variant.trans hv) hr ih

/-- The induction over a step, once: what its parts keep, every step keeps. -/
theorem KeptByCycles.step {P : State → Prop} (k : KeptByCycles P) {s t : State} (h : step s = .next t) (hs : P s) :
    P t := by
  rcases step_path_cases h with ⟨-, rfl⟩ | ⟨-, hv, hstep⟩
  · exact hs
  have hso : P (applySo s) := k.regs hv (.of_applySo s) hs
  have hvso : (applySo s).variant = .nmos6502 := by rw [applySo_variant, hv]
  rcases hstep with hpath | ⟨r, -, hpath⟩
  · exact k.path hpath hvso hso
  · exact k.path hpath (by rw [syncCycle_variant, hvso]) (k.sync r hso)

/-! ### The invariant -/

/-- The outputs are de-asserted, as they are between steps (R213, R76, R77). -/
structure OutputsIdle (s : State) : Prop where
  sync : s.pins.sync = .lowered
  rd : s.pins.rd = .raised
  wr : s.pins.wr = .raised

theorem outputsIdle_kept : KeptByCycles OutputsIdle where
  regs _ h ho := ⟨h.pins ▸ ho.sync, h.pins ▸ ho.rd, h.pins ▸ ho.wr⟩
  read _ _ ho := ⟨by rw [readCycle_pins, ho.sync], by rw [readCycle_pins], by rw [readCycle_pins, ho.wr]⟩
  write _ _ _ ho := ⟨by rw [writeCycle_pins, ho.sync], by rw [writeCycle_pins, ho.rd], by rw [writeCycle_pins]⟩
  sync _ ho := ⟨by rw [syncCycle_pins], by rw [syncCycle_pins], by rw [syncCycle_pins, ho.wr]⟩

theorem canonicalMemory_kept : KeptByCycles fun s => s.mem.wf = true where
  regs _ h hm := h.mem ▸ hm
  read _ _ hm := by rw [readCycle_mem, hm]
  write a v _ hm := by
    rw [writeCycle_mem]
    split
    · exact hm
    · exact Memory.wf_write _ a v hm
  sync _ hm := by rw [syncCycle_mem, hm]

theorem reservedBits_kept : KeptByCycles fun s => reservedBitsHold s.p = true where
  regs hv h hp := h.status hv hp
  read _ _ hp := by rw [readCycle_p, hp]
  write _ _ _ hp := by rw [writeCycle_p, hp]
  sync _ hp := by rw [syncCycle_p, hp]

theorem legalMap_kept : KeptByCycles fun s => mapLegal s.regions = true where
  regs _ h hm := h.regions ▸ hm
  read _ _ hm := by rw [readCycle_regions, hm]
  write _ _ _ hm := by rw [writeCycle_regions, hm]
  sync _ hm := by rw [syncCycle_regions, hm]

/-- Settles O7: each part of the invariant is kept by what a step is made of. -/
theorem everyStepKeepsTheInvariant : Obligations.EveryStepKeepsTheInvariant := by
  intro s t hi h
  have idle : OutputsIdle t := outputsIdle_kept.step h ⟨hi.sync, hi.rd, hi.wr⟩
  exact ⟨canonicalMemory_kept.step h hi.memory, reservedBits_kept.step h hi.status, legalMap_kept.step h hi.map,
    idle.sync, idle.rd, idle.wr⟩

/-- Settles O6: every part is a fact about the literals of `State.reset`. -/
theorem resetStateMeetsTheInvariant : Obligations.ResetStateMeetsTheInvariant where
  memory := reset_memory_wf
  status := by decide
  map := by decide
  sync := rfl
  rd := rfl
  wr := rfl

/-! ### The platform -/

/-- `t` has the region map, the profile, the input levels and the unwritable bytes of `s`. -/
structure SamePlatform (s t : State) : Prop where
  regions : t.regions = s.regions
  variant : t.variant = s.variant
  inputs : ∀ pin, t.pins.level pin = s.pins.level pin
  loaded : ∀ b, ¬Writable s b → t.mem.loaded b.toNat = s.mem.loaded b.toNat

theorem SamePlatform.refl (s : State) : SamePlatform s s := ⟨rfl, rfl, fun _ => rfl, fun _ _ => rfl⟩

theorem SamePlatform.trans {s t u : State} (h : SamePlatform s t) (k : SamePlatform t u) : SamePlatform s u where
  regions := k.regions.trans h.regions
  variant := k.variant.trans h.variant
  inputs pin := (k.inputs pin).trans (h.inputs pin)
  loaded b hb := (k.loaded b (mt (Writable_congr h.regions b).1 hb)).trans (h.loaded b hb)

theorem level_of_outputs (p : Pins) (sync rd wr : Level) (pin : InputPin) :
    ({ p with sync := sync, rd := rd, wr := wr } : Pins).level pin = p.level pin := by cases pin <;> rfl

/-- A write cycle changes a byte only in a region that is not read-only (R81). -/
theorem samePlatform_writeCycle {r : Region} {a : Word} (v : Byte) {s : State} (hr : s.regionAt a = some r) :
    SamePlatform s (writeCycle r a v s) where
  regions := rfl
  variant := rfl
  inputs pin := level_of_outputs s.pins _ _ _ pin
  loaded b hb := by
    rw [writeCycle_mem]
    split
    · rfl
    next hw =>
      have hne : b ≠ a := fun e => hb ⟨r, e ▸ hr, hw⟩
      rw [Memory.loaded_write, if_neg (toNat_ne hne)]

theorem samePlatform_kept (s : State) : KeptByCycles (SamePlatform s) where
  regs _ h hp := hp.trans ⟨h.regions, h.variant, fun _ => by rw [h.pins], fun _ _ => by rw [h.mem]⟩
  read {t _} _ _ hp := hp.trans ⟨by simp, by simp, level_of_outputs t.pins _ _ _, by simp⟩
  write _ v hr hp := hp.trans (samePlatform_writeCycle v hr)
  sync {t} r hp := hp.trans ⟨by simp, by simp, fun pin => by
    rw [syncCycle_pins]; exact level_of_outputs t.pins _ _ _ pin, by simp⟩

/-- Settles O20: no part of a step touches the platform, and what an address holds is what is loaded there. -/
theorem thePlatformIsNeverChanged : Obligations.ThePlatformIsNeverChanged := by
  intro s t h
  have hp : SamePlatform s t := (samePlatform_kept s).step h (.refl s)
  refine ⟨hp.regions, hp.variant, hp.inputs, fun b hb => ?_⟩
  have hl := hp.loaded b hb
  exact ⟨by simp only [byteAt, Memory.read, hl], hl⟩

end Sys2Proof.Machine
end

section
/-! PROOFS. Which parts of the state an instruction writes (`Shape.writes`, `exec_writesOnly`), against the opcode lists of the
rules (O24), and where that leaves `PC` (O23) and the SO latch (O12). -/

namespace Sys2Proof.Machine

open Config

/-! ### Parts of the state, and what a change leaves of them -/

/-- The parts of the state that the rules list writers of (R21, R23, R27, R29, R30, R32). -/
inductive Part where
  | a
  | x
  | y
  | sp
  | pc
  | d
  | i
  | v
  | c
  | mem
  deriving DecidableEq

/-- The part is in `t` as it is in `s`. -/
def Part.same (s t : State) : Part → Prop
  | .a => t.a = s.a
  | .x => t.x = s.x
  | .y => t.y = s.y
  | .sp => t.sp = s.sp
  | .pc => t.pc = s.pc
  | .d => flag .d t.p = flag .d s.p
  | .i => flag .i t.p = flag .i s.p
  | .v => flag .v t.p = flag .v s.p
  | .c => flag .c t.p = flag .c s.p
  | .mem => t.mem = s.mem

theorem Part.same_refl (s : State) (q : Part) : q.same s s := by cases q <;> rfl

theorem Part.same_trans {s t u : State} {q : Part} (h : q.same s t) (k : q.same t u) : q.same s u := by
  cases q <;> exact Eq.trans k h

/-- A statement about every part, part by part. -/
theorem Part.forall_iff {P : Part → Prop} :
    (∀ q, P q) ↔ P .a ∧ P .x ∧ P .y ∧ P .sp ∧ P .pc ∧ P .d ∧ P .i ∧ P .v ∧ P .c ∧ P .mem := by
  constructor
  · intro h
    exact ⟨h _, h _, h _, h _, h _, h _, h _, h _, h _, h _⟩
  · rintro ⟨ha, hx, hy, hsp, hpc, hd, hi, hv, hc, hm⟩ q
    cases q <;> assumption

/-- From `s` to `t` no part outside the list is written, nor the IR, the latches, the registers of the other profiles and the
profile. -/
structure WritesOnly (l : List Part) (s t : State) : Prop where
  parts : ∀ q, q ∉ l → q.same s t
  ir : t.ir = s.ir
  other : t.other = s.other
  pendReset : t.pendReset = s.pendReset
  pendNmi : t.pendNmi = s.pendNmi
  pendIrq : t.pendIrq = s.pendIrq
  pendSo : t.pendSo = s.pendSo
  variant : t.variant = s.variant

theorem WritesOnly.refl (l : List Part) (s : State) : WritesOnly l s s :=
  ⟨fun q _ => q.same_refl s, rfl, rfl, rfl, rfl, rfl, rfl, rfl⟩

theorem WritesOnly.trans {l : List Part} {s t u : State} (h : WritesOnly l s t) (k : WritesOnly l t u) :
    WritesOnly l s u where
  parts q hq := Part.same_trans (h.parts q hq) (k.parts q hq)
  ir := k.ir.trans h.ir
  other := k.other.trans h.other
  pendReset := k.pendReset.trans h.pendReset
  pendNmi := k.pendNmi.trans h.pendNmi
  pendIrq := k.pendIrq.trans h.pendIrq
  pendSo := k.pendSo.trans h.pendSo
  variant := k.variant.trans h.variant

theorem WritesOnly.mono {l m : List Part} {s t : State} (h : WritesOnly l s t) (hl : l ⊆ m) : WritesOnly m s t :=
  { h with parts := fun q hq => h.parts q (mt (@hl q) hq) }

/-- A change of the registers alone, but for `run`. -/
theorem WritesOnly.of_registers {l : List Part} {s t : State}
    (h : t = { s with a := t.a, x := t.x, y := t.y, sp := t.sp, p := t.p, pc := t.pc, run := t.run })
    (hp : ∀ q, q ∉ l → q.same s t) : WritesOnly l s t := by
  refine ⟨hp, ?_, ?_, ?_, ?_, ?_, ?_, ?_⟩ <;> rw [h]

theorem WritesOnly.of_pc {l : List Part} (h : .pc ∈ l) (s : State) (w : Word) : WritesOnly l s { s with pc := w } :=
  .of_registers rfl (by simp [Part.forall_iff, Part.same, h])

theorem WritesOnly.of_sp {l : List Part} (h : .sp ∈ l) (s : State) (v : Byte) : WritesOnly l s { s with sp := v } :=
  .of_registers rfl (by simp [Part.forall_iff, Part.same, h])

/-! ### Bus cycles -/

/-- A stretch of reads writes none of the parts. -/
theorem Reads.writesOnly {s t : State} {rs : List Word} (h : Reads s t rs) (l : List Part) : WritesOnly l s t := by
  rw [h.marks]
  exact ⟨Part.forall_iff.2 (by simp [Part.same, busMarks]), rfl, rfl, rfl, rfl, rfl, rfl, rfl⟩

/-- A write cycle writes memory. -/
theorem Wrote.writesOnly {s t : State} {a : Word} {v : Byte} {l : List Part} (h : Wrote s t a v) (hl : .mem ∈ l) :
    WritesOnly l s t := by
  rw [h.marks]
  exact ⟨Part.forall_iff.2 (by simp [Part.same, busMarks, hl]), rfl, rfl, rfl, rfl, rfl, rfl, rfl⟩

theorem dummyRead_writesOnly {a : Word} {s t : State} (l : List Part) (h : dummyRead a s = .ok t) : WritesOnly l s t :=
  (dummyRead_reads h).writesOnly l

theorem memRead_writesOnly {a : Word} {v : Byte} {s t : State} (l : List Part) (h : memRead a s = .ok (v, t)) :
    WritesOnly l s t := (memRead_reads h).1.writesOnly l

theorem memWrite_writesOnly {a : Word} {v : Byte} {s t : State} {l : List Part} (hl : .mem ∈ l)
    (h : memWrite a v s = .ok t) : WritesOnly l s t := (memWrite_wrote h).writesOnly hl

theorem push_writesOnly {v : Byte} {s t : State} {l : List Part} (hs : .sp ∈ l) (hm : .mem ∈ l)
    (h : push v s = .ok t) : WritesOnly l s t := by
  simp only [push, bind_eq_ok, pure_eq, Except.ok.injEq] at h
  obtain ⟨u, hu, rfl⟩ := h
  exact (memWrite_writesOnly hm hu).trans (.of_sp hs u _)

theorem pull_writesOnly {v : Byte} {s t : State} {l : List Part} (hs : .sp ∈ l) (h : pull s = .ok (v, t)) :
    WritesOnly l s t :=
  (WritesOnly.of_sp hs s (s.sp + 1)).trans (memRead_writesOnly l h)

theorem fetchByte_writesOnly {v : Byte} {s t : State} {l : List Part} (hp : .pc ∈ l) (h : fetchByte s = .ok (v, t)) :
    WritesOnly l s t := by
  simp only [fetchByte, bind_eq_ok, pure_eq, Except.ok.injEq, Prod.exists, Prod.mk.injEq] at h
  obtain ⟨w, u, hu, -, rfl⟩ := h
  exact (memRead_writesOnly l hu).trans (.of_pc hp u _)

theorem fixupRead_writesOnly {f : Fixup} {base : Word} {i : Byte} {s t : State} (l : List Part)
    (h : fixupRead f base i s = .ok t) : WritesOnly l s t := (fixupRead_reads h).writesOnly l

theorem spareReads_writesOnly {n : Nat} {s t : State} (l : List Part) (h : spareReads n s = .ok t) :
    WritesOnly l s t := by
  induction n generalizing s with
  | zero => cases h; exact .refl l _
  | succ n ih =>
    simp only [spareReads, bind_eq_ok] at h
    obtain ⟨u, hu, h⟩ := h
    exact (dummyRead_writesOnly l hu).trans (ih h)

/-! ### Entry sequences -/

theorem entryPush_writesOnly {e : Entry} {v : Byte} {s t : State} {l : List Part} (hs : .sp ∈ l) (hm : .mem ∈ l)
    (h : entryPush e v s = .ok t) : WritesOnly l s t := by
  cases e with
  | reset =>
    simp only [entryPush, dummyPush, bind_eq_ok, pure_eq, Except.ok.injEq] at h
    obtain ⟨u, hu, rfl⟩ := h
    exact (dummyRead_writesOnly l hu).trans (.of_sp hs u _)
  | nmi => exact push_writesOnly hs hm h
  | irq => exact push_writesOnly hs hm h
  | brk => exact push_writesOnly hs hm h

theorem entryPushes_writesOnly {prof : Profile} {e : Entry} {ps : List Pushed} {s t : State} {l : List Part}
    (hs : .sp ∈ l) (hm : .mem ∈ l) (h : entryPushes prof e ps s = .ok t) : WritesOnly l s t := by
  induction ps generalizing s with
  | nil => cases h; exact .refl l _
  | cons x ps ih =>
    simp only [entryPushes, bind_eq_ok] at h
    obtain ⟨u, hu, h⟩ := h
    exact (entryPush_writesOnly hs hm hu).trans (ih h)

/-- The parts that taking an event writes (R410 to R413). -/
def entryWrites : List Part := [.pc, .sp, .i, .mem]

/-- The interrupt mask set, as an entry of profile NMOS6502 does (R415). -/
theorem writesOnly_entryStatus {s u : State} (hv : s.variant = .nmos6502) :
    WritesOnly entryWrites u { u with p := entryStatus s.profile u.p, other := entryFlipFlops s.profile u.other } := by
  rw [profile_nmos hv, entryFlipFlops_nmos, entryStatus_nmos]
  exact .of_registers rfl (by simp [Part.forall_iff, Part.same, entryWrites])

theorem enter_writesOnly {e : Entry} {s t : State} (hv : s.variant = .nmos6502) (h : enter e s = .ok t) :
    WritesOnly entryWrites s t := by
  simp only [enter, bind_eq_ok, pure_eq, Except.ok.injEq, Prod.exists] at h
  obtain ⟨s1, h1, s2, h2, first, s3, h3, second, s4, h4, rfl⟩ := h
  have hpc : WritesOnly entryWrites s1 (if e = .brk then { s1 with pc := s1.pc + 1 } else s1) := by
    split
    · exact .of_pc (by decide) s1 _
    · exact .refl _ s1
  exact (((((dummyRead_writesOnly _ h1).trans hpc).trans
    (entryPushes_writesOnly (by decide) (by decide) h2)).trans (memRead_writesOnly _ h3)).trans
    ((writesOnly_entryStatus hv).trans (memRead_writesOnly _ h4))).trans (.of_pc (by decide) s4 _)

/-! ### What the changes of registers write -/

section Flags

variable {f : Flag} (hn : f ≠ .n) (hv : f ≠ .v) (hz : f ≠ .z) (hc : f ≠ .c)

include hn hv hz hc

/-- An addition writes no flag but N, V, Z and C. -/
theorem flag_addWithCarry_other (a m p : Byte) : flag f (addWithCarry nmos a m p).p = flag f p := by
  rw [addWithCarry_nmos]
  split <;> simp [addDecimal, addBinary, passZN, hn, hv, hz, hc]

theorem flag_subWithCarry_other (a m p : Byte) : flag f (subWithCarry nmos a m p).p = flag f p := by
  rw [subWithCarry_nmos]
  split <;> simp [subDecimal, subBinary, passZN, hn, hv, hz, hc]

theorem flag_arr_other (q : DecimalQuirks) (a m p : Byte) : flag f (arr q a m p).p = flag f p := by
  unfold arr
  dsimp only
  split_ifs <;> simp [hn, hv, hz, hc]

end Flags

/-- The parts that a read-kind change writes. -/
def ReadOp.writes : ReadOp → List Part
  | .loadA => [.a]
  | .loadX => [.x]
  | .loadY => [.y]
  | .andToA => [.a]
  | .orToA => [.a]
  | .xorToA => [.a]
  | .compareA => [.c]
  | .compareX => [.c]
  | .compareY => [.c]
  | .testBits => [.v]
  | .loadAX => [.a, .x]
  | .loadAXS => [.a, .x, .sp]
  | .discard => []

theorem ReadOp.writesOnly (f : ReadOp) (m : Byte) (u : State) : WritesOnly f.writes u (f.run m u) := by
  cases f <;> exact .of_registers rfl (by
    simp [Part.forall_iff, Part.same, ReadOp.writes, ReadOp.run, andWith, orWith, xorWith, cmpFlags, bitFlags, passZN])

/-- The parts that ADC and SBC write. -/
def CalcOp.writes : CalcOp → List Part
  | .addToA => [.a, .v, .c]
  | .subFromA => [.a, .v, .c]

theorem CalcOp.writesOnly (f : CalcOp) (m : Byte) {u : State} (hv : u.variant = .nmos6502) :
    WritesOnly f.writes u (f.run m u) := by
  cases f <;> exact .of_registers rfl (by
    simp [Part.forall_iff, Part.same, CalcOp.writes, CalcOp.run, profile_nmos hv, flag_addWithCarry_other,
      flag_subWithCarry_other])

/-- The parts that an immediate change writes. -/
def ImmOp.writes : ImmOp → List Part
  | .loadA => [.a]
  | .loadX => [.x]
  | .loadY => [.y]
  | .andToA => [.a]
  | .orToA => [.a]
  | .xorToA => [.a]
  | .compareA => [.c]
  | .compareX => [.c]
  | .compareY => [.c]
  | .andCopyN => [.a, .c]
  | .andThenLsr => [.a, .c]
  | .andThenRor => [.a, .v, .c]
  | .subFromAX => [.x, .c]
  | .aneA => [.a]
  | .lxaAX => [.a, .x]
  | .discard => []

theorem ImmOp.writesOnly (f : ImmOp) (m : Byte) (u : State) : WritesOnly f.writes u (f.run m u) := by
  cases f <;> exact .of_registers rfl (by
    simp [Part.forall_iff, Part.same, ImmOp.writes, ImmOp.run, andWith, orWith, xorWith, cmpFlags, lsr, sbx, passZN,
      flag_arr_other])

/-- The parts that the middle of a read-modify-write writes. -/
def ModifyOp.writes : ModifyOp → List Part
  | .asl => [.c]
  | .lsr => [.c]
  | .rol => [.c]
  | .ror => [.c]
  | .inc => []
  | .dec => []
  | .slo => [.a, .c]
  | .rla => [.a, .c]
  | .sre => [.a, .c]
  | .rra => [.a, .v, .c]
  | .dcp => [.c]
  | .isc => [.a, .v, .c]

theorem ModifyOp.writesOnly (f : ModifyOp) (m : Byte) {u : State} (hv : u.variant = .nmos6502) :
    WritesOnly f.writes u (f.run m u).2 := by
  cases f <;> exact .of_registers rfl (by
    simp [Part.forall_iff, Part.same, ModifyOp.writes, ModifyOp.run, onMemory, shiftThen, rotateThenAdd, decThenCompare,
      incThenSub, Machine.asl, Machine.lsr, Machine.rol, Machine.ror, Machine.inc, Machine.dec, andWith, orWith, xorWith,
      cmpFlags, passZN, profile_nmos hv, flag_addWithCarry_other, flag_subWithCarry_other])

/-- The parts that an implied or accumulator change writes. -/
def ImpliedOp.writes : ImpliedOp → List Part
  | .aslAcc => [.a, .c]
  | .clc => [.c]
  | .nop => []
  | .rolAcc => [.a, .c]
  | .sec => [.c]
  | .lsrAcc => [.a, .c]
  | .cli => [.i]
  | .rorAcc => [.a, .c]
  | .sei => [.i]
  | .dey => [.y]
  | .txa => [.a]
  | .tya => [.a]
  | .txs => [.sp]
  | .tay => [.y]
  | .tax => [.x]
  | .clv => [.v]
  | .tsx => [.x]
  | .iny => [.y]
  | .dex => [.x]
  | .cld => [.d]
  | .inx => [.x]
  | .sed => [.d]

theorem ImpliedOp.writesOnly (f : ImpliedOp) (u : State) : WritesOnly f.writes u (f.run u) := by
  cases f <;> exact .of_registers rfl (by
    simp [Part.forall_iff, Part.same, ImpliedOp.writes, ImpliedOp.run, onA, asl, lsr, rol, ror, inc, dec, passZN])

/-- The parts that a pull instruction's change writes. -/
def PullOp.writes : PullOp → List Part
  | .pla => [.a]
  | .plp => [.d, .i, .v, .c]

theorem PullOp.writesOnly (f : PullOp) (m : Byte) (u : State) : WritesOnly f.writes u (f.run m u) := by
  cases f <;> exact .of_registers rfl (by simp [Part.forall_iff, Part.same, PullOp.writes, PullOp.run])

/-- The parts that a loaded status writes. -/
theorem writesOnly_status {l : List Part} (hl : PullOp.plp.writes ⊆ l) (s : State) (v : Byte) :
    WritesOnly l s { s with p := statusFrom s.profile v } := (PullOp.plp.writesOnly v s).mono hl

/-! ### What the shapes write -/

/-- The parts that a shape writes. -/
def Shape.writes : Shape → List Part
  | .reading f _ => f.writes
  | .calculating f _ => f.writes
  | .calculatingImm f _ => f.writes
  | .storing _ _ => [.mem]
  | .modifying f _ => .mem :: f.writes
  | .implied f => f.writes
  | .immediate f _ => f.writes
  | .branch _ _ _ => [.pc]
  | .pushing _ => [.sp, .mem]
  | .pulling f => .sp :: f.writes
  | .unstable _ _ _ => [.mem]
  | .shaIzy _ => [.mem]
  | .tas _ => [.sp, .mem]
  | .jmpAbs _ => [.pc]
  | .jmpInd _ => [.pc]
  | .jsr _ => [.pc, .sp, .mem]
  | .rts => [.pc, .sp]
  | .rti => [.pc, .sp, .d, .i, .v, .c]
  | .brk => entryWrites
  | .jam => []

theorem reading_writesOnly {f : Byte → State → State} {o : Mem} {s t : State} {l : List Part}
    (hf : ∀ m u, u.variant = s.variant → WritesOnly l u (f m u)) (h : reading f o s = .next t) : WritesOnly l s t := by
  obtain ⟨m, u, hu, rfl⟩ := (reading_eq_next_iff f o s t).1 h
  obtain ⟨rs, hr⟩ := readOperand_reads hu
  exact (hr.writesOnly l).trans (hf m u (hr.writesOnly l).variant)

theorem storing_writesOnly {v : Byte} {o : Mem} {s t : State} (h : storing v o s = .next t) :
    WritesOnly [.mem] s t := by
  obtain ⟨ea, u, hu, hw⟩ := (storing_eq_next_iff v o s t).1 h
  obtain ⟨rs, hr⟩ := effectiveAddress_reads hu
  exact (hr.writesOnly _).trans (memWrite_writesOnly (by decide) hw)

theorem modifying_writesOnly {f : ModifyOp} {o : Mem} {s t : State} (hv : s.variant = .nmos6502)
    (h : modifying f.run o s = .next t) : WritesOnly (.mem :: f.writes) s t := by
  obtain ⟨ea, u, m, v, w, hu, hm, hw, ht⟩ := (modifying_eq_next_iff _ o s t).1 h
  rw [secondAccess_nmos hv] at hw
  obtain ⟨rs, hr⟩ := effectiveAddress_reads hu
  have hsw : WritesOnly (.mem :: f.writes) s w :=
    ((hr.writesOnly _).trans (memRead_writesOnly _ hm)).trans (memWrite_writesOnly List.mem_cons_self hw)
  have hf : WritesOnly (.mem :: f.writes) w (f.run m w).2 :=
    (f.writesOnly m (hsw.variant.trans hv)).mono (List.subset_cons_self _ _)
  exact (hsw.trans hf).trans (memWrite_writesOnly List.mem_cons_self ht)

theorem implied_writesOnly {f : State → State} {s t : State} {l : List Part} (hf : ∀ u, WritesOnly l u (f u))
    (h : implied f s = .next t) : WritesOnly l s t := by
  obtain ⟨u, hu, rfl⟩ := (implied_eq_next_iff f s t).1 h
  exact (dummyRead_writesOnly l hu).trans (hf u)

theorem branch_writesOnly {taken : Bool} {d : Byte} {s t : State} (h : branch taken d s = .next t) :
    WritesOnly [.pc] s t := by
  simp only [branch, conclude_eq_next] at h
  split at h
  · simp only [bind_eq_ok] at h
    obtain ⟨u, hu, h⟩ := h
    split at h
    · cases h
      exact (dummyRead_writesOnly _ hu).trans (.of_pc (by decide) u _)
    · simp only [bind_eq_ok, pure_eq, Except.ok.injEq] at h
      obtain ⟨v, hv, rfl⟩ := h
      exact ((dummyRead_writesOnly _ hu).trans (dummyRead_writesOnly _ hv)).trans (.of_pc (by decide) v _)
  · cases h
    exact .refl _ s

theorem pushing_writesOnly {v : Byte} {s t : State} (h : pushing v s = .next t) : WritesOnly [.sp, .mem] s t := by
  simp only [pushing, conclude_eq_next, bind_eq_ok] at h
  obtain ⟨u, hu, hw⟩ := h
  exact (dummyRead_writesOnly _ hu).trans (push_writesOnly (by decide) (by decide) hw)

theorem pulling_writesOnly {f : PullOp} {s t : State} (h : pulling f.run s = .next t) :
    WritesOnly (.sp :: f.writes) s t := by
  simp only [pulling, conclude_eq_next, bind_eq_ok, pure_eq, Except.ok.injEq, Prod.exists] at h
  obtain ⟨s1, h1, s2, h2, v, s3, h3, rfl⟩ := h
  exact (((dummyRead_writesOnly _ h1).trans (dummyRead_writesOnly _ h2)).trans
    (pull_writesOnly List.mem_cons_self h3)).trans ((f.writesOnly v s3).mono (List.subset_cons_self _ _))

theorem unstableStore_writesOnly {f : Fixup} {reg : Byte} {base : Word} {i : Byte} {s t : State} {l : List Part}
    (hm : .mem ∈ l) (h : unstableStore f reg base i s = .ok t) : WritesOnly l s t := by
  simp only [unstableStore, bind_eq_ok] at h
  obtain ⟨u, hu, hw⟩ := h
  exact (fixupRead_writesOnly l hu).trans (memWrite_writesOnly hm hw)

theorem execShaIzy_writesOnly {b : Byte} {s t : State} (h : execShaIzy b s = .next t) : WritesOnly [.mem] s t := by
  simp only [execShaIzy, conclude_eq_next, bind_eq_ok, Prod.exists] at h
  obtain ⟨base, u, hu, hw⟩ := h
  exact ((zeroPagePointer_reads hu).1.writesOnly _).trans (unstableStore_writesOnly (by decide) hw)

theorem execTasAby_writesOnly {w : Word} {s t : State} (h : execTasAby w s = .next t) : WritesOnly [.sp, .mem] s t := by
  rw [execTasAby, conclude_eq_next] at h
  exact (WritesOnly.of_sp (by decide) s _).trans (unstableStore_writesOnly (by decide) h)

theorem execJmpInd_writesOnly {w : Word} {s t : State} (h : execJmpInd w s = .next t) : WritesOnly [.pc] s t := by
  simp only [execJmpInd, conclude_eq_next, bind_eq_ok, pure_eq, Except.ok.injEq, Prod.exists] at h
  obtain ⟨first, s1, h1, second, s2, h2, s3, h3, rfl⟩ := h
  exact (((memRead_writesOnly _ h1).trans (memRead_writesOnly _ h2)).trans (spareReads_writesOnly _ h3)).trans
    (.of_pc (by decide) s3 _)

theorem execJsrAbs_writesOnly {w : Word} {s t : State} (h : execJsrAbs w s = .next t) :
    WritesOnly [.pc, .sp, .mem] s t := by
  simp only [execJsrAbs, conclude_eq_next, bind_eq_ok, pure_eq, Except.ok.injEq, Prod.exists] at h
  obtain ⟨s1, h1, s2, h2, s3, h3, second, s4, h4, rfl⟩ := h
  exact ((((dummyRead_writesOnly _ h1).trans (push_writesOnly (by decide) (by decide) h2)).trans
    (push_writesOnly (by decide) (by decide) h3)).trans (memRead_writesOnly _ h4)).trans (.of_pc (by decide) s4 _)

theorem execRts_writesOnly {s t : State} (h : execRts s = .next t) : WritesOnly [.pc, .sp] s t := by
  simp only [execRts, conclude_eq_next, bind_eq_ok, pure_eq, Except.ok.injEq, Prod.exists] at h
  obtain ⟨s1, h1, s2, h2, first, s3, h3, second, s4, h4, s5, h5, rfl⟩ := h
  have pulled : WritesOnly [.pc, .sp] s s4 := (((dummyRead_writesOnly _ h1).trans (dummyRead_writesOnly _ h2)).trans
    (pull_writesOnly (by decide) h3)).trans (pull_writesOnly (by decide) h4)
  exact ((pulled.trans (.of_pc (by decide) s4 _)).trans (dummyRead_writesOnly _ h5)).trans (.of_pc (by decide) s5 _)

theorem returnFromEvent_writesOnly {s t : State} (h : returnFromEvent s = .ok t) :
    WritesOnly [.pc, .sp, .d, .i, .v, .c] s t := by
  simp only [returnFromEvent, bind_eq_ok, pure_eq, Except.ok.injEq, Prod.exists] at h
  obtain ⟨s1, h1, s2, h2, p, s3, h3, first, s4, h4, second, s5, h5, rfl⟩ := h
  exact ((((((dummyRead_writesOnly _ h1).trans (dummyRead_writesOnly _ h2)).trans
    (pull_writesOnly (by decide) h3)).trans (writesOnly_status (by decide) s3 p)).trans
    (pull_writesOnly (by decide) h4)).trans (pull_writesOnly (by decide) h5)).trans (.of_pc (by decide) s5 _)

theorem jam_writesOnly {s t : State} (h : jam s = .next t) : WritesOnly [] s t := by
  simp only [jam, conclude_eq_next, bind_eq_ok, pure_eq, Except.ok.injEq] at h
  obtain ⟨s1, h1, s2, h2, s3, h3, s4, h4, rfl⟩ := h
  exact ((((dummyRead_writesOnly _ h1).trans (dummyRead_writesOnly _ h2)).trans (dummyRead_writesOnly _ h3)).trans
    (dummyRead_writesOnly _ h4)).trans (.of_registers rfl fun q _ => q.same_refl s4)

/-- A shape that completes in profile NMOS6502 writes the parts of `Shape.writes` at most. -/
theorem Shape.writesOnly {sh : Shape} {s t : State} (hv : s.variant = .nmos6502) (h : sh.run s = .next t) :
    WritesOnly sh.writes s t := by
  cases sh <;> simp only [Shape.run] at h
  case reading f o => exact reading_writesOnly (fun m u _ => f.writesOnly m u) h
  case calculating f o =>
    rw [calculating_nmos _ o hv] at h
    exact reading_writesOnly (fun m u hu => f.writesOnly m (hu.trans hv)) h
  case calculatingImm f m =>
    rw [calculatingImm_nmos _ m hv] at h
    cases h
    exact f.writesOnly m hv
  case storing v o => exact storing_writesOnly h
  case modifying f o => exact modifying_writesOnly hv h
  case implied f => exact implied_writesOnly f.writesOnly h
  case immediate f m => cases h; exact f.writesOnly m s
  case branch f v d => exact branch_writesOnly h
  case pushing v => exact pushing_writesOnly h
  case pulling f => exact pulling_writesOnly h
  case unstable r f w => exact unstableStore_writesOnly (List.mem_singleton_self _) ((conclude_eq_next _ _).1 h)
  case shaIzy b => exact execShaIzy_writesOnly h
  case tas w => exact execTasAby_writesOnly h
  case jmpAbs w => cases h; exact .of_pc (List.mem_singleton_self _) s w
  case jmpInd w => exact execJmpInd_writesOnly h
  case jsr w => exact execJsrAbs_writesOnly h
  case rts => exact execRts_writesOnly h
  case rti => exact returnFromEvent_writesOnly ((conclude_eq_next _ _).1 h)
  case brk => exact enter_writesOnly hv ((conclude_eq_next _ _).1 h)
  case jam => exact jam_writesOnly h

theorem exec_writesOnly {i : Instr} {s t : State} (hv : s.variant = .nmos6502) (h : exec i s = .next t) :
    WritesOnly (shapeOf nmosFixup i).writes s t :=
  Shape.writesOnly hv (by rw [← exec_shape_nmos i hv, h])

/-! ### The opcode lists of the rules -/

/-- The opcodes that the rules name as the part's writers: of `PC`, beyond the fetch, the control transfers. -/
def Part.writers : Part → List Byte
  | .a => accumulatorWriters
  | .x => xWriters
  | .y => yWriters
  | .sp => stackPointerWriters
  | .pc => transferOpcodes
  | .d => decimalWriters
  | .i => maskWriters
  | .v => overflowWriters
  | .c => carryWriters
  | .mem => storingOpcodes

/-- The opcode byte of an instruction. -/
def opcodeOf (i : Instr) : Byte := (encode i).headD 0

/-- The lists name the opcode of every instruction for every part that its shape writes. -/
theorem writes_listed (i : Instr) :
    ((shapeOf nmosFixup i).writes.all fun q => q.writers.contains (opcodeOf i)) = true := by
  cases i <;> rfl

/-- An instruction that leaves a part otherwise than it was is listed as the part's writer. -/
theorem opcodeOf_mem_writers {i : Instr} {s t : State} {q : Part} (hv : s.variant = .nmos6502)
    (h : exec i s = .next t) (hq : ¬q.same s t) : opcodeOf i ∈ q.writers := by
  have hw : q ∈ (shapeOf nmosFixup i).writes := by
    by_contra hn
    exact hq ((exec_writesOnly hv h).parts q hn)
  exact List.contains_iff_mem.1 (List.all_eq_true.1 (writes_listed i) q hw)

/-- Settles O24: each part by the list of its writers, the rest by `exec_writesOnly`. -/
theorem registersAndFlagsHaveTheirWriters : Obligations.RegistersAndFlagsHaveTheirWriters := by
  intro i s t hv h
  have listed (q : Part) : ¬q.same s t → opcodeOf i ∈ q.writers := opcodeOf_mem_writers hv h
  have kept := exec_writesOnly hv h
  exact ⟨listed .a, listed .x, listed .y, listed .sp, listed .d, listed .i, listed .v, listed .c, listed .mem,
    kept.ir, kept.other, kept.pendReset, kept.pendNmi, kept.pendIrq, kept.pendSo⟩

/-! ### The fetch and the opcode -/

/-- The rows of the opcode map in their order (R118). -/
theorem opcodeMap_opcodes (b : Byte) (w : Word) : (opcodeMap b w).map (List.map opcodeOf) =
    (List.range 16).map fun high => (List.range 16).map fun low => BitVec.ofNat 8 (16 * high + low) := rfl

/-- An instruction decoded from an opcode byte has that opcode. -/
@[simp] theorem opcodeOf_decodeOp (op b c : Byte) : opcodeOf (decodeOp op b c) = op := by
  have hhigh : op.toNat / 16 < 16 := by omega
  have hrow : (((opcodeMap b (wordOf c b)).getD (op.toNat / 16) []).map opcodeOf) =
      (List.range 16).map fun low => BitVec.ofNat 8 (16 * (op.toNat / 16) + low) := by
    rw [← List.getD_map (f := List.map opcodeOf), opcodeMap_opcodes]
    simp [List.getD_eq_getElem?_getD, hhigh]
  rw [decodeOp, ← List.getD_map (f := opcodeOf), hrow]
  simp [List.getD_eq_getElem?_getD, Nat.mod_lt, Nat.div_add_mod]

theorem lengthOf_bounds (op : Byte) : 1 ≤ lengthOf op ∧ lengthOf op ≤ 3 := by revert op; decide

theorem fetchOperands_writesOnly {s t : State} {i : Instr} (hv : s.variant = .nmos6502)
    (h : fetchOperands decodeOp s = .ok (i, t)) : WritesOnly [.pc] s t := by
  have kept {b : Byte} {x y : State} (hb : fetchByte x = .ok (b, y)) : WritesOnly [.pc] x y :=
    fetchByte_writesOnly (by decide) hb
  rcases (fetchOperands_ok_iff s t i hv).1 h with
    ⟨-, -, rfl⟩ | ⟨-, b, u, hu, ⟨-, -, rfl⟩ | ⟨-, -, -, rfl⟩ | ⟨-, -, c, hc, -⟩⟩
  · exact .refl _ t
  · exact kept hu
  · exact kept hu
  · exact (kept hu).trans (kept hc)

/-- The operand fetch delivers an instruction with the opcode in `IR`. -/
theorem fetchOperands_opcodeOf {s t : State} {i : Instr} (hv : s.variant = .nmos6502)
    (h : fetchOperands decodeOp s = .ok (i, t)) : opcodeOf i = s.ir := by
  rcases (fetchOperands_ok_iff s t i hv).1 h with
    ⟨-, rfl, -⟩ | ⟨-, b, u, -, ⟨-, rfl, -⟩ | ⟨-, -, rfl, -⟩ | ⟨-, -, c, -, rfl⟩⟩ <;> exact opcodeOf_decodeOp _ _ _

theorem fetchByte_pc {s t : State} {v : Byte} (h : fetchByte s = .ok (v, t)) : t.pc = s.pc + 1 := by
  obtain ⟨r, -, -, rfl⟩ := (fetchByte_ok_iff s t v).1 h
  rfl

/-- The operand fetch of every opcode but JSR moves `PC` past the operand (R141, R292). -/
theorem fetchOperands_pc {s t : State} {i : Instr} (hv : s.variant = .nmos6502) (hj : s.ir ≠ jsrOpcode)
    (h : fetchOperands decodeOp s = .ok (i, t)) : t.pc + 1 = s.pc + BitVec.ofNat 16 (lengthOf s.ir) := by
  rcases (fetchOperands_ok_iff s t i hv).1 h with
    ⟨h1, -, rfl⟩ | ⟨h1, b, u, hu, ⟨h2, -, rfl⟩ | ⟨-, hjsr, -⟩ | ⟨h2, -, c, hc, -⟩⟩
  · rw [h1]
    rfl
  · rw [h2, fetchByte_pc hu, BitVec.add_assoc]
    rfl
  · exact absurd hjsr hj
  · have h3 : lengthOf s.ir = 3 := by have := lengthOf_bounds s.ir; omega
    rw [h3, fetchByte_pc hc, fetchByte_pc hu, BitVec.add_assoc, BitVec.add_assoc]
    rfl

/-- In profile NMOS6502 the event selected depends on the latches and the mask alone (R405, R406). -/
theorem selectEvent_congr {s t : State} (hs : s.variant = .nmos6502) (ht : t.variant = .nmos6502)
    (hr : t.pendReset = s.pendReset) (hn : t.pendNmi = s.pendNmi) (hi : t.pendIrq = s.pendIrq)
    (hf : flag .i t.p = flag .i s.p) : selectEvent t = selectEvent s := by
  rw [selectEvent_nmos hs, selectEvent_nmos ht, hr, hn, hi, hf]

/-- From `s` to `u` nothing was done to `PC`, the flags, the latches and the profile: what the opcode fetch leaves alone. -/
structure FetchKeeps (s u : State) : Prop where
  pc : u.pc = s.pc
  p : u.p = s.p
  pendReset : u.pendReset = s.pendReset
  pendNmi : u.pendNmi = s.pendNmi
  pendIrq : u.pendIrq = s.pendIrq
  pendSo : u.pendSo = s.pendSo
  variant : u.variant = s.variant

theorem fetchOpcode_keeps {s u : State} (h : fetchOpcode s = .ok u) : FetchKeeps s u := by
  obtain ⟨r, v, -, hu⟩ := fetchOpcode_syncCycle h
  constructor <;> simp [hu]

/-- Neither the SO latch nor the opcode fetch changes which event is selected. -/
theorem selectEvent_fetchOpcode {s u : State} (hv : s.variant = .nmos6502) (h : fetchOpcode (applySo s) = .ok u) :
    selectEvent u = selectEvent s := by
  have kept := fetchOpcode_keeps h
  refine selectEvent_congr hv ?_ ?_ ?_ ?_ ?_
  · rw [kept.variant, applySo_variant, hv]
  · rw [kept.pendReset, applySo_pendReset]
  · rw [kept.pendNmi, applySo_pendNmi]
  · rw [kept.pendIrq, applySo_pendIrq]
  · rw [kept.p, applySo_p]
    split <;> simp

/-- A step from a boundary with nothing to service fetches an instruction and runs it (R211). -/
theorem step_executes {s t : State} (hready : Ready s) (h : step s = .next t) :
    ∃ u i w, fetchOpcode (applySo s) = .ok u ∧ fetchOperands decodeOp { u with pc := u.pc + 1 } = .ok (i, w) ∧
      exec i w = .next t := by
  obtain ⟨hp, hv, hrun, hrdy, hsel⟩ := hready
  rcases step_next_cases h with ⟨off, -⟩ | ⟨-, -, hstep⟩
  · simp [hp] at off
  rcases hstep with ⟨hj, -⟩ | ⟨-, ⟨hl, -⟩ | ⟨-, u, hu, hexec⟩⟩
  · simp [hrun] at hj
  · simp [hrdy] at hl
  rcases hexec with ⟨e, he, -⟩ | ⟨-, i, w, hf, hx⟩
  · simp [selectEvent_fetchOpcode hv hu, hsel] at he
  · exact ⟨u, i, w, hu, hf, hx⟩

/-- An instruction that is no control transfer leaves `PC` where the fetch left it. -/
theorem exec_pc {i : Instr} {s t : State} (hv : s.variant = .nmos6502) (h : exec i s = .next t)
    (hi : opcodeOf i ∉ transferOpcodes) : t.pc = s.pc := by
  by_contra hc
  exact hi (opcodeOf_mem_writers (q := .pc) hv h hc)

/-- Settles O23: the fetch moves `PC` past the instruction, which then writes `PC` only if it is a control transfer. -/
theorem pcAdvancesByTheInstructionLength : Obligations.PcAdvancesByTheInstructionLength := by
  intro s t hready h hne
  obtain ⟨u, i, w, hu, hf, hx⟩ := step_executes hready h
  have fetch := fetchOpcode_keeps hu
  have hvu : u.variant = .nmos6502 := by rw [fetch.variant, applySo_variant, hready.2.1]
  have hvp : ({ u with pc := u.pc + 1 } : State).variant = .nmos6502 := hvu
  have operands := fetchOperands_writesOnly hvp hf
  have hvw : w.variant = .nmos6502 := operands.variant.trans hvu
  have hir : t.ir = u.ir := (exec_writesOnly hvw hx).ir.trans operands.ir
  have hop := fetchOperands_opcodeOf hvp hf
  dsimp only at hop
  rw [hir] at hne ⊢
  have hjsr : u.ir ≠ jsrOpcode := fun e => hne (by rw [e]; decide)
  have hend := fetchOperands_pc hvp hjsr hf
  dsimp only at hend
  rw [exec_pc hvw hx (hop ▸ hne), ← applySo_pc s, ← fetch.pc]
  bv_omega

/-! ### The SO latch -/

/-- After the opcode fetch nothing writes the SO latch. -/
theorem afterFetch_pendSo {u t : State} (hv : u.variant = .nmos6502)
    (h : (∃ e, selectEvent u = some e ∧ enter e (onSelection e u) = .ok t) ∨
      (selectEvent u = none ∧ ∃ i v, fetchOperands decodeOp { u with pc := u.pc + 1 } = .ok (i, v) ∧
        exec i v = .next t)) : t.pendSo = u.pendSo := by
  rcases h with ⟨e, -, he⟩ | ⟨-, i, v, hf, hx⟩
  · exact (enter_writesOnly ((onSelection_variant e u).trans hv) he).pendSo.trans (onSelection_pendSo e u)
  · have hvp : ({ u with pc := u.pc + 1 } : State).variant = .nmos6502 := hv
    have operands := fetchOperands_writesOnly hvp hf
    exact (exec_writesOnly (operands.variant.trans hv) hx).pendSo.trans operands.pendSo

/-- Every completed step of a powered engine leaves the SO latch clear (R45). -/
theorem step_pendSo {s t : State} (hp : s.pins.power = .raised) (h : step s = .next t) : t.pendSo = false := by
  rcases step_next_cases h with ⟨off, -⟩ | ⟨-, hv, hstep⟩
  · simp [hp] at off
  rw [← applySo_pendSo s]
  rcases hstep with ⟨-, -, hj⟩ | ⟨-, ⟨-, hs⟩ | ⟨-, u, hu, hexec⟩⟩
  · exact (dummyRead_writesOnly [] hj).pendSo
  · obtain ⟨v, hs⟩ := (stallCycle_ok_iff _ _).1 hs
    obtain ⟨r, -, rfl⟩ := syncRead_eq_syncCycle hs
    exact syncCycle_pendSo r _
  · have fetch := fetchOpcode_keeps hu
    exact (afterFetch_pendSo (by rw [fetch.variant, applySo_variant, hv]) hexec).trans fetch.pendSo

theorem applySo_idem (s : State) : applySo (applySo s) = applySo s := by
  rw [applySo, if_neg (by simp)]

/-- A powered step is the step of the state that the SO latch leaves: nothing before it looks at `P` or the latch. -/
theorem step_applySo {s : State} (hp : s.pins.power = .raised) : step (applySo s) = step s := by
  simp only [step, boundary, applySo_pins, hp, profile_congr (applySo_variant s), applySo_variant, applySo_idem,
    reduceCtorEq, if_false]

/-- Settles O12: the step of a state is the step of the state with the SO latch applied, and nothing sets that latch again. -/
theorem soLatchSetsOverflowFirst : Obligations.SoLatchSetsOverflowFirst := by
  refine ⟨fun s hp hv hso => ?_, fun s hp _ hso => ?_, fun s t hp h => step_pendSo hp h⟩
  · rw [drivePin, profile_nmos hv, nmos_pins_contains, transition_input]
    simp [Pins.level, Pins.withLevel, State.powered, latch, hp, hso]
  · have so : applySo s = { s with p := s.p ||| 0x40, pendSo := false } := by
      rw [applySo, if_pos hso]
      rfl
    rw [← so, step_applySo hp]

end Sys2Proof.Machine
end

section
/-! PROOFS. Nothing reads the cycle counter or the trace (O21): each operation that answers, answers the same from a state whose
count and trace begin elsewhere. -/

namespace Sys2Proof.Machine

open Config

/-- `s` with a larger count and a longer trace: `n` more cycles, and the events `l` before its own. -/
def later (n : Nat) (l : List BusEvent) (s : State) : State := { s with cycles := s.cycles + n, trace := l ++ s.trace }

section

variable {n : Nat} {l : List BusEvent}

/-! ### Bus cycles -/

theorem profile_later (s : State) : (later n l s).profile = s.profile := rfl

theorem readCycle_later (r : Region) (a : Word) (s : State) :
    readCycle r a (later n l s) = later n l (readCycle r a s) := by
  simp only [readCycle_eq, later, List.append_assoc, Nat.add_right_comm]
  rfl

theorem writeCycle_later (r : Region) (a : Word) (v : Byte) (s : State) :
    writeCycle r a v (later n l s) = later n l (writeCycle r a v s) := by
  simp only [writeCycle_eq, later, List.append_assoc, Nat.add_right_comm]

theorem memRead_later {a : Word} {v : Byte} {s t : State} (h : memRead a s = .ok (v, t)) :
    memRead a (later n l s) = .ok (v, later n l t) := by
  obtain ⟨r, hr, rfl, rfl⟩ := (memRead_ok_iff a s t v).1 h
  exact (memRead_ok_iff ..).2 ⟨r, hr, rfl, (readCycle_later r a s).symm⟩

theorem memWrite_later {a : Word} {v : Byte} {s t : State} (h : memWrite a v s = .ok t) :
    memWrite a v (later n l s) = .ok (later n l t) := by
  obtain ⟨r, hr, rfl⟩ := (memWrite_ok_iff a v s t).1 h
  exact (memWrite_ok_iff ..).2 ⟨r, hr, (writeCycle_later r a v s).symm⟩

theorem dummyRead_later {a : Word} {s t : State} (h : dummyRead a s = .ok t) :
    dummyRead a (later n l s) = .ok (later n l t) := by
  obtain ⟨r, hr, rfl⟩ := (dummyRead_ok_iff a s t).1 h
  exact (dummyRead_ok_iff ..).2 ⟨r, hr, (readCycle_later r a s).symm⟩

theorem fetchByte_later {v : Byte} {s t : State} (h : fetchByte s = .ok (v, t)) :
    fetchByte (later n l s) = .ok (v, later n l t) := by
  simp only [fetchByte, bind_eq_ok, pure_eq, Except.ok.injEq, Prod.exists, Prod.mk.injEq] at h ⊢
  obtain ⟨w, u, hu, rfl, rfl⟩ := h
  exact ⟨_, _, memRead_later hu, rfl, rfl⟩

theorem push_later {v : Byte} {s t : State} (h : push v s = .ok t) : push v (later n l s) = .ok (later n l t) := by
  simp only [push, bind_eq_ok, pure_eq, Except.ok.injEq] at h ⊢
  obtain ⟨u, hu, rfl⟩ := h
  exact ⟨_, memWrite_later hu, rfl⟩

theorem pull_later {v : Byte} {s t : State} (h : pull s = .ok (v, t)) :
    pull (later n l s) = .ok (v, later n l t) := memRead_later h

theorem spareReads_later {k : Nat} {s t : State} (h : spareReads k s = .ok t) :
    spareReads k (later n l s) = .ok (later n l t) := by
  induction k generalizing s with
  | zero => cases h; rfl
  | succ k ih =>
    simp only [spareReads, bind_eq_ok] at h ⊢
    obtain ⟨u, hu, h⟩ := h
    exact ⟨_, dummyRead_later hu, ih h⟩

/-! ### Entry sequences and return -/

theorem entryPush_later {e : Entry} {v : Byte} {s t : State} (h : entryPush e v s = .ok t) :
    entryPush e v (later n l s) = .ok (later n l t) := by
  cases e with
  | reset =>
    simp only [entryPush, dummyPush, bind_eq_ok, pure_eq, Except.ok.injEq] at h ⊢
    obtain ⟨u, hu, rfl⟩ := h
    exact ⟨_, dummyRead_later hu, rfl⟩
  | nmi => exact push_later h
  | irq => exact push_later h
  | brk => exact push_later h

theorem pushedByte_later (prof : Profile) (e : Entry) (s : State) (x : Pushed) :
    pushedByte prof e (later n l s) x = pushedByte prof e s x := by
  cases x <;> rfl

theorem entryPushes_later {prof : Profile} {e : Entry} {ps : List Pushed} {s t : State}
    (h : entryPushes prof e ps s = .ok t) : entryPushes prof e ps (later n l s) = .ok (later n l t) := by
  induction ps generalizing s with
  | nil => cases h; rfl
  | cons x ps ih =>
    simp only [entryPushes, bind_eq_ok, pushedByte_later] at h ⊢
    obtain ⟨u, hu, h⟩ := h
    exact ⟨_, entryPush_later hu, ih h⟩

theorem enter_later {e : Entry} {s t : State} (h : enter e s = .ok t) :
    enter e (later n l s) = .ok (later n l t) := by
  simp only [enter, profile_later, bind_eq_ok, pure_eq, Except.ok.injEq, Prod.exists] at h ⊢
  obtain ⟨s1, h1, s2, h2, first, s3, h3, second, s4, h4, rfl⟩ := h
  have k4 := memRead_later (n := n) (l := l) h4
  refine ⟨_, dummyRead_later h1, later n l s2, ?_, first, _, memRead_later h3, second, _, k4, rfl⟩
  rw [← entryPushes_later h2]
  by_cases he : e = .brk
  · rw [if_pos he, if_pos he]
    rfl
  · rw [if_neg he, if_neg he]

theorem returnFromEvent_later {s t : State} (h : returnFromEvent s = .ok t) :
    returnFromEvent (later n l s) = .ok (later n l t) := by
  simp only [returnFromEvent, profile_later, bind_eq_ok, pure_eq, Except.ok.injEq, Prod.exists] at h ⊢
  obtain ⟨s1, h1, s2, h2, p, s3, h3, first, s4, h4, second, s5, h5, rfl⟩ := h
  have k4 := pull_later (n := n) (l := l) h4
  exact ⟨_, dummyRead_later h1, _, dummyRead_later h2, p, _, pull_later h3, first, _, k4, second, _, pull_later h5, rfl⟩

/-! ### The resolver and the access kinds -/

theorem fixupRead_later {f : Fixup} {base : Word} {i : Byte} {s t : State} (h : fixupRead f base i s = .ok t) :
    fixupRead f base i (later n l s) = .ok (later n l t) := by
  unfold fixupRead at h ⊢
  split at h
  next hf => rw [if_pos hf]; exact dummyRead_later h
  next hf => rw [if_neg hf]; cases h; rfl

theorem indexed_later {f : Fixup} {base ea : Word} {i : Byte} {s t : State} (h : indexed f base i s = .ok (ea, t)) :
    indexed f base i (later n l s) = .ok (ea, later n l t) := by
  simp only [indexed, bind_eq_ok, pure_eq, Except.ok.injEq, Prod.mk.injEq] at h ⊢
  obtain ⟨u, hu, rfl, rfl⟩ := h
  exact ⟨_, fixupRead_later hu, rfl, rfl⟩

theorem zeroPagePointer_later {p : Byte} {ea : Word} {s t : State} (h : zeroPagePointer p s = .ok (ea, t)) :
    zeroPagePointer p (later n l s) = .ok (ea, later n l t) := by
  simp only [zeroPagePointer, bind_eq_ok, pure_eq, Except.ok.injEq, Prod.exists, Prod.mk.injEq] at h ⊢
  obtain ⟨first, s1, h1, second, s2, h2, rfl, rfl⟩ := h
  exact ⟨first, _, memRead_later h1, second, _, memRead_later h2, rfl, rfl⟩

theorem effectiveAddress_later {o : Mem} {ea : Word} {s t : State} (h : effectiveAddress o s = .ok (ea, t)) :
    effectiveAddress o (later n l s) = .ok (ea, later n l t) := by
  cases o <;> simp only [effectiveAddress, bind_eq_ok, pure_eq, Except.ok.injEq, Prod.exists, Prod.mk.injEq] at h ⊢
  case zp => obtain ⟨rfl, rfl⟩ := h; exact ⟨rfl, rfl⟩
  case abs => obtain ⟨rfl, rfl⟩ := h; exact ⟨rfl, rfl⟩
  case zpx => obtain ⟨u, hu, rfl, rfl⟩ := h; exact ⟨_, dummyRead_later hu, rfl, rfl⟩
  case zpy => obtain ⟨u, hu, rfl, rfl⟩ := h; exact ⟨_, dummyRead_later hu, rfl, rfl⟩
  case abx => exact indexed_later h
  case aby => exact indexed_later h
  case izx => obtain ⟨u, hu, hz⟩ := h; exact ⟨_, dummyRead_later hu, zeroPagePointer_later hz⟩
  case izy => obtain ⟨b, u, hz, hi⟩ := h; exact ⟨b, _, zeroPagePointer_later hz, indexed_later hi⟩

theorem readOperand_later {o : Mem} {m : Byte} {s t : State} (h : readOperand o s = .ok (m, t)) :
    readOperand o (later n l s) = .ok (m, later n l t) := by
  obtain ⟨ea, u, hu, hm⟩ := (readOperand_ok_iff o m s t).1 h
  exact (readOperand_ok_iff ..).2 ⟨ea, _, effectiveAddress_later hu, memRead_later hm⟩

theorem secondAccess_later {ord : ModifyWriteOrder} {ea : Word} {m : Byte} {s t : State}
    (h : secondAccess ord ea m s = .ok t) : secondAccess ord ea m (later n l s) = .ok (later n l t) := by
  cases ord with
  | writeOldValue => exact memWrite_later h
  | readAgain => exact dummyRead_later h

/-! ### Changes of registers -/

theorem ReadOp.run_later (f : ReadOp) (m : Byte) (u : State) : f.run m (later n l u) = later n l (f.run m u) := by
  cases f <;> rfl

theorem CalcOp.run_later (f : CalcOp) (m : Byte) (u : State) : f.run m (later n l u) = later n l (f.run m u) := by
  cases f <;> rfl

theorem ImmOp.run_later (f : ImmOp) (m : Byte) (u : State) : f.run m (later n l u) = later n l (f.run m u) := by
  cases f <;> rfl

theorem ModifyOp.run_later (f : ModifyOp) (m : Byte) (u : State) :
    f.run m (later n l u) = ((f.run m u).1, later n l (f.run m u).2) := by
  cases f <;> rfl

theorem ImpliedOp.run_later (f : ImpliedOp) (u : State) : f.run (later n l u) = later n l (f.run u) := by
  cases f <;> rfl

theorem PullOp.run_later (f : PullOp) (m : Byte) (u : State) : f.run m (later n l u) = later n l (f.run m u) := by
  cases f <;> rfl

/-! ### Instructions -/

theorem reading_later {f : Byte → State → State} {o : Mem} {s t : State}
    (hf : ∀ m u, f m (later n l u) = later n l (f m u)) (h : reading f o s = .next t) :
    reading f o (later n l s) = .next (later n l t) := by
  obtain ⟨m, u, hu, rfl⟩ := (reading_eq_next_iff f o s t).1 h
  exact (reading_eq_next_iff ..).2 ⟨m, _, readOperand_later hu, (hf m u).symm⟩

theorem calculating_later {f : CalcOp} {o : Mem} {s t : State} (h : calculating f.run o s = .next t) :
    calculating f.run o (later n l s) = .next (later n l t) := by
  simp only [calculating, conclude_eq_next, bind_eq_ok, pure_eq, Except.ok.injEq, Prod.exists] at h ⊢
  obtain ⟨m, u, hu, v, hv, rfl⟩ := h
  exact ⟨m, _, readOperand_later hu, _, spareReads_later hv, f.run_later m v⟩

theorem calculatingImm_later {f : CalcOp} {m : Byte} {s t : State} (h : calculatingImm f.run m s = .next t) :
    calculatingImm f.run m (later n l s) = .next (later n l t) := by
  simp only [calculatingImm, conclude_eq_next, bind_eq_ok, pure_eq, Except.ok.injEq] at h ⊢
  obtain ⟨v, hv, rfl⟩ := h
  exact ⟨_, spareReads_later hv, f.run_later m v⟩

theorem storing_later {v : Byte} {o : Mem} {s t : State} (h : storing v o s = .next t) :
    storing v o (later n l s) = .next (later n l t) := by
  obtain ⟨ea, u, hu, hw⟩ := (storing_eq_next_iff v o s t).1 h
  exact (storing_eq_next_iff ..).2 ⟨ea, _, effectiveAddress_later hu, memWrite_later hw⟩

theorem modifying_later {f : ModifyOp} {o : Mem} {s t : State} (h : modifying f.run o s = .next t) :
    modifying f.run o (later n l s) = .next (later n l t) := by
  obtain ⟨ea, u, m, v, w, hu, hm, hw, ht⟩ := (modifying_eq_next_iff _ o s t).1 h
  refine (modifying_eq_next_iff ..).2
    ⟨ea, _, m, _, _, effectiveAddress_later hu, memRead_later hm, secondAccess_later hw, ?_⟩
  rw [f.run_later]
  exact memWrite_later ht

theorem implied_later {f : ImpliedOp} {s t : State} (h : implied f.run s = .next t) :
    implied f.run (later n l s) = .next (later n l t) := by
  obtain ⟨u, hu, rfl⟩ := (implied_eq_next_iff _ s t).1 h
  exact (implied_eq_next_iff ..).2 ⟨_, dummyRead_later hu, (f.run_later u).symm⟩

theorem branch_later {taken : Bool} {d : Byte} {s t : State} (h : branch taken d s = .next t) :
    branch taken d (later n l s) = .next (later n l t) := by
  simp only [branch, conclude_eq_next] at h ⊢
  cases taken with
  | false => cases h; rfl
  | true =>
    simp only [if_true, bind_eq_ok] at h ⊢
    obtain ⟨u, hu, h⟩ := h
    refine ⟨_, dummyRead_later hu, ?_⟩
    split at h
    next hc => rw [if_pos (by exact hc)]; cases h; rfl
    next hc =>
      rw [if_neg (by exact hc)]
      simp only [bind_eq_ok, pure_eq, Except.ok.injEq] at h ⊢
      obtain ⟨v, hv, rfl⟩ := h
      exact ⟨_, dummyRead_later hv, rfl⟩

theorem pushing_later {v : Byte} {s t : State} (h : pushing v s = .next t) :
    pushing v (later n l s) = .next (later n l t) := by
  simp only [pushing, conclude_eq_next, bind_eq_ok] at h ⊢
  obtain ⟨u, hu, hw⟩ := h
  exact ⟨_, dummyRead_later hu, push_later hw⟩

theorem pulling_later {f : PullOp} {s t : State} (h : pulling f.run s = .next t) :
    pulling f.run (later n l s) = .next (later n l t) := by
  simp only [pulling, conclude_eq_next, bind_eq_ok, pure_eq, Except.ok.injEq, Prod.exists] at h ⊢
  obtain ⟨s1, h1, s2, h2, v, s3, h3, rfl⟩ := h
  exact ⟨_, dummyRead_later h1, _, dummyRead_later h2, v, _, pull_later h3, f.run_later v s3⟩

theorem unstableStore_later {f : Fixup} {reg : Byte} {base : Word} {i : Byte} {s t : State}
    (h : unstableStore f reg base i s = .ok t) : unstableStore f reg base i (later n l s) = .ok (later n l t) := by
  simp only [unstableStore, bind_eq_ok] at h ⊢
  obtain ⟨u, hu, hw⟩ := h
  exact ⟨_, fixupRead_later hu, memWrite_later hw⟩

theorem execShaIzy_later {b : Byte} {s t : State} (h : execShaIzy b s = .next t) :
    execShaIzy b (later n l s) = .next (later n l t) := by
  simp only [execShaIzy, conclude_eq_next, bind_eq_ok, Prod.exists] at h ⊢
  obtain ⟨base, u, hu, hw⟩ := h
  exact ⟨base, _, zeroPagePointer_later hu, unstableStore_later hw⟩

theorem execTasAby_later {w : Word} {s t : State} (h : execTasAby w s = .next t) :
    execTasAby w (later n l s) = .next (later n l t) := by
  simp only [execTasAby, conclude_eq_next] at h ⊢
  exact unstableStore_later (n := n) (l := l) h

theorem execJmpInd_later {w : Word} {s t : State} (h : execJmpInd w s = .next t) :
    execJmpInd w (later n l s) = .next (later n l t) := by
  simp only [execJmpInd, profile_later, conclude_eq_next, bind_eq_ok, pure_eq, Except.ok.injEq, Prod.exists] at h ⊢
  obtain ⟨first, s1, h1, second, s2, h2, s3, h3, rfl⟩ := h
  have k2 := memRead_later (n := n) (l := l) h2
  have k3 := spareReads_later (n := n) (l := l) h3
  exact ⟨first, _, memRead_later h1, second, _, k2, _, k3, rfl⟩

theorem execJsrAbs_later {w : Word} {s t : State} (h : execJsrAbs w s = .next t) :
    execJsrAbs w (later n l s) = .next (later n l t) := by
  simp only [execJsrAbs, conclude_eq_next, bind_eq_ok, pure_eq, Except.ok.injEq, Prod.exists] at h ⊢
  obtain ⟨s1, h1, s2, h2, s3, h3, second, s4, h4, rfl⟩ := h
  exact ⟨_, dummyRead_later h1, _, push_later h2, _, push_later h3, second, _, memRead_later h4, rfl⟩

theorem execRts_later {s t : State} (h : execRts s = .next t) : execRts (later n l s) = .next (later n l t) := by
  simp only [execRts, conclude_eq_next, bind_eq_ok, pure_eq, Except.ok.injEq, Prod.exists] at h ⊢
  obtain ⟨s1, h1, s2, h2, first, s3, h3, second, s4, h4, s5, h5, rfl⟩ := h
  have k5 := dummyRead_later (n := n) (l := l) h5
  exact ⟨_, dummyRead_later h1, _, dummyRead_later h2, first, _, pull_later h3, second, _, pull_later h4, _, k5, rfl⟩

theorem jam_later {s t : State} (h : jam s = .next t) : jam (later n l s) = .next (later n l t) := by
  simp only [jam, conclude_eq_next, bind_eq_ok, pure_eq, Except.ok.injEq] at h ⊢
  obtain ⟨s1, h1, s2, h2, s3, h3, s4, h4, rfl⟩ := h
  exact ⟨_, dummyRead_later h1, _, dummyRead_later h2, _, dummyRead_later h3, _, dummyRead_later h4, rfl⟩

theorem StoreOp.run_later (v : StoreOp) (s : State) : v.run (later n l s) = v.run s := by cases v <;> rfl

theorem PushOp.run_later (v : PushOp) (s : State) : v.run (later n l s) = v.run s := by cases v <;> rfl

theorem UnstableOp.run_later (r : UnstableOp) (s : State) : r.run (later n l s) = r.run s := by cases r <;> rfl

/-- No shape reads the count or the trace. -/
theorem Shape.run_later {sh : Shape} {s t : State} (h : sh.run s = .next t) :
    sh.run (later n l s) = .next (later n l t) := by
  cases sh <;> simp only [Shape.run] at h ⊢
  case reading f o => exact reading_later f.run_later h
  case calculating f o => exact calculating_later h
  case calculatingImm f m => exact calculatingImm_later h
  case storing v o => rw [v.run_later]; exact storing_later h
  case modifying f o => exact modifying_later h
  case implied f => exact implied_later h
  case immediate f m => cases h; rw [f.run_later]
  case branch f v d => exact branch_later h
  case pushing v => rw [v.run_later]; exact pushing_later h
  case pulling f => exact pulling_later h
  case unstable r f w =>
    rw [r.run_later]
    exact (conclude_eq_next ..).2 (unstableStore_later ((conclude_eq_next ..).1 h))
  case shaIzy b => exact execShaIzy_later h
  case tas w => exact execTasAby_later h
  case jmpAbs w => cases h; rfl
  case jmpInd w => exact execJmpInd_later h
  case jsr w => exact execJsrAbs_later h
  case rts => exact execRts_later h
  case rti => exact (conclude_eq_next ..).2 (returnFromEvent_later ((conclude_eq_next ..).1 h))
  case brk => exact (conclude_eq_next ..).2 (enter_later ((conclude_eq_next ..).1 h))
  case jam => exact jam_later h

theorem exec_later {i : Instr} {s t : State} (h : exec i s = .next t) :
    exec i (later n l s) = .next (later n l t) := by
  rw [exec_shape] at h ⊢
  exact Shape.run_later h

/-! ### The step -/

theorem applySo_later (s : State) : applySo (later n l s) = later n l (applySo s) := by
  unfold applySo
  by_cases h : s.pendSo
  · rw [if_pos h, if_pos (by exact h)]
    rfl
  · rw [if_neg h, if_neg (by exact h)]

theorem syncRead_later {v : Byte} {s t : State} (h : syncRead s = .ok (v, t)) :
    syncRead (later n l s) = .ok (v, later n l t) := by
  simp only [syncRead, bind_eq_ok, pure_eq, Except.ok.injEq, Prod.exists, Prod.mk.injEq] at h ⊢
  obtain ⟨w, u, hu, rfl, rfl⟩ := h
  have ku := memRead_later (n := n) (l := l) hu
  exact ⟨_, _, ku, rfl, rfl⟩

theorem fetchOpcode_later {s t : State} (h : fetchOpcode s = .ok t) :
    fetchOpcode (later n l s) = .ok (later n l t) := by
  obtain ⟨v, u, hu, rfl⟩ := (fetchOpcode_ok_iff s t).1 h
  exact (fetchOpcode_ok_iff ..).2 ⟨v, _, syncRead_later hu, rfl⟩

theorem selectEvent_later (s : State) : selectEvent (later n l s) = selectEvent s := by
  rw [selectEvent_eq, selectEvent_eq]
  rfl

theorem onSelection_later (e : Entry) (s : State) : onSelection e (later n l s) = later n l (onSelection e s) := by
  cases e <;> rfl

theorem fetchOperands_later {s t : State} {i : Instr} (hv : s.variant = .nmos6502)
    (h : fetchOperands decodeOp s = .ok (i, t)) :
    fetchOperands decodeOp (later n l s) = .ok (i, later n l t) := by
  refine (fetchOperands_ok_iff (later n l s) _ i hv).2 ?_
  rcases (fetchOperands_ok_iff s t i hv).1 h with
    ⟨h1, hi, rfl⟩ | ⟨h1, b, u, hu, ⟨h2, hi, rfl⟩ | ⟨h2, hj, hi, rfl⟩ | ⟨h2, hj, c, hc, hi⟩⟩
  · exact .inl ⟨h1, hi, rfl⟩
  · exact .inr ⟨h1, b, _, fetchByte_later hu, .inl ⟨h2, hi, rfl⟩⟩
  · exact .inr ⟨h1, b, _, fetchByte_later hu, .inr (.inl ⟨h2, hj, hi, rfl⟩)⟩
  · exact .inr ⟨h1, b, _, fetchByte_later hu, .inr (.inr ⟨h2, hj, c, fetchByte_later hc, hi⟩)⟩

/-- A completed step completes in the same way from a later count and a longer trace. -/
theorem step_later {s t : State} (h : step s = .next t) : step (later n l s) = .next (later n l t) := by
  rcases step_next_cases h with ⟨hp, rfl⟩ | ⟨hp, hv, hstep⟩
  · exact step_unpowered hp
  simp only [applySo_run, applySo_pendReset, applySo_pins] at hstep
  rcases hstep with ⟨hj, hr, hcycle⟩ | ⟨hj, ⟨hrdy, hcycle⟩ | ⟨hrdy, u, hu, hexec⟩⟩
  · rw [step_of_jammed (s := later n l s) hp hv hj hr, applySo_later]
    exact (conclude_eq_next ..).2 (dummyRead_later hcycle)
  · obtain ⟨v, hread⟩ := (stallCycle_ok_iff _ _).1 hcycle
    rw [step_of_stalled (s := later n l s) hp hv hj hrdy, applySo_later]
    exact (conclude_eq_next ..).2 ((stallCycle_ok_iff _ _).2 ⟨v, syncRead_later hread⟩)
  have hu' : fetchOpcode (applySo (later n l s)) = .ok (later n l u) := by
    rw [applySo_later, fetchOpcode_later hu]
  rcases hexec with ⟨e, he, hentry⟩ | ⟨he, i, w, hf, hx⟩
  · rw [step_of_selected (s := later n l s) hp hv hj hrdy hu' ((selectEvent_later u).trans he), onSelection_later]
    exact (conclude_eq_next ..).2 (enter_later hentry)
  · have hvu : u.variant = .nmos6502 := by rw [(fetchOpcode_keeps hu).variant, applySo_variant, hv]
    have hf' := fetchOperands_later (n := n) (l := l) (s := { u with pc := u.pc + 1 }) hvu hf
    rw [step_of_dispatched (s := later n l s) hp hv hj hrdy hu' ((selectEvent_later u).trans he) hf']
    exact exec_later hx

end

/-- Settles O21: `later` is the state that the statement writes out. -/
theorem nothingReadsTheCycleCounterOrTheTrace : Obligations.NothingReadsTheCycleCounterOrTheTrace :=
  fun _ _ _ _ h => step_later h

end Sys2Proof.Machine
end

section
/-! PROOFS. Pins (O28), the steps that execute nothing (O10), the RESET sequence (`step_of_reset`) and the cold start (O8), the
reset state (O5). -/

namespace Sys2Proof.Machine

open Config

/-! ### Pins -/

theorem raised_of_ne_lowered {l : Level} (h : l ≠ .lowered) : l = .raised := by cases l <;> simp_all

theorem lowered_of_ne_raised {l : Level} (h : l ≠ .raised) : l = .lowered := by cases l <;> simp_all

/-- What an output's move to another level appends to the trace: the event of the bus cycle that the rise of `RD` or `WR` ends. -/
theorem driveOutput_of_ne {pin : OutputPin} {l : Level} {s : State} (h : s.pins.output pin ≠ l) :
    driveOutput pin l s = (if l = .raised then .roseEdge else .fellEdge,
      { s with
        pins := s.pins.withOutput l pin
        trace := s.trace ++
          if l = .lowered then []
          else match pin with
            | .sync => []
            | .rd => [⟨s.addr, s.data, .read, s.pins.sync == .raised⟩]
            | .wr => [⟨s.addr, s.data, .write, false⟩] }) := by
  cases l with
  | lowered =>
    rw [driveOutput_lowered (raised_of_ne_lowered h)]
    simp
  | raised =>
    rw [driveOutput_raised (lowered_of_ne_raised h)]
    cases pin <;> simp [traceAtRise, State.event]

section

variable {pin : InputPin} {s : State}

theorem drivePin_same {l : Level} (h : s.pins.level pin = l) : drivePin pin l s = (.noChange, s) := by
  rw [drivePin, if_pos (by simp [h])]

variable (hpin : pin.surface ∈ s.profile.pins)

include hpin

/-- A pin of the profile that is driven to another level. -/
theorem drivePin_of_ne {l : Level} (h : s.pins.level pin ≠ l) :
    drivePin pin l s =
      let t := { s with pins := s.pins.withLevel l pin }
      if l = .raised then (.roseEdge, if pin = .power then powerOn t else t)
      else (.fellEdge, if s.powered then latch t pin else t) := by
  rw [drivePin, if_neg (by simp [hpin, h]), transition_input]
  cases l <;> rfl

theorem drivePin_raised (h : s.pins.level pin ≠ .raised) (hp : pin ≠ .power) :
    drivePin pin .raised s = (.roseEdge, { s with pins := s.pins.withLevel .raised pin }) := by
  simp [drivePin_of_ne hpin h, hp]

theorem drivePin_lowered_unpowered (h : s.pins.level pin ≠ .lowered) (hp : s.pins.power = .lowered) :
    drivePin pin .lowered s = (.fellEdge, { s with pins := s.pins.withLevel .lowered pin }) := by
  simp [drivePin_of_ne hpin h, State.powered, hp]

theorem drivePin_lowered_powered (h : s.pins.level pin ≠ .lowered) (hp : s.pins.power = .raised) :
    drivePin pin .lowered s = (.fellEdge, latch { s with pins := s.pins.withLevel .lowered pin } pin) := by
  simp [drivePin_of_ne hpin h, State.powered, hp]

end

theorem drivePin_power_raised {s : State} (hpin : .power ∈ s.profile.pins) (h : s.pins.power ≠ .raised) :
    drivePin .power .raised s = (.roseEdge, powerOn { s with pins := { s.pins with power := .raised } }) :=
  drivePin_of_ne (pin := .power) hpin h

theorem level_withLevel (p : Pins) (l : Level) (pin q : InputPin) :
    (p.withLevel l pin).level q = if q = pin then l else p.level q := by cases pin <;> cases q <;> rfl

/-- The latch of a falling edge, as a condition on each of the four. -/
theorem latch_eq (s : State) (pin : InputPin) : latch s pin = { s with
    pendReset := decide (pin = .reset) || s.pendReset
    pendNmi := decide (pin = .nmi) || s.pendNmi
    pendIrq := decide (pin = .int) || s.pendIrq
    pendSo := decide (pin = .so) || s.pendSo } := by cases pin <;> rfl

theorem inputPin_mem_nmos {s : State} (hv : s.variant = .nmos6502) (pin : InputPin) : pin.surface ∈ s.profile.pins := by
  rw [profile_nmos hv, ← List.contains_iff_mem]
  exact nmos_pins_contains pin

/-- Settles O28: the outputs by `driveOutput_of_ne`, the inputs by what each of the four kinds of edge does. -/
theorem pinEdges : Obligations.PinEdges := by
  refine ⟨fun s pin hpin => sharedPins_mem s.variant hpin, fun s pin l => ⟨driveOutput_same, driveOutput_of_ne⟩, ?_⟩
  intro s pin l hpresent
  have hpin : pin.surface ∈ s.profile.pins := hpresent.elim (fun hv => inputPin_mem_nmos hv pin) id
  refine ⟨drivePin_same, fun hne => ⟨level_withLevel s.pins l pin, ?_, ?_, ?_, ?_⟩⟩
  · rintro rfl hp
    exact drivePin_raised hpin hne hp
  · rintro rfl rfl
    exact drivePin_power_raised hpin hne
  · rintro rfl hp
    exact drivePin_lowered_unpowered hpin hne hp
  · rintro rfl hp
    rw [drivePin_lowered_powered hpin hne hp, latch_eq]

/-! ### The cycle with `SYNC` -/

/-- Where `SYNC` was lowered before, its cycle is a read that leaves marks alone. -/
theorem syncCycle_reads {s : State} (hs : s.pins.sync = .lowered) (r : Region) : Reads s (syncCycle r s) [s.pc] := by
  rw [syncCycle_eq]
  refine ⟨?_, rfl, [_], rfl, rfl⟩
  simp only [busMarks, ← hs]

theorem readsAs_busByte {s : State} {r : Region} {a : Word} (hr : s.regionAt a = some r) : ReadsAs s a (busByte r a s) :=
  (memRead_reads (memRead_eq hr)).2

theorem syncRead_eq {s : State} {r : Region} (hr : s.regionAt s.pc = some r) :
    syncRead s = .ok (busByte r s.pc s, syncCycle r s) := (syncRead_ok_iff ..).2 ⟨r, hr, rfl, rfl⟩

/-- The SO latch changes neither the map nor memory. -/
theorem readsAs_applySo {s : State} {a : Word} {v : Byte} : ReadsAs (applySo s) a v ↔ ReadsAs s a v :=
  ReadsAs_congr (applySo_regions s) (by simp [byteAt])

/-- Settles O10: the stall is the SO latch and one cycle with `SYNC`. -/
theorem stepsThatExecuteNothing : Obligations.StepsThatExecuteNothing := by
  refine ⟨fun s => step_unpowered, fun s => step_openProfile, ?_⟩
  intro s hp hv hrdy hrun hsync hmapped
  obtain ⟨r, hr⟩ := Option.isSome_iff_exists.1 hmapped
  have hr' : (applySo s).regionAt (applySo s).pc = some r := by
    rw [applySo_pc, regionAt_congr (applySo_regions s), hr]
  have hj : ¬(s.run = .jammed ∧ s.pendReset = false) := by
    rintro ⟨hjam, hreset⟩
    simp [hjam, hreset] at hrun
  have hstall : stallCycle (applySo s) = .ok (syncCycle r (applySo s)) := (stallCycle_ok_iff ..).2 ⟨_, syncRead_eq hr'⟩
  have reads := syncCycle_reads (s := applySo s) (by rw [applySo_pins, hsync]) r
  refine ⟨_, busByte r s.pc (applySo s), ?_, reads.marks, ?_, ?_, ?_⟩
  · rw [step_of_stalled hp hv hj hrdy, hstall, conclude_ok]
  · rw [reads.drives.1, applySo_cycles]
    rfl
  · rw [syncCycle_eq, applySo_pc, applySo_trace]
  · exact readsAs_applySo.1 (applySo_pc s ▸ readsAs_busByte hr')

/-! ### Reads with register changes between them -/

/-- A stretch of reads between which `PC`, `S` and `P` may change. -/
structure Walks (s t : State) (l : List Word) : Prop where
  marks : t = { busMarks s t with pc := t.pc, sp := t.sp, p := t.p }
  drives : Drives s t (l.map fun a => (a, .read))

theorem Reads.walks {s t : State} {l : List Word} (h : Reads s t l) : Walks s t l := by
  refine ⟨?_, h.drives⟩
  rw [h.marks]
  rfl

theorem Walks.trans {s t u : State} {l m : List Word} (h : Walks s t l) (k : Walks t u m) : Walks s u (l ++ m) := by
  refine ⟨?_, ?_⟩
  · have ht := h.marks
    have hu := k.marks
    rw [ht] at hu
    exact hu
  · rw [List.map_append]
    exact h.drives.trans k.drives

/-- A change of those registers drives nothing. -/
theorem Walks.of_registers (s : State) (pc : Word) (sp p : Byte) : Walks s { s with pc := pc, sp := sp, p := p } [] :=
  ⟨rfl, .refl s⟩

theorem Walks.regions {s t : State} {l : List Word} (h : Walks s t l) : t.regions = s.regions := by
  rw [h.marks]
  rfl

theorem Walks.variant {s t : State} {l : List Word} (h : Walks s t l) : t.variant = s.variant := by
  rw [h.marks]
  rfl

theorem Walks.allMapped {s t : State} {l : List Word} (h : Walks s t l) (ha : AllMapped s) : AllMapped t :=
  (AllMapped_congr h.regions).2 ha

theorem Walks.readsAs {s t : State} {l : List Word} (h : Walks s t l) {a : Word} {v : Byte} :
    ReadsAs t a v ↔ ReadsAs s a v :=
  ReadsAs_congr h.regions (by rw [h.marks]; rfl)

/-! ### The RESET sequence -/

/-- `DummyPush` (R165) reads the slot at `S` and lowers `S`. -/
theorem dummyPush_exists {s : State} (ha : AllMapped s) :
    ∃ t, dummyPush s = .ok t ∧ Walks s t [s.stackAddr] ∧ t.sp = s.sp - 1 ∧ t.p = s.p := by
  obtain ⟨u, hu⟩ := dummyRead_exists (ha s.stackAddr)
  have reads := dummyRead_reads hu
  have hsp : u.sp = s.sp := by rw [reads.marks]; rfl
  have hp : u.p = s.p := by rw [reads.marks]; rfl
  have walks := reads.walks.trans (.of_registers u u.pc (u.sp - 1) u.p)
  refine ⟨{ u with sp := u.sp - 1 }, ?_, walks, by rw [hsp], hp⟩
  rw [dummyPush, hu]
  rfl

theorem stackAddr_eq_slotBelow {s t : State} {k : Byte} (h : t.sp = s.sp - k) : t.stackAddr = slotBelow s k := by
  rw [State.stackAddr, slotBelow, h]

/-- The stack cycles of RESET (R410): three dummy pushes. -/
theorem resetPushes_exist {s : State} (ha : AllMapped s) :
    ∃ t, entryPushes nmos .reset (stackCycles nmos .reset) s = .ok t ∧
      Walks s t [slotBelow s 0, slotBelow s 1, slotBelow s 2] ∧ t.sp = s.sp - 3 ∧ t.p = s.p := by
  obtain ⟨s1, h1, w1, sp1, p1⟩ := dummyPush_exists ha
  obtain ⟨s2, h2, w2, sp2, p2⟩ := dummyPush_exists (w1.allMapped ha)
  obtain ⟨s3, h3, w3, sp3, p3⟩ := dummyPush_exists ((w1.trans w2).allMapped ha)
  have sp2' : s2.sp = s.sp - 2 := by rw [sp2, sp1]; bv_omega
  refine ⟨s3, ?_, ?_, by rw [sp3, sp2']; bv_omega, by rw [p3, p2, p1]⟩
  · rw [entryPushes_nmos]
    simp only [entryPush, h1, h2, h3, bind_ok]
  · rw [← stackAddr_eq_slotBelow (show s.sp = s.sp - 0 by bv_omega), ← stackAddr_eq_slotBelow sp1,
      ← stackAddr_eq_slotBelow sp2']
    exact (w1.trans w2).trans w3

/-- The addresses that RESET reads after the opcode fetch (R410). -/
def resetReads (s : State) : List Word := [s.pc, slotBelow s 0, slotBelow s 1, slotBelow s 2, 0xFFFC, 0xFFFD]

/-- Cycles 2 to 7 of the RESET sequence (R410) on a complete map. -/
theorem enter_reset_exists {s : State} (hv : s.variant = .nmos6502) (ha : AllMapped s) :
    ∃ t l h, enter .reset s = .ok t ∧ Walks s t (resetReads s) ∧ t.pc = wordOf h l ∧ t.sp = s.sp - 3 ∧
      t.p = withFlag .i true s.p ∧ ReadsAs s 0xFFFC l ∧ ReadsAs s 0xFFFD h := by
  obtain ⟨s1, h1⟩ := dummyRead_exists (ha s.pc)
  have r1 := dummyRead_reads h1
  obtain ⟨s2, h2, w2, sp2, p2⟩ := resetPushes_exist (r1.allMapped ha)
  have w2' : Walks s s2 _ := r1.walks.trans w2
  obtain ⟨l, s3, h3⟩ := memRead_exists (w2'.allMapped ha 0xFFFC)
  obtain ⟨r3, v3⟩ := memRead_reads h3
  have w3 := (w2'.trans r3.walks).trans (.of_registers s3 s3.pc s3.sp (withFlag .i true s3.p))
  obtain ⟨h, s4, h4⟩ := memRead_exists (w3.allMapped ha 0xFFFD)
  obtain ⟨r4, v4⟩ := memRead_reads h4
  have w4 := (w3.trans r4.walks).trans (.of_registers s4 (wordOf h l) s4.sp s4.p)
  have first : vectorOf nmos .reset = 0xFFFC := rfl
  have second : (0xFFFC : Word) + 1 = 0xFFFD := by decide
  have sp1 : s1.sp = s.sp := by rw [r1.marks]; rfl
  have p1 : s1.p = s.p := by rw [r1.marks]; rfl
  have sp3 : s3.sp = s2.sp := by rw [r3.marks]; rfl
  have p3 : s3.p = s2.p := by rw [r3.marks]; rfl
  refine ⟨{ s4 with pc := wordOf h l }, l, h, ?_, ?_, rfl, ?_, ?_, w2'.readsAs.1 v3, w3.readsAs.1 v4⟩
  · simp only [enter, profile_nmos hv, h1, bind_ok, reduceCtorEq, if_false, h2, first, h3, entryStatus_nmos,
      entryFlipFlops_nmos, second, h4]
    rfl
  · have slots : slotBelow s1 = slotBelow s := by
      funext k
      rw [slotBelow, slotBelow, sp1]
    rw [slots] at w4
    exact w4
  · rw [← sp1, ← sp2, ← sp3, r4.marks]
    rfl
  · rw [← p1, ← p2, ← p3, r4.marks]
    rfl

/-- The opcode fetch at a mapped `PC`, from `SYNC` lowered: marks and `IR` (R213). -/
theorem fetchOpcode_exists {s : State} (hsync : s.pins.sync = .lowered) (hm : Mapped s s.pc) :
    ∃ u, fetchOpcode s = .ok u ∧ u = { busMarks s u with ir := u.ir } ∧ Drives s u [(s.pc, .read)] ∧
      ReadsAs s s.pc u.ir := by
  obtain ⟨r, hr⟩ := Option.isSome_iff_exists.1 hm
  have reads := syncCycle_reads hsync r
  refine ⟨{ syncCycle r s with ir := busByte r s.pc s }, (fetchOpcode_ok_iff ..).2 ⟨_, _, syncRead_eq hr, rfl⟩, ?_,
    reads.drives, readsAs_busByte hr⟩
  rw [reads.marks]
  rfl

/-- The step of a ready boundary with a reset latched, on a complete map (R410): the SO latch, the opcode fetch, whose byte is not
used, and the RESET sequence. -/
theorem step_of_reset {s : State} (hp : s.pins.power = .raised) (hv : s.variant = .nmos6502)
    (hrdy : s.pins.rdy = .raised) (hsync : s.pins.sync = .lowered) (hreset : s.pendReset = true) (ha : AllMapped s) :
    ∃ t l h, step s = .next t ∧
      t = { busMarks (applySo s) t with
            pc := wordOf h l, sp := s.sp - 3, p := withFlag .i true (applySo s).p, ir := t.ir, pendReset := false,
            run := .running } ∧
      ReadsAs s s.pc t.ir ∧ Drives (applySo s) t ((s.pc :: resetReads s).map fun a => (a, .read)) ∧
      ReadsAs s 0xFFFC l ∧ ReadsAs s 0xFFFD h := by
  have ha' : AllMapped (applySo s) := (AllMapped_congr (applySo_regions s)).2 ha
  obtain ⟨u, hu, hmarks, hdrives, hread⟩ := fetchOpcode_exists (by rw [applySo_pins, hsync]) (ha' (applySo s).pc)
  have fetch := fetchOpcode_keeps hu
  have hvu : u.variant = .nmos6502 := by rw [fetch.variant, applySo_variant, hv]
  have hsel : selectEvent u = some .reset := by
    rw [selectEvent_nmos hvu, fetch.pendReset, applySo_pendReset, hreset, if_pos rfl]
  obtain ⟨x, hx⟩ : ∃ x, x = onSelection .reset u := ⟨_, rfl⟩
  have hxs : x = { busMarks (applySo s) u with ir := u.ir, pendReset := false, run := .running } := by
    rw [hx, hmarks]
    rfl
  have regions : x.regions = s.regions := by rw [hxs]; exact applySo_regions s
  have mem : x.mem = s.mem := by rw [hxs]; exact applySo_mem s
  have pc : x.pc = s.pc := by rw [hxs]; exact applySo_pc s
  have sp : x.sp = s.sp := by rw [hxs]; exact applySo_sp s
  have p : x.p = (applySo s).p := by rw [hxs]; rfl
  have drives : Drives (applySo s) x [(s.pc, .read)] := by
    rw [hx, ← applySo_pc s]
    exact hdrives
  have reads : resetReads x = resetReads s := by simp only [resetReads, slotBelow, pc, sp]
  have readsAs {a : Word} {v : Byte} : ReadsAs x a v ↔ ReadsAs s a v :=
    ReadsAs_congr regions (by simp only [byteAt, mem])
  obtain ⟨t, l, h, ht, walks, hpc, hsp, hp', hl, hh⟩ :=
    enter_reset_exists (s := x) (by rw [hx, onSelection_variant, hvu]) ((AllMapped_congr regions).2 ha)
  have hall := walks.marks
  rw [hpc, hsp, hp', sp, p, hxs] at hall
  have hir : t.ir = u.ir := by rw [hall]; rfl
  refine ⟨t, l, h, ?_, ?_, ?_, ?_, readsAs.1 hl, readsAs.1 hh⟩
  · rw [step_of_selected hp hv (by simp [hreset]) hrdy hu hsel, ← hx, ht, conclude_ok]
  · rw [hir]
    exact hall
  · rw [hir]
    exact readsAs_applySo.1 (applySo_pc s ▸ hread)
  · rw [← reads]
    exact drives.trans walks.drives

/-! ### The cold start -/

/-- The state that the rise of `POWER` and the fall of `RESET` leave of an unpowered one (R450, R46, R44). -/
def coldStart (s : State) : State :=
  { s with
    pendReset := true
    pendNmi := false
    pendIrq := false
    pendSo := false
    run := .running
    cycles := 0
    trace := []
    pins := { s.pins with power := .raised, reset := .lowered, sync := .lowered, rd := .raised, wr := .raised } }

theorem coldStart_eq {s : State} (hp : s.pins.power = .lowered) (hr : s.pins.reset = .raised)
    (hv : s.variant = .nmos6502) : (drivePin .reset .lowered (drivePin .power .raised s).2).2 = coldStart s := by
  have hreset : (powerOn { s with pins := { s.pins with power := .raised } }).pins.level .reset ≠ .lowered := by
    simp [Pins.level, hr]
  rw [drivePin_power_raised (inputPin_mem_nmos hv .power) (by simp [hp]),
    drivePin_lowered_powered (inputPin_mem_nmos (by exact hv) .reset) hreset rfl]
  rfl

/-- Setting a flag other than `B` sets that flag alone. -/
theorem flagsSet_withFlag (f : Flag) (v : Bool) (p : Byte) : FlagsSet [(f, v)] p (withFlag f v p) := by
  refine ⟨fun g => ?_, ?_⟩
  · rw [flag_withFlag, List.lookup_cons]
    by_cases h : g = f
    · simp [h]
    · simp [h, beq_false_of_ne h]
  · rw [getLsbD_withFlag, if_neg (by cases f <;> decide)]

/-- Settles O8: the RESET sequence from `coldStart`. -/
theorem coldStartReachesTheResetVector : Obligations.ColdStartReachesTheResetVector := by
  intro s hp hr hrdy hv ha
  rw [coldStart_eq hp hr hv]
  obtain ⟨t, l, h, hstep, ht, -, hdrives, hl, hh⟩ :=
    step_of_reset (s := coldStart s) rfl hv hrdy rfl rfl ((AllMapped_congr rfl).2 ha)
  have hso : applySo (coldStart s) = coldStart s := rfl
  rw [hso] at ht hdrives
  have idle : OutputsIdle t := outputsIdle_kept.step hstep ⟨rfl, rfl, rfl⟩
  have hpins : t.pins = (coldStart s).pins := by
    have h1 : t.pins = { (coldStart s).pins with rd := t.pins.rd, wr := t.pins.wr } := by rw [ht]; rfl
    rw [h1, idle.rd, idle.wr]
    rfl
  refine ⟨t, l, h, withFlag .i true s.p, hstep, ?_, flagsSet_withFlag .i true s.p, ?_, ?_, hl, hh⟩
  · have eta : t = { t with pins := (coldStart s).pins } := by rw [← hpins]
    rw [eta, ht]
    rfl
  · rw [hdrives.1]
    rfl
  · obtain ⟨-, es, htrace, hes⟩ := hdrives
    rw [htrace]
    exact hes

/-- Settles O5: `resetTrace` was entered at `PC` 0x1234 and read the vector 0x8000. -/
theorem resetStateIsAsR52Says : Obligations.ResetStateIsAsR52Says :=
  ⟨by decide, by decide, by decide, rfl, rfl, rfl, rfl, rfl, rfl, rfl, rfl, rfl, rfl, 0x1234, 0x00, 0x80, by decide, rfl,
    rfl, by decide⟩

end Sys2Proof.Machine
end

section
/-! PROOFS. The bus from outside a step: what one cycle does in each kind of region (O26), how the host reaches memory and
registers (O29). -/

namespace Sys2Proof.Machine

open Config

/-! ### One bus cycle -/

theorem memRead_of_unmapped {a : Word} {s : State} (h : s.regionAt a = none) :
    memRead a s = .error (.busContractViolation a) := by
  rw [memRead, h]

theorem memWrite_of_unmapped {a : Word} {s : State} (v : Byte) (h : s.regionAt a = none) :
    memWrite a v s = .error (.busContractViolation a) := by
  rw [memWrite, h]

/-- A region that is not write-only gives the stored byte, and no free byte is drawn (R76). -/
theorem memRead_of_readable {a : Word} {s : State} (h : Readable s a) :
    memRead a s = .ok (byteAt s a, { s with
      cycles := s.cycles + 1, addr := a, data := byteAt s a,
      trace := s.trace ++ [⟨a, byteAt s a, .read, s.pins.sync == .raised⟩], pins := { s.pins with rd := .raised } }) := by
  obtain ⟨r, hr, hw⟩ := h
  have hbyte : busByte r a s = byteAt s a := if_neg hw
  rw [memRead_eq hr, readCycle_eq, hbyte, if_neg hw]

/-- A write-only region gives the next free byte (R82). -/
theorem memRead_of_writeOnly {a : Word} {s : State} {r : Region} (hr : s.regionAt a = some r)
    (hw : r.access = .writeOnly) :
    memRead a s = .ok (freeByte s.freeIndex, { s with
      cycles := s.cycles + 1, addr := a, data := freeByte s.freeIndex, freeIndex := s.freeIndex + 1,
      trace := s.trace ++ [⟨a, freeByte s.freeIndex, .read, s.pins.sync == .raised⟩],
      pins := { s.pins with rd := .raised } }) := by
  have hbyte : busByte r a s = freeByte s.freeIndex := if_pos hw
  rw [memRead_eq hr, readCycle_eq, hbyte, if_pos hw]

/-- Settles O26: the two read clauses by the access level, the write clause by `writeCycle_wrote`. -/
theorem busCycles : Obligations.BusCycles := by
  refine ⟨fun a v s h => ⟨memRead_of_unmapped h, memWrite_of_unmapped v h⟩, fun a s h => memRead_of_readable h,
    fun a s r hr hw => memRead_of_writeOnly hr hw, fun a v s h => ?_⟩
  obtain ⟨r, hr⟩ := Option.isSome_iff_exists.1 h
  exact ⟨writeCycle r a v s, memWrite_eq hr, by rw [writeCycle_eq], (writeCycle_wrote hr).stores⟩

/-! ### The host -/

theorem regionAt_of_not_mapped {a : Word} {s : State} (h : ¬Mapped s a) : s.regionAt a = none :=
  Option.not_isSome_iff_eq_none.1 h

theorem peek_of_mapped {a : Word} {s : State} (h : Mapped s a) : peek a s = .ok (byteAt s a) := by
  obtain ⟨r, hr⟩ := Option.isSome_iff_exists.1 h
  rw [peek, hr]
  rfl

theorem poke_of_mapped {a : Word} {s : State} (v : Byte) (h : Mapped s a) :
    poke a v s = .ok { s with mem := s.mem.write a.toNat v } := by
  obtain ⟨r, hr⟩ := Option.isSome_iff_exists.1 h
  rw [poke, hr]

/-- The bytes after one is stored at `a`. -/
theorem byteAt_write (a b : Word) (v : Byte) (s : State) :
    byteAt { s with mem := s.mem.write a.toNat v } b = if b = a then v else byteAt s b := by
  simp only [byteAt, Memory.read_write, BitVec.toNat_inj]

/-- Normalisation touches bits 5 and 4 alone, which are no flag but `B` (R31). -/
theorem flag_statusFrom_nmos {f : Flag} (v : Byte) (hf : f ≠ .b) : flag f (statusFrom nmos v) = flag f v := by
  rw [statusFrom_nmos]
  cases f <;> simp_all [flag, flagBit]

/-- Settles O29: the host's access touches one byte, or the registers alone. -/
theorem hostAccess : Obligations.HostAccess := by
  refine ⟨fun a s h => peek_of_mapped h, fun a v s h => ⟨_, poke_of_mapped v h, rfl, fun b => byteAt_write a b v s⟩,
    fun a v s h => ?_, fun s hv => readRegisters_nmos hv, fun a x y sp p pc s hv => ⟨statusFrom nmos p, ?_, ?_⟩⟩
  · rw [peek, poke, regionAt_of_not_mapped h]
    exact ⟨rfl, rfl⟩
  · rw [loadRegisters, profile_nmos hv]
  · have hr := reserved_statusFrom p
    rw [reservedBitsHold, Bool.and_eq_true, Bool.not_eq_true'] at hr
    exact ⟨hr.1, hr.2, fun f hf => flag_statusFrom_nmos p hf⟩

end Sys2Proof.Machine
end

section
/-! PROOFS. What a step leaves in the trace: one event for each cycle that it counts, the last of them in the latches (O18), and
a write for each byte of memory that it changes (O19). -/

namespace Sys2Proof.Machine

open Config

/-! ### Cycles and events -/

/-- Since `s` the bus appended `es` to the trace, counted a cycle for each event, and holds the last one in its latches. -/
structure Counted (s : State) (es : List BusEvent) (t : State) : Prop where
  trace : t.trace = s.trace ++ es
  cycles : t.cycles = s.cycles + es.length
  latches : ∀ e ∈ es.getLast?, t.addr = e.addr ∧ t.data = e.data

theorem Counted.refl (s : State) : Counted s [] s := ⟨by simp, rfl, by simp⟩

/-- One more cycle, with its event `e`. -/
theorem Counted.append {s t u : State} {es : List BusEvent} {e : BusEvent} (h : Counted s es t)
    (ht : u.trace = t.trace ++ [e]) (hc : u.cycles = t.cycles + 1) (ha : u.addr = e.addr) (hd : u.data = e.data) :
    Counted s (es ++ [e]) u where
  trace := by rw [ht, h.trace, List.append_assoc]
  cycles := by rw [hc, h.cycles, List.length_append, List.length_singleton, Nat.add_assoc]
  latches := by simp [ha, hd]

theorem counted_kept (s : State) : KeptByCycles fun t => ∃ es, Counted s es t where
  regs _ h := fun ⟨es, hc⟩ =>
    ⟨es, h.trace.trans hc.trace, h.cycles.trans hc.cycles, by rw [h.addr, h.data]; exact hc.latches⟩
  read a _ := fun ⟨_, hc⟩ => ⟨_, hc.append (readCycle_trace _ a _) (by simp) (by simp) (by simp)⟩
  write a v _ := fun ⟨_, hc⟩ => ⟨_, hc.append (writeCycle_trace _ a v _) (by simp) (by simp) (by simp)⟩
  sync r := fun ⟨_, hc⟩ => by
    rw [syncCycle_eq]
    exact ⟨_, hc.append rfl rfl rfl rfl⟩

/-- Settles O18: a step's registers and latches leave the bus alone, and each of its cycles is counted and traced. -/
theorem everyCycleIsCountedAndTraced : Obligations.EveryCycleIsCountedAndTraced := by
  intro s t h
  obtain ⟨es, hc⟩ := (counted_kept s).step h ⟨[], .refl s⟩
  exact ⟨es, hc.trace, hc.cycles, hc.latches⟩

/-! ### Stores and events -/

/-- A write cycle changes the byte at its own address alone, to its data, and only where that is writable (R77, R81). -/
theorem Wrote.of_changed {s t : State} {a b : Word} {v : Byte} (h : Wrote s t a v) (hb : byteAt t b ≠ byteAt s b) :
    b = a ∧ Writable s b ∧ byteAt t b = v := by
  obtain ⟨hstored, hkept⟩ := h.stores b
  have hw : Writable s b := by
    by_contra hn
    exact hb (hkept hn)
  have hba : b = a := by
    by_contra hne
    exact hb (by simp [hstored hw, List.lookup_cons, beq_false_of_ne hne])
  subst hba
  exact ⟨rfl, hw, by simp [hstored hw]⟩

/-- The address is writable in `s`, and one of the events wrote there what it holds in `t`. -/
def WrittenBy (es : List BusEvent) (s t : State) (b : Word) : Prop :=
  Writable s b ∧ ∃ e ∈ es, e.action = .write ∧ e.addr = b ∧ e.data = byteAt t b

/-- Later events leave an earlier write in the list. -/
theorem WrittenBy.append {es : List BusEvent} {s t u : State} {b : Word} (h : WrittenBy es s t b)
    (hbyte : byteAt u b = byteAt t b) (fs : List BusEvent) : WrittenBy (es ++ fs) s u b := by
  obtain ⟨hw, e, he, hact, haddr, hdata⟩ := h
  exact ⟨hw, e, List.mem_append_left fs he, hact, haddr, hdata.trans hbyte.symm⟩

/-- Since `s` the bus appended `es` to the trace, and these events wrote every byte of memory that is not as it was. -/
structure StoresTraced (s : State) (es : List BusEvent) (t : State) : Prop where
  regions : t.regions = s.regions
  trace : t.trace = s.trace ++ es
  stores : ∀ b, byteAt t b ≠ byteAt s b → WrittenBy es s t b

theorem StoresTraced.refl (s : State) : StoresTraced s [] s := ⟨rfl, by simp, fun _ hb => absurd rfl hb⟩

/-- More events, while memory stays. -/
theorem StoresTraced.append {s t u : State} {es fs : List BusEvent} (h : StoresTraced s es t)
    (hr : u.regions = t.regions) (ht : u.trace = t.trace ++ fs) (hm : u.mem = t.mem) : StoresTraced s (es ++ fs) u where
  regions := hr.trans h.regions
  trace := by rw [ht, h.trace, List.append_assoc]
  stores b hb := by
    have hbyte : byteAt u b = byteAt t b := by rw [byteAt, hm, byteAt]
    exact (h.stores b (hbyte ▸ hb)).append hbyte fs

/-- A write cycle: of the byte that it changes its own event is the write, of any other an earlier one. -/
theorem StoresTraced.write {s t u : State} {es : List BusEvent} {a : Word} {v : Byte} (h : StoresTraced s es t)
    (hw : Wrote t u a v) : StoresTraced s (es ++ [⟨a, v, .write, false⟩]) u where
  regions := hw.regions.trans h.regions
  trace := by rw [hw.trace, h.trace, List.append_assoc]
  stores b hb := by
    by_cases hbyte : byteAt u b = byteAt t b
    · exact (h.stores b (hbyte ▸ hb)).append hbyte _
    · obtain ⟨rfl, hwr, hv⟩ := hw.of_changed hbyte
      exact ⟨(Writable_congr h.regions b).1 hwr, _, List.mem_append_right es (List.mem_singleton_self _), rfl, rfl,
        hv.symm⟩

theorem storesTraced_kept (s : State) : KeptByCycles fun t => ∃ es, StoresTraced s es t where
  regs _ h := fun ⟨_, hs⟩ => ⟨_, hs.append (fs := []) h.regions (by simp [h.trace]) h.mem⟩
  read a _ := fun ⟨_, hs⟩ => ⟨_, hs.append (by simp) (readCycle_trace _ a _) (by simp)⟩
  write _ v hr := fun ⟨_, hs⟩ => ⟨_, hs.write (writeCycle_wrote (v := v) hr)⟩
  sync r := fun ⟨_, hs⟩ => ⟨_, hs.append (by simp) (by rw [syncCycle_eq]) (by simp)⟩

/-- Settles O19: of what a step is made of, a write cycle alone changes memory. -/
theorem memoryChangesOnlyByTracedWrites : Obligations.MemoryChangesOnlyByTracedWrites := by
  intro s t h
  obtain ⟨es, hs⟩ := (storesTraced_kept s).step h ⟨[], .refl s⟩
  exact ⟨es, hs.trace, hs.stores⟩

end Sys2Proof.Machine
end

section
/-! PROOFS. Why an instruction stops (O25): a bus sequence fails in a cycle at an unmapped address and in no other way, and an
instruction is one bus sequence at most. -/

namespace Sys2Proof.Machine

open Config

/-- A bus sequence, begun on the map of `s`, ends with that map, in the state that `st` takes from its answer; or it stops at an
address that no region of the map claims (R79). -/
def StopsUnmapped {α : Type} (s : State) (st : α → State) : Except Fault α → Prop
  | .ok x => (st x).regions = s.regions
  | .error f => ∃ a, f = .busContractViolation a ∧ s.regionAt a = none

section

variable {s t : State}

/-! ### Sequencing -/

theorem StopsUnmapped.ok {α : Type} {st : α → State} {x : α} (h : (st x).regions = s.regions) :
    StopsUnmapped s st (.ok x) := h

/-- What follows a sequence begins on the same map. -/
theorem StopsUnmapped.bind {α β : Type} {st : α → State} {st' : β → State} {x : Except Fault α}
    {k : α → Except Fault β} (hx : StopsUnmapped s st x)
    (hk : ∀ y, (st y).regions = s.regions → StopsUnmapped s st' (k y)) : StopsUnmapped s st' (x >>= k) := by
  cases x with
  | ok y => exact hk y hx
  | error f => exact hx

/-! ### Bus cycles and the stack -/

theorem memRead_stops (a : Word) (h : t.regions = s.regions) : StopsUnmapped s Prod.snd (memRead a t) := by
  cases hr : t.regionAt a with
  | none => rw [memRead_of_unmapped hr]; exact ⟨a, rfl, (regionAt_congr h a).symm.trans hr⟩
  | some r => rw [memRead_eq hr]; exact .ok ((readCycle_regions r a t).trans h)

theorem memWrite_stops (a : Word) (v : Byte) (h : t.regions = s.regions) : StopsUnmapped s id (memWrite a v t) := by
  cases hr : t.regionAt a with
  | none => rw [memWrite_of_unmapped v hr]; exact ⟨a, rfl, (regionAt_congr h a).symm.trans hr⟩
  | some r => rw [memWrite_eq hr]; exact .ok ((writeCycle_regions r a v t).trans h)

theorem dummyRead_stops (a : Word) (h : t.regions = s.regions) : StopsUnmapped s id (dummyRead a t) :=
  .bind (memRead_stops a h) fun _ h => .ok h

theorem push_stops (v : Byte) (h : t.regions = s.regions) : StopsUnmapped s id (push v t) :=
  .bind (memWrite_stops _ v h) fun _ h => .ok h

theorem pull_stops (h : t.regions = s.regions) : StopsUnmapped s Prod.snd (pull t) := memRead_stops _ h

theorem dummyPush_stops (h : t.regions = s.regions) : StopsUnmapped s id (dummyPush t) :=
  .bind (dummyRead_stops _ h) fun _ h => .ok h

theorem spareReads_stops (n : Nat) (h : t.regions = s.regions) : StopsUnmapped s id (spareReads n t) := by
  induction n generalizing t with
  | zero => exact .ok h
  | succ n ih => exact .bind (dummyRead_stops _ h) fun _ h => ih h

/-! ### Entry sequences and return -/

theorem entryPush_stops (e : Entry) (v : Byte) (h : t.regions = s.regions) : StopsUnmapped s id (entryPush e v t) := by
  cases e with
  | reset => exact dummyPush_stops h
  | nmi => exact push_stops v h
  | irq => exact push_stops v h
  | brk => exact push_stops v h

theorem entryPushes_stops (prof : Profile) (e : Entry) (ps : List Pushed) (h : t.regions = s.regions) :
    StopsUnmapped s id (entryPushes prof e ps t) := by
  induction ps generalizing t with
  | nil => exact .ok h
  | cons x ps ih => exact .bind (entryPush_stops e _ h) fun _ h => ih h

theorem enter_stops (e : Entry) (h : t.regions = s.regions) : StopsUnmapped s id (enter e t) := by
  refine .bind (dummyRead_stops _ h) fun u h => ?_
  have hpc : (if e = .brk then { u with pc := u.pc + 1 } else u).regions = s.regions := by split <;> exact h
  exact .bind (entryPushes_stops _ e _ hpc) fun _ h => .bind (memRead_stops _ h) fun _ h =>
    .bind (memRead_stops _ h) fun _ h => .ok h

theorem returnFromEvent_stops (h : t.regions = s.regions) : StopsUnmapped s id (returnFromEvent t) :=
  .bind (dummyRead_stops _ h) fun _ h => .bind (dummyRead_stops _ h) fun _ h => .bind (pull_stops h) fun _ h =>
    .bind (pull_stops h) fun _ h => .bind (pull_stops h) fun _ h => .ok h

/-! ### The resolver and the access kinds -/

theorem fixupRead_stops (f : Fixup) (base : Word) (i : Byte) (h : t.regions = s.regions) :
    StopsUnmapped s id (fixupRead f base i t) := by
  unfold fixupRead
  split
  · exact dummyRead_stops _ h
  · exact .ok h

theorem indexed_stops (f : Fixup) (base : Word) (i : Byte) (h : t.regions = s.regions) :
    StopsUnmapped s Prod.snd (indexed f base i t) :=
  .bind (fixupRead_stops f base i h) fun _ h => .ok h

theorem zeroPagePointer_stops (p : Byte) (h : t.regions = s.regions) :
    StopsUnmapped s Prod.snd (zeroPagePointer p t) :=
  .bind (memRead_stops _ h) fun _ h => .bind (memRead_stops _ h) fun _ h => .ok h

theorem effectiveAddress_stops (o : Mem) (h : t.regions = s.regions) :
    StopsUnmapped s Prod.snd (effectiveAddress o t) := by
  cases o with
  | zp b => exact .ok h
  | zpx b => exact .bind (dummyRead_stops _ h) fun _ h => .ok h
  | zpy b => exact .bind (dummyRead_stops _ h) fun _ h => .ok h
  | abs w => exact .ok h
  | abx f w => exact indexed_stops f w _ h
  | aby f w => exact indexed_stops f w _ h
  | izx b => exact .bind (dummyRead_stops _ h) fun _ h => zeroPagePointer_stops _ h
  | izy f b => exact .bind (zeroPagePointer_stops b h) fun _ h => indexed_stops f _ _ h

theorem readOperand_stops (o : Mem) (h : t.regions = s.regions) : StopsUnmapped s Prod.snd (readOperand o t) :=
  .bind (effectiveAddress_stops o h) fun _ h => memRead_stops _ h

theorem writeOperand_stops (o : Mem) (v : Byte) (h : t.regions = s.regions) :
    StopsUnmapped s id (writeOperand o v t) :=
  .bind (effectiveAddress_stops o h) fun _ h => memWrite_stops _ v h

theorem secondAccess_stops (order : ModifyWriteOrder) (ea : Word) (m : Byte) (h : t.regions = s.regions) :
    StopsUnmapped s id (secondAccess order ea m t) := by
  cases order with
  | writeOldValue => exact memWrite_stops ea m h
  | readAgain => exact dummyRead_stops ea h

theorem modifyOperand_stops (o : Mem) (f : ModifyOp) (h : t.regions = s.regions) :
    StopsUnmapped s id (modifyOperand o f.run t) :=
  .bind (effectiveAddress_stops o h) fun _ h => .bind (memRead_stops _ h) fun _ h =>
    .bind (secondAccess_stops _ _ _ h) fun _ h => memWrite_stops _ _ ((f.regsOnly _ _).regions.trans h)

theorem unstableStore_stops (f : Fixup) (reg : Byte) (base : Word) (i : Byte) (h : t.regions = s.regions) :
    StopsUnmapped s id (unstableStore f reg base i t) :=
  .bind (fixupRead_stops f base i h) fun _ h => memWrite_stops _ _ h

/-! ### Instructions -/

/-- The outcome of an instruction begun in `s`: a next state, or the violation at an address in no region of `s`. -/
def CompletesOrUnmapped (s : State) (o : Out) : Prop :=
  (∃ t, o = .next t) ∨ ∃ a, o = .fault (.busContractViolation a) ∧ s.regionAt a = none

theorem completesOrUnmapped_next (s t : State) : CompletesOrUnmapped s (.next t) := .inl ⟨t, rfl⟩

theorem completesOrUnmapped_conclude {x : Except Fault State} (h : StopsUnmapped s id x) :
    CompletesOrUnmapped s (conclude x) := by
  cases x with
  | ok t => exact completesOrUnmapped_next s t
  | error f =>
    obtain ⟨a, rfl, ha⟩ := h
    exact .inr ⟨a, rfl, ha⟩

theorem reading_completes (f : ReadOp) (o : Mem) (s : State) : CompletesOrUnmapped s (reading f.run o s) :=
  completesOrUnmapped_conclude <| .bind (readOperand_stops o rfl) fun _ h => .ok ((f.regsOnly _ _).regions.trans h)

theorem calculating_completes (f : CalcOp) (o : Mem) (s : State) : CompletesOrUnmapped s (calculating f.run o s) :=
  completesOrUnmapped_conclude <| .bind (readOperand_stops o rfl) fun _ h => .bind (spareReads_stops _ h) fun _ h =>
    .ok ((f.regsOnly _ _).regions.trans h)

theorem calculatingImm_completes (f : CalcOp) (m : Byte) (s : State) :
    CompletesOrUnmapped s (calculatingImm f.run m s) :=
  completesOrUnmapped_conclude <| .bind (spareReads_stops _ rfl) fun _ h => .ok ((f.regsOnly m _).regions.trans h)

theorem storing_completes (v : Byte) (o : Mem) (s : State) : CompletesOrUnmapped s (storing v o s) :=
  completesOrUnmapped_conclude (writeOperand_stops o v rfl)

theorem modifying_completes (f : ModifyOp) (o : Mem) (s : State) : CompletesOrUnmapped s (modifying f.run o s) :=
  completesOrUnmapped_conclude (modifyOperand_stops o f rfl)

theorem implied_completes (f : ImpliedOp) (s : State) : CompletesOrUnmapped s (implied f.run s) :=
  completesOrUnmapped_conclude <| .bind (dummyRead_stops _ rfl) fun _ h => .ok ((f.regsOnly _).regions.trans h)

theorem branch_completes (taken : Bool) (d : Byte) (s : State) : CompletesOrUnmapped s (branch taken d s) := by
  apply completesOrUnmapped_conclude
  split
  · refine .bind (dummyRead_stops _ rfl) fun _ h => ?_
    split
    · exact .ok h
    · exact .bind (dummyRead_stops _ h) fun _ h => .ok h
  · exact .ok rfl

theorem pushing_completes (v : Byte) (s : State) : CompletesOrUnmapped s (pushing v s) :=
  completesOrUnmapped_conclude <| .bind (dummyRead_stops _ rfl) fun _ h => push_stops v h

theorem pulling_completes (f : PullOp) (s : State) : CompletesOrUnmapped s (pulling f.run s) :=
  completesOrUnmapped_conclude <| .bind (dummyRead_stops _ rfl) fun _ h => .bind (dummyRead_stops _ h) fun _ h =>
    .bind (pull_stops h) fun _ h => .ok ((f.regsOnly _ _).regions.trans h)

theorem execShaIzy_completes (b : Byte) (s : State) : CompletesOrUnmapped s (execShaIzy b s) :=
  completesOrUnmapped_conclude <| .bind (zeroPagePointer_stops b rfl) fun _ h => unstableStore_stops _ _ _ _ h

theorem execTasAby_completes (w : Word) (s : State) : CompletesOrUnmapped s (execTasAby w s) :=
  completesOrUnmapped_conclude (unstableStore_stops (s := s) _ _ w _ rfl)

theorem execJmpInd_completes (w : Word) (s : State) : CompletesOrUnmapped s (execJmpInd w s) :=
  completesOrUnmapped_conclude <| .bind (memRead_stops _ rfl) fun _ h => .bind (memRead_stops _ h) fun _ h =>
    .bind (spareReads_stops _ h) fun _ h => .ok h

theorem execJsrAbs_completes (w : Word) (s : State) : CompletesOrUnmapped s (execJsrAbs w s) :=
  completesOrUnmapped_conclude <| .bind (dummyRead_stops _ rfl) fun _ h => .bind (push_stops _ h) fun _ h =>
    .bind (push_stops _ h) fun _ h => .bind (memRead_stops _ h) fun _ h => .ok h

theorem execRts_completes (s : State) : CompletesOrUnmapped s (execRts s) :=
  completesOrUnmapped_conclude <| .bind (dummyRead_stops _ rfl) fun _ h => .bind (dummyRead_stops _ h) fun _ h =>
    .bind (pull_stops h) fun _ h => .bind (pull_stops h) fun _ h => .bind (dummyRead_stops _ h) fun _ h => .ok h

theorem jam_completes (s : State) : CompletesOrUnmapped s (jam s) :=
  completesOrUnmapped_conclude <| .bind (dummyRead_stops _ rfl) fun _ h => .bind (dummyRead_stops _ h) fun _ h =>
    .bind (dummyRead_stops _ h) fun _ h => .bind (dummyRead_stops _ h) fun _ h => .ok h

/-- No shape refuses, and its one fault is the violation. -/
theorem Shape.run_completes (sh : Shape) (s : State) : CompletesOrUnmapped s (sh.run s) := by
  cases sh with
  | reading f o => exact reading_completes f o s
  | calculating f o => exact calculating_completes f o s
  | calculatingImm f m => exact calculatingImm_completes f m s
  | storing v o => exact storing_completes _ o s
  | modifying f o => exact modifying_completes f o s
  | implied f => exact implied_completes f s
  | immediate f m => exact completesOrUnmapped_next s _
  | branch f v d => exact branch_completes _ d s
  | pushing v => exact pushing_completes _ s
  | pulling f => exact pulling_completes f s
  | unstable r f w => exact completesOrUnmapped_conclude (unstableStore_stops f _ w _ rfl)
  | shaIzy b => exact execShaIzy_completes b s
  | tas w => exact execTasAby_completes w s
  | jmpAbs w => exact completesOrUnmapped_next s _
  | jmpInd w => exact execJmpInd_completes w s
  | jsr w => exact execJsrAbs_completes w s
  | rts => exact execRts_completes s
  | rti => exact completesOrUnmapped_conclude (returnFromEvent_stops rfl)
  | brk => exact completesOrUnmapped_conclude (enter_stops .brk rfl)
  | jam => exact jam_completes s

theorem exec_completes (i : Instr) (s : State) : CompletesOrUnmapped s (exec i s) := by
  rw [exec_shape]
  exact Shape.run_completes _ s

end

/-- Settles O25: every shape by its bus sequence; on a complete map there is no address to stop at. -/
theorem anInstructionStopsOnlyAtAnUnmappedAddress : Obligations.AnInstructionStopsOnlyAtAnUnmappedAddress := by
  refine ⟨exec_completes, fun i s hmap => ?_⟩
  rcases exec_completes i s with hnext | ⟨a, -, ha⟩
  · exact hnext
  · exact absurd (hmap a) (by simp [Mapped, ha])

end Sys2Proof.Machine
end

section
/-! PROOFS. The decoder and the encoder are inverse to each other (30_encoding.md): the opcode map read row by row gives the
encoding of what an opcode decodes to, and an instruction's own operand bytes decode to it. -/

namespace Sys2Proof.Machine

/-! ### Every word is the encoding of what it decodes to -/

/-- The default in `decodeOp` is not taken: its answer stands in a row of the opcode map. -/
theorem decodeOp_mem_row (op b c : Byte) : ∃ r ∈ opcodeMap b (wordOf c b), decodeOp op b c ∈ r := by
  obtain ⟨hrows, hrow⟩ := opcodeMap_complete b (wordOf c b)
  have hhigh : op.toNat / 16 < (opcodeMap b (wordOf c b)).length := by omega
  have hmem := List.getElem_mem hhigh
  have hlow : op.toNat % 16 < ((opcodeMap b (wordOf c b))[op.toNat / 16]).length := by
    rw [hrow _ hmem]
    omega
  refine ⟨_, hmem, ?_⟩
  rw [decodeOp, List.getD_eq_getElem _ _ hhigh, List.getD_eq_getElem _ _ hlow]
  exact List.getElem_mem hlow

/-- The bytes that an opcode and an operand word make: as many as the opcode tells (R112), the low byte first. -/
def bytesOf (w : Word) (op : Byte) : List Byte := op :: [lo w, hi w].take (lengthOf op - 1)

theorem encode_of_mem_row {w : Word} {r : List Instr} {i : Instr} (hr : r ∈ opcodeMap (lo w) w) (hmem : i ∈ r) :
    encode i = bytesOf w (opcodeOf i) := by
  have table : (opcodeMap (lo w) w).map (List.map encode) =
      ((opcodeMap (lo w) w).map (List.map opcodeOf)).map (List.map (bytesOf w)) := by
    rw [opcodeMap_opcodes]
    rfl
  rw [List.map_map] at table
  have row := List.map_inj_left.1 table r hr
  rw [Function.comp_apply, List.map_map] at row
  exact List.map_inj_left.1 row i hmem

theorem encode_decodeOp (op b c : Byte) : encode (decodeOp op b c) = op :: [b, c].take (lengthOf op - 1) := by
  obtain ⟨r, hr, hmem⟩ := decodeOp_mem_row op b c
  have hbytes := encode_of_mem_row (w := wordOf c b) (by rwa [lo_wordOf]) hmem
  rwa [opcodeOf_decodeOp, bytesOf, lo_wordOf, hi_wordOf] at hbytes

theorem length_encode_decodeOp (op b c : Byte) : (encode (decodeOp op b c)).length = lengthOf op := by
  have := lengthOf_bounds op
  rw [encode_decodeOp, List.length_cons, List.length_take, List.length_cons, List.length_singleton]
  omega

/-! ### Every instruction is what its encoding decodes to -/

/-- Bytes after the operand are not looked at, and a word operand is joined again from its two bytes (`wordOf_hi_lo`). -/
theorem decodeOp_operands (i : Instr) (rest : List Byte) :
    decodeOp (opcodeOf i) (((encode i).tail ++ rest).getD 0 0) (((encode i).tail ++ rest).getD 1 0) = i := by
  cases i <;> simp only [opcodeOf, encode, List.headD_cons, List.tail_cons, List.cons_append, List.getD_cons_zero,
    List.getD_cons_succ, decodeOp, wordOf_hi_lo] <;> rfl

theorem encode_eq_cons (i : Instr) : encode i = opcodeOf i :: (encode i).tail := by
  rw [← decodeOp_operands i [], encode_decodeOp, opcodeOf_decodeOp, List.tail_cons]

theorem length_encode (i : Instr) : (encode i).length = lengthOf (opcodeOf i) := by
  rw [← decodeOp_operands i [], length_encode_decodeOp, opcodeOf_decodeOp]

/-! ### The decoder on a list -/

theorem decode_cons_ok_iff {op : Byte} {t rest : List Byte} {i : Instr} :
    decode (op :: t) = .ok (i, rest) ↔
      lengthOf op ≤ t.length + 1 ∧ decodeOp op (t.getD 0 0) (t.getD 1 0) = i ∧ t.drop (lengthOf op - 1) = rest := by
  by_cases h : lengthOf op ≤ t.length + 1
  · simp [decode_of_length h, h]
  · simp [decode_of_short (Nat.lt_of_not_le h), h]

theorem take_getD_pair (t : List Byte) {n : Nat} (ht : n ≤ t.length) (hn : n ≤ 2) :
    [t.getD 0 0, t.getD 1 0].take n = t.take n := by
  match n, t with
  | 0, _ => rfl
  | 1, _ :: _ => rfl
  | 2, _ :: _ :: _ => rfl

/-- Settles O1: the encoding has the length that its opcode tells, and its operand bytes decode to the instruction. -/
theorem decodeOfEncode : Obligations.DecodeOfEncode := by
  intro i rest
  have hlen : lengthOf (opcodeOf i) = (encode i).tail.length + 1 := by
    rw [← length_encode, encode_eq_cons i, List.length_cons, List.tail_cons]
  rw [encode_eq_cons, List.cons_append]
  refine decode_cons_ok_iff.2 ⟨?_, decodeOp_operands i rest, ?_⟩
  · rw [hlen, List.length_append]
    omega
  · rw [hlen, Nat.add_sub_cancel, List.drop_left]

/-- Settles O2: the operand bytes are those taken from the list, the rest those dropped. -/
theorem encodeOfDecode : Obligations.EncodeOfDecode := by
  intro l rest i h
  cases l with
  | nil => cases h
  | cons op t =>
    obtain ⟨hlen, rfl, rfl⟩ := decode_cons_ok_iff.1 h
    have := lengthOf_bounds op
    rw [encode_decodeOp, take_getD_pair t (by omega) (by omega), List.cons_append, List.take_append_drop]

/-- Settles O3: the encoding of the decoded instruction is the opcode and the operand bytes that its length leaves. -/
theorem everyOpcodeIsDefined : Obligations.EveryOpcodeIsDefined := by
  intro op b c
  obtain ⟨hlow, hhigh⟩ := lengthOf_bounds op
  simp only [length_encode_decodeOp]
  refine ⟨by rw [encode_decodeOp, List.head?_cons], hlow, hhigh, fun _ _ => trivial, fun rest => ?_⟩
  refine ⟨_, decode_cons_ok_iff.2 ⟨?_, rfl, rfl⟩⟩
  rw [List.length_cons, List.length_cons]
  omega

/-- Settles O4: each word is the encoding of its instruction, so `decodeOfEncode` reads it back. -/
theorem sampleWordsDecode : Obligations.SampleWordsDecode :=
  ⟨decodeOfEncode .clc [], decodeOfEncode .aslAcc [], decodeOfEncode (.adcImm 0x7C) [], decodeOfEncode (.ldaZp 0x10) [],
    decodeOfEncode (.ldaZpx 0x10) [], decodeOfEncode (.ldxZpy 0x10) [], decodeOfEncode (.ldaAbs 0x1234) [],
    decodeOfEncode (.ldaAbx 0x1234) [], decodeOfEncode (.ldaAby 0x1234) [], decodeOfEncode (.jmpInd 0x1234) [],
    decodeOfEncode (.ldaIzx 0x10) [], decodeOfEncode (.ldaIzy 0x10) [], decodeOfEncode (.bne 0x03) [],
    decodeOfEncode (.jsrAbs 0x0300) [], decodeOfEncode (.sloZp 0x10) []⟩

end Sys2Proof.Machine
end

section
/-! PROOFS. Effective addresses and their cycles (40_addressing_modes.md): the words of the page-crossing rule as numbers, what an
indexed address and a pointer in page 0 come to with their reads, and from these every operand form (O27). -/

namespace Sys2Proof.Machine

open Config

/-! ### The words of the page-crossing rule as numbers -/

theorem toNat_lo (w : Word) : (lo w).toNat = w.toNat % 256 := by simp [lo]

theorem toNat_hi (w : Word) : (hi w).toNat = w.toNat / 256 := by
  have := w.isLt
  rw [hi, BitVec.extractLsb'_toNat, Nat.shiftRight_eq_div_pow]
  omega

theorem toNat_wordOf (h l : Byte) : (wordOf h l).toNat = h.toNat * 256 + l.toNat := by
  rw [wordOf, BitVec.toNat_append, ← Nat.shiftLeft_add_eq_or_of_lt l.isLt, Nat.shiftLeft_eq]

/-- `cor` (R149): the sum modulo 65536. -/
theorem corrected_eq_ofNat (base : Word) (i : Byte) : corrected base i = BitVec.ofNat 16 (base.toNat + i.toNat) := by
  apply BitVec.eq_of_toNat_eq
  rw [corrected, BitVec.toNat_add, toNat_zext, BitVec.toNat_ofNat]

/-- `unc` (R149): the page of the base, and in it the sum modulo 256. -/
theorem uncorrected_eq_ofNat (base : Word) (i : Byte) :
    uncorrected base i = BitVec.ofNat 16 (base.toNat / 256 * 256 + (base.toNat + i.toNat) % 256) := by
  have := base.isLt
  apply BitVec.eq_of_toNat_eq
  rw [uncorrected, toNat_wordOf, toNat_hi, BitVec.toNat_add, toNat_lo, BitVec.toNat_ofNat]
  omega

theorem fixupHappens_iff (f : Fixup) (base : Word) (i : Byte) :
    fixupHappens f base i = true ↔ f = .always ∨ f = .onCross ∧ base.toNat % 256 + i.toNat > 255 := by
  simp [fixupHappens, crosses, toNat_lo]

theorem fixupReads_eq (f : Fixup) (base : Word) (i : Byte) :
    fixupReads f base i = if fixupHappens f base i then [uncorrected base i] else [] := by
  simp only [fixupReads, fixupHappens_iff, uncorrected_eq_ofNat]

/-! ### What a stretch of reads leaves to the address computation -/

theorem Reads.x {s t : State} {l : List Word} (h : Reads s t l) : t.x = s.x := by rw [h.marks]; rfl

theorem Reads.y {s t : State} {l : List Word} (h : Reads s t l) : t.y = s.y := by rw [h.marks]; rfl

theorem Reads.profile {s t : State} {l : List Word} (h : Reads s t l) : t.profile = s.profile := by rw [h.marks]; rfl

theorem Reads.pointerAt {s t : State} {l : List Word} (h : Reads s t l) (p : Byte) :
    Machine.pointerAt t p = Machine.pointerAt s p := by
  simp only [Machine.pointerAt, h.byteAt]

theorem Reads.readable {s t : State} {l : List Word} (h : Reads s t l) {a : Word} : Readable t a ↔ Readable s a :=
  Readable_congr h.regions a

/-! ### Each form's address and reads -/

section

variable {s : State} (hmap : AllMapped s)

include hmap

/-- Zero-page indexing's dummy read of the operand's own address (R146), which the pointer of `(zp,X)` begins with too (R154). -/
theorem dummyRead_exists_reads (a : Word) : ∃ u, dummyRead a s = .ok u ∧ Reads s u [a] := by
  obtain ⟨u, hu⟩ := dummyRead_exists (hmap a)
  exact ⟨u, hu, dummyRead_reads hu⟩

theorem indexed_exists_reads (f : Fixup) (base : Word) (i : Byte) :
    ∃ u, indexed f base i s = .ok (BitVec.ofNat 16 (base.toNat + i.toNat), u) ∧ Reads s u (fixupReads f base i) := by
  obtain ⟨u, hu⟩ := indexed_exists f base i hmap
  rw [← corrected_eq_ofNat, fixupReads_eq]
  exact ⟨u, hu, (indexed_reads hu).2⟩

/-- In little-endian order the two bytes of a readable pointer are the low and the high byte of `pointerAt` (R84). -/
theorem zeroPagePointer_exists_reads (p : Byte) (horder : s.profile.byteOrder = .littleEndian)
    (hlow : Readable s (zext p)) (hhigh : Readable s (zext (p + 1))) :
    ∃ u, zeroPagePointer p s = .ok (pointerAt s p, u) ∧ Reads s u [zext p, zext (p + 1)] := by
  obtain ⟨w, u, hu⟩ := zeroPagePointer_exists p hmap
  obtain ⟨reads, first, second⟩ := zeroPagePointer_reads hu
  have hw : w = pointerAt s p := by
    rw [← joinWord_firstByte_secondByte s.profile.byteOrder w, first hlow, second hhigh, horder, joinWord_little, pointerAt]
  exact ⟨u, hw ▸ hu, reads⟩

/-- The resolver (R145 to R155), form by form. -/
theorem effectiveAddress_exists_reads (o : Mem) (horder : s.profile.byteOrder = .littleEndian)
    (hcells : ∀ c ∈ pointerCells s o, Readable s c) :
    ∃ u, effectiveAddress o s = .ok (addressOf s o, u) ∧ Reads s u (addressReads s o) := by
  cases o with
  | zp b => exact ⟨s, rfl, .refl s⟩
  | abs w => exact ⟨s, rfl, .refl s⟩
  | zpx b =>
    obtain ⟨u, hu, reads⟩ := dummyRead_exists_reads hmap (zext b)
    exact ⟨u, by simp [effectiveAddress, hu, addressOf, reads.x], reads⟩
  | zpy b =>
    obtain ⟨u, hu, reads⟩ := dummyRead_exists_reads hmap (zext b)
    exact ⟨u, by simp [effectiveAddress, hu, addressOf, reads.y], reads⟩
  | abx f w => exact indexed_exists_reads hmap f w s.x
  | aby f w => exact indexed_exists_reads hmap f w s.y
  | izx b =>
    have hlow : Readable s (zext (b + s.x)) := hcells _ (by simp [pointerCells])
    have hhigh : Readable s (zext (b + s.x + 1)) := hcells _ (by simp [pointerCells])
    obtain ⟨u, hu, reads⟩ := dummyRead_exists_reads hmap (zext b)
    obtain ⟨v, hv, pointerReads⟩ := zeroPagePointer_exists_reads (reads.allMapped hmap) (b + s.x)
      (reads.profile ▸ horder) (reads.readable.2 hlow) (reads.readable.2 hhigh)
    refine ⟨v, ?_, reads.trans pointerReads⟩
    rw [effectiveAddress, hu, bind_ok, reads.x, hv, reads.pointerAt, addressOf]
  | izy f b =>
    have hlow : Readable s (zext b) := hcells _ (by simp [pointerCells])
    have hhigh : Readable s (zext (b + 1)) := hcells _ (by simp [pointerCells])
    obtain ⟨u, hu, pointerReads⟩ := zeroPagePointer_exists_reads hmap b horder hlow hhigh
    obtain ⟨v, hv, reads⟩ := indexed_exists_reads (pointerReads.allMapped hmap) f (pointerAt s b) s.y
    refine ⟨v, ?_, pointerReads.trans reads⟩
    simp only [effectiveAddress, hu, bind_ok, pointerReads.y, hv, addressOf]

/-- The read kind (R144): one cycle at the effective address after those that computed it. -/
theorem readOperand_exists_reads (o : Mem) (horder : s.profile.byteOrder = .littleEndian)
    (hcells : ∀ c ∈ pointerCells s o, Readable s c) :
    ∃ m u, readOperand o s = .ok (m, u) ∧ Reads s u (addressReads s o ++ [addressOf s o]) ∧
      ReadsAs s (addressOf s o) m := by
  obtain ⟨u, hu, reads⟩ := effectiveAddress_exists_reads hmap o horder hcells
  obtain ⟨m, v, hv⟩ := memRead_exists (reads.allMapped hmap (addressOf s o))
  obtain ⟨access, operand⟩ := memRead_reads hv
  exact ⟨m, v, (readOperand_ok_iff ..).2 ⟨_, u, hu, hv⟩, reads.trans access, reads.readsAs.1 operand⟩

end

/-- Settles O27: the address by `effectiveAddress_exists_reads`, the operand by `readOperand_exists_reads`. -/
theorem effectiveAddressesAndTheirCycles : Obligations.EffectiveAddressesAndTheirCycles := by
  intro s o hmap horder hcells
  obtain ⟨u, hu, reads⟩ := effectiveAddress_exists_reads hmap o horder hcells
  obtain ⟨m, v, hv, operandReads, operand⟩ := readOperand_exists_reads hmap o horder hcells
  exact ⟨⟨u, hu, reads.marks, reads.drives⟩, m, v, hv, operandReads.marks, operand, operandReads.drives⟩

end Sys2Proof.Machine
end

section
/-! PROOFS. The ALU primitives in integers (41_alu_primitives.md): the half-carry signal (O31), and what the logical
operations (O38), the compares (O39), the register increments (O40) and the accumulator shifts (O41) give. -/

namespace Sys2Proof.Machine

open Config

/-! ### The half-carry signal -/

theorem toNat_lowNibble (v : Byte) : (v &&& 0x0F#8).toNat = v.toNat % 16 := by
  rw [BitVec.toNat_and]
  exact Nat.and_two_pow_sub_one_eq_mod v.toNat 4

theorem halfCarryAdd_iff (a b : Byte) (c : Bool) :
    halfCarryAdd a b c = true ↔ 15 < a.toNat % 16 + b.toNat % 16 + c.toNat := by
  rw [halfCarryAdd, toNat_lowNibble, toNat_lowNibble, decide_eq_true_iff]

/-- The complement's low nibble is what the nibble lacks of 15, so that its carry is the absence of a borrow. -/
theorem halfCarrySub_iff (a b : Byte) (c : Bool) :
    halfCarrySub a b c = true ↔ b.toNat % 16 + (!c).toNat ≤ a.toNat % 16 := by
  have hb := b.isLt
  have hcarry : (!c).toNat + c.toNat = 1 := by cases c <;> rfl
  rw [halfCarrySub, halfCarryAdd_iff, BitVec.toNat_not]
  omega

/-- Settles O31: both signals by the nibbles as numbers. -/
theorem halfCarrySignal : Obligations.HalfCarrySignal :=
  fun a b c => ⟨halfCarryAdd_iff a b c, halfCarrySub_iff a b c⟩

/-! ### Bytes as numbers -/

theorem getLsbD_seven (v : Byte) : v.getLsbD 7 = decide (128 ≤ v.toNat) := BitVec.msb_eq_decide v

theorem beq_zero_eq_decide (v : Byte) : (v == 0) = decide (v.toNat = 0) := by
  rw [Bool.eq_iff_iff, beq_iff_eq, decide_eq_true_iff, ← BitVec.toNat_inj]
  rfl

/-- The bit shifted in at the bottom (R193) is the unit of the doubled value. -/
theorem shiftLeft_or_carry (v : Byte) (c : Bool) :
    (v <<< 1) ||| (if c then 1#8 else 0#8) = BitVec.ofNat 8 (2 * v.toNat + c.toNat) := by
  have disjoint : (v <<< 1) &&& (if c then 1#8 else 0#8) = 0#8 := by
    cases c with
    | false => exact BitVec.and_zero
    | true => exact (BitVec.and_twoPow _ 0).trans (by simp)
  apply BitVec.eq_of_toNat_eq
  rw [← BitVec.add_eq_or_of_and_eq_zero _ _ disjoint]
  cases c <;> simp [Nat.shiftLeft_eq, Nat.mul_comm]

/-- The bit shifted in at the top (R194) adds 128 to the halved value. -/
theorem shiftRight_or_carry (v : Byte) (c : Bool) :
    (v >>> 1) ||| (if c then 0x80#8 else 0#8) = BitVec.ofNat 8 (v.toNat / 2 + 128 * c.toNat) := by
  have disjoint : (v >>> 1) &&& (if c then 0x80#8 else 0#8) = 0#8 := by
    cases c with
    | false => exact BitVec.and_zero
    | true => exact (BitVec.and_twoPow _ 7).trans (by simp)
  apply BitVec.eq_of_toNat_eq
  rw [← BitVec.add_eq_or_of_and_eq_zero _ _ disjoint, BitVec.toNat_add, BitVec.toNat_ushiftRight,
    BitVec.toNat_ofNat, Nat.shiftRight_eq_div_pow]
  cases c <;> rfl

/-! ### The rules' results by the value and the carry alone -/

/-- In a left rotation `Z` and `N` of R193 are those of the result (R171). -/
theorem rotateLeftOf_eq (c : Bool) (v : Byte) : rotateLeftOf c v =
    let w := BitVec.ofNat 8 (2 * v.toNat + c.toNat)
    ⟨w, (.c, v.getLsbD 7) :: znOf w⟩ := by
  have hz : (BitVec.ofNat 8 (2 * v.toNat + c.toNat) == 0) = decide (v.toNat % 128 = 0 ∧ c = false) := by
    rw [beq_zero_eq_decide, BitVec.toNat_ofNat, decide_eq_decide]
    cases c <;> simp <;> omega
  have hn : (BitVec.ofNat 8 (2 * v.toNat + c.toNat)).getLsbD 7 = v.getLsbD 6 := by
    have half : (2 * v.toNat + c.toNat) / 2 = v.toNat := by have := c.toNat_lt; omega
    rw [BitVec.getLsbD_ofNat, Nat.testBit_succ, half]
    rfl
  simp only [rotateLeftOf, znOf, getLsbD_seven v]
  rw [hz, hn]

theorem rotateRightOf_eq (c : Bool) (v : Byte) : rotateRightOf c v =
    let w := BitVec.ofNat 8 (v.toNat / 2 + 128 * c.toNat)
    ⟨w, (.c, v.getLsbD 0) :: znOf w⟩ := by
  have hv := v.isLt
  have hc : v.getLsbD 0 = decide (v.toNat % 2 = 1) := Nat.testBit_zero _
  have hz : (BitVec.ofNat 8 (v.toNat / 2 + 128 * c.toNat) == 0) = decide (v.toNat < 2 ∧ c = false) := by
    rw [beq_zero_eq_decide, BitVec.toNat_ofNat, decide_eq_decide]
    cases c <;> simp <;> omega
  have hn : (BitVec.ofNat 8 (v.toNat / 2 + 128 * c.toNat)).getLsbD 7 = c := by
    rw [getLsbD_seven, BitVec.toNat_ofNat]
    cases c <;> simp <;> omega
  simp only [rotateRightOf, znOf, hc]
  rw [hz, hn]

/-- A shift is the rotation of a clear carry. -/
theorem shiftLeftOf_eq_rotateLeftOf (v : Byte) : shiftLeftOf v = rotateLeftOf false v := by
  simp [shiftLeftOf, rotateLeftOf]

theorem shiftRightOf_eq_rotateRightOf (v : Byte) : shiftRightOf v = rotateRightOf false v := by
  simp [shiftRightOf, rotateRightOf]

theorem decrementOf_eq (v : Byte) : decrementOf v = ⟨v - 1, znOf (v - 1)⟩ := by
  have h : BitVec.ofNat 8 (v.toNat + 255) = v - 1 := by
    apply BitVec.eq_of_toNat_eq
    rw [BitVec.toNat_sub, BitVec.toNat_ofNat, Nat.add_comm]
    rfl
  rw [decrementOf, h]

/-- The flags of a compare are the carry and those of the difference (R195). -/
theorem comparisonOf_eq (r m : Byte) : comparisonOf r m = (.c, decide (r.toNat ≥ m.toNat)) :: znOf (r - m) := by
  have hr := r.isLt
  have hm := m.isLt
  have hz : (r - m == 0) = (r == m) := by
    rw [Bool.eq_iff_iff, beq_iff_eq, beq_iff_eq]
    exact sub_eq_zero
  have hn : (r - m).getLsbD 7 = decide (128 ≤ ((r.toNat : Int) - m.toNat) % 256) := by
    rw [getLsbD_seven, BitVec.toNat_sub, decide_eq_decide]
    omega
  rw [comparisonOf, znOf, hz, hn]

/-! ### The flags that a primitive writes -/

/-- `FlagsSet` asks only what the list gives for each flag, not in which order. -/
theorem FlagsSet.congr {l m : List (Flag × Bool)} {p q : Byte} (h : FlagsSet l p q)
    (hl : ∀ f, m.lookup f = l.lookup f) : FlagsSet m p q := by
  obtain ⟨hflags, hbit⟩ := h
  exact ⟨fun f => by rw [hl, hflags], hbit⟩

/-- The flags written later stand first. -/
theorem FlagsSet.trans {l m : List (Flag × Bool)} {p q r : Byte} (h : FlagsSet l p q) (k : FlagsSet m q r) :
    FlagsSet (m ++ l) p r := by
  obtain ⟨hflags, hbit⟩ := h
  obtain ⟨kflags, kbit⟩ := k
  refine ⟨fun f => ?_, kbit.trans hbit⟩
  rw [kflags, hflags, List.lookup_append]
  cases m.lookup f <;> rfl

theorem flagsSet_setZN (v p : Byte) : FlagsSet (znOf v) p (setZN v p) :=
  ((flagsSet_withFlag .z _ p).trans (flagsSet_withFlag .n _ _)).congr fun f => by cases f <;> rfl

/-- `C` written before `SetZN`, as the shifts and the compare do. -/
theorem flagsSet_setZN_withCarry (v : Byte) (c : Bool) (p : Byte) :
    FlagsSet ((.c, c) :: znOf v) p (setZN v (withFlag .c c p)) :=
  ((flagsSet_withFlag .c c p).trans (flagsSet_setZN v _)).congr fun f => by cases f <;> rfl

theorem flagsSet_cmpFlags (r m p : Byte) : FlagsSet (comparisonOf r m) p (cmpFlags r m p) := by
  rw [comparisonOf_eq]
  exact flagsSet_setZN_withCarry _ _ p

/-- `Bit` takes `N` and `V` from the operand, `Z` alone from the conjunction (R201). -/
theorem flagsSet_bitFlags (a m p : Byte) :
    FlagsSet [(.z, a &&& m == 0), (.n, m.getLsbD 7), (.v, m.getLsbD 6)] p (bitFlags a m p) :=
  (((flagsSet_withFlag .z _ p).trans (flagsSet_withFlag .n _ _)).trans (flagsSet_withFlag .v _ _)).congr
    fun f => by cases f <;> rfl

/-! ### Primitives against the rules' results -/

/-- A primitive called with `p` gives the value of `r` and writes exactly the flags of `r`. -/
structure Alu.Gives (x : Alu) (r : Result) (p : Byte) : Prop where
  value : x.value = r.value
  flags : FlagsSet r.flags p x.p

theorem passZN_gives (v p : Byte) : (passZN v p).Gives ⟨v, znOf v⟩ p := ⟨rfl, flagsSet_setZN v p⟩

theorem passZN_withCarry_gives (v : Byte) (c : Bool) (p : Byte) :
    (passZN v (withFlag .c c p)).Gives ⟨v, (.c, c) :: znOf v⟩ p := ⟨rfl, flagsSet_setZN_withCarry v c p⟩

theorem inc_gives (v p : Byte) : (inc v p).Gives (incrementOf v) p := passZN_gives (v + 1) p

theorem dec_gives (v p : Byte) : (dec v p).Gives (decrementOf v) p := by
  rw [decrementOf_eq]
  exact passZN_gives (v - 1) p

theorem rol_gives (v p : Byte) : (rol v p).Gives (rotateLeftOf (flag .c p) v) p := by
  rw [rol, shiftLeft_or_carry, rotateLeftOf_eq]
  exact passZN_withCarry_gives _ _ p

theorem ror_gives (v p : Byte) : (ror v p).Gives (rotateRightOf (flag .c p) v) p := by
  rw [ror, shiftRight_or_carry, rotateRightOf_eq]
  exact passZN_withCarry_gives _ _ p

theorem asl_gives (v p : Byte) : (asl v p).Gives (shiftLeftOf v) p := by
  have hw : v <<< 1 = BitVec.ofNat 8 (2 * v.toNat + false.toNat) := by simpa using shiftLeft_or_carry v false
  rw [asl, hw, shiftLeftOf_eq_rotateLeftOf, rotateLeftOf_eq]
  exact passZN_withCarry_gives _ _ p

theorem lsr_gives (v p : Byte) : (lsr v p).Gives (shiftRightOf v) p := by
  have hw : v >>> 1 = BitVec.ofNat 8 (v.toNat / 2 + 128 * false.toNat) := by simpa using shiftRight_or_carry v false
  rw [lsr, hw, shiftRightOf_eq_rotateRightOf, rotateRightOf_eq]
  exact passZN_withCarry_gives _ _ p

/-! ### Instructions that change registers and flags -/

/-- Wherever bus cycles alone lead from `s`, the change `g` writes the flags `fl` and does to the rest what `r` does. -/
def Changes (s : State) (g r : State → State) (fl : List (Flag × Bool)) : Prop :=
  ∃ q, FlagsSet fl s.p q ∧ ∀ u, g (busMarks s u) = { r (busMarks s u) with p := q }

/-- An immediate instruction is its change (R143). -/
theorem immediateGives_of_changes {s : State} {i : Instr} {f : ImmOp} {m : Byte} {r : State → State}
    {fl : List (Flag × Bool)} (hi : shapeOf s.fixup i = .immediate f m) (h : Changes s (f.run m) r fl) :
    ImmediateGives s i r fl := by
  obtain ⟨q, hq, hg⟩ := h
  refine ⟨q, hq, ?_⟩
  rw [exec_shape, hi]
  exact congrArg Host.Outcome.next (hg s)

/-- An implied instruction makes its change after one dummy read at `PC` (R142). -/
theorem impliedGives_of_changes {s : State} (hmap : AllMapped s) {i : Instr} {f : ImpliedOp} {r : State → State}
    {fl : List (Flag × Bool)} (hi : shapeOf s.fixup i = .implied f) (h : Changes s f.run r fl) :
    ImpliedGives s i r fl := by
  obtain ⟨q, hq, hg⟩ := h
  obtain ⟨u, hu, reads⟩ := dummyRead_exists_reads hmap s.pc
  refine ⟨u, q, reads.marks, reads.drives, hq, ?_⟩
  rw [exec_shape, hi, reads.marks, ← hg u, ← reads.marks]
  exact (implied_eq_next_iff ..).2 ⟨u, hu, rfl⟩

/-- A read-kind instruction makes its change after the read of its operand (R144). -/
theorem readGives_of_changes {s : State} (hmap : AllMapped s) {i : Instr} {o : Mem} {f : ReadOp}
    {r : Byte → State → State} {fl : Byte → List (Flag × Bool)} (hi : shapeOf s.fixup i = .reading f o)
    (h : ∀ m, Changes s (f.run m) (r m) (fl m)) : ReadGives s i o r fl := by
  obtain ⟨m, u, hu⟩ := readOperand_exists o hmap
  obtain ⟨q, hq, hg⟩ := h m
  obtain ⟨l, reads⟩ := readOperand_reads hu
  refine ⟨m, u, q, hu, reads.marks, hq, ?_⟩
  rw [exec_shape, hi, reads.marks, ← hg u, ← reads.marks]
  exact (reading_eq_next_iff ..).2 ⟨m, u, hu, rfl⟩

/-- The forms of one read-kind instruction under the fixup policy of profile NMOS6502 (R152). -/
theorem readGives_forms {s : State} (hs : Configured s) {forms : List (Instr × Mem)} {f : ReadOp}
    {r : Byte → State → State} {fl : Byte → List (Flag × Bool)}
    (hforms : forms.Forall fun x => shapeOf nmosFixup x.1 = .reading f x.2)
    (h : ∀ m, Changes s (f.run m) (r m) (fl m)) : ∀ x ∈ forms, ReadGives s x.1 x.2 r fl := by
  obtain ⟨hv, hmap⟩ := hs
  intro x hx
  refine readGives_of_changes hmap ?_ h
  rw [fixup_nmos hv]
  exact List.forall_iff_forall_mem.1 hforms x hx

/-! ### Logical operations -/

theorem andToA_changes (s : State) (m : Byte) :
    Changes s (andToA m) (fun u => { u with a := s.a &&& m }) (znOf (s.a &&& m)) :=
  ⟨_, flagsSet_setZN (s.a &&& m) s.p, fun _ => rfl⟩

theorem orToA_changes (s : State) (m : Byte) :
    Changes s (orToA m) (fun u => { u with a := s.a ||| m }) (znOf (s.a ||| m)) :=
  ⟨_, flagsSet_setZN (s.a ||| m) s.p, fun _ => rfl⟩

theorem xorToA_changes (s : State) (m : Byte) :
    Changes s (xorToA m) (fun u => { u with a := s.a ^^^ m }) (znOf (s.a ^^^ m)) :=
  ⟨_, flagsSet_setZN (s.a ^^^ m) s.p, fun _ => rfl⟩

theorem testBits_changes (s : State) (m : Byte) :
    Changes s (testBits m) (fun u => u) [(.z, s.a &&& m == 0), (.n, m.getLsbD 7), (.v, m.getLsbD 6)] :=
  ⟨_, flagsSet_bitFlags s.a m s.p, fun _ => rfl⟩

/-- Settles O38: each operation's change, in every form by the form's shape. -/
theorem logicalOperations : Obligations.LogicalOperations := by
  intro s b m w hs
  refine ⟨?and, ?ora, ?eor, ?bit, ?andImm, ?oraImm, ?eorImm⟩
  case and => exact readGives_forms hs ⟨rfl, rfl, rfl, rfl, rfl, rfl, rfl⟩ (andToA_changes s)
  case ora => exact readGives_forms hs ⟨rfl, rfl, rfl, rfl, rfl, rfl, rfl⟩ (orToA_changes s)
  case eor => exact readGives_forms hs ⟨rfl, rfl, rfl, rfl, rfl, rfl, rfl⟩ (xorToA_changes s)
  case bit => exact readGives_forms hs ⟨rfl, rfl⟩ (testBits_changes s)
  case andImm => exact immediateGives_of_changes rfl (andToA_changes s m)
  case oraImm => exact immediateGives_of_changes rfl (orToA_changes s m)
  case eorImm => exact immediateGives_of_changes rfl (xorToA_changes s m)

/-! ### Compares -/

theorem compareA_changes (s : State) (m : Byte) : Changes s (compareA m) (fun u => u) (comparisonOf s.a m) :=
  ⟨_, flagsSet_cmpFlags s.a m s.p, fun _ => rfl⟩

theorem compareX_changes (s : State) (m : Byte) : Changes s (compareX m) (fun u => u) (comparisonOf s.x m) :=
  ⟨_, flagsSet_cmpFlags s.x m s.p, fun _ => rfl⟩

theorem compareY_changes (s : State) (m : Byte) : Changes s (compareY m) (fun u => u) (comparisonOf s.y m) :=
  ⟨_, flagsSet_cmpFlags s.y m s.p, fun _ => rfl⟩

/-- Settles O39: each compare changes flags alone, in every form by the form's shape. -/
theorem compareInstructions : Obligations.CompareInstructions := by
  intro s b m w hs
  refine ⟨?cmp, ?cpx, ?cpy, ?cmpImm, ?cpxImm, ?cpyImm⟩
  case cmp => exact readGives_forms hs ⟨rfl, rfl, rfl, rfl, rfl, rfl, rfl⟩ (compareA_changes s)
  case cpx => exact readGives_forms hs ⟨rfl, rfl⟩ (compareX_changes s)
  case cpy => exact readGives_forms hs ⟨rfl, rfl⟩ (compareY_changes s)
  case cmpImm => exact immediateGives_of_changes rfl (compareA_changes s m)
  case cpxImm => exact immediateGives_of_changes rfl (compareX_changes s m)
  case cpyImm => exact immediateGives_of_changes rfl (compareY_changes s m)

/-! ### Register increments and accumulator shifts -/

section

variable {s : State} {f : Byte → Byte → Alu} {r : Result}

theorem onX_changes (h : (f s.x s.p).Gives r s.p) :
    Changes s (fun t => { t with x := (f t.x t.p).value, p := (f t.x t.p).p })
      (fun u => { u with x := r.value }) r.flags :=
  ⟨_, h.flags, fun u => by rw [← h.value]; rfl⟩

theorem onY_changes (h : (f s.y s.p).Gives r s.p) :
    Changes s (fun t => { t with y := (f t.y t.p).value, p := (f t.y t.p).p })
      (fun u => { u with y := r.value }) r.flags :=
  ⟨_, h.flags, fun u => by rw [← h.value]; rfl⟩

theorem onA_changes (h : (f s.a s.p).Gives r s.p) :
    Changes s (onA f) (fun u => { u with a := r.value }) r.flags :=
  ⟨_, h.flags, fun u => by rw [← h.value]; rfl⟩

end

/-- Settles O40: `inc` and `dec` against the rules, on `X` and on `Y`. -/
theorem registerIncrements : Obligations.RegisterIncrements := by
  intro s hmap
  refine ⟨?inx, ?iny, ?dex, ?dey⟩
  case inx => exact impliedGives_of_changes hmap rfl (onX_changes (inc_gives s.x s.p))
  case iny => exact impliedGives_of_changes hmap rfl (onY_changes (inc_gives s.y s.p))
  case dex => exact impliedGives_of_changes hmap rfl (onX_changes (dec_gives s.x s.p))
  case dey => exact impliedGives_of_changes hmap rfl (onY_changes (dec_gives s.y s.p))

/-- Settles O41: the four primitives against the rules, on `A`. -/
theorem accumulatorShifts : Obligations.AccumulatorShifts := by
  intro s hmap
  refine ⟨?asl, ?lsr, ?rol, ?ror⟩
  case asl => exact impliedGives_of_changes hmap rfl (onA_changes (asl_gives s.a s.p))
  case lsr => exact impliedGives_of_changes hmap rfl (onA_changes (lsr_gives s.a s.p))
  case rol => exact impliedGives_of_changes hmap rfl (onA_changes (rol_gives s.a s.p))
  case ror => exact impliedGives_of_changes hmap rfl (onA_changes (ror_gives s.a s.p))

end Sys2Proof.Machine
end

section
/-! PROOFS. What a step begins with (42_sequencer_dispatch.md R211): jam cycles repeat until a reset is latched (O11), the first
cycle alone carries the mark of `SYNC` (O17), and dispatch receives the decoded instruction at `fetched` (O9). -/

namespace Sys2Proof.Machine

open Config

/-! ### Jam cycles -/

/-- A powered engine in a jam that no latch ends, with the jam's address on the map (R220, R423). -/
structure HeldInJam (s : State) : Prop where
  power : s.pins.power = .raised
  variant : s.variant = .nmos6502
  run : s.run = .jammed
  pendReset : s.pendReset = false
  mapped : Mapped s 0xFFFF

theorem HeldInJam.applySo {s : State} (h : HeldInJam s) : HeldInJam (Machine.applySo s) where
  power := by rw [applySo_pins, h.power]
  variant := by rw [applySo_variant, h.variant]
  run := by rw [applySo_run, h.run]
  pendReset := by rw [applySo_pendReset, h.pendReset]
  mapped := (Mapped_congr (applySo_regions s) _).2 h.mapped

/-- Reads leave the jam and the latches as they are. -/
theorem HeldInJam.reads {s t : State} {l : List Word} (h : HeldInJam s) (hr : Reads s t l) : HeldInJam t where
  power := by rw [hr.marks]; exact h.power
  variant := by rw [hr.marks]; exact h.variant
  run := by rw [hr.marks]; exact h.run
  pendReset := by rw [hr.marks]; exact h.pendReset
  mapped := (Mapped_congr hr.regions _).2 h.mapped

/-- A step in the jam is one read of `FFFF` after the SO latch (R220). -/
theorem HeldInJam.step {s : State} (h : HeldInJam s) :
    ∃ u, Machine.step s = .next u ∧ Reads (Machine.applySo s) u [0xFFFF] := by
  obtain ⟨u, hu⟩ := dummyRead_exists h.applySo.mapped
  refine ⟨u, ?_, dummyRead_reads hu⟩
  rw [step_of_jammed h.power h.variant h.run h.pendReset, jamCycle, hu, conclude_ok]

theorem applySo_of_clear {s : State} (h : s.pendSo = false) : applySo s = s := by
  rw [applySo, if_neg (by simp [h])]

theorem run_succ_of_step {s u : State} (n : Nat) (h : step s = .next u) :
    Host.Core.run core (n + 1) s = Host.Core.run core n u := by
  have hcore : core.step s = .next u := h
  simp only [Host.Core.run, hcore]

/-- The induction over the run: a step in the jam leaves the jam and the SO latch clear for the next. -/
theorem HeldInJam.run_reads (n : Nat) {s : State} (h : HeldInJam s) (hso : s.pendSo = false) :
    ∃ t, Host.Core.run core n s = .next t ∧ Reads s t (List.replicate n 0xFFFF) := by
  induction n generalizing s with
  | zero => exact ⟨s, rfl, .refl s⟩
  | succ n ih =>
    obtain ⟨u, hstep, first⟩ := h.step
    rw [applySo_of_clear hso] at first
    obtain ⟨t, hrun, rest⟩ := ih (h.reads first) (step_pendSo h.power hstep)
    exact ⟨t, (run_succ_of_step n hstep).trans hrun, first.trans rest⟩

/-- Settles O11: the run is that of the state with the SO latch applied, of which every step is a read of `FFFF`. -/
theorem jamLastsUntilReset : Obligations.JamLastsUntilReset := by
  intro n s hn hp hv hj hr hm
  have held : HeldInJam s := ⟨hp, hv, hj, hr, hm⟩
  obtain ⟨n, rfl⟩ := Nat.exists_eq_succ_of_ne_zero hn.ne'
  obtain ⟨t, hrun, reads⟩ := held.applySo.run_reads (n + 1) (applySo_pendSo s)
  obtain ⟨u, hstep, -⟩ := held.step
  refine ⟨t, ?_, reads.marks, ?_⟩
  · rw [← hrun, run_succ_of_step _ hstep, run_succ_of_step _ ((step_applySo hp).trans hstep)]
  · have drives := reads.drives
    rw [List.map_replicate] at drives
    simpa only [Drives, applySo_cycles, applySo_trace] using drives

/-! ### The mark of `SYNC` -/

/-- With `SYNC` lowered, and left so, the bus appended events without its mark. -/
def AppendsUnmarked (s t : State) : Prop :=
  t.pins.sync = .lowered ∧ ∃ es, t.trace = s.trace ++ es ∧ ∀ x ∈ es, x.sync = false

/-- One more event without the mark. -/
theorem AppendsUnmarked.append {s t u : State} {e : BusEvent} (h : AppendsUnmarked s t)
    (hs : u.pins.sync = t.pins.sync) (ht : u.trace = t.trace ++ [e]) (he : e.sync = false) : AppendsUnmarked s u := by
  obtain ⟨hsync, es, htrace, hes⟩ := h
  refine ⟨hs.trans hsync, es ++ [e], by rw [ht, htrace, List.append_assoc], ?_⟩
  simpa [or_imp, forall_and, he] using hes

/-- Bus cycles outside the fetch leave `SYNC` lowered and mark nothing (R213). -/
theorem Path.appendsUnmarked {s t : State} (h : Path s t) (hs : s.pins.sync = .lowered) : AppendsUnmarked s t := by
  induction h with
  | refl => exact ⟨hs, [], by simp, by simp⟩
  | read _ _ ih => exact ih.append (by simp) (readCycle_trace _ _ _) (by simp [ih.1])
  | write _ _ ih => exact ih.append (by simp) (writeCycle_trace _ _ _ _) rfl
  | regs _ hr ih => simpa only [AppendsUnmarked, hr.pins, hr.trace] using ih

/-- A powered step by its first cycle: the jam's read, or the cycle with `SYNC` at `PC` and then a path of bus cycles. -/
theorem step_first_cycle {s t : State} (hp : s.pins.power = .raised) (h : step s = .next t) :
    ((s.run = .jammed ∧ s.pendReset = false) ∧ ∃ r, t = readCycle r 0xFFFF (applySo s)) ∨
    (¬(s.run = .jammed ∧ s.pendReset = false) ∧ ∃ r, Path (syncCycle r (applySo s)) t) := by
  rcases step_next_cases h with ⟨off, -⟩ | ⟨-, hv, hstep⟩
  · simp [hp] at off
  rw [applySo_run, applySo_pendReset] at hstep
  rcases hstep with ⟨hrun, hreset, hj⟩ | ⟨hj, ⟨-, hs⟩ | ⟨-, u, hu, hexec⟩⟩
  · obtain ⟨r, -, ht⟩ := (dummyRead_ok_iff _ _ _).1 hj
    exact .inl ⟨⟨hrun, hreset⟩, r, ht⟩
  · obtain ⟨v, hs⟩ := (stallCycle_ok_iff _ _).1 hs
    obtain ⟨r, -, rfl⟩ := syncRead_eq_syncCycle hs
    exact .inr ⟨hj, r, .refl _⟩
  · have hvu : u.variant = .nmos6502 := by rw [(fetchOpcode_keeps hu).variant, applySo_variant, hv]
    have rest := afterFetch_path hvu hexec
    obtain ⟨r, v, -, rfl⟩ := fetchOpcode_syncCycle hu
    exact .inr ⟨hj, r, (Path.regs (.refl _) (.of_ir _ v)).trans rest⟩

/-- Settles O17: the jam's read comes with `SYNC` lowered, and after the cycle with `SYNC` come unmarked ones alone. -/
theorem syncMarksTheFetchOnly : Obligations.SyncMarksTheFetchOnly := by
  intro s t hp hsync h
  rcases step_first_cycle hp h with ⟨hj, r, rfl⟩ | ⟨hj, r, hpath⟩
  · exact ⟨_, [], by rw [readCycle_trace, applySo_trace], by simp, by simp [hj, hsync], by simp [hsync]⟩
  · obtain ⟨-, es, htrace, hes⟩ := hpath.appendsUnmarked (by simp)
    rw [syncCycle_eq, List.append_assoc, applySo_trace, applySo_pc] at htrace
    exact ⟨_, es, htrace, hes, by simp [hj], fun _ => ⟨rfl, rfl⟩⟩

/-! ### The state that dispatch receives -/

theorem busByte_of_readable {s : State} {a : Word} (h : Readable s a) :
    ∃ r, s.regionAt a = some r ∧ r.access ≠ .writeOnly ∧ busByte r a s = byteAt s a := by
  obtain ⟨r, hr, hw⟩ := h
  exact ⟨r, hr, hw, if_neg hw⟩

theorem fetchEvents_one (s : State) : fetchEvents s 1 = [⟨s.pc, byteAt s s.pc, .read, true⟩] := by
  simp [fetchEvents]

/-- Every fetched byte but the first is read without the mark of `SYNC` (R213). -/
theorem fetchEvents_succ (s : State) (n : Nat) : fetchEvents s (n + 2) = fetchEvents s (n + 1) ++
    [⟨s.pc + BitVec.ofNat 16 (n + 1), byteAt s (s.pc + BitVec.ofNat 16 (n + 1)), .read, false⟩] := by
  rw [fetchEvents, List.range_succ, List.map_append]
  rfl

/-- The opcode fetch with `PC` moved past it, at a readable `PC` (R213). -/
theorem fetchOpcode_fetched {s : State} (h : Readable s s.pc) :
    ∃ u, fetchOpcode (applySo s) = .ok u ∧ { u with pc := u.pc + 1 } = fetched s 1 := by
  have h' : Readable (applySo s) (applySo s).pc := by rwa [applySo_pc, Readable_congr (applySo_regions s)]
  obtain ⟨r, hr, hw, hbyte⟩ := busByte_of_readable h'
  have byte : byteAt (applySo s) s.pc = byteAt s s.pc := by rw [byteAt, applySo_mem, byteAt]
  refine ⟨_, (fetchOpcode_ok_iff _ _).2 ⟨_, _, syncRead_eq hr, rfl⟩, ?_⟩
  rw [hbyte, syncCycle_eq, if_neg hw, hbyte]
  simp [fetched, fetchEvents_one, byte]

/-- One more fetched byte (R141). -/
theorem fetchByte_fetched {s : State} {n : Nat} (h : Readable s (s.pc + BitVec.ofNat 16 (n + 1))) :
    fetchByte (fetched s (n + 1)) = .ok (byteAt s (s.pc + BitVec.ofNat 16 (n + 1)), fetched s (n + 2)) := by
  have regions : (fetched s (n + 1)).regions = s.regions := applySo_regions s
  have byte (a : Word) : byteAt (fetched s (n + 1)) a = byteAt s a := congrArg (·.read a.toNat) (applySo_mem s)
  obtain ⟨r, hr, hw, hbyte⟩ := busByte_of_readable ((Readable_congr regions _).2 h)
  rw [byte] at hbyte
  refine (fetchByte_ok_iff _ _ _).2 ⟨r, hr, hbyte.symm, ?_⟩
  have hpc : (fetched s (n + 1)).pc = s.pc + BitVec.ofNat 16 (n + 1) := rfl
  have next : s.pc + BitVec.ofNat 16 (n + 2) = s.pc + BitVec.ofNat 16 (n + 1) + 1 := by
    rw [BitVec.add_assoc, BitVec.ofNat_add (x := n + 1) (y := 1)]
    rfl
  rw [hpc, readCycle_eq, if_neg hw, hbyte]
  simp [fetched, fetchEvents_succ, next, Nat.add_assoc]

/-- The operand bytes that an opcode's length leaves out do not matter (R112). -/
theorem decodeOp_take (op b c : Byte) :
    decodeOp op (([b, c].take (lengthOf op - 1)).getD 0 0) (([b, c].take (lengthOf op - 1)).getD 1 0) =
      decodeOp op b c := by
  simpa [encode_decodeOp] using decodeOp_operands (decodeOp op b c) []

/-- The number of bytes that a step fetches at `PC` before dispatch: JSR reads its third byte itself (R292). -/
def fetchLength (op : Byte) : Nat := if op = jsrOpcode then 2 else lengthOf op

/-- The operand fetch delivers the instruction that the three bytes at `PC` make and the state past the bytes fetched. -/
theorem fetchOperands_fetched {s : State} (hv : s.variant = .nmos6502)
    (h : ∀ k < fetchLength (byteAt s s.pc), Readable s (s.pc + BitVec.ofNat 16 k)) :
    fetchOperands decodeOp (fetched s 1) =
      .ok (decodeOp (byteAt s s.pc) (byteAt s (s.pc + 1)) (byteAt s (s.pc + 2)),
        fetched s (fetchLength (byteAt s s.pc))) := by
  have hir : (fetched s 1).ir = byteAt s s.pc := rfl
  have hvf : (fetched s 1).variant = .nmos6502 := (applySo_variant s).trans hv
  have take := decodeOp_take (byteAt s s.pc) (byteAt s (s.pc + 1)) (byteAt s (s.pc + 2))
  obtain ⟨hlow, hhigh⟩ := lengthOf_bounds (byteAt s s.pc)
  rw [fetchOperands_ok_iff _ _ _ hvf, hir]
  by_cases hj : byteAt s s.pc = jsrOpcode
  · have n2 : fetchLength (byteAt s s.pc) = 2 := if_pos hj
    have l3 : lengthOf (byteAt s s.pc) = 3 := by rw [hj]; decide
    rw [n2] at h ⊢
    have hmem : (fetched s 2).mem = s.mem := applySo_mem s
    refine .inr ⟨by omega, _, _, fetchByte_fetched (n := 0) (h 1 (by omega)), .inr (.inl ⟨by omega, hj, ?_, rfl⟩)⟩
    rw [hmem]
    rfl
  · have nl : fetchLength (byteAt s s.pc) = lengthOf (byteAt s s.pc) := if_neg hj
    rw [nl] at h ⊢
    obtain hl | hl | hl :
        lengthOf (byteAt s s.pc) = 1 ∨ lengthOf (byteAt s s.pc) = 2 ∨ lengthOf (byteAt s s.pc) = 3 := by omega
    all_goals rw [hl] at h take ⊢
    · exact .inl ⟨rfl, take.symm, rfl⟩
    · exact .inr ⟨by decide, _, _, fetchByte_fetched (n := 0) (h 1 (by decide)), .inl ⟨rfl, take.symm, rfl⟩⟩
    · exact .inr ⟨by decide, _, _, fetchByte_fetched (n := 0) (h 1 (by decide)), .inr (.inr
        ⟨by decide, hj, _, fetchByte_fetched (n := 1) (h 2 (by decide)), rfl⟩)⟩

/-- Settles O9: the opcode fetch and the operand fetch leave `fetched`, and nothing is selected between them. -/
theorem stepRunsDecodedInstruction : Obligations.StepRunsDecodedInstruction := by
  intro s i rest ⟨hp, hv, hrun, hrdy, hsel⟩ hdecode n hread
  obtain ⟨-, hi, -⟩ := decode_cons_ok_iff.1 hdecode
  have hn : n = fetchLength (byteAt s s.pc) := by
    simp only [n, fetchLength, ← hi, length_encode_decodeOp]
    rfl
  rw [hn] at hread ⊢
  have hfirst : 0 < fetchLength (byteAt s s.pc) := by
    have := lengthOf_bounds (byteAt s s.pc)
    rw [fetchLength]
    split <;> omega
  obtain ⟨u, hu, hpast⟩ := fetchOpcode_fetched (by simpa using hread 0 hfirst)
  refine step_of_dispatched hp hv (by simp [hrun]) hrdy hu ((selectEvent_fetchOpcode hv hu).trans hsel) ?_
  rw [hpast, fetchOperands_fetched hv hread, ← hi]
  rfl

end Sys2Proof.Machine
end

section
/-! PROOFS. Loads, stores and transfers (43_load_store_transfer.md): the change of each load and transfer (O33, O35), and what a
write-kind instruction leaves (O34). -/

namespace Sys2Proof.Machine

open Config

/-! ### Loads -/

theorem loadA_changes (s : State) (m : Byte) : Changes s (loadA m) (fun u => { u with a := m }) (znOf m) :=
  ⟨_, flagsSet_setZN m s.p, fun _ => rfl⟩

theorem loadX_changes (s : State) (m : Byte) : Changes s (loadX m) (fun u => { u with x := m }) (znOf m) :=
  ⟨_, flagsSet_setZN m s.p, fun _ => rfl⟩

theorem loadY_changes (s : State) (m : Byte) : Changes s (loadY m) (fun u => { u with y := m }) (znOf m) :=
  ⟨_, flagsSet_setZN m s.p, fun _ => rfl⟩

theorem loadAX_changes (s : State) (m : Byte) : Changes s (loadAX m) (fun u => { u with a := m, x := m }) (znOf m) :=
  ⟨_, flagsSet_setZN m s.p, fun _ => rfl⟩

/-- LAS takes the stack pointer as it stands after the operand read, which leaves it alone (R348). -/
theorem loadAXS_changes (s : State) (m : Byte) :
    Changes s (loadAXS m) (fun u => { u with a := m &&& u.sp, x := m &&& u.sp, sp := m &&& u.sp }) (znOf (m &&& s.sp)) :=
  ⟨_, flagsSet_setZN (m &&& s.sp) s.p, fun _ => rfl⟩

/-- Settles O33: each load's change, in every form by the form's shape. -/
theorem loadInstructions : Obligations.LoadInstructions := by
  intro s b m w hs
  refine ⟨?lda, ?ldx, ?ldy, ?lax, ?las, ?ldaImm, ?ldxImm, ?ldyImm⟩
  case lda => exact readGives_forms hs ⟨rfl, rfl, rfl, rfl, rfl, rfl, rfl⟩ (loadA_changes s)
  case ldx => exact readGives_forms hs ⟨rfl, rfl, rfl, rfl⟩ (loadX_changes s)
  case ldy => exact readGives_forms hs ⟨rfl, rfl, rfl, rfl⟩ (loadY_changes s)
  case lax => exact readGives_forms hs ⟨rfl, rfl, rfl, rfl, rfl, rfl⟩ (loadAX_changes s)
  case las => exact readGives_forms hs rfl (loadAXS_changes s)
  case ldaImm => exact immediateGives_of_changes rfl (loadA_changes s m)
  case ldxImm => exact immediateGives_of_changes rfl (loadX_changes s m)
  case ldyImm => exact immediateGives_of_changes rfl (loadY_changes s m)

/-! ### Stores -/

/-- A write after a stretch of reads leaves marks and memory, seen from before the reads. -/
theorem Reads.marks_wrote {s u t : State} {l : List Word} {a : Word} {v : Byte} (reads : Reads s u l)
    (wrote : Wrote u t a v) : t = { busMarks s t with mem := t.mem } := by
  have h := wrote.marks
  rw [reads.marks] at h
  exact h

/-- A write-kind instruction writes its byte in the cycle after the address computation, which only reads (R144). -/
theorem storeGives_of_shape {s : State} (hmap : AllMapped s) {i : Instr} {v : StoreOp} {o : Mem}
    (hi : shapeOf s.fixup i = .storing v o) : StoreGives s i o (v.run s) := by
  obtain ⟨ea, u, hu⟩ := effectiveAddress_exists o hmap
  obtain ⟨l, reads⟩ := effectiveAddress_reads hu
  obtain ⟨t, ht⟩ := memWrite_exists (v := v.run s) (reads.allMapped hmap ea)
  have hexec : exec i s = .next t := by
    rw [exec_shape, hi]
    exact (storing_eq_next_iff ..).2 ⟨ea, u, hu, ht⟩
  have wrote := memWrite_wrote ht
  exact ⟨ea, u, t, hu, hexec, reads.marks_wrote wrote, reads.stores.trans wrote.stores reads.regions, wrote.cycles,
    wrote.trace⟩

/-- Settles O34: every form is a write-kind instruction on its mode, with its register's byte. -/
theorem storeInstructions : Obligations.StoreInstructions := by
  intro s b w ⟨hv, hmap⟩
  have gives (v : StoreOp) {i : Instr} {o : Mem} (hi : shapeOf nmosFixup i = .storing v o) : StoreGives s i o (v.run s) :=
    storeGives_of_shape hmap (by rwa [fixup_nmos hv])
  exact List.forall_iff_forall_mem.1
    ⟨gives .a rfl, gives .a rfl, gives .a rfl, gives .a rfl, gives .a rfl, gives .a rfl, gives .a rfl,
      gives .x rfl, gives .x rfl, gives .x rfl, gives .y rfl, gives .y rfl, gives .y rfl,
      gives .ax rfl, gives .ax rfl, gives .ax rfl, gives .ax rfl⟩

/-! ### Transfers -/

/-- Only what the change does after bus cycles from `s` counts. -/
theorem Changes.congr {s : State} {g g' r : State → State} {fl : List (Flag × Bool)} (h : Changes s g r fl)
    (hg : ∀ u, g' (busMarks s u) = g (busMarks s u)) : Changes s g' r fl := by
  obtain ⟨q, hq, hr⟩ := h
  exact ⟨q, hq, fun u => (hg u).trans (hr u)⟩

/-- TXS writes no flag (R251). -/
theorem txs_changes (s : State) : Changes s ImpliedOp.txs.run (fun u => { u with sp := s.x }) [] :=
  ⟨s.p, ⟨fun _ => rfl, rfl⟩, fun _ => rfl⟩

/-- Settles O35: a transfer loads the byte of a register, which the dummy read leaves alone. -/
theorem transferInstructions : Obligations.TransferInstructions := by
  intro s hmap
  refine ⟨?tax, ?tay, ?txa, ?tya, ?tsx, ?txs⟩
  case tax => exact impliedGives_of_changes hmap rfl ((loadX_changes s s.a).congr fun _ => rfl)
  case tay => exact impliedGives_of_changes hmap rfl ((loadY_changes s s.a).congr fun _ => rfl)
  case txa => exact impliedGives_of_changes hmap rfl ((loadA_changes s s.x).congr fun _ => rfl)
  case tya => exact impliedGives_of_changes hmap rfl ((loadA_changes s s.y).congr fun _ => rfl)
  case tsx => exact impliedGives_of_changes hmap rfl ((loadX_changes s s.sp).congr fun _ => rfl)
  case txs => exact impliedGives_of_changes hmap rfl (txs_changes s)

end Sys2Proof.Machine
end

section
/-! PROOFS. Addition and subtraction (44_arith_logic.md R260, R261): the primitives of both modes in integers
(41_alu_primitives.md R175, R180, R186, R187), and what the forms of ADC (O36) and SBC (O37) give. -/

namespace Sys2Proof.Machine

open Config

/-! ### The bits of a byte as numbers -/

theorem toNat_highNibble (v : Byte) : (v &&& 0xF0#8).toNat = v.toNat / 16 * 16 := by
  revert v; decide

theorem beq_zero_ofNat (n : Nat) : (BitVec.ofNat 8 n == 0) = decide (n % 256 = 0) := by
  rw [beq_zero_eq_decide, BitVec.toNat_ofNat]

theorem getLsbD_seven_ofNat (n : Nat) : (BitVec.ofNat 8 n).getLsbD 7 = n.testBit 7 := by
  rw [BitVec.getLsbD_ofNat]
  rfl

theorem beq_zero_ofInt (n : Int) : (BitVec.ofInt 8 n == 0) = decide (n % 256 = 0) := by
  rw [beq_zero_eq_decide, BitVec.toNat_ofInt, decide_eq_decide]
  omega

theorem getLsbD_seven_ofInt (n : Int) : (BitVec.ofInt 8 n).getLsbD 7 = decide (128 ≤ n % 256) := by
  rw [getLsbD_seven, BitVec.toNat_ofInt, decide_eq_decide]
  omega

/-! ### Overflow -/

/-- Masking with 80 keeps the sign bit alone. -/
theorem and_signMask_bne_zero (v : Byte) : (v &&& 0x80#8 != 0#8) = v.getLsbD 7 := by
  rw [show 0x80#8 = BitVec.twoPow 8 7 from rfl, BitVec.and_twoPow]
  cases v.getLsbD 7 <;> rfl

/-- An addition overflows when its operands agree in sign and the result does not (R175). -/
theorem addOverflow_eq (a b r : Byte) :
    addOverflow a b r = (a.getLsbD 7 == b.getLsbD 7 && a.getLsbD 7 != r.getLsbD 7) := by
  rw [addOverflow, and_signMask_bne_zero]
  simp only [BitVec.getLsbD_and, BitVec.getLsbD_xor, BitVec.getLsbD_not]
  cases a.getLsbD 7 <;> cases b.getLsbD 7 <;> rfl

/-- A subtraction overflows when its operands differ in sign and the result has not the sign of the first (R180). -/
theorem subOverflow_eq (a b r : Byte) :
    subOverflow a b r = (a.getLsbD 7 != b.getLsbD 7 && a.getLsbD 7 != r.getLsbD 7) := by
  rw [subOverflow, and_signMask_bne_zero]
  simp

theorem toInt_byte (v : Byte) : v.toInt = if 128 ≤ v.toNat then (v.toNat : Int) - 256 else v.toNat := by
  rw [BitVec.toInt_eq_toNat_cond]
  split <;> split <;> omega

theorem outOfRange_iff (n : Int) : outOfRange n = true ↔ n < -128 ∨ 127 < n := decide_eq_true_iff

/-- The sign rule of R175 says that the signed sum does not fit in a byte. -/
theorem addOverflow_binary (a b : Byte) (c : Bool) :
    addOverflow a b (BitVec.ofNat 8 (a.toNat + b.toNat + c.toNat)) = outOfRange (a.toInt + b.toInt + c.toNat) := by
  have ha := a.isLt
  have hb := b.isLt
  have hc := c.toNat_lt
  rw [addOverflow_eq, Bool.eq_iff_iff, outOfRange_iff, toInt_byte, toInt_byte]
  simp only [getLsbD_seven, BitVec.toNat_ofNat, Bool.and_eq_true, beq_iff_eq, bne_iff_ne, ne_eq, decide_eq_decide]
  omega

/-- The sign rule of R180 says that the signed difference does not fit in a byte. -/
theorem subOverflow_binary (a b : Byte) (c : Bool) :
    subOverflow a b (BitVec.ofInt 8 (binaryDifference a b c)) =
      outOfRange (a.toInt - b.toInt - (1 - (c.toNat : Int))) := by
  have ha := a.isLt
  have hb := b.isLt
  have hc := c.toNat_lt
  rw [subOverflow_eq, Bool.eq_iff_iff, outOfRange_iff, toInt_byte, toInt_byte, getLsbD_seven_ofInt, binaryDifference]
  simp only [getLsbD_seven, Bool.and_eq_true, bne_iff_ne, ne_eq, decide_eq_decide]
  omega

/-! ### The rules' results by the value and the carry -/

/-- In binary mode `Z`, `N` and `V` of R175 are those of the byte result. -/
theorem additionOf_binary (a m : Byte) (c : Bool) : additionOf false a m c =
    let sum := a.toNat + m.toNat + c.toNat
    let r := BitVec.ofNat 8 sum
    ⟨r, [(.c, decide (sum > 255)), (.z, r == 0), (.n, r.getLsbD 7), (.v, addOverflow a m r)]⟩ := by
  simp only [beq_zero_ofNat, getLsbD_seven_ofNat, addOverflow_binary]
  rfl

/-- In decimal mode `N` and `V` of R186 are those of the intermediate byte, `Z` that of the binary sum. -/
theorem additionOf_decimal (a m : Byte) (c : Bool) : additionOf true a m c =
    let s := decimalIntermediate a m c
    let inter := BitVec.ofNat 8 s
    let s' := if s ≥ 0xA0 then s + 0x60 else s
    ⟨BitVec.ofNat 8 s', [(.c, decide (s' ≥ 0x100)), (.z, BitVec.ofNat 8 (a.toNat + m.toNat + c.toNat) == 0),
      (.n, inter.getLsbD 7), (.v, addOverflow a m inter)]⟩ := by
  simp only [beq_zero_ofNat, getLsbD_seven_ofNat, addOverflow_eq, decimalIntermediate, decimalLowSum, toNat_lowNibble,
    toNat_highNibble]
  rfl

/-- The decimal difference (R187) by the nibbles as numbers. -/
theorem subtractionOf_value_decimal (a m : Byte) (c : Bool) :
    (subtractionOf true a m c).value = BitVec.ofInt 8 (decimalDifference a m c) := by
  simp only [decimalDifference, toNat_lowNibble, toNat_highNibble]
  rfl

/-- In both modes the flags are those of the binary difference (R180, R187). -/
theorem subtractionOf_flags (decimal : Bool) (a m : Byte) (c : Bool) : (subtractionOf decimal a m c).flags =
    let r := BitVec.ofInt 8 (binaryDifference a m c)
    [(.c, decide (0 ≤ binaryDifference a m c)), (.z, r == 0), (.n, r.getLsbD 7), (.v, subOverflow a m r)] := by
  simp only [beq_zero_ofInt, getLsbD_seven_ofInt, subOverflow_binary]
  rfl

/-! ### Primitives against the rules' results -/

/-- `C` and `V` written before `SetZN`, as the binary primitives do. -/
theorem flagsSet_setZN_withCarryOverflow (r : Byte) (c v : Bool) (p : Byte) :
    FlagsSet [(.c, c), (.z, r == 0), (.n, r.getLsbD 7), (.v, v)] p (setZN r (withFlag .v v (withFlag .c c p))) :=
  (((flagsSet_withFlag .c c p).trans (flagsSet_withFlag .v v _)).trans (flagsSet_setZN r _)).congr
    fun f => by cases f <;> rfl

/-- The four flags in the order in which the decimal addition writes them. -/
theorem flagsSet_zeroNegativeOverflowCarry (c z n v : Bool) (p : Byte) :
    FlagsSet [(.c, c), (.z, z), (.n, n), (.v, v)] p (withFlag .c c (withFlag .v v (withFlag .n n (withFlag .z z p)))) :=
  ((((flagsSet_withFlag .z z p).trans (flagsSet_withFlag .n n _)).trans (flagsSet_withFlag .v v _)).trans
    (flagsSet_withFlag .c c _)).congr fun f => by cases f <;> rfl

theorem addBinary_gives (a m : Byte) (c : Bool) (p : Byte) : (addBinary a m c p).Gives (additionOf false a m c) p := by
  rw [additionOf_binary]
  exact ⟨rfl, flagsSet_setZN_withCarryOverflow _ _ _ p⟩

theorem addDecimal_gives (a m : Byte) (c : Bool) (p : Byte) :
    (addDecimal nmosDecimal a m c p).Gives (additionOf true a m c) p := by
  rw [additionOf_decimal]
  exact ⟨rfl, flagsSet_zeroNegativeOverflowCarry _ _ _ _ p⟩

theorem flagsSet_subBinary (decimal : Bool) (a m : Byte) (c : Bool) (p : Byte) :
    FlagsSet (subtractionOf decimal a m c).flags p (subBinary a m c p).p := by
  rw [subtractionOf_flags]
  exact flagsSet_setZN_withCarryOverflow _ _ _ p

theorem subBinary_gives (a m : Byte) (c : Bool) (p : Byte) :
    (subBinary a m c p).Gives (subtractionOf false a m c) p :=
  ⟨rfl, flagsSet_subBinary false a m c p⟩

theorem subDecimal_gives (a m : Byte) (c : Bool) (p : Byte) :
    (subDecimal nmosDecimal a m c p).Gives (subtractionOf true a m c) p := by
  refine ⟨(subtractionOf_value_decimal a m c).symm, ?_⟩
  rw [subDecimal_flags_nmos]
  exact flagsSet_subBinary true a m c p

/-- ADC's primitive in profile NMOS6502, in the mode that `D` selects (R185). -/
theorem addWithCarry_gives (a m p : Byte) :
    (addWithCarry nmos a m p).Gives (additionOf (flag .d p) a m (flag .c p)) p := by
  rw [addWithCarry_nmos]
  cases flag .d p with
  | false => exact addBinary_gives a m _ p
  | true => exact addDecimal_gives a m _ p

/-- SBC's primitive in profile NMOS6502, in the mode that `D` selects (R185). -/
theorem subWithCarry_gives (a m p : Byte) :
    (subWithCarry nmos a m p).Gives (subtractionOf (flag .d p) a m (flag .c p)) p := by
  rw [subWithCarry_nmos]
  cases flag .d p with
  | false => exact subBinary_gives a m _ p
  | true => exact subDecimal_gives a m _ p

/-! ### The forms of ADC and SBC -/

section

variable {s : State} {f : CalcOp}

/-- In profile NMOS6502 decimal mode adds no cycle (R190): ADC and SBC make their change after the operand read. -/
theorem readGives_of_calculating (hs : Configured s) {forms : List (Instr × Mem)} {r : Byte → State → State}
    {fl : Byte → List (Flag × Bool)} (hforms : forms.Forall fun x => shapeOf nmosFixup x.1 = .calculating f x.2)
    (h : ∀ m, Changes s (f.run m) (r m) (fl m)) : ∀ x ∈ forms, ReadGives s x.1 x.2 r fl := by
  obtain ⟨hv, hmap⟩ := hs
  intro x hx
  have hi := List.forall_iff_forall_mem.1 hforms x hx
  obtain ⟨m, u, hu⟩ := readOperand_exists x.2 hmap
  obtain ⟨q, hq, hg⟩ := h m
  obtain ⟨l, reads⟩ := readOperand_reads hu
  refine ⟨m, u, q, hu, reads.marks, hq, ?_⟩
  rw [exec_shape_nmos x.1 hv, hi, reads.marks, ← hg u, ← reads.marks]
  exact (calculating_nmos f.run x.2 hv).trans ((reading_eq_next_iff ..).2 ⟨m, u, hu, rfl⟩)

theorem immediateGives_of_calculating (hv : s.variant = .nmos6502) {i : Instr} {m : Byte} {r : State → State}
    {fl : List (Flag × Bool)} (hi : shapeOf nmosFixup i = .calculatingImm f m) (h : Changes s (f.run m) r fl) :
    ImmediateGives s i r fl := by
  obtain ⟨q, hq, hg⟩ := h
  refine ⟨q, hq, ?_⟩
  rw [exec_shape_nmos i hv, hi]
  exact (calculatingImm_nmos f.run m hv).trans (congrArg Host.Outcome.next (hg s))

end

theorem addToA_changes {s : State} (hv : s.variant = .nmos6502) (m : Byte) :
    let sum := additionOf (flag .d s.p) s.a m (flag .c s.p)
    Changes s (addToA m) (fun u => { u with a := sum.value }) sum.flags := by
  have gives := addWithCarry_gives s.a m s.p
  refine ⟨_, gives.flags, fun u => ?_⟩
  rw [addToA, profile_nmos (s := busMarks s u) hv, ← gives.value]
  rfl

theorem subFromA_changes {s : State} (hv : s.variant = .nmos6502) (m : Byte) :
    let diff := subtractionOf (flag .d s.p) s.a m (flag .c s.p)
    Changes s (subFromA m) (fun u => { u with a := diff.value }) diff.flags := by
  have gives := subWithCarry_gives s.a m s.p
  refine ⟨_, gives.flags, fun u => ?_⟩
  rw [subFromA, profile_nmos (s := busMarks s u) hv, ← gives.value]
  rfl

/-- Settles O36: the addition's change, in every form by the form's shape. (`addWithCarry` is the model's primitive.) -/
theorem addWithCarry_holds : Obligations.AddWithCarry := by
  intro s b m w hs
  have hv : s.variant = .nmos6502 := hs.1
  have change := addToA_changes hv
  refine ⟨?read, ?imm⟩
  case read => exact readGives_of_calculating hs ⟨rfl, rfl, rfl, rfl, rfl, rfl, rfl⟩ change
  case imm => exact immediateGives_of_calculating hv rfl (change m)

/-- Settles O37: the subtraction's change, in every form by the form's shape. -/
theorem subtractWithBorrow : Obligations.SubtractWithBorrow := by
  intro s b m w hs
  have hv : s.variant = .nmos6502 := hs.1
  have change := subFromA_changes hv
  refine ⟨?read, ?imm, ?immEB⟩
  case read => exact readGives_of_calculating hs ⟨rfl, rfl, rfl, rfl, rfl, rfl, rfl⟩ change
  case imm => exact immediateGives_of_calculating hv rfl (change m)
  case immEB => exact immediateGives_of_calculating hv rfl (change m)

end Sys2Proof.Machine
end

section
/-! PROOFS. Read-modify-write instructions (45_shift_rmw.md): what any of them leaves once its middle is known
(`modifyGives_of_modifies`), and the shifts, rotates, increments and decrements on memory (O42). -/

namespace Sys2Proof.Machine

open Config

/-! ### The two writes -/

/-- A store covers an earlier one at its own address. -/
theorem Stores.overwrite {s t : State} {a : Word} {v m : Byte} {l : List (Word × Byte)}
    (h : Stores s t ((a, v) :: (a, m) :: l)) : Stores s t ((a, v) :: l) := by
  intro b
  have covered : ((a, v) :: l).lookup b = ((a, v) :: (a, m) :: l).lookup b := by
    simp only [List.lookup_cons]
    cases b == a <;> rfl
  rw [covered]
  exact h b

/-! ### The middle of a read-modify-write -/

/-- Wherever bus cycles alone lead from `s`, the byte written back among them, the middle `g` gives the byte to store, the
accumulator and the flags of `r`, and leaves the rest. -/
def Modifies (s : State) (g : State → Byte × State) (r : Modified) : Prop :=
  ∃ q, FlagsSet r.flags s.p q ∧ ∀ u mem,
    g { busMarks s u with mem := mem } = (r.value, { busMarks s u with a := r.a, p := q, mem := mem })

/-- In profile NMOS6502 a read-modify-write instruction reads its operand, writes it back, makes its change and writes the new
byte (R144). -/
theorem modifyGives_of_modifies {s : State} (hs : Configured s) {i : Instr} {o : Mem} {f : ModifyOp} {r : Byte → Modified}
    (hi : shapeOf nmosFixup i = .modifying f o) (h : ∀ m, Modifies s (f.run m) (r m)) : ModifyGives s i o r := by
  obtain ⟨hv, hmap⟩ := hs
  obtain ⟨t, hexec⟩ := anInstructionStopsOnlyAtAnUnmappedAddress.2 i s hmap
  have hrun : modifying f.run o s = .next t := by
    rw [← hexec, exec_shape_nmos i hv, hi]
    rfl
  obtain ⟨ea, u, m, v, w, hu, hm, hw, ht⟩ := (modifying_eq_next_iff ..).1 hrun
  rw [secondAccess_nmos hv] at hw
  obtain ⟨q, hq, hg⟩ := h m
  obtain ⟨l, addressing⟩ := effectiveAddress_reads hu
  have reads := addressing.trans (memRead_reads hm).1
  have back := memWrite_wrote hw
  have hregions : w.regions = s.regions := back.regions.trans reads.regions
  have middle : f.run m w = ((r m).value, { busMarks s w with a := (r m).a, p := q, mem := w.mem }) := by
    rw [reads.marks_wrote back]
    exact hg w w.mem
  rw [middle] at ht
  have wrote := memWrite_wrote ht
  have stores : Stores w t [(ea, (r m).value)] :=
    wrote.stores.congr (fun _ => rfl) (fun _ => rfl) hregions
  refine ⟨ea, u, m, v, q, t, hu, hm, hexec, hq, wrote.marks, ?_, ?_, ?_⟩
  · exact ((reads.stores.trans back.stores reads.regions).trans stores hregions).overwrite
  · calc
      t.cycles = w.cycles + 1 := wrote.cycles
      _ = v.cycles + 2 := by rw [back.cycles]
  · calc
      t.trace = w.trace ++ [⟨ea, (r m).value, .write, false⟩] := wrote.trace
      _ = v.trace ++ [⟨ea, m, .write, false⟩, ⟨ea, (r m).value, .write, false⟩] := by
        rw [back.trace, List.append_assoc]; rfl

/-- The forms of one read-modify-write instruction. -/
theorem modifyGives_forms {s : State} (hs : Configured s) {forms : List (Instr × Mem)} {f : ModifyOp}
    {r : Byte → Modified} (hforms : forms.Forall fun x => shapeOf nmosFixup x.1 = .modifying f x.2)
    (h : ∀ m, Modifies s (f.run m) (r m)) : ∀ x ∈ forms, ModifyGives s x.1 x.2 r :=
  fun x hx => modifyGives_of_modifies hs (List.forall_iff_forall_mem.1 hforms x hx) h

/-! ### Shifts, rotates, increments and decrements on memory -/

/-- A primitive on the byte read leaves the accumulator. -/
theorem onMemory_modifies {s : State} {f : Byte → Byte → Alu} {m : Byte} {r : Result} (h : (f m s.p).Gives r s.p) :
    Modifies s (onMemory f m) ⟨r.value, s.a, r.flags⟩ :=
  ⟨_, h.flags, fun _ _ => by rw [← h.value]; rfl⟩

/-- Settles O42: the six primitives against the rules, in every form by the form's shape. -/
theorem memoryShiftsAndIncrements : Obligations.MemoryShiftsAndIncrements := by
  intro s b w hs
  refine ⟨?asl, ?lsr, ?rol, ?ror, ?inc, ?dec⟩
  case asl => exact modifyGives_forms hs ⟨rfl, rfl, rfl, rfl⟩ fun m => onMemory_modifies (asl_gives m s.p)
  case lsr => exact modifyGives_forms hs ⟨rfl, rfl, rfl, rfl⟩ fun m => onMemory_modifies (lsr_gives m s.p)
  case rol => exact modifyGives_forms hs ⟨rfl, rfl, rfl, rfl⟩ fun m => onMemory_modifies (rol_gives m s.p)
  case ror => exact modifyGives_forms hs ⟨rfl, rfl, rfl, rfl⟩ fun m => onMemory_modifies (ror_gives m s.p)
  case inc => exact modifyGives_forms hs ⟨rfl, rfl, rfl, rfl⟩ fun m => onMemory_modifies (inc_gives m s.p)
  case dec => exact modifyGives_forms hs ⟨rfl, rfl, rfl, rfl⟩ fun m => onMemory_modifies (dec_gives m s.p)

end Sys2Proof.Machine
end

section
/-! PROOFS. Bus sequences that move `PC`, `S` and `P` beside driving the bus and storing (`BusRun`): one rule for each shared
operation, and the stack slots they meet. -/

namespace Sys2Proof.Machine

open Config

/-! ### The rules -/

/-- From `s` to `t` the bus drove `l` and stored `m`, the latest first; `PC`, `S` and `P` became `pc`, `sp` and `p`; nothing else
changed. -/
structure BusRun (s t : State) (pc : Word) (sp p : Byte) (l : List (Word × Action)) (m : List (Word × Byte)) : Prop where
  marks : t = { busMarks s t with pc := pc, sp := sp, p := p, mem := t.mem }
  drives : Drives s t l
  stores : Stores s t m
  /-- Without a store the memory's own form stays, not its bytes only. -/
  kept : m = [] → t.mem = s.mem

theorem BusRun.refl (s : State) : BusRun s s s.pc s.sp s.p [] [] := ⟨rfl, .refl s, .refl s, fun _ => rfl⟩

/-- A byte at no stored address is as it was. -/
theorem Stores.byteAt_of_not_mem {s t : State} {m : List (Word × Byte)} (h : Stores s t m) {a : Word}
    (ha : a ∉ m.map Prod.fst) : byteAt t a = byteAt s a := by
  have absent : m.lookup a = none :=
    List.lookup_eq_none_iff.2 fun x hx => bne_iff_ne.2 fun e => ha (e ▸ List.mem_map_of_mem hx)
  obtain ⟨written, unwritten⟩ := h a
  by_cases hw : Writable s a
  · rw [written hw, absent, Option.getD_none]
  · exact unwritten hw

section

variable {s t u : State} {pc : Word} {sp p : Byte} {l : List (Word × Action)} {m : List (Word × Byte)}
  (h : BusRun s t pc sp p l m)

include h

theorem BusRun.pc_eq : t.pc = pc := by rw [h.marks]

theorem BusRun.sp_eq : t.sp = sp := by rw [h.marks]

theorem BusRun.p_eq : t.p = p := by rw [h.marks]

theorem BusRun.regions : t.regions = s.regions := by rw [h.marks]; rfl

theorem BusRun.variant : t.variant = s.variant := by rw [h.marks]; rfl

theorem BusRun.readsAs {a : Word} {v : Byte} (ha : a ∉ m.map Prod.fst) : ReadsAs t a v ↔ ReadsAs s a v :=
  ReadsAs_congr h.regions (h.stores.byteAt_of_not_mem ha)

theorem BusRun.setPc (w : Word) : BusRun s { t with pc := w } w sp p l m where
  marks := by rw [h.marks]; rfl
  drives := h.drives
  stores := h.stores
  kept := h.kept

theorem BusRun.setSp (v : Byte) : BusRun s { t with sp := v } pc v p l m where
  marks := by rw [h.marks]; rfl
  drives := h.drives
  stores := h.stores
  kept := h.kept

theorem BusRun.setP (v : Byte) : BusRun s { t with p := v } pc sp v l m where
  marks := by rw [h.marks]; rfl
  drives := h.drives
  stores := h.stores
  kept := h.kept

theorem BusRun.reads {as : List Word} (k : Reads t u as) :
    BusRun s u pc sp p (l ++ as.map fun a => (a, .read)) m where
  marks := by
    have hu := k.marks
    rw [h.marks] at hu
    rw [k.mem]
    exact hu
  drives := h.drives.trans k.drives
  stores := h.stores.trans k.stores h.regions
  kept hm := k.mem.trans (h.kept hm)

theorem BusRun.dummyRead {a : Word} (hu : dummyRead a t = .ok u) : BusRun s u pc sp p (l ++ [(a, .read)]) m :=
  h.reads (dummyRead_reads hu)

/-- A read at an address without a store gives the byte of the start. -/
theorem BusRun.memRead {a : Word} {v : Byte} (hu : memRead a t = .ok (v, u)) (ha : a ∉ m.map Prod.fst) :
    BusRun s u pc sp p (l ++ [(a, .read)]) m ∧ ReadsAs s a v := by
  obtain ⟨reads, value⟩ := memRead_reads hu
  exact ⟨h.reads reads, (h.readsAs ha).1 value⟩

theorem BusRun.wrote {a : Word} {v : Byte} (k : Wrote t u a v) :
    BusRun s u pc sp p (l ++ [(a, .write)]) ((a, v) :: m) where
  marks := by
    have hu := k.marks
    rw [h.marks] at hu
    exact hu
  drives := h.drives.trans k.drives
  stores := h.stores.trans k.stores h.regions
  kept := nofun

end

section

variable {s t u : State} {pc : Word} {k p : Byte} {l : List (Word × Action)}

/-- A push with `S` at `k` below its start (R163). -/
theorem BusRun.push {m : List (Word × Byte)} {v : Byte} (h : BusRun s t pc (s.sp - k) p l m) (hu : push v t = .ok u) :
    BusRun s u pc (s.sp - (k + 1)) p (l ++ [(slotBelow s k, .write)]) ((slotBelow s k, v) :: m) := by
  obtain ⟨r, hr, rfl⟩ := (push_ok_iff v t u).1 hu
  have hsp : t.sp - 1 = s.sp - (k + 1) := by rw [h.sp_eq, sub_sub]
  rw [stackAddr_eq_slotBelow h.sp_eq] at hr ⊢
  rw [hsp]
  exact (h.wrote (writeCycle_wrote hr)).setSp _

/-- A pull with `S` at `k` above its start (R164). -/
theorem BusRun.pull {v : Byte} (h : BusRun s t pc (s.sp + k) p l []) (hu : pull t = .ok (v, u)) :
    BusRun s u pc (s.sp + (k + 1)) p (l ++ [(slotAbove s (k + 1), .read)]) [] ∧ ReadsAs s (slotAbove s (k + 1)) v := by
  have hsp : t.sp + 1 = s.sp + (k + 1) := by rw [h.sp_eq, add_assoc]
  have hslot : wordOf 0x01 (t.sp + 1) = slotAbove s (k + 1) := by rw [hsp, slotAbove]
  rw [Machine.pull, State.stackAddr, hslot, hsp] at hu
  exact (h.setSp _).memRead hu List.not_mem_nil

end

/-- Before the first push `S` is at 0 below its start. -/
theorem BusRun.zeroBelow {s t : State} {pc : Word} {p : Byte} {l : List (Word × Action)} {m : List (Word × Byte)}
    (h : BusRun s t pc s.sp p l m) : BusRun s t pc (s.sp - 0) p l m := by rwa [sub_zero]

/-- The end of a run without stores is its start with the marks and the three registers. -/
theorem BusRun.eq_marked {s t : State} {pc : Word} {sp p : Byte} {l : List (Word × Action)}
    (h : BusRun s t pc sp p l []) : t = { busMarks s t with pc := pc, sp := sp, p := p } := by
  have marks := h.marks
  rwa [h.kept rfl] at marks

/-- What a run stored last at an address of read-write memory is read there. -/
theorem BusRun.reads_stored {s t : State} {pc : Word} {sp p v x : Byte} {l : List (Word × Action)}
    {m : List (Word × Byte)} {a : Word} (h : BusRun s t pc sp p l m) (hram : Ram s a) (hstored : m.lookup a = some v)
    (hread : ReadsAs t a x) : x = v := by
  obtain ⟨readable, writable⟩ := hram
  calc
    x = byteAt t a := hread ((Readable_congr h.regions a).2 readable)
    _ = (m.lookup a).getD (byteAt s a) := (h.stores a).1 writable
    _ = v := by rw [hstored, Option.getD_some]

/-! ### Stack slots -/

theorem slotBelow_zero (s : State) : slotBelow s 0 = s.stackAddr := by rw [slotBelow, sub_zero, State.stackAddr]

theorem slotAbove_zero (s : State) : slotAbove s 0 = s.stackAddr := by rw [slotAbove, add_zero, State.stackAddr]

/-- Before the first pull: the dummy reads at `PC` and at the stack top (R164), with `S` at 0 above its start. -/
theorem dummyReads_busRun {s t u : State} (ht : dummyRead s.pc s = .ok t) (hu : dummyRead t.stackAddr t = .ok u) :
    BusRun s u s.pc (s.sp + 0) s.p [(s.pc, .read), (slotAbove s 0, .read)] [] := by
  have first := (BusRun.refl s).dummyRead ht
  have slot : t.stackAddr = slotAbove s 0 := by rw [slotAbove_zero, State.stackAddr, State.stackAddr, first.sp_eq]
  rw [slot] at hu
  rw [add_zero]
  exact first.dummyRead hu

/-- A slot above a lowered stack pointer is a slot below the old one. -/
theorem slotAbove_eq_slotBelow {s t : State} {i j k : Byte} (h : t.sp = s.sp - j) (hi : j - k = i) :
    slotAbove t k = slotBelow s i := by
  rw [slotAbove, slotBelow, h, sub_add, hi]

theorem slotBelow_inj {s : State} {j k : Byte} : slotBelow s j = slotBelow s k ↔ j = k := by
  rw [slotBelow, slotBelow, wordOf_inj, sub_right_inj, and_iff_right rfl]

/-- A stack slot lies in page 1 (R22). -/
theorem hi_slotBelow (s : State) (k : Byte) : hi (slotBelow s k) = 0x01 := hi_wordOf ..

theorem ne_slotBelow {a : Word} (ha : hi a ≠ 0x01) (s : State) (k : Byte) : a ≠ slotBelow s k :=
  fun e => ha (e ▸ hi_slotBelow s k)

end Sys2Proof.Machine
end

section
/-! PROOFS. Branches (O50) and jumps (O51). -/

namespace Sys2Proof.Machine

open Config

/-! ### Branches -/

/-- The displacement is signed and the target wraps (R156). -/
theorem branchTarget_eq_ofInt (pc : Word) (d : Byte) : branchTarget pc d = BitVec.ofInt 16 (pc.toNat + d.toInt) := by
  rw [BitVec.ofInt_add, BitVec.ofInt_natCast, BitVec.ofNat_toNat, BitVec.setWidth_eq, branchTarget, sext,
    BitVec.signExtend]

/-- The uncorrected target (R290): the page of one word, the place in the page of another. -/
theorem wordOf_hi_lo_eq_ofNat (x y : Word) :
    wordOf (hi x) (lo y) = BitVec.ofNat 16 (x.toNat / 256 * 256 + y.toNat % 256) := by
  have hx := x.isLt
  apply BitVec.eq_of_toNat_eq
  rw [toNat_wordOf, toNat_hi, toNat_lo, BitVec.toNat_ofNat]
  omega

/-- The addresses that a taken branch reads (R290). -/
def branchReads (pc target : Word) : List Word :=
  pc :: if hi target = hi pc then [] else [wordOf (hi pc) (lo target)]

theorem branch_not_taken (d : Byte) (s : State) : branch false d s = .next s := rfl

theorem branch_taken (d : Byte) {s : State} (hmap : AllMapped s) :
    ∃ t, branch true d s = .next { t with pc := branchTarget s.pc d } ∧
      Reads s t (branchReads s.pc (branchTarget s.pc d)) := by
  obtain ⟨u, hu, first⟩ := dummyRead_exists_reads hmap s.pc
  by_cases hpage : hi (branchTarget s.pc d) = hi s.pc
  · refine ⟨u, ?_, ?_⟩
    · simp [branch, hu, hpage]
    · rw [branchReads, if_pos hpage]
      exact first
  · obtain ⟨v, hv, second⟩ := dummyRead_exists_reads (first.allMapped hmap) (wordOf (hi s.pc) (lo (branchTarget s.pc d)))
    refine ⟨v, ?_, ?_⟩
    · simp [branch, hu, hpage, hv]
    · rw [branchReads, if_neg hpage]
      exact first.trans second

/-- Settles O50: the eight instructions are one branch procedure, each under its condition. -/
theorem branchInstructions : Obligations.BranchInstructions := by
  intro s d hmap target x hx
  have hexec : exec x.1 s = branch x.2 d s := by
    refine (List.forall_iff_forall_mem (p := fun x : Instr × Bool => exec x.1 s = branch x.2 d s)).1 ?_ x hx
    exact ⟨rfl, rfl, rfl, rfl, rfl, rfl, rfl, rfl⟩
  have htarget : branchTarget s.pc d = target := branchTarget_eq_ofInt s.pc d
  refine ⟨fun hc => ?_, fun hc => ?_⟩
  · rw [hexec, hc, branch_not_taken]
  · obtain ⟨t, ht, reads⟩ := branch_taken d hmap
    rw [htarget] at ht reads
    refine ⟨t, by rw [hexec, hc, ht], reads.marks, ?_⟩
    have drives := reads.drives
    rw [branchReads, wordOf_hi_lo_eq_ofNat] at drives
    split_ifs at drives ⊢ <;> exact drives

/-! ### Jumps -/

/-- JMP (ind) in profile NMOS6502: two reads in the pointer's page (R291, R157). -/
theorem execJmpInd_busRun {w : Word} {s t : State} (hv : s.variant = .nmos6502) (h : execJmpInd w s = .next t) :
    ∃ low high, BusRun s t (wordOf high low) s.sp s.p [(w, .read), (uncorrected w 1, .read)] [] ∧
      ReadsAs s w low ∧ ReadsAs s (uncorrected w 1) high := by
  simp only [execJmpInd, profile_nmos hv, conclude_eq_next, bind_eq_ok, pure_eq, Except.ok.injEq, Prod.exists] at h
  obtain ⟨low, s1, h1, high, s2, h2, s3, h3, rfl⟩ := h
  have none_spare : s2 = s3 := Except.ok.inj h3
  obtain ⟨run1, value1⟩ := (BusRun.refl s).memRead h1 List.not_mem_nil
  obtain ⟨run2, value2⟩ := run1.memRead h2 List.not_mem_nil
  subst none_spare
  exact ⟨low, high, run2.setPc _, value1, value2⟩

/-- Settles O51: JMP abs by its meaning; JMP (ind) by its two reads. -/
theorem jumpInstructions : Obligations.JumpInstructions := by
  refine ⟨fun s w => rfl, fun s w ⟨hv, hmap⟩ => ?_⟩
  have wrapped : uncorrected w 1 = BitVec.ofNat 16 (w.toNat / 256 * 256 + (w.toNat + 1) % 256) :=
    uncorrected_eq_ofNat w 1
  obtain ⟨t, hexec⟩ := anInstructionStopsOnlyAtAnUnmappedAddress.2 (.jmpInd w) s hmap
  obtain ⟨l, h, run, low, high⟩ := execJmpInd_busRun hv hexec
  rw [wrapped] at run high
  exact ⟨busMarks s t, l, h, hexec.trans (congrArg Host.Outcome.next run.eq_marked), rfl, run.drives, low, high⟩

end Sys2Proof.Machine
end

section
/-! PROOFS. JSR (O52), RTS (O53), and the one after the other (O60). -/

namespace Sys2Proof.Machine

open Config

/-- JSR from its third cycle on (R292): the address of the third byte goes to the stack, and that byte is read after it. -/
theorem execJsrAbs_busRun {w : Word} {s t : State} (h : execJsrAbs w s = .next t) :
    let o := s.profile.byteOrder
    ∃ second, BusRun s t (joinWord o (firstByte o w) second) (s.sp - 2) s.p
        [(slotBelow s 0, .read), (slotBelow s 0, .write), (slotBelow s 1, .write), (s.pc, .read)]
        [(slotBelow s 1, firstByte o s.pc), (slotBelow s 0, secondByte o s.pc)] ∧
      ReadsAs t s.pc second := by
  simp only [execJsrAbs, conclude_eq_next, bind_eq_ok, pure_eq, Except.ok.injEq, Prod.exists] at h
  obtain ⟨s1, h1, s2, h2, s3, h3, second, s4, h4, rfl⟩ := h
  rw [← slotBelow_zero] at h1
  have run1 := ((BusRun.refl s).dummyRead h1).zeroBelow
  rw [run1.pc_eq] at h2
  have run2 := run1.push h2
  rw [run2.pc_eq] at h3
  have run3 := run2.push h3
  rw [run3.pc_eq] at h4
  obtain ⟨reads, value⟩ := memRead_reads h4
  have run4 := (run3.reads reads).setPc (joinWord s.profile.byteOrder (firstByte s.profile.byteOrder w) second)
  exact ⟨second, run4, reads.readsAs.2 value⟩

/-- RTS from its second cycle on (R293): two pulls, a read at the pulled address, and one added. -/
theorem execRts_busRun {s t : State} (h : execRts s = .next t) :
    ∃ first second,
      let target := joinWord s.profile.byteOrder first second
      BusRun s t (target + 1) (s.sp + 2) s.p
        [(s.pc, .read), (slotAbove s 0, .read), (slotAbove s 1, .read), (slotAbove s 2, .read), (target, .read)] [] ∧
      ReadsAs s (slotAbove s 1) first ∧ ReadsAs s (slotAbove s 2) second := by
  simp only [execRts, conclude_eq_next, bind_eq_ok, pure_eq, Except.ok.injEq, Prod.exists] at h
  obtain ⟨s1, h1, s2, h2, first, s3, h3, second, s4, h4, s5, h5, rfl⟩ := h
  obtain ⟨run3, value1⟩ := (dummyReads_busRun h1 h2).pull h3
  obtain ⟨run4, value2⟩ := run3.pull h4
  have run5 := (run4.setPc _).dummyRead h5
  rw [run5.pc_eq]
  exact ⟨first, second, run5.setPc _, value1, value2⟩

/-- Settles O52: the run of JSR in little-endian order. -/
theorem jumpToSubroutine : Obligations.JumpToSubroutine := by
  intro s w hmap horder
  obtain ⟨t, hexec⟩ := anInstructionStopsOnlyAtAnUnmappedAddress.2 (.jsrAbs w) s hmap
  obtain ⟨second, run, value⟩ := execJsrAbs_busRun hexec
  rw [horder] at run
  exact ⟨t, second, hexec, run.marks, run.stores, run.drives, value⟩

/-- Settles O53: the run of RTS in little-endian order. -/
theorem returnFromSubroutine : Obligations.ReturnFromSubroutine := by
  intro s hmap horder
  obtain ⟨t, hexec⟩ := anInstructionStopsOnlyAtAnUnmappedAddress.2 .rts s hmap
  obtain ⟨l, h, run, low, high⟩ := execRts_busRun hexec
  rw [horder] at run
  exact ⟨busMarks s t, l, h, hexec.trans (congrArg Host.Outcome.next run.eq_marked), rfl, run.drives, low, high⟩

/-- Settles O60: RTS pulls the slots that JSR pushed, in the order of any profile. -/
theorem subroutineCallReturns : Obligations.SubroutineCallReturns := by
  intro s w hmap hram
  obtain ⟨t, hcall⟩ := anInstructionStopsOnlyAtAnUnmappedAddress.2 (.jsrAbs w) s hmap
  obtain ⟨_, call, -⟩ := execJsrAbs_busRun hcall
  obtain ⟨u, hreturn⟩ := anInstructionStopsOnlyAtAnUnmappedAddress.2 .rts t ((AllMapped_congr call.regions).2 hmap)
  obtain ⟨first, second, back, value1, value2⟩ := execRts_busRun hreturn
  have slot1 : slotAbove t 1 = slotBelow s 1 := slotAbove_eq_slotBelow call.sp_eq (by decide)
  have slot2 : slotAbove t 2 = slotBelow s 0 := slotAbove_eq_slotBelow call.sp_eq (by decide)
  have apart : slotBelow s 0 ≠ slotBelow s 1 := mt slotBelow_inj.1 (by decide)
  rw [slot1] at value1
  rw [slot2] at value2
  have pulled1 : first = firstByte s.profile.byteOrder s.pc :=
    call.reads_stored (hram 1 (by simp)) List.lookup_cons_self value1
  have pulled2 : second = secondByte s.profile.byteOrder s.pc :=
    call.reads_stored (hram 0 (by simp))
      (by rw [List.lookup_cons, beq_false_of_ne apart]; exact List.lookup_cons_self) value2
  have resumed : joinWord t.profile.byteOrder first second = s.pc := by
    rw [profile_congr call.variant, pulled1, pulled2, joinWord_firstByte_secondByte]
  refine ⟨t, u, hcall, hreturn, ?pc, ?sp, ?a, ?x, ?y, ?p, fun b hb => ?mem⟩
  case pc => rw [back.pc_eq, resumed]
  case sp => rw [back.sp_eq, call.sp_eq, sub_add_cancel]
  case a => rw [back.marks, call.marks]; rfl
  case x => rw [back.marks, call.marks]; rfl
  case y => rw [back.marks, call.marks]; rfl
  case p => rw [back.p_eq, call.p_eq]
  case mem =>
    have unstored : b ∉ [slotBelow s 1, slotBelow s 0] := mt (List.Perm.swap ..).mem_iff.1 hb
    calc
      byteAt u b = byteAt t b := back.stores.byteAt_of_not_mem List.not_mem_nil
      _ = byteAt s b := call.stores.byteAt_of_not_mem unstored

end Sys2Proof.Machine
end

section
/-! PROOFS. Taking an event with pushes and returning from it: BRK (O57) and RTI (O58). -/

namespace Sys2Proof.Machine

open Config

theorem entryPush_of_ne_reset {e : Entry} (he : e ≠ .reset) : entryPush e = push := by
  cases e with
  | reset => exact absurd rfl he
  | nmi => rfl
  | irq => rfl
  | brk => rfl

/-- The address that an entry pushes: BRK alone increments `PC` (R413). -/
def entryReturn (e : Entry) (pc : Word) : Word := if e = .brk then pc + 1 else pc

/-- The bytes that an entry of profile NMOS6502 pushes, the latest first (R411). -/
def entryStores (e : Entry) (s : State) : List (Word × Byte) :=
  [(slotBelow s 2, pushedStatus nmos e s.p), (slotBelow s 1, lo (entryReturn e s.pc)),
    (slotBelow s 0, hi (entryReturn e s.pc))]

theorem not_mem_entryStores (e : Entry) (s : State) {a : Word} (ha : hi a ≠ 0x01) :
    a ∉ (entryStores e s).map Prod.fst := by
  simp [entryStores, ne_slotBelow ha s]

/-- Cycles 2 to 7 of an entry that pushes, in profile NMOS6502 (R411 to R413). -/
theorem enter_busRun {e : Entry} {s t : State} (he : e ≠ .reset) (hv : s.variant = .nmos6502) (h : enter e s = .ok t) :
    ∃ low high, BusRun s t (wordOf high low) (s.sp - 3) (withFlag .i true s.p)
        [(s.pc, .read), (slotBelow s 0, .write), (slotBelow s 1, .write), (slotBelow s 2, .write),
          (vectorOf nmos e, .read), (vectorOf nmos e + 1, .read)] (entryStores e s) ∧
      ReadsAs s (vectorOf nmos e) low ∧ ReadsAs s (vectorOf nmos e + 1) high := by
  simp only [enter, profile_nmos hv, entryPushes_nmos, entryPush_of_ne_reset he, entryStatus_nmos, entryFlipFlops_nmos,
    bind_eq_ok, pure_eq, Except.ok.injEq, Prod.exists] at h
  obtain ⟨s1, h1, s4, ⟨s2, h2, s3, h3, h4⟩, low, s5, h5, high, s6, h6, rfl⟩ := h
  have first := (BusRun.refl s).dummyRead h1
  have run1 : BusRun s (if e = .brk then { s1 with pc := s1.pc + 1 } else s1) (entryReturn e s.pc) s.sp s.p
      [(s.pc, .read)] [] := by
    rw [entryReturn, first.pc_eq]
    split
    · exact first.setPc _
    · exact first
  rw [run1.pc_eq] at h2
  have run2 := run1.zeroBelow.push h2
  rw [run2.pc_eq] at h3
  have run3 := run2.push h3
  rw [run3.p_eq] at h4
  have run4 := run3.push h4
  have outside : hi (vectorOf nmos e) ≠ 0x01 ∧ hi (vectorOf nmos e + 1) ≠ 0x01 := by cases e <;> decide
  obtain ⟨run5, value5⟩ := run4.memRead h5 (not_mem_entryStores e s outside.1)
  rw [run5.p_eq] at h6
  obtain ⟨run6, value6⟩ := (run5.setP _).memRead h6 (not_mem_entryStores e s outside.2)
  exact ⟨low, high, run6.setPc _, value5, value6⟩

/-- Cycles 2 to 6 of RTI in profile NMOS6502 (R294, R420). -/
theorem returnFromEvent_busRun {s t : State} (hv : s.variant = .nmos6502) (h : returnFromEvent s = .ok t) :
    ∃ v low high, BusRun s t (wordOf high low) (s.sp + 3) (statusFrom nmos v)
        [(s.pc, .read), (slotAbove s 0, .read), (slotAbove s 1, .read), (slotAbove s 2, .read), (slotAbove s 3, .read)]
        [] ∧
      ReadsAs s (slotAbove s 1) v ∧ ReadsAs s (slotAbove s 2) low ∧ ReadsAs s (slotAbove s 3) high := by
  simp only [returnFromEvent, byteOrder_nmos hv, bind_eq_ok, pure_eq, Except.ok.injEq, Prod.exists] at h
  obtain ⟨s1, h1, s2, h2, v, s3, h3, low, s4, h4, high, s5, h5, rfl⟩ := h
  obtain ⟨run3, status⟩ := (dummyReads_busRun h1 h2).pull h3
  rw [profile_nmos (run3.variant.trans hv)] at h4
  obtain ⟨run4, value4⟩ := (run3.setP _).pull h4
  obtain ⟨run5, value5⟩ := run4.pull h5
  exact ⟨v, low, high, run5.setPc _, status, value4, value5⟩

/-- Settles O57: BRK is the entry that increments `PC` and pushes the break copy. -/
theorem breakInstruction : Obligations.BreakInstruction := by
  intro s ⟨hv, hmap⟩
  obtain ⟨t, hexec⟩ := anInstructionStopsOnlyAtAnUnmappedAddress.2 .brk s hmap
  obtain ⟨l, h, run, low, high⟩ := enter_busRun (by decide) hv ((conclude_eq_next _ t).1 hexec)
  have stores := run.stores
  rw [entryStores, pushedStatus_nmos] at stores
  exact ⟨t, l, h, withFlag .i true s.p, hexec, run.marks, flagsSet_withFlag .i true s.p, stores, run.drives, low, high⟩

/-- Settles O58: the run of RTI, whose pulled status loses bits 5 and 4 (`statusFrom_nmos`). -/
theorem returnFromInterrupt : Obligations.ReturnFromInterrupt := by
  intro s ⟨hv, hmap⟩
  obtain ⟨t, hexec⟩ := anInstructionStopsOnlyAtAnUnmappedAddress.2 .rti s hmap
  obtain ⟨v, l, h, run, status, low, high⟩ := returnFromEvent_busRun hv ((conclude_eq_next _ t).1 hexec)
  rw [statusFrom_nmos] at run
  exact ⟨busMarks s t, v, l, h, hexec.trans (congrArg Host.Outcome.next run.eq_marked), rfl, run.drives, status, low, high⟩

end Sys2Proof.Machine
end

section
/-! PROOFS. Stack, flag and no-operation instructions (47_stack_flag_nop.md): the bus run of a push (O54) and of a pull (O55), the
change of a flag instruction (O56) and of a NOP (O48). -/

namespace Sys2Proof.Machine

open Config

/-! ### Pushes and pulls -/

/-- Cycles 2 and 3 of PHA and PHP (R310, R311): the dummy read at `PC`, then the push. -/
theorem pushing_busRun {v : Byte} {s t : State} (h : pushing v s = .next t) :
    BusRun s t s.pc (s.sp - 1) s.p [(s.pc, .read), (slotBelow s 0, .write)] [(slotBelow s 0, v)] := by
  simp only [pushing, conclude_eq_next, bind_eq_ok] at h
  obtain ⟨s1, h1, h2⟩ := h
  exact ((BusRun.refl s).dummyRead h1).zeroBelow.push h2

/-- Cycles 2 to 4 of PLA and PLP (R312, R313): a run without stores, at whose end the pulled byte goes to its register. -/
theorem pulling_busRun {f : Byte → State → State} {s t : State} (h : pulling f s = .next t) :
    ∃ v u, BusRun s u s.pc (s.sp + 1) s.p [(s.pc, .read), (slotAbove s 0, .read), (slotAbove s 1, .read)] [] ∧
      ReadsAs s (slotAbove s 1) v ∧ t = f v u := by
  simp only [pulling, conclude_eq_next, bind_eq_ok, pure_eq, Except.ok.injEq, Prod.exists] at h
  obtain ⟨s1, h1, s2, h2, v, u, h3, rfl⟩ := h
  obtain ⟨run, value⟩ := (dummyReads_busRun h1 h2).pull h3
  exact ⟨v, u, run, value, rfl⟩

/-- An instruction whose shape is a push completes on a complete map. -/
theorem pushing_gives {s : State} (hmap : AllMapped s) {i : Instr} {v : PushOp} (hi : shapeOf s.fixup i = .pushing v) :
    ∃ t, exec i s = .next t ∧ t = { busMarks s t with sp := s.sp - 1, mem := t.mem } ∧
      Stores s t [(slotBelow s 0, v.run s)] ∧ Drives s t [(s.pc, .read), (slotBelow s 0, .write)] := by
  obtain ⟨t, hexec⟩ := anInstructionStopsOnlyAtAnUnmappedAddress.2 i s hmap
  have shape := exec_shape i s
  rw [hi, hexec] at shape
  have run := pushing_busRun shape.symm
  exact ⟨t, hexec, run.marks, run.stores, run.drives⟩

/-- An instruction whose shape is a pull completes on a complete map: it makes its change where marks and `S` alone differ. -/
theorem pulling_gives {s : State} (hmap : AllMapped s) {i : Instr} {f : PullOp} (hi : shapeOf s.fixup i = .pulling f) :
    ∃ v u, exec i s = .next (f.run v { busMarks s u with sp := s.sp + 1 }) ∧ ReadsAs s (slotAbove s 1) v ∧
      Drives s u [(s.pc, .read), (slotAbove s 0, .read), (slotAbove s 1, .read)] := by
  obtain ⟨t, hexec⟩ := anInstructionStopsOnlyAtAnUnmappedAddress.2 i s hmap
  have shape := exec_shape i s
  rw [hi, hexec] at shape
  obtain ⟨v, u, run, value, rfl⟩ := pulling_busRun shape.symm
  exact ⟨v, u, hexec.trans (congrArg (fun w => Host.Outcome.next (f.run v w)) run.eq_marked), value, run.drives⟩

/-- Settles O54: both instructions are pushes, PHP of the break copy of `P`. -/
theorem pushInstructions : Obligations.PushInstructions := by
  intro s hmap
  exact List.forall_iff_forall_mem.1 ⟨pushing_gives (v := .pha) hmap rfl, pushing_gives (v := .php) hmap rfl⟩

/-- Settles O55: both instructions are pulls; PLA loads `A`, PLP loads `P` without bits 5 and 4 (`statusFrom_nmos`). -/
theorem pullInstructions : Obligations.PullInstructions := by
  intro s ⟨hv, hmap⟩
  refine ⟨?pla, ?plp⟩
  case pla =>
    obtain ⟨v, u, hexec, value, drives⟩ := pulling_gives (i := .pla) (f := .pla) hmap rfl
    exact ⟨busMarks s u, v, setZN v s.p, hexec, rfl, flagsSet_setZN v s.p, value, drives⟩
  case plp =>
    obtain ⟨v, u, hexec, value, drives⟩ := pulling_gives (i := .plp) (f := .plp) hmap rfl
    have status : statusFrom s.profile v = (v &&& 0xCF) ||| 0x20 := by
      rw [profile_nmos hv]
      exact statusFrom_nmos v
    refine ⟨busMarks s u, v, ?_, rfl, value, drives⟩
    rw [← status]
    exact hexec

/-! ### Flag instructions -/

theorem withFlag_changes (s : State) (f : Flag) (v : Bool) :
    Changes s (fun u => { u with p := withFlag f v u.p }) (fun u => u) [(f, v)] :=
  ⟨_, flagsSet_withFlag f v s.p, fun _ => rfl⟩

/-- Settles O56: each of the seven is an implied instruction that writes its flag. -/
theorem flagInstructions : Obligations.FlagInstructions := by
  intro s hmap
  have writes {i : Instr} {op : ImpliedOp} (hi : shapeOf s.fixup i = .implied op) {f : Flag} {v : Bool}
      (hop : op.run = fun u => { u with p := withFlag f v u.p }) : ImpliedGives s i (fun u => u) [(f, v)] :=
    impliedGives_of_changes hmap hi (hop ▸ withFlag_changes s f v)
  exact List.forall_iff_forall_mem.1
    ⟨writes rfl rfl, writes rfl rfl, writes rfl rfl, writes rfl rfl, writes rfl rfl, writes rfl rfl, writes rfl rfl⟩

/-! ### No operation -/

theorem nop_changes (s : State) : Changes s (fun u => u) (fun u => u) [] :=
  ⟨s.p, ⟨fun _ => rfl, rfl⟩, fun _ => rfl⟩

/-- Settles O48: after the bus cycles of its mode a NOP changes nothing (R321, R350). -/
theorem noOperations : Obligations.NoOperations := by
  intro s b m w hs
  have hmap : AllMapped s := hs.2
  have implied {i : Instr} (hi : shapeOf s.fixup i = .implied .nop) : ImpliedGives s i (fun u => u) [] :=
    impliedGives_of_changes hmap hi (nop_changes s)
  have immediate {i : Instr} (hi : shapeOf s.fixup i = .immediate .discard m) : exec i s = .next s := by
    rw [exec_shape, hi]
    rfl
  refine ⟨?implied, ?immediate, ?memory⟩
  case implied =>
    exact List.forall_iff_forall_mem.1
      ⟨implied rfl, implied rfl, implied rfl, implied rfl, implied rfl, implied rfl, implied rfl⟩
  case immediate =>
    exact List.forall_iff_forall_mem.1 ⟨immediate rfl, immediate rfl, immediate rfl, immediate rfl, immediate rfl⟩
  case memory =>
    exact readGives_forms (f := .discard) hs
      ⟨rfl, rfl, rfl, rfl, rfl, rfl, rfl, rfl, rfl, rfl, rfl, rfl, rfl, rfl, rfl, rfl⟩ fun _ => nop_changes s

end Sys2Proof.Machine
end

section
/-! PROOFS. How many cycles an instruction takes (O22): the cycles of each shape, the last of them by chance of a page crossing or of
a branch taken, against the opcode table (42_sequencer_dispatch.md R218, R471). -/

namespace Sys2Proof.Machine

open Config

/-! ### Spans of cycles -/

/-- From `s` to `t` the bus counted `n` cycles, and at most `extra` more. -/
structure Spends (n extra : Nat) (s t : State) : Prop where
  least : s.cycles + n ≤ t.cycles
  most : t.cycles ≤ s.cycles + n + extra

theorem Spends.refl (s : State) : Spends 0 0 s s := ⟨le_rfl, le_rfl⟩

theorem Spends.trans {n e n' e' : Nat} {s t u : State} (h : Spends n e s t) (k : Spends n' e' t u) :
    Spends (n + n') (e + e') s u := by
  obtain ⟨hleast, hmost⟩ := h
  obtain ⟨kleast, kmost⟩ := k
  constructor <;> omega

theorem Spends.of_cycles {n : Nat} {s t : State} (h : t.cycles = s.cycles + n) : Spends n 0 s t := ⟨h.ge, h.le⟩

theorem Drives.spends {l : List (Word × Action)} {s t : State} (h : Drives s t l) : Spends l.length 0 s t := .of_cycles h.1

theorem Reads.spends {l : List Word} {s t : State} (h : Reads s t l) : Spends l.length 0 s t := by
  have drives := h.drives.spends
  rwa [List.length_map] at drives

theorem RegsOnly.spends {s t : State} (h : RegsOnly s t) : Spends 0 0 s t := .of_cycles h.cycles

theorem dummyRead_spends {a : Word} {s t : State} (h : dummyRead a s = .ok t) : Spends 1 0 s t := (dummyRead_reads h).spends

theorem memRead_spends {a : Word} {v : Byte} {s t : State} (h : memRead a s = .ok (v, t)) : Spends 1 0 s t :=
  (memRead_reads h).1.spends

theorem memWrite_spends {a : Word} {v : Byte} {s t : State} (h : memWrite a v s = .ok t) : Spends 1 0 s t :=
  .of_cycles (memWrite_wrote h).cycles

theorem fetchByte_spends {v : Byte} {s t : State} (h : fetchByte s = .ok (v, t)) : Spends 1 0 s t := by
  obtain ⟨r, -, -, rfl⟩ := (fetchByte_ok_iff s t v).1 h
  exact .of_cycles (readCycle_cycles r s.pc s)

/-! ### The resolver -/

/-- The fixup cycles that always happen (R152). -/
def fixupCycles : Fixup → Nat
  | .always => 1
  | .onCross => 0
  | .notApplicable => 0

/-- The fixup cycles that a page crossing adds (R152). -/
def fixupExtra : Fixup → Nat
  | .always => 0
  | .onCross => 1
  | .notApplicable => 0

theorem fixupRead_spends {f : Fixup} {base : Word} {i : Byte} {s t : State} (h : fixupRead f base i s = .ok t) :
    Spends (fixupCycles f) (fixupExtra f) s t := by
  have span := (fixupRead_reads h).spends
  cases f with
  | always => exact span
  | notApplicable => exact span
  | onCross =>
    obtain ⟨least, most⟩ := span
    have : (if fixupHappens .onCross base i then [uncorrected base i] else []).length ≤ 1 := by split <;> simp
    exact ⟨by simp only [fixupCycles]; omega, by simp only [fixupCycles, fixupExtra]; omega⟩

theorem indexed_spends {f : Fixup} {base ea : Word} {i : Byte} {s t : State} (h : indexed f base i s = .ok (ea, t)) :
    Spends (fixupCycles f) (fixupExtra f) s t := by
  simp only [indexed, bind_eq_ok, pure_eq, Except.ok.injEq, Prod.mk.injEq] at h
  obtain ⟨u, hu, -, rfl⟩ := h
  exact fixupRead_spends hu

/-- The cycles of an address computation (R145 to R155). -/
def Mem.cycles : Mem → Nat
  | .zp _ => 0
  | .zpx _ => 1
  | .zpy _ => 1
  | .abs _ => 0
  | .abx f _ => fixupCycles f
  | .aby f _ => fixupCycles f
  | .izx _ => 3
  | .izy f _ => 2 + fixupCycles f

/-- The cycles that a page crossing adds to it. -/
def Mem.extra : Mem → Nat
  | .abx f _ => fixupExtra f
  | .aby f _ => fixupExtra f
  | .izy f _ => fixupExtra f
  | _ => 0

theorem effectiveAddress_spends {o : Mem} {ea : Word} {s t : State} (h : effectiveAddress o s = .ok (ea, t)) :
    Spends o.cycles o.extra s t := by
  cases o <;> simp only [effectiveAddress, bind_eq_ok, pure_eq, Except.ok.injEq, Prod.exists, Prod.mk.injEq] at h
  case zp => obtain ⟨-, rfl⟩ := h; exact .refl s
  case abs => obtain ⟨-, rfl⟩ := h; exact .refl s
  case zpx => obtain ⟨u, hu, -, rfl⟩ := h; exact dummyRead_spends hu
  case zpy => obtain ⟨u, hu, -, rfl⟩ := h; exact dummyRead_spends hu
  case abx => exact indexed_spends h
  case aby => exact indexed_spends h
  case izx =>
    obtain ⟨u, hu, hz⟩ := h
    exact (dummyRead_spends hu).trans (zeroPagePointer_reads hz).1.spends
  case izy f b =>
    obtain ⟨base, u, hz, hi⟩ := h
    have span := (zeroPagePointer_reads hz).1.spends.trans (indexed_spends hi)
    rwa [Nat.zero_add] at span

/-! ### The shapes -/

/-- The cycles that an instruction takes after its fetch, before any that is by chance. -/
def Shape.cycles : Shape → Nat
  | .reading _ o => o.cycles + 1
  | .calculating _ o => o.cycles + 1
  | .calculatingImm _ _ => 0
  | .storing _ o => o.cycles + 1
  | .modifying _ o => o.cycles + 3
  | .implied _ => 1
  | .immediate _ _ => 0
  | .branch _ _ _ => 0
  | .pushing _ => 2
  | .pulling _ => 3
  | .unstable _ f _ => fixupCycles f + 1
  | .shaIzy _ => 4
  | .tas _ => 2
  | .jmpAbs _ => 0
  | .jmpInd _ => 2
  | .jsr _ => 4
  | .rts => 5
  | .rti => 5
  | .brk => 6
  | .jam => 4

/-- The cycles that a page crossing, or a branch taken, can add. -/
def Shape.extra : Shape → Nat
  | .reading _ o => o.extra
  | .calculating _ o => o.extra
  | .storing _ o => o.extra
  | .modifying _ o => o.extra
  | .branch _ _ _ => 2
  | .unstable _ f _ => fixupExtra f
  | _ => 0

theorem reading_spends {f : Byte → State → State} {o : Mem} {s t : State} (hf : ∀ m u, RegsOnly u (f m u))
    (h : reading f o s = .next t) : Spends (o.cycles + 1) o.extra s t := by
  obtain ⟨m, u, hu, rfl⟩ := (reading_eq_next_iff f o s t).1 h
  obtain ⟨ea, v, hv, hm⟩ := (readOperand_ok_iff o m s u).1 hu
  exact ((effectiveAddress_spends hv).trans (memRead_spends hm)).trans (hf m u).spends

theorem storing_spends {v : Byte} {o : Mem} {s t : State} (h : storing v o s = .next t) :
    Spends (o.cycles + 1) o.extra s t := by
  obtain ⟨ea, u, hu, hw⟩ := (storing_eq_next_iff v o s t).1 h
  exact (effectiveAddress_spends hu).trans (memWrite_spends hw)

theorem secondAccess_spends {order : ModifyWriteOrder} {ea : Word} {m : Byte} {s t : State}
    (h : secondAccess order ea m s = .ok t) : Spends 1 0 s t := by
  cases order with
  | writeOldValue => exact memWrite_spends h
  | readAgain => exact dummyRead_spends h

theorem modifying_spends {f : ModifyOp} {o : Mem} {s t : State} (h : modifying f.run o s = .next t) :
    Spends (o.cycles + 3) o.extra s t := by
  obtain ⟨ea, u, m, v, w, hu, hm, hw, ht⟩ := (modifying_eq_next_iff f.run o s t).1 h
  have reads := (effectiveAddress_spends hu).trans (memRead_spends hm)
  exact ((reads.trans (secondAccess_spends hw)).trans (f.regsOnly m w).spends).trans (memWrite_spends ht)

theorem implied_spends {f : ImpliedOp} {s t : State} (h : implied f.run s = .next t) : Spends 1 0 s t := by
  obtain ⟨u, hu, rfl⟩ := (implied_eq_next_iff f.run s t).1 h
  exact (dummyRead_spends hu).trans (f.regsOnly u).spends

/-- A branch takes no cycle of its own, one, or two (R290). -/
theorem branch_spends {taken : Bool} {d : Byte} {s t : State} (h : branch taken d s = .next t) : Spends 0 2 s t := by
  simp only [branch, conclude_eq_next] at h
  split at h
  · simp only [bind_eq_ok] at h
    obtain ⟨u, hu, h⟩ := h
    have first := dummyRead_spends hu
    split at h
    · cases h
      exact ⟨by have := first.least; dsimp only; omega, by have := first.most; dsimp only; omega⟩
    · simp only [bind_eq_ok, pure_eq, Except.ok.injEq] at h
      obtain ⟨v, hv, rfl⟩ := h
      have both := first.trans (dummyRead_spends hv)
      exact ⟨by have := both.least; dsimp only; omega, by have := both.most; dsimp only; omega⟩
  · cases h
    exact ⟨le_rfl, by omega⟩

theorem unstableStore_spends {f : Fixup} {reg : Byte} {base : Word} {i : Byte} {s t : State}
    (h : unstableStore f reg base i s = .ok t) : Spends (fixupCycles f + 1) (fixupExtra f) s t := by
  simp only [unstableStore, bind_eq_ok] at h
  obtain ⟨u, hu, hw⟩ := h
  exact (fixupRead_spends hu).trans (memWrite_spends hw)

theorem jam_spends {s t : State} (h : jam s = .next t) : Spends 4 0 s t := by
  simp only [jam, conclude_eq_next, bind_eq_ok, pure_eq, Except.ok.injEq] at h
  obtain ⟨s1, h1, s2, h2, s3, h3, s4, h4, rfl⟩ := h
  obtain ⟨least, most⟩ :=
    (((dummyRead_spends h1).trans (dummyRead_spends h2)).trans (dummyRead_spends h3)).trans (dummyRead_spends h4)
  exact ⟨least, most⟩

/-- In profile NMOS6502 each shape takes its cycles. -/
theorem Shape.run_spends {sh : Shape} {s t : State} (hv : s.variant = .nmos6502) (h : sh.run s = .next t) :
    Spends sh.cycles sh.extra s t := by
  cases sh <;> simp only [Shape.run] at h
  case reading f o => exact reading_spends f.regsOnly h
  case calculating f o => exact reading_spends f.regsOnly ((calculating_nmos f.run o hv).symm.trans h)
  case calculatingImm f m =>
    rw [calculatingImm_nmos f.run m hv] at h
    cases h
    exact (f.regsOnly m s).spends
  case storing v o => exact storing_spends h
  case modifying f o => exact modifying_spends h
  case implied f => exact implied_spends h
  case immediate f m => cases h; exact (f.regsOnly m s).spends
  case branch f v d => exact branch_spends h
  case pushing v => exact (pushing_busRun h).drives.spends
  case pulling f =>
    obtain ⟨v, u, run, -, rfl⟩ := pulling_busRun h
    exact run.drives.spends.trans (f.regsOnly v u).spends
  case unstable r f w => exact unstableStore_spends ((conclude_eq_next _ _).1 h)
  case shaIzy b =>
    simp only [execShaIzy, conclude_eq_next, bind_eq_ok, Prod.exists] at h
    obtain ⟨base, u, hz, hs⟩ := h
    rw [fixup_nmos ((zeroPagePointer_path hz).variant.trans hv)] at hs
    exact (zeroPagePointer_reads hz).1.spends.trans (unstableStore_spends hs)
  case tas w =>
    rw [execTasAby, fixup_nmos hv, conclude_eq_next] at h
    exact (RegsOnly.of_sp s _).spends.trans (unstableStore_spends h)
  case jmpAbs w => cases h; exact (RegsOnly.of_pc s w).spends
  case jmpInd w =>
    obtain ⟨_, _, run, -⟩ := execJmpInd_busRun hv h
    exact run.drives.spends
  case jsr w =>
    obtain ⟨_, run, -⟩ := execJsrAbs_busRun h
    exact run.drives.spends
  case rts =>
    obtain ⟨_, _, run, -⟩ := execRts_busRun h
    exact run.drives.spends
  case rti =>
    obtain ⟨_, _, _, run, -⟩ := returnFromEvent_busRun hv ((conclude_eq_next _ _).1 h)
    exact run.drives.spends
  case brk =>
    obtain ⟨_, _, run, -⟩ := enter_busRun (by decide) hv ((conclude_eq_next _ _).1 h)
    exact run.drives.spends
  case jam => exact jam_spends h

/-! ### The opcode table -/

/-- Each row of the table is its fetch with the cycles of its shape (R471). -/
theorem cycles_tabled (i : Instr) :
    fetchLength (opcodeOf i) + (shapeOf nmosFixup i).cycles = baseCycles.getD (opcodeOf i).toNat 0 ∧
      (shapeOf nmosFixup i).extra = extraCycles.getD (opcodeOf i).toNat 0 := by
  cases i <;> simp only [opcodeOf, encode, List.headD_cons] <;> exact ⟨rfl, rfl⟩

/-- No row is outside R218's bounds. -/
theorem tabledCycles_bounds (op : Byte) :
    2 ≤ baseCycles.getD op.toNat 0 ∧ baseCycles.getD op.toNat 0 + extraCycles.getD op.toNat 0 ≤ 8 := by
  revert op; decide

theorem fetchLength_pos (op : Byte) : 1 ≤ fetchLength op := by
  have bounds := lengthOf_bounds op
  rw [fetchLength]
  split <;> omega

/-- The operand fetch takes one cycle for each byte after the opcode that it reads (R141, R292). -/
theorem fetchOperands_spends {s t : State} {i : Instr} (hv : s.variant = .nmos6502)
    (h : fetchOperands decodeOp s = .ok (i, t)) : Spends (fetchLength s.ir - 1) 0 s t := by
  have bounds := lengthOf_bounds s.ir
  have jsr3 : lengthOf jsrOpcode = 3 := by decide
  rcases (fetchOperands_ok_iff s t i hv).1 h with
    ⟨h1, -, rfl⟩ | ⟨h1, b, u, hu, ⟨h2, -, rfl⟩ | ⟨-, hj, -, rfl⟩ | ⟨h2, hj, c, hc, -⟩⟩
  · have n1 : fetchLength t.ir = 1 := by
      rw [fetchLength, if_neg (fun e => by rw [e, jsr3] at h1; omega), h1]
    rw [n1]
    exact .refl t
  · have n2 : fetchLength s.ir = 2 := by rw [fetchLength, h2, ite_self]
    rw [n2]
    exact fetchByte_spends hu
  · have n2 : fetchLength s.ir = 2 := if_pos hj
    rw [n2]
    exact fetchByte_spends hu
  · have n3 : fetchLength s.ir = 3 := by rw [fetchLength, if_neg hj]; omega
    rw [n3]
    exact (fetchByte_spends hu).trans (fetchByte_spends hc)

/-- Settles O22: the opcode fetch, the operand fetch and the shape of the instruction add up to its row of the table. -/
theorem cycleCountsFollowTheOpcodeTable : Obligations.CycleCountsFollowTheOpcodeTable := by
  intro s t hready h
  obtain ⟨u, i, w, hu, hf, hx⟩ := step_executes hready h
  have hvu : u.variant = .nmos6502 := by rw [(fetchOpcode_keeps hu).variant, applySo_variant, hready.2.1]
  have hvp : ({ u with pc := u.pc + 1 } : State).variant = .nmos6502 := hvu
  have operands := fetchOperands_writesOnly hvp hf
  have hvw : w.variant = .nmos6502 := operands.variant.trans hvu
  have hop : opcodeOf i = u.ir := fetchOperands_opcodeOf (s := { u with pc := u.pc + 1 }) hvp hf
  have hir : t.ir = u.ir := (exec_writesOnly hvw hx).ir.trans operands.ir
  have opcode : Spends 1 0 s { u with pc := u.pc + 1 } := by
    obtain ⟨r, v, -, rfl⟩ := fetchOpcode_syncCycle hu
    refine .of_cycles ?_
    rw [syncCycle_eq, applySo_cycles]
  have fetch : Spends (fetchLength u.ir - 1) 0 { u with pc := u.pc + 1 } w :=
    fetchOperands_spends (s := { u with pc := u.pc + 1 }) hvp hf
  have run : Spends _ _ w t := Shape.run_spends hvw (by rw [← exec_shape_nmos i hvw, hx])
  obtain ⟨base, extra⟩ := cycles_tabled i
  obtain ⟨two, eight⟩ := tabledCycles_bounds u.ir
  obtain ⟨least, most⟩ := (opcode.trans fetch).trans run
  have length := fetchLength_pos u.ir
  rw [hop] at base extra
  rw [hir]
  simp only [cyclesOf]
  omega

end Sys2Proof.Machine
end

section
/-! PROOFS. A masked IRQ has no influence on a step (O16): every operation answers from a state with the IRQ latch set as it answers
without, with the latch still set, and with `I` set no event is selected for it (60_exceptions.md R405, R406). -/

namespace Sys2Proof.Machine

open Config

/-! ### Two runs side by side -/

/-- `s` with the IRQ latch set. -/
def irqLatched (s : State) : State := { s with pendIrq := true }

/-- A bus sequence `x'` answers as `x` does, with `φ` applied to the answer, and fails as `x` does. -/
def Mirrors {α : Type} (φ : α → α) (x' x : Except Fault α) : Prop := x' = φ <$> x

/-- The IRQ latch set in the state that comes with a value. -/
def latchedPair {α : Type} (q : α × State) : α × State := (q.1, irqLatched q.2)

theorem Mirrors.ok {α : Type} {φ : α → α} {a' a : α} (h : a' = φ a) : Mirrors φ (.ok a') (.ok a) := congrArg Except.ok h

theorem Mirrors.bind {α β : Type} {φ : α → α} {ψ : β → β} {x' x : Except Fault α} {k' k : α → Except Fault β}
    (hx : Mirrors φ x' x) (hk : ∀ a, Mirrors ψ (k' (φ a)) (k a)) : Mirrors ψ (x' >>= k') (x >>= k) := by
  unfold Mirrors at hx
  subst hx
  cases x with
  | ok a => exact hk a
  | error f => rfl

/-- A sequence that completes is mirrored by one that completes. -/
theorem Mirrors.eq_ok {α : Type} {φ : α → α} {x' x : Except Fault α} {a : α} (h : Mirrors φ x' x) (hx : x = .ok a) :
    x' = .ok (φ a) := by
  rw [hx] at h
  exact h

theorem Mirrors.conclude {x' x : Except Fault State} {t : State} (h : Mirrors irqLatched x' x)
    (hx : Machine.conclude x = .next t) : Machine.conclude x' = .next (irqLatched t) :=
  (conclude_eq_next ..).2 (h.eq_ok ((conclude_eq_next ..).1 hx))

/-! ### Bus cycles and the stack -/

theorem readCycle_irqLatched (r : Region) (a : Word) (s : State) :
    readCycle r a (irqLatched s) = irqLatched (readCycle r a s) := by
  rw [readCycle_eq, readCycle_eq]
  rfl

theorem writeCycle_irqLatched (r : Region) (a : Word) (v : Byte) (s : State) :
    writeCycle r a v (irqLatched s) = irqLatched (writeCycle r a v s) := by
  rw [writeCycle_eq, writeCycle_eq]
  rfl

theorem memRead_mirrors (a : Word) (s : State) : Mirrors latchedPair (memRead a (irqLatched s)) (memRead a s) := by
  have hr : (irqLatched s).regionAt a = s.regionAt a := rfl
  rw [memRead, memRead, hr]
  cases s.regionAt a with
  | none => rfl
  | some r => exact .ok (congrArg (Prod.mk _) (readCycle_irqLatched r a s))

theorem memWrite_mirrors (a : Word) (v : Byte) (s : State) :
    Mirrors irqLatched (memWrite a v (irqLatched s)) (memWrite a v s) := by
  have hr : (irqLatched s).regionAt a = s.regionAt a := rfl
  rw [memWrite, memWrite, hr]
  cases s.regionAt a with
  | none => rfl
  | some r => exact .ok (writeCycle_irqLatched r a v s)

theorem dummyRead_mirrors (a : Word) (s : State) : Mirrors irqLatched (dummyRead a (irqLatched s)) (dummyRead a s) :=
  .bind (memRead_mirrors a s) fun _ => .ok rfl

theorem fetchByte_mirrors (s : State) : Mirrors latchedPair (fetchByte (irqLatched s)) (fetchByte s) :=
  .bind (memRead_mirrors s.pc s) fun _ => .ok rfl

theorem push_mirrors (v : Byte) (s : State) : Mirrors irqLatched (push v (irqLatched s)) (push v s) :=
  .bind (memWrite_mirrors s.stackAddr v s) fun _ => .ok rfl

theorem pull_mirrors (s : State) : Mirrors latchedPair (pull (irqLatched s)) (pull s) :=
  memRead_mirrors _ { s with sp := s.sp + 1 }

theorem dummyPush_mirrors (s : State) : Mirrors irqLatched (dummyPush (irqLatched s)) (dummyPush s) :=
  .bind (dummyRead_mirrors s.stackAddr s) fun _ => .ok rfl

theorem spareReads_mirrors (n : Nat) (s : State) :
    Mirrors irqLatched (spareReads n (irqLatched s)) (spareReads n s) := by
  induction n generalizing s with
  | zero => exact .ok rfl
  | succ n ih => exact .bind (dummyRead_mirrors _ s) ih

/-! ### Entry sequences and return -/

theorem entryPush_mirrors (e : Entry) (v : Byte) (s : State) :
    Mirrors irqLatched (entryPush e v (irqLatched s)) (entryPush e v s) := by
  cases e with
  | reset => exact dummyPush_mirrors s
  | nmi => exact push_mirrors v s
  | irq => exact push_mirrors v s
  | brk => exact push_mirrors v s

theorem pushedByte_irqLatched (prof : Profile) (e : Entry) (s : State) (x : Pushed) :
    pushedByte prof e (irqLatched s) x = pushedByte prof e s x := by
  cases x <;> rfl

theorem entryPushes_mirrors (prof : Profile) (e : Entry) (l : List Pushed) (s : State) :
    Mirrors irqLatched (entryPushes prof e l (irqLatched s)) (entryPushes prof e l s) := by
  induction l generalizing s with
  | nil => exact .ok rfl
  | cons x l ih =>
    rw [entryPushes, entryPushes, pushedByte_irqLatched]
    exact .bind (entryPush_mirrors e _ s) ih

theorem enter_mirrors (e : Entry) (s : State) : Mirrors irqLatched (enter e (irqLatched s)) (enter e s) := by
  refine .bind (dummyRead_mirrors s.pc s) fun s1 => ?_
  have hpc : (if e = .brk then { irqLatched s1 with pc := (irqLatched s1).pc + 1 } else irqLatched s1) =
      irqLatched (if e = .brk then { s1 with pc := s1.pc + 1 } else s1) := by split <;> rfl
  rw [hpc]
  refine .bind (entryPushes_mirrors _ e _ _) fun s2 => .bind (memRead_mirrors _ s2) fun q => ?_
  let u := { q.2 with p := entryStatus s.profile q.2.p, other := entryFlipFlops s.profile q.2.other }
  exact .bind (memRead_mirrors _ u) fun _ => .ok rfl

theorem returnFromEvent_mirrors (s : State) :
    Mirrors irqLatched (returnFromEvent (irqLatched s)) (returnFromEvent s) :=
  .bind (dummyRead_mirrors s.pc s) fun s1 => .bind (dummyRead_mirrors s1.stackAddr s1) fun s2 =>
    .bind (pull_mirrors s2) fun q => .bind (pull_mirrors { q.2 with p := statusFrom q.2.profile q.1 }) fun r =>
      .bind (pull_mirrors r.2) fun _ => .ok rfl

/-! ### The resolver and the access kinds -/

theorem fixupRead_mirrors (f : Fixup) (base : Word) (i : Byte) (s : State) :
    Mirrors irqLatched (fixupRead f base i (irqLatched s)) (fixupRead f base i s) := by
  unfold fixupRead
  split
  · exact dummyRead_mirrors _ s
  · exact .ok rfl

theorem indexed_mirrors (f : Fixup) (base : Word) (i : Byte) (s : State) :
    Mirrors latchedPair (indexed f base i (irqLatched s)) (indexed f base i s) :=
  .bind (fixupRead_mirrors f base i s) fun _ => .ok rfl

theorem zeroPagePointer_mirrors (p : Byte) (s : State) :
    Mirrors latchedPair (zeroPagePointer p (irqLatched s)) (zeroPagePointer p s) :=
  .bind (memRead_mirrors _ s) fun q => .bind (memRead_mirrors _ q.2) fun _ => .ok rfl

theorem effectiveAddress_mirrors (o : Mem) (s : State) :
    Mirrors latchedPair (effectiveAddress o (irqLatched s)) (effectiveAddress o s) := by
  cases o with
  | zp b => exact .ok rfl
  | zpx b => exact .bind (dummyRead_mirrors _ s) fun _ => .ok rfl
  | zpy b => exact .bind (dummyRead_mirrors _ s) fun _ => .ok rfl
  | abs w => exact .ok rfl
  | abx f w => exact indexed_mirrors f w s.x s
  | aby f w => exact indexed_mirrors f w s.y s
  | izx b => exact .bind (dummyRead_mirrors _ s) fun u => zeroPagePointer_mirrors _ u
  | izy f b => exact .bind (zeroPagePointer_mirrors b s) fun q => indexed_mirrors f _ _ q.2

theorem readOperand_mirrors (o : Mem) (s : State) :
    Mirrors latchedPair (readOperand o (irqLatched s)) (readOperand o s) :=
  .bind (effectiveAddress_mirrors o s) fun q => memRead_mirrors q.1 q.2

theorem writeOperand_mirrors (o : Mem) (v : Byte) (s : State) :
    Mirrors irqLatched (writeOperand o v (irqLatched s)) (writeOperand o v s) :=
  .bind (effectiveAddress_mirrors o s) fun q => memWrite_mirrors q.1 v q.2

theorem secondAccess_mirrors (order : ModifyWriteOrder) (ea : Word) (m : Byte) (s : State) :
    Mirrors irqLatched (secondAccess order ea m (irqLatched s)) (secondAccess order ea m s) := by
  cases order with
  | writeOldValue => exact memWrite_mirrors ea m s
  | readAgain => exact dummyRead_mirrors ea s

theorem unstableStore_mirrors (f : Fixup) (reg : Byte) (base : Word) (i : Byte) (s : State) :
    Mirrors irqLatched (unstableStore f reg base i (irqLatched s)) (unstableStore f reg base i s) :=
  .bind (fixupRead_mirrors f base i s) fun u => memWrite_mirrors _ _ u

/-! ### Changes of registers -/

theorem ReadOp.run_irqLatched (f : ReadOp) (m : Byte) (u : State) :
    f.run m (irqLatched u) = irqLatched (f.run m u) := by
  cases f <;> rfl

theorem CalcOp.run_irqLatched (f : CalcOp) (m : Byte) (u : State) :
    f.run m (irqLatched u) = irqLatched (f.run m u) := by
  cases f <;> rfl

theorem ImmOp.run_irqLatched (f : ImmOp) (m : Byte) (u : State) :
    f.run m (irqLatched u) = irqLatched (f.run m u) := by
  cases f <;> rfl

theorem ModifyOp.run_irqLatched (f : ModifyOp) (m : Byte) (u : State) :
    f.run m (irqLatched u) = latchedPair (f.run m u) := by
  cases f <;> rfl

theorem ImpliedOp.run_irqLatched (f : ImpliedOp) (u : State) : f.run (irqLatched u) = irqLatched (f.run u) := by
  cases f <;> rfl

theorem PullOp.run_irqLatched (f : PullOp) (m : Byte) (u : State) :
    f.run m (irqLatched u) = irqLatched (f.run m u) := by
  cases f <;> rfl

theorem StoreOp.run_irqLatched (v : StoreOp) (s : State) : v.run (irqLatched s) = v.run s := by cases v <;> rfl

theorem PushOp.run_irqLatched (v : PushOp) (s : State) : v.run (irqLatched s) = v.run s := by cases v <;> rfl

theorem UnstableOp.run_irqLatched (r : UnstableOp) (s : State) : r.run (irqLatched s) = r.run s := by
  cases r <;> rfl

/-! ### Instructions -/

theorem modifyOperand_mirrors (o : Mem) (f : ModifyOp) (s : State) :
    Mirrors irqLatched (modifyOperand o f.run (irqLatched s)) (modifyOperand o f.run s) := by
  refine .bind (effectiveAddress_mirrors o s) fun q => .bind (memRead_mirrors q.1 q.2) fun r =>
    .bind (secondAccess_mirrors _ q.1 r.1 r.2) fun u => ?_
  show Mirrors irqLatched (memWrite q.1 (f.run r.1 (irqLatched u)).1 (f.run r.1 (irqLatched u)).2) _
  rw [f.run_irqLatched]
  exact memWrite_mirrors _ _ _

theorem branch_irqLatched {taken : Bool} {d : Byte} {s t : State} (h : branch taken d s = .next t) :
    branch taken d (irqLatched s) = .next (irqLatched t) := by
  refine Mirrors.conclude ?_ h
  cases taken with
  | false => exact .ok rfl
  | true =>
    refine .bind (dummyRead_mirrors s.pc s) fun u => ?_
    show Mirrors irqLatched (if hi (branchTarget s.pc d) == hi s.pc then _ else _)
      (if hi (branchTarget s.pc d) == hi s.pc then _ else _)
    split
    · exact .ok rfl
    · exact .bind (dummyRead_mirrors _ u) fun _ => .ok rfl

/-- No shape reads the IRQ latch, and none writes it. -/
theorem Shape.run_irqLatched {sh : Shape} {s t : State} (h : sh.run s = .next t) :
    sh.run (irqLatched s) = .next (irqLatched t) := by
  cases sh with
  | reading f o =>
    exact Mirrors.conclude (.bind (readOperand_mirrors o s) fun q => .ok (f.run_irqLatched q.1 q.2)) h
  | calculating f o =>
    exact Mirrors.conclude (.bind (readOperand_mirrors o s) fun q =>
      .bind (spareReads_mirrors _ q.2) fun u => .ok (f.run_irqLatched q.1 u)) h
  | calculatingImm f m =>
    exact Mirrors.conclude (.bind (spareReads_mirrors _ s) fun u => .ok (f.run_irqLatched m u)) h
  | storing v o =>
    rw [Shape.run, v.run_irqLatched]
    exact (writeOperand_mirrors o _ s).conclude h
  | modifying f o => exact (modifyOperand_mirrors o f s).conclude h
  | implied f =>
    exact Mirrors.conclude (.bind (dummyRead_mirrors s.pc s) fun u => .ok (f.run_irqLatched u)) h
  | immediate f m =>
    cases h
    exact congrArg Host.Outcome.next (f.run_irqLatched m s)
  | branch f v d => exact branch_irqLatched h
  | pushing v =>
    rw [Shape.run, v.run_irqLatched]
    exact Mirrors.conclude (.bind (dummyRead_mirrors s.pc s) fun u => push_mirrors _ u) h
  | pulling f =>
    exact Mirrors.conclude (.bind (dummyRead_mirrors s.pc s) fun u => .bind (dummyRead_mirrors u.stackAddr u) fun v =>
      .bind (pull_mirrors v) fun q => .ok (f.run_irqLatched q.1 q.2)) h
  | unstable r f w =>
    rw [Shape.run, r.run_irqLatched]
    exact (unstableStore_mirrors f _ w _ s).conclude h
  | shaIzy b =>
    exact Mirrors.conclude (.bind (zeroPagePointer_mirrors b s) fun q => unstableStore_mirrors _ _ _ _ q.2) h
  | tas w => exact (unstableStore_mirrors _ _ w _ { s with sp := s.a &&& s.x }).conclude h
  | jmpAbs w =>
    cases h
    rfl
  | jmpInd w =>
    exact Mirrors.conclude (.bind (memRead_mirrors w s) fun q => .bind (memRead_mirrors _ q.2) fun r =>
      .bind (spareReads_mirrors _ r.2) fun _ => .ok rfl) h
  | jsr w =>
    exact Mirrors.conclude (.bind (dummyRead_mirrors s.stackAddr s) fun u => .bind (push_mirrors _ u) fun v =>
      .bind (push_mirrors _ v) fun x => .bind (memRead_mirrors x.pc x) fun _ => .ok rfl) h
  | rts =>
    exact Mirrors.conclude (.bind (dummyRead_mirrors s.pc s) fun u => .bind (dummyRead_mirrors u.stackAddr u) fun v =>
      .bind (pull_mirrors v) fun q => .bind (pull_mirrors q.2) fun r =>
        .bind (dummyRead_mirrors _ { r.2 with pc := joinWord s.profile.byteOrder q.1 r.1 }) fun _ => .ok rfl) h
  | rti => exact (returnFromEvent_mirrors s).conclude h
  | brk => exact (enter_mirrors .brk s).conclude h
  | jam =>
    exact Mirrors.conclude (.bind (dummyRead_mirrors s.pc s) fun u => .bind (dummyRead_mirrors _ u) fun v =>
      .bind (dummyRead_mirrors _ v) fun x => .bind (dummyRead_mirrors _ x) fun _ => .ok rfl) h

theorem exec_irqLatched {i : Instr} {s t : State} (h : exec i s = .next t) :
    exec i (irqLatched s) = .next (irqLatched t) := by
  rw [exec_shape] at h ⊢
  exact Shape.run_irqLatched h

/-! ### The step -/

theorem applySo_irqLatched (s : State) : applySo (irqLatched s) = irqLatched (applySo s) := by
  have hso : (irqLatched s).pendSo = s.pendSo := rfl
  rw [applySo, applySo, hso]
  split <;> rfl

theorem syncRead_mirrors (s : State) : Mirrors latchedPair (syncRead (irqLatched s)) (syncRead s) :=
  .bind (memRead_mirrors s.pc (s.setSync .raised)) fun _ => .ok rfl

theorem fetchOpcode_mirrors (s : State) : Mirrors irqLatched (fetchOpcode (irqLatched s)) (fetchOpcode s) :=
  .bind (syncRead_mirrors s) fun _ => .ok rfl

theorem stallCycle_mirrors (s : State) : Mirrors irqLatched (stallCycle (irqLatched s)) (stallCycle s) :=
  .bind (syncRead_mirrors s) fun _ => .ok rfl

theorem fetchOperands_mirrors (table : OpcodeTable) (s : State) :
    Mirrors latchedPair (fetchOperands table (irqLatched s)) (fetchOperands table s) := by
  have hir (u : State) : (irqLatched u).ir = u.ir := rfl
  unfold fetchOperands
  rw [hir]
  split
  · exact .ok rfl
  · refine .bind (fetchByte_mirrors s) fun q => ?_
    show Mirrors latchedPair (if lengthIn table q.2.ir = 2 then _ else if q.2.ir = jsrOpcode then _ else _)
      (if lengthIn table q.2.ir = 2 then _ else if q.2.ir = jsrOpcode then _ else _)
    split
    · exact .ok rfl
    · split
      · exact .ok rfl
      · exact .bind (fetchByte_mirrors q.2) fun _ => .ok rfl

/-- While `I` is set no IRQ is selected, whatever its latch (R405, R406). -/
theorem selectEvent_masked {s : State} (hv : s.variant = .nmos6502) (hi : flag .i s.p = true) :
    selectEvent s = if s.pendReset then some .reset else if s.pendNmi then some .nmi else none := by
  rw [selectEvent_nmos hv, hi]
  simp

theorem onSelection_irqLatched {e : Entry} (he : e ≠ .irq) (s : State) :
    onSelection e (irqLatched s) = irqLatched (onSelection e s) := by
  cases e with
  | reset => rfl
  | nmi => rfl
  | irq => exact absurd rfl he
  | brk => rfl

/-- A step with `I` set completes in the same way with the IRQ latch set, and leaves it set. -/
theorem step_irqLatched {s t : State} (hi : flag .i s.p = true) (h : step s = .next t) :
    step (irqLatched s) = .next (irqLatched t) := by
  rcases step_next_cases h with ⟨hp, rfl⟩ | ⟨hp, hv, hstep⟩
  · exact step_unpowered hp
  simp only [applySo_run, applySo_pendReset, applySo_pins] at hstep
  rcases hstep with ⟨hj, hr, hcycle⟩ | ⟨hj, ⟨hrdy, hcycle⟩ | ⟨hrdy, u, hu, hexec⟩⟩
  · rw [step_of_jammed (s := irqLatched s) hp hv hj hr, applySo_irqLatched]
    exact (dummyRead_mirrors _ _).conclude ((conclude_eq_next ..).2 hcycle)
  · rw [step_of_stalled (s := irqLatched s) hp hv hj hrdy, applySo_irqLatched]
    exact (stallCycle_mirrors _).conclude ((conclude_eq_next ..).2 hcycle)
  have fetch := fetchOpcode_keeps hu
  have hu' : fetchOpcode (applySo (irqLatched s)) = .ok (irqLatched u) := by
    rw [applySo_irqLatched]
    exact (fetchOpcode_mirrors _).eq_ok hu
  have hvu : u.variant = .nmos6502 := by rw [fetch.variant, applySo_variant, hv]
  have hiu : flag .i u.p = true := by
    rw [fetch.p, applySo_p]
    split <;> simp [hi]
  have hselect : selectEvent (irqLatched u) = selectEvent u :=
    (selectEvent_masked (s := irqLatched u) hvu hiu).trans (selectEvent_masked hvu hiu).symm
  rcases hexec with ⟨e, he, hentry⟩ | ⟨he, i, w, hf, hx⟩
  · have hirq : e ≠ .irq := by
      rintro rfl
      rw [selectEvent_masked hvu hiu] at he
      split_ifs at he <;> simp at he
    rw [step_of_selected (s := irqLatched s) hp hv hj hrdy hu' (hselect.trans he), onSelection_irqLatched hirq]
    exact (enter_mirrors e _).conclude ((conclude_eq_next ..).2 hentry)
  · have hf' : fetchOperands decodeOp (irqLatched { u with pc := u.pc + 1 }) = .ok (i, irqLatched w) :=
      (fetchOperands_mirrors decodeOp _).eq_ok hf
    rw [step_of_dispatched (s := irqLatched s) hp hv hj hrdy hu' (hselect.trans he) hf']
    exact exec_irqLatched hx

/-- Settles O16: both states of the statement are `s` but for the latch, which `step_irqLatched` sets. -/
theorem maskedIrqIsIgnored : Obligations.MaskedIrqIsIgnored :=
  fun s _ hi h => step_irqLatched (s := { s with pendIrq := false }) hi h

end Sys2Proof.Machine
end

section
/-! PROOFS. Taking an event at a fetch boundary (60_exceptions.md): RESET (O13), NMI (O14) and IRQ (O15), and RTI after an entry
(O59). -/

namespace Sys2Proof.Machine

open Config

/-- The SO latch counts no cycle and appends no event. -/
theorem drives_applySo {s t : State} {l : List (Word × Action)} : Drives (applySo s) t l ↔ Drives s t l := by
  rw [Drives, Drives, applySo_cycles, applySo_trace]

/-- Settles O13: the step is that of `step_of_reset`. -/
theorem resetIsServicedFirst : Obligations.ResetIsServicedFirst := by
  intro s hp hv hrdy hsync hreset hmap
  obtain ⟨t, l, h, hstep, ht, hir, hdrives, low, high⟩ := step_of_reset hp hv hrdy hsync hreset hmap
  exact ⟨t, l, h, _, hstep, ht, flagsSet_withFlag .i true _, hir, drives_applySo.1 hdrives, low, high⟩

/-! ### Entries that push -/

theorem enter_exists (e : Entry) {s : State} (hmap : AllMapped s) : ∃ t, enter e s = .ok t := by
  have stops := enter_stops e (s := s) (t := s) rfl
  cases h : enter e s with
  | ok t => exact ⟨t, rfl⟩
  | error f =>
    rw [h] at stops
    obtain ⟨a, -, ha⟩ := stops
    exact absurd (hmap a) (by simp [Mapped, ha])

/-- The cycles of an NMI or IRQ step, the opcode fetch included (R411, R412). -/
def entryCycles (e : Entry) (s : State) : List (Word × Action) :=
  [(s.pc, .read), (s.pc, .read), (slotBelow s 0, .write), (slotBelow s 1, .write), (slotBelow s 2, .write),
    (vectorOf nmos e, .read), (vectorOf nmos e + 1, .read)]

/-- `x` is `s` after the SO latch, the opcode fetch, whose byte is not used, and the selection of `e` (R404, R405). -/
structure Selected (e : Entry) (s x : State) : Prop where
  marks : x = { onSelection e (busMarks (applySo s) x) with ir := x.ir }
  drives : Drives s x [(s.pc, .read)]
  opcode : ReadsAs s s.pc x.ir

section

variable {e : Entry} {s x : State} (h : Selected e s x)

include h

theorem Selected.regions : x.regions = s.regions := by rw [h.marks]; cases e <;> exact applySo_regions s

theorem Selected.variant : x.variant = s.variant := by rw [h.marks]; cases e <;> exact applySo_variant s

theorem Selected.byteAt (a : Word) : Machine.byteAt x a = Machine.byteAt s a := by
  have mem : x.mem = s.mem := by rw [h.marks]; cases e <;> exact applySo_mem s
  rw [Machine.byteAt, mem, Machine.byteAt]

theorem Selected.pc : x.pc = s.pc := by rw [h.marks]; cases e <;> exact applySo_pc s

theorem Selected.sp : x.sp = s.sp := by rw [h.marks]; cases e <;> exact applySo_sp s

theorem Selected.p : x.p = (applySo s).p := by rw [h.marks]; cases e <;> rfl

theorem Selected.readsAs {a : Word} {v : Byte} : ReadsAs x a v ↔ ReadsAs s a v :=
  ReadsAs_congr h.regions (h.byteAt a)

end

/-- A running, ready boundary that selects an event, at a mapped `PC`: the step is the event's entry after the selection. -/
theorem step_selects {s : State} {e : Entry} (hp : s.pins.power = .raised) (hv : s.variant = .nmos6502)
    (hrun : s.run = .running) (hrdy : s.pins.rdy = .raised) (hsync : s.pins.sync = .lowered)
    (hselect : selectEvent s = some e) (hm : Mapped s s.pc) : ∃ x, Selected e s x ∧ step s = conclude (enter e x) := by
  have hm' : Mapped (applySo s) (applySo s).pc := by rwa [applySo_pc, Mapped_congr (applySo_regions s)]
  obtain ⟨u, hu, hmarks, hdrives, hread⟩ := fetchOpcode_exists (by rw [applySo_pins, hsync]) hm'
  rw [applySo_pc] at hdrives hread
  refine ⟨onSelection e u, ⟨?_, ?_, ?_⟩,
    step_of_selected hp hv (by simp [hrun]) hrdy hu ((selectEvent_fetchOpcode hv hu).trans hselect)⟩
  · rw [hmarks]
    cases e <;> rfl
  · cases e <;> exact drives_applySo.1 hdrives
  · cases e <;> exact readsAs_applySo.1 hread

/-- The step that selects an NMI or an IRQ, on a complete map (R411, R412): the latch of the event is clear after it. -/
theorem step_of_entry {s : State} {e : Entry} (he : e = .nmi ∨ e = .irq) (hp : s.pins.power = .raised)
    (hv : s.variant = .nmos6502) (hrun : s.run = .running) (hrdy : s.pins.rdy = .raised)
    (hsync : s.pins.sync = .lowered) (hselect : selectEvent s = some e) (hmap : AllMapped s) :
    ∃ t l h, step s = .next t ∧
      t = { onSelection e (busMarks (applySo s) t) with
            pc := wordOf h l, sp := s.sp - 3, p := withFlag .i true (applySo s).p, ir := t.ir, mem := t.mem } ∧
      ReadsAs s s.pc t.ir ∧
      Stores s t [(slotBelow s 2, ((applySo s).p ||| 0x20) &&& 0xEF), (slotBelow s 1, lo s.pc), (slotBelow s 0, hi s.pc)] ∧
      Drives s t (entryCycles e s) ∧ ReadsAs s (vectorOf nmos e) l ∧ ReadsAs s (vectorOf nmos e + 1) h := by
  obtain ⟨x, selected, hstep⟩ := step_selects hp hv hrun hrdy hsync hselect (hmap s.pc)
  obtain ⟨t, ht⟩ := enter_exists e ((AllMapped_congr selected.regions).2 hmap)
  obtain ⟨l, h, run, low, high⟩ :=
    enter_busRun (by rcases he with rfl | rfl <;> decide) (selected.variant.trans hv) ht
  have marks := run.marks
  have stores := run.stores.congr (fun a => (selected.byteAt a).symm) (fun _ => rfl) selected.regions.symm
  have drives := selected.drives.trans run.drives
  simp only [entryStores, entryReturn, slotBelow, pushedStatus_nmos, selected.pc, selected.sp, selected.p] at stores drives
  have hir : t.ir = x.ir := by rw [marks]; rfl
  rw [selected.sp, selected.p, selected.marks] at marks
  refine ⟨t, l, h, by rw [hstep, ht, conclude_ok], ?_, hir ▸ selected.opcode, ?_, drives, selected.readsAs.1 low,
    selected.readsAs.1 high⟩
  · rw [hir, marks]
    cases e <;> rfl
  · rcases he with rfl | rfl <;> exact stores

/-- Settles O14: with no reset latched an NMI is selected, whatever the IRQ latch. -/
theorem nmiEntry : Obligations.NmiEntry := by
  intro s hp hv hrun hrdy hsync hreset hnmi hmap
  have hselect : selectEvent s = some .nmi := by simp [selectEvent_nmos hv, hreset, hnmi]
  obtain ⟨t, l, h, hstep, ht, hir, stores, drives, low, high⟩ :=
    step_of_entry (.inl rfl) hp hv hrun hrdy hsync hselect hmap
  exact ⟨t, l, h, _, hstep, ht, flagsSet_withFlag .i true _, hir, stores, drives, low, high⟩

/-- Settles O15: an IRQ is selected with `I` clear and nothing above it latched. -/
theorem irqEntry : Obligations.IrqEntry := by
  intro s hp hv hrun hrdy hsync hreset hnmi hirq hi hmap
  have hselect : selectEvent s = some .irq := by simp [selectEvent_nmos hv, hreset, hnmi, hirq, hi]
  obtain ⟨t, l, h, hstep, ht, hir, stores, drives, low, high⟩ :=
    step_of_entry (.inr rfl) hp hv hrun hrdy hsync hselect hmap
  exact ⟨t, l, h, _, hstep, ht, flagsSet_withFlag .i true _, hir, stores, drives, low, high⟩

/-! ### An entry and RTI -/

/-- RTI loads the status that an entry pushed as it was before the entry: bits 5 and 4 are constant (R31, R420). -/
theorem statusFrom_pushedStatus (e : Entry) {p : Byte} (h : reservedBitsHold p = true) :
    statusFrom nmos (pushedStatus nmos e p) = p := by
  rw [pushedStatus_nmos]
  split
  · exact statusFrom_withBreak p h
  · exact statusFrom_withoutBreak p h

theorem slotBelow_beq (s : State) (j k : Byte) : (slotBelow s j == slotBelow s k) = (j == k) := by
  rw [Bool.eq_iff_iff, beq_iff_eq, beq_iff_eq, slotBelow_inj]

/-- What an entry stored last in each of its three slots: no two of them are one. -/
theorem lookup_entryStores (e : Entry) (s : State) :
    (entryStores e s).lookup (slotBelow s 2) = some (pushedStatus nmos e s.p) ∧
      (entryStores e s).lookup (slotBelow s 1) = some (lo (entryReturn e s.pc)) ∧
      (entryStores e s).lookup (slotBelow s 0) = some (hi (entryReturn e s.pc)) := by
  refine ⟨?_, ?_, ?_⟩ <;> simp only [entryStores, List.lookup_cons, slotBelow_beq] <;> rfl

/-- Settles O59: RTI pulls the slots that the entry pushed, in the opposite order. -/
theorem entryThenRtiResumes : Obligations.EntryThenRtiResumes := by
  intro s e ⟨hv, hmap⟩ he hreserved hram
  obtain ⟨t, henter⟩ := enter_exists e hmap
  obtain ⟨_, _, entry, -⟩ := enter_busRun he hv henter
  obtain ⟨u, hreturn⟩ := anInstructionStopsOnlyAtAnUnmappedAddress.2 .rti t ((AllMapped_congr entry.regions).2 hmap)
  obtain ⟨v, low, high, back, value1, value2, value3⟩ :=
    returnFromEvent_busRun (entry.variant.trans hv) ((conclude_eq_next _ u).1 hreturn)
  have slot1 : slotAbove t 1 = slotBelow s 2 := slotAbove_eq_slotBelow entry.sp_eq (by decide)
  have slot2 : slotAbove t 2 = slotBelow s 1 := slotAbove_eq_slotBelow entry.sp_eq (by decide)
  have slot3 : slotAbove t 3 = slotBelow s 0 := slotAbove_eq_slotBelow entry.sp_eq (by decide)
  obtain ⟨stored2, stored1, stored0⟩ := lookup_entryStores e s
  rw [slot1] at value1
  rw [slot2] at value2
  rw [slot3] at value3
  have status : v = pushedStatus nmos e s.p := entry.reads_stored (hram 2 (by simp)) stored2 value1
  have pulledLow : low = lo (entryReturn e s.pc) := entry.reads_stored (hram 1 (by simp)) stored1 value2
  have pulledHigh : high = hi (entryReturn e s.pc) := entry.reads_stored (hram 0 (by simp)) stored0 value3
  refine ⟨t, u, henter, hreturn, ?pc, ?p, ?sp, ?a, ?x, ?y, fun b hb => ?mem⟩
  case pc => rw [back.pc_eq, pulledLow, pulledHigh, wordOf_hi_lo, entryReturn]
  case p => rw [back.p_eq, status, statusFrom_pushedStatus e hreserved]
  case sp => rw [back.sp_eq, entry.sp_eq, sub_add_cancel]
  case a => rw [back.marks, entry.marks]; rfl
  case x => rw [back.marks, entry.marks]; rfl
  case y => rw [back.marks, entry.marks]; rfl
  case mem =>
    have unstored : b ∉ [slotBelow s 0, slotBelow s 1, slotBelow s 2].reverse := mt List.mem_reverse.1 hb
    calc
      byteAt u b = byteAt t b := back.stores.byteAt_of_not_mem List.not_mem_nil
      _ = byteAt s b := entry.stores.byteAt_of_not_mem unstored

end Sys2Proof.Machine
end

section
/-! PROOFS. Undocumented instructions (48_undocumented.md): the middles of those that modify memory and combine it with `A` (O43,
O44), the changes of the immediate ones (O45, O46), the unstable stores (O47) and JAM (O49). -/

namespace Sys2Proof.Machine

open Config

/-! ### Shifts and rotates combined with logic -/

/-- SLO, RLA and SRE (R330 to R332): `C` of the shift or rotate stays, `Z` and `N` are those of the new `A`. -/
theorem shiftThen_modifies {s : State} {f : Byte → Byte → Alu} {g : Byte → Byte → Byte → Alu} {op : Byte → Byte → Byte}
    {m : Byte} {r : Result} (hf : (f m s.p).Gives r s.p) (hg : ∀ a v p, g a v p = passZN (op a v) p)
    (hflags : ∃ c w, r.flags = (.c, c) :: znOf w) :
    Modifies s (shiftThen f g m)
      ⟨r.value, op s.a r.value, (.c, (r.flags.lookup .c).getD false) :: znOf (op s.a r.value)⟩ := by
  obtain ⟨c, w, hr⟩ := hflags
  refine ⟨setZN (op s.a r.value) (f m s.p).p, ?_, fun u mem => ?_⟩
  · refine (hf.flags.trans (flagsSet_setZN _ _)).congr fun x => ?_
    rw [hr]
    cases x <;> rfl
  · rw [shiftThen, hg, ← hf.value]
    rfl

/-- Settles O43: the three shifts against the rules, then the logical operation, in every form by the form's shape. -/
theorem shiftsCombinedWithLogic : Obligations.ShiftsCombinedWithLogic := by
  intro s b w hs
  have left (c : Bool) (v : Byte) : ∃ d x, (rotateLeftOf c v).flags = (.c, d) :: znOf x :=
    ⟨_, _, congrArg Result.flags (rotateLeftOf_eq c v)⟩
  have right (c : Bool) (v : Byte) : ∃ d x, (rotateRightOf c v).flags = (.c, d) :: znOf x :=
    ⟨_, _, congrArg Result.flags (rotateRightOf_eq c v)⟩
  refine ⟨?slo, ?rla, ?sre⟩
  case slo =>
    exact modifyGives_forms (f := .slo) hs ⟨rfl, rfl, rfl, rfl, rfl, rfl, rfl⟩ fun m =>
      shiftThen_modifies (op := (· ||| ·)) (asl_gives m s.p) (fun _ _ _ => rfl) (shiftLeftOf_eq_rotateLeftOf m ▸ left false m)
  case rla =>
    exact modifyGives_forms (f := .rla) hs ⟨rfl, rfl, rfl, rfl, rfl, rfl, rfl⟩ fun m =>
      shiftThen_modifies (op := (· &&& ·)) (rol_gives m s.p) (fun _ _ _ => rfl) (left _ m)
  case sre =>
    exact modifyGives_forms (f := .sre) hs ⟨rfl, rfl, rfl, rfl, rfl, rfl, rfl⟩ fun m =>
      shiftThen_modifies (op := (· ^^^ ·)) (lsr_gives m s.p) (fun _ _ _ => rfl)
        (shiftRightOf_eq_rotateRightOf m ▸ right false m)

/-! ### Arithmetic on memory and `A` -/

/-- An addition writes `C`, `Z`, `N` and `V`: of what a rotate wrote before it nothing stays. -/
theorem additionOf_overwrites_rotate (decimal : Bool) (a v : Byte) (c d : Bool) (w : Byte) (f : Flag) :
    (additionOf decimal a v c).flags.lookup f = ((additionOf decimal a v c).flags ++ (.c, d) :: znOf w).lookup f := by
  cases decimal <;> cases f <;> rfl

section

variable {s : State} (hv : s.variant = .nmos6502)

include hv

/-- RRA (R333): the addition takes the carry that the rotate produced. -/
theorem rotateThenAdd_modifies (m : Byte) :
    let v := (rotateRightOf (flag .c s.p) m).value
    let sum := additionOf (flag .d s.p) s.a v (m.getLsbD 0)
    Modifies s (rotateThenAdd m) ⟨v, sum.value, sum.flags⟩ := by
  intro v sum
  have rotate := ror_gives m s.p
  have rotated : (rotateRightOf (flag .c s.p) m).flags = (.c, m.getLsbD 0) :: znOf v := by
    simp only [v, rotateRightOf_eq]
  have flags := rotate.flags
  rw [rotated] at flags
  have carry : flag .c (ror m s.p).p = m.getLsbD 0 := flags.1 .c
  have decimal : flag .d (ror m s.p).p = flag .d s.p := flags.1 .d
  have add := addWithCarry_gives s.a v (ror m s.p).p
  rw [carry, decimal] at add
  refine ⟨(addWithCarry nmos s.a v (ror m s.p).p).p, ?_, fun u mem => ?_⟩
  · exact (flags.trans add.flags).congr (additionOf_overwrites_rotate _ _ _ _ _ _)
  · have stored : v = (ror m s.p).value := rotate.value.symm
    have value : sum.value = (addWithCarry nmos s.a v (ror m s.p).p).value := add.value.symm
    rw [rotateThenAdd, profile_nmos (s := { busMarks s u with mem := mem }) hv, value, stored]
    rfl

/-- ISC (R337): the increment sets no flag. -/
theorem incThenSub_modifies (m : Byte) :
    let diff := subtractionOf (flag .d s.p) s.a (m + 1) (flag .c s.p)
    Modifies s (incThenSub m) ⟨m + 1, diff.value, diff.flags⟩ := by
  have gives := subWithCarry_gives s.a (m + 1) s.p
  refine ⟨_, gives.flags, fun u mem => ?_⟩
  rw [incThenSub, profile_nmos (s := { busMarks s u with mem := mem }) hv, ← gives.value]
  rfl

end

/-- DCP (R336): the decrement sets no flag. -/
theorem decThenCompare_modifies (s : State) (m : Byte) :
    Modifies s (decThenCompare m) ⟨m - 1, s.a, comparisonOf s.a (m - 1)⟩ :=
  ⟨_, flagsSet_cmpFlags s.a (m - 1) s.p, fun _ _ => rfl⟩

/-- Settles O44: the middle of each instruction, in every form by the form's shape. -/
theorem arithmeticOnMemoryAndA : Obligations.ArithmeticOnMemoryAndA := by
  intro s b w hs
  have hv : s.variant = .nmos6502 := hs.1
  refine ⟨?rra, ?dcp, ?isc⟩
  case rra =>
    exact modifyGives_forms (f := .rra) hs ⟨rfl, rfl, rfl, rfl, rfl, rfl, rfl⟩ (rotateThenAdd_modifies hv)
  case dcp =>
    exact modifyGives_forms (f := .dcp) hs ⟨rfl, rfl, rfl, rfl, rfl, rfl, rfl⟩ (decThenCompare_modifies s)
  case isc =>
    exact modifyGives_forms (f := .isc) hs ⟨rfl, rfl, rfl, rfl, rfl, rfl, rfl⟩ (incThenSub_modifies hv)

/-! ### Immediate combinations -/

/-- ANC (R338): `C` is the bit 7 that `N` has. -/
theorem andCopyN_changes (s : State) (m : Byte) :
    let anc := s.a &&& m
    Changes s (andCopyN m) (fun u => { u with a := anc }) ((.c, anc.getLsbD 7) :: znOf anc) := by
  intro anc
  have negative : flag .n (setZN anc s.p) = anc.getLsbD 7 := by simp
  refine ⟨withFlag .c (anc.getLsbD 7) (setZN anc s.p), (flagsSet_setZN anc s.p).trans (flagsSet_withFlag .c _ _), ?_⟩
  intro u
  rw [← negative]
  rfl

/-- ALR (R339): AND, then LSR of the result. -/
theorem andThenLsr_changes (s : State) (m : Byte) :
    let alr := shiftRightOf (s.a &&& m)
    Changes s (andThenLsr m) (fun u => { u with a := alr.value }) alr.flags := by
  have gives := lsr_gives (s.a &&& m) s.p
  exact ⟨_, gives.flags, fun u => by rw [← gives.value]; rfl⟩

/-- SBX (R343): the flags of a compare with `A AND X`. -/
theorem subFromAX_changes (s : State) (m : Byte) :
    Changes s (subFromAX m) (fun u => { u with x := (u.a &&& u.x) - m }) (comparisonOf (s.a &&& s.x) m) :=
  ⟨_, flagsSet_cmpFlags (s.a &&& s.x) m s.p, fun _ => rfl⟩

/-- The carry that R340's decimal correction of the high nibble leaves. -/
theorem arr_highCarry_iff (t : Byte) :
    (t &&& 0xF0#8).toNat + (t &&& 0x10#8).toNat > 0x50 ↔ t.toNat / 16 * 16 + t.toNat / 16 % 2 * 16 > 80 := by
  have bit4 : (t &&& 0x10#8).toNat = t.toNat / 16 % 2 * 16 := by
    revert t; decide
  rw [toNat_highNibble, bit4]

/-- The condition of R340's correction of the low nibble. -/
theorem arr_lowCorrects_iff (t : Byte) :
    (t &&& 0x0F#8).toNat + (t &&& 0x01#8).toNat > 0x05 ↔ t.toNat % 16 + t.toNat % 2 > 5 := by
  have bit0 : (t &&& 0x01#8).toNat = t.toNat % 2 := (BitVec.toNat_and ..).trans (Nat.and_one_is_mod t.toNat)
  rw [toNat_lowNibble, bit0]

/-- The high nibble of one byte with the low nibble of another. -/
theorem highNibble_or_lowNibble (x y : Byte) :
    (x &&& 0xF0#8) ||| (y &&& 0x0F#8) = BitVec.ofNat 8 (x.toNat / 16 * 16 + y.toNat % 16) := by
  have disjoint : (x &&& 0xF0#8) &&& (y &&& 0x0F#8) = 0#8 := by
    rw [BitVec.and_assoc, BitVec.and_comm y, ← BitVec.and_assoc 0xF0#8]
    simp
  apply BitVec.eq_of_toNat_eq
  rw [← BitVec.add_eq_or_of_and_eq_zero _ _ disjoint, BitVec.toNat_add, toNat_highNibble, toNat_lowNibble,
    BitVec.toNat_ofNat]

/-- `N`, `Z` and `V` as ARR writes them, then `C` (R340). -/
theorem flagsSet_setZN_withOverflowCarry (r : Byte) (c v : Bool) (p : Byte) :
    FlagsSet [(.c, c), (.n, r.getLsbD 7), (.z, r == 0), (.v, v)] p (withFlag .c c (withFlag .v v (setZN r p))) :=
  (((flagsSet_setZN r p).trans (flagsSet_withFlag .v v _)).trans (flagsSet_withFlag .c c _)).congr
    fun f => by cases f <;> rfl

/-- ARR's result before the decimal corrections as a number, and its bits (R340). -/
theorem rotatedRight_bits (t : Byte) (c : Bool) :
    let n := t.toNat / 2 + 128 * c.toNat
    let r := BitVec.ofNat 8 n
    r.toNat = n ∧ r.getLsbD 7 = c ∧ (r == 0) = decide (n = 0) ∧ r.getLsbD 6 = n.testBit 6 ∧ r.getLsbD 5 = n.testBit 5 := by
  intro n r
  have ht := t.isLt
  have hc := c.toNat_lt
  have hr : r.toNat = n := by
    rw [BitVec.toNat_ofNat]
    omega
  refine ⟨hr, ?_, by rw [beq_zero_eq_decide, hr], BitVec.getLsbD_ofNat .., BitVec.getLsbD_ofNat ..⟩
  rw [getLsbD_seven, hr, Bool.eq_iff_iff, decide_eq_true_iff]
  cases c with
  | false => exact iff_of_false (by simp only [n, Bool.toNat_false]; omega) Bool.false_ne_true
  | true => exact iff_of_true (by simp only [n, Bool.toNat_true]; omega) rfl

/-- The body of ARR against its rule, in both modes (R340). -/
theorem arr_gives (a m p : Byte) :
    (arr nmosDecimal a m p).Gives (andRotateOf (flag .d p) a m (flag .c p)) p := by
  have bits := rotatedRight_bits (a &&& m) (flag .c p)
  simp only [arr, andRotateOf, decimalOn_nmos, shiftRight_or_carry, arr_highCarry_iff, arr_lowCorrects_iff,
    highNibble_or_lowNibble]
  generalize a &&& m = t at bits ⊢
  obtain ⟨n, hn⟩ : ∃ n, n = t.toNat / 2 + 128 * (flag .c p).toNat := ⟨_, rfl⟩
  simp only [← hn] at bits ⊢
  obtain ⟨hr, h7, hz, h6, h5⟩ := bits
  have written (c : Bool) := flagsSet_setZN_withOverflowCarry (BitVec.ofNat 8 n) c (n.testBit 6 != n.testBit 5) p
  rw [h7, hz] at written
  simp only [h6, h5]
  cases flag .d p with
  | false => exact ⟨rfl, written _⟩
  | true =>
    have lowNibble : (BitVec.ofNat 8 n + 6#8).toNat % 16 = (n + 6) % 16 := by
      rw [BitVec.toNat_add, hr, BitVec.toNat_ofNat]
      omega
    simp only [if_true, hr, lowNibble, ← apply_ite (BitVec.ofNat 8)]
    split
    next high =>
      rw [decide_eq_true high, if_pos rfl, BitVec.ofNat_add]
      exact ⟨rfl, written true⟩
    next high =>
      rw [decide_eq_false high, if_neg Bool.false_ne_true]
      exact ⟨rfl, written false⟩

theorem andThenRor_changes {s : State} (hv : s.variant = .nmos6502) (m : Byte) :
    let arr := andRotateOf (flag .d s.p) s.a m (flag .c s.p)
    Changes s (andThenRor m) (fun u => { u with a := arr.value }) arr.flags := by
  have gives := arr_gives s.a m s.p
  refine ⟨_, gives.flags, fun u => ?_⟩
  rw [andThenRor, profile_nmos (s := busMarks s u) hv, ← gives.value]
  rfl

/-- Settles O45: the change of each instruction. -/
theorem immediateCombinations : Obligations.ImmediateCombinations := by
  intro s m
  refine ⟨?anc0B, ?anc2B, ?alr, fun hv => ?arr, ?sbx⟩
  case anc0B => exact immediateGives_of_changes rfl (andCopyN_changes s m)
  case anc2B => exact immediateGives_of_changes rfl (andCopyN_changes s m)
  case alr => exact immediateGives_of_changes rfl (andThenLsr_changes s m)
  case arr => exact immediateGives_of_changes rfl (andThenRor_changes hv m)
  case sbx => exact immediateGives_of_changes rfl (subFromAX_changes s m)

/-! ### The open constants -/

theorem aneA_changes (s : State) (m : Byte) :
    let ane := (s.a ||| magicAne) &&& s.x &&& m
    Changes s (aneA m) (fun u => { u with a := ane }) (znOf ane) :=
  ⟨_, flagsSet_setZN _ s.p, fun _ => rfl⟩

theorem lxaAX_changes (s : State) (m : Byte) :
    let lxa := (s.a ||| magicLxa) &&& m
    Changes s (lxaAX m) (fun u => { u with a := lxa, x := lxa }) (znOf lxa) :=
  ⟨_, flagsSet_setZN _ s.p, fun _ => rfl⟩

/-- With `A` all ones a constant is absorbed (R468). -/
theorem ones_or (c : Byte) : 0xFF#8 ||| c = 0xFF#8 := BitVec.allOnes_or

theorem ones_and (v : Byte) : 0xFF#8 &&& v = v := BitVec.allOnes_and

/-- Settles O46: the changes hold whatever the constants are; `A` all ones or a zero operand cancels them. -/
theorem openConstantInstructions : Obligations.OpenConstantInstructions := by
  intro s m ane lxa
  refine ⟨?ane, ?lxa, fun ha => ?ones, fun hm => ?zero⟩
  case ane => exact immediateGives_of_changes rfl (aneA_changes s m)
  case lxa => exact immediateGives_of_changes rfl (lxaAX_changes s m)
  case ones =>
    have ha' : s.a = 0xFF#8 := ha
    simp only [ane, lxa, ha', ones_or, ones_and, and_self]
  case zero =>
    have hm' : m = 0#8 := hm
    simp only [ane, lxa, hm', BitVec.and_zero]
    exact ⟨rfl, rfl⟩

/-! ### Unstable stores -/

theorem crosses_iff (base : Word) (i : Byte) : crosses base i = true ↔ base.toNat % 256 + i.toNat > 255 := by
  rw [crosses, decide_eq_true_iff, toNat_lo]

/-- The place in its page of an indexed address. -/
theorem lo_corrected (base : Word) (i : Byte) : lo (corrected base i) = lo base + i := by
  apply BitVec.eq_of_toNat_eq
  rw [toNat_lo, corrected_eq_ofNat, BitVec.toNat_ofNat, BitVec.toNat_add, toNat_lo]
  omega

/-- The address of an unstable store, in integers (R344). -/
theorem unstableAddr_eq (reg : Byte) (base : Word) (i : Byte) : unstableAddr reg base i =
    if base.toNat % 256 + i.toNat > 255 then wordOf (unstableValue reg base) (lo base + i)
    else BitVec.ofNat 16 (base.toNat + i.toNat) := by
  rw [unstableAddr, lo_corrected, corrected_eq_ofNat]
  simp only [crosses_iff]

/-- The two cycles of an unstable store whose fixup read always happens (R152, R344). -/
theorem BusRun.unstableStore {s t u : State} {pc : Word} {sp p reg : Byte} {base : Word} {i : Byte}
    {l : List (Word × Action)} {m : List (Word × Byte)} (h : BusRun s t pc sp p l m)
    (hu : unstableStore .always reg base i t = .ok u) :
    BusRun s u pc sp p (l ++ [(uncorrected base i, .read)] ++ [(unstableAddr reg base i, .write)])
      ((unstableAddr reg base i, unstableValue reg base) :: m) := by
  simp only [Machine.unstableStore, bind_eq_ok] at hu
  obtain ⟨x, hx, hw⟩ := hu
  exact (h.reads (fixupRead_reads hx)).wrote (memWrite_wrote hw)

theorem Reads.a {s t : State} {l : List Word} (h : Reads s t l) : t.a = s.a := by rw [h.marks]; rfl

/-- Settles O47: the fixup read and the store, after the change of `S` by TAS and the pointer's reads by SHA (zp),Y. -/
theorem unstableStores : Obligations.UnstableStores := by
  intro s b w ⟨hv, hmap⟩ value unc addr
  have hunc (base : Word) (i : Byte) : unc base i = uncorrected base i := (uncorrected_eq_ofNat base i).symm
  have haddr (reg : Byte) (base : Word) (i : Byte) : addr reg base i = unstableAddr reg base i :=
    (unstableAddr_eq reg base i).symm
  refine ⟨?absolute, ?tas, ?pointer⟩
  case absolute =>
    have stores {i : Instr} {r : UnstableOp} (hi : shapeOf nmosFixup i = .unstable r .always w) :
        ∃ t, exec i s = .next t ∧ t = { busMarks s t with mem := t.mem } ∧
          Stores s t [(addr (r.run s).1 w (r.run s).2, value (r.run s).1 w)] ∧
          Drives s t [(unc w (r.run s).2, .read), (addr (r.run s).1 w (r.run s).2, .write)] := by
      obtain ⟨t, hexec⟩ := anInstructionStopsOnlyAtAnUnmappedAddress.2 i s hmap
      have shape := exec_shape_nmos i hv
      rw [hi, hexec] at shape
      have run := (BusRun.refl s).unstableStore ((conclude_eq_next _ t).1 shape.symm)
      rw [hunc, haddr]
      exact ⟨t, hexec, run.marks, run.stores, run.drives⟩
    exact List.forall_iff_forall_mem.1 ⟨stores (r := .sha) rfl, stores (r := .shx) rfl, stores (r := .shy) rfl⟩
  case tas =>
    obtain ⟨t, hexec⟩ := anInstructionStopsOnlyAtAnUnmappedAddress.2 (.tasAby w) s hmap
    have tas : execTasAby w s = .next t := hexec
    rw [execTasAby, fixup_nmos hv, conclude_eq_next] at tas
    have run := ((BusRun.refl s).setSp (s.a &&& s.x)).unstableStore tas
    rw [hunc, haddr]
    exact ⟨t, hexec, run.marks, run.stores, run.drives⟩
  case pointer =>
    obtain ⟨t, hexec⟩ := anInstructionStopsOnlyAtAnUnmappedAddress.2 (.shaIzy b) s hmap
    have sha : execShaIzy b s = .next t := hexec
    simp only [execShaIzy, conclude_eq_next, bind_eq_ok, Prod.exists] at sha
    obtain ⟨base, u, hu, hstore⟩ := sha
    obtain ⟨reads, first, second⟩ := zeroPagePointer_reads hu
    rw [fixup_nmos ((zeroPagePointer_path hu).variant.trans hv), reads.a, reads.x, reads.y] at hstore
    rw [byteOrder_nmos hv] at first second
    have run := ((BusRun.refl s).reads reads).unstableStore hstore
    rw [← hunc, ← haddr] at run
    refine ⟨base, t, fun hcells => ?_, hexec, run.marks, run.stores, run.drives⟩
    have low := first (hcells (zext b) (by simp [pointerCells]))
    have high := second (hcells (zext (b + 1)) (by simp [pointerCells]))
    rw [pointerAt, ← low, ← high, firstByte_little, secondByte_little, wordOf_hi_lo]

/-! ### JAM -/

/-- The four reads of JAM (R351). -/
theorem jam_exists {s : State} (hmap : AllMapped s) :
    ∃ t, jam s = .next { t with run := .jammed } ∧ Reads s t [s.pc, 0xFFFF, 0xFFFE, 0xFFFE] := by
  obtain ⟨s1, h1, r1⟩ := dummyRead_exists_reads hmap s.pc
  obtain ⟨s2, h2, r2⟩ := dummyRead_exists_reads (r1.allMapped hmap) 0xFFFF
  have r12 := r1.trans r2
  obtain ⟨s3, h3, r3⟩ := dummyRead_exists_reads (r12.allMapped hmap) 0xFFFE
  have r123 := r12.trans r3
  obtain ⟨s4, h4, r4⟩ := dummyRead_exists_reads (r123.allMapped hmap) 0xFFFE
  refine ⟨s4, ?_, r123.trans r4⟩
  simp only [jam, h1, bind_ok, h2, h3, h4, pure_eq, conclude_ok]

/-- Settles O49: the twelve opcodes have one meaning. -/
theorem jamInstruction : Obligations.JamInstruction := by
  intro s hmap i hi
  have meaning : exec i s = jam s := by
    refine (List.forall_iff_forall_mem (p := fun i : Instr => exec i s = jam s)).1 ?_ i hi
    exact ⟨rfl, rfl, rfl, rfl, rfl, rfl, rfl, rfl, rfl, rfl, rfl, rfl⟩
  obtain ⟨t, ht, reads⟩ := jam_exists hmap
  exact ⟨t, meaning.trans ht, reads.marks, reads.drives⟩

end Sys2Proof.Machine
end

section
/-! PROOFS. Decimal arithmetic on valid digits is packed BCD arithmetic with its carry (O30, 41_alu_primitives.md R464). -/

namespace Sys2Proof.Machine

open Config

/-- A truth value as a number, for `omega`. -/
theorem toNat_decide (q : Prop) [Decidable q] : (decide q).toNat = if q then 1 else 0 := by
  by_cases h : q <;> simp [h]

/-- Decimal addition on digits: a correction in each nibble, each a carry of ten (R186). -/
theorem additionOf_digits {a m : Byte} (ha : validDigits a) (hm : validDigits m) (c : Bool) :
    let sum := additionOf true a m c
    validDigits sum.value ∧
      digitsValue sum.value + 100 * ((sum.flags.lookup .c).getD false).toNat = digitsValue a + digitsValue m + c.toNat := by
  obtain ⟨aHigh, aLow⟩ := ha
  obtain ⟨mHigh, mLow⟩ := hm
  have hc := c.toNat_lt
  simp only [additionOf, if_true, validDigits, digitsValue, BitVec.toNat_ofNat, List.lookup_cons_self, Option.getD_some,
    toNat_decide]
  split_ifs <;> omega

/-- Decimal subtraction on digits: a correction in each nibble, each a borrow of ten (R187). -/
theorem subtractionOf_digits {a m : Byte} (ha : validDigits a) (hm : validDigits m) (c : Bool) :
    let diff := subtractionOf true a m c
    validDigits diff.value ∧
      digitsValue diff.value + digitsValue m + 1 =
        digitsValue a + c.toNat + 100 * (!(diff.flags.lookup .c).getD false).toNat := by
  obtain ⟨aHigh, aLow⟩ := ha
  obtain ⟨mHigh, mLow⟩ := hm
  have hc := c.toNat_lt
  simp only [subtractionOf, if_true, validDigits, digitsValue, BitVec.toNat_ofInt, List.lookup_cons_self, Option.getD_some,
    ← decide_not, toNat_decide]
  split_ifs <;> omega

/-- Settles O30: ADC and SBC with `D` set are the rules' decimal results, which are right on digits. -/
theorem decimalArithmeticOnDigits : Obligations.DecimalArithmeticOnDigits := by
  intro a m p hd ha hm
  have add := addWithCarry_gives a m p
  have sub := subWithCarry_gives a m p
  rw [hd] at add sub
  have addCarry : flag .c (addWithCarry nmos a m p).p = _ := add.flags.1 .c
  have subCarry : flag .c (subWithCarry nmos a m p).p = _ := sub.flags.1 .c
  obtain ⟨sumDigits, sumValue⟩ := additionOf_digits ha hm (flag .c p)
  obtain ⟨diffDigits, diffValue⟩ := subtractionOf_digits ha hm (flag .c p)
  intro sum diff
  rw [add.value, sub.value, addCarry, subCarry]
  exact ⟨sumDigits, sumValue, diffDigits, diffValue⟩

end Sys2Proof.Machine
end

section
/-! PROOFS. The hooks of profile CMOS65C02 (49_variants.md R373) in JMP (ind), the read-modify-writes, BRK and decimal ADC and SBC
(O32). -/

namespace Sys2Proof.Machine

open Config

theorem profile_cmos {s : State} (h : s.variant = .cmos65c02) : s.profile = cmos := by
  rw [State.profile, h]; rfl

/-- One added cycle is one dummy read at the free address (R373, log entry 29). -/
theorem spareReads_one (s : State) : spareReads 1 s = dummyRead (openCycleAddress s.pc) s := by
  rw [spareReads]
  cases dummyRead (openCycleAddress s.pc) s <;> rfl

/-! ### JMP (ind) -/

/-- JMP (ind) in profile CMOS65C02: the pointer does not wrap in its page, and a sixth cycle follows its reads. -/
theorem execJmpInd_busRun_cmos {w : Word} {s t : State} (hv : s.variant = .cmos65c02) (h : execJmpInd w s = .next t) :
    ∃ low high, BusRun s t (wordOf high low) s.sp s.p
        [(w, .read), (w + 1, .read), (openCycleAddress s.pc, .read)] [] ∧
      ReadsAs s w low ∧ ReadsAs s (w + 1) high := by
  simp only [execJmpInd, profile_cmos hv, conclude_eq_next, bind_eq_ok, pure_eq, Except.ok.injEq, Prod.exists] at h
  obtain ⟨low, s1, h1, high, s2, h2, s3, h3, rfl⟩ := h
  obtain ⟨run1, value1⟩ := (BusRun.refl s).memRead h1 List.not_mem_nil
  obtain ⟨run2, value2⟩ := run1.memRead h2 List.not_mem_nil
  have spare : dummyRead (openCycleAddress s.pc) s2 = .ok s3 := by
    rw [← run2.pc_eq, ← spareReads_one]
    exact h3
  exact ⟨low, high, (run2.dummyRead spare).setPc _, value1, value2⟩

/-! ### Read-modify-writes on page 0 -/

/-- In profile CMOS65C02 a read-modify-write reads its operand twice and writes once, the new byte (R144, R373). -/
theorem modifying_zp_cmos {s : State} (hv : s.variant = .cmos65c02) (hmap : AllMapped s) {i : Instr} {b : Byte}
    {f : Byte → Byte → Alu} {r : Byte → Result} (hi : exec i s = modifying (onMemory f) (.zp b) s)
    (h : ∀ m, (f m s.p).Gives (r m) s.p) :
    ∃ v q t, exec i s = .next t ∧ FlagsSet (r v).flags s.p q ∧ t = { busMarks s t with p := q, mem := t.mem } ∧
      Stores s t [(zext b, (r v).value)] ∧ Drives s t [(zext b, .read), (zext b, .read), (zext b, .write)] ∧
      ReadsAs s (zext b) v := by
  obtain ⟨t, hexec⟩ := anInstructionStopsOnlyAtAnUnmappedAddress.2 i s hmap
  obtain ⟨ea, u, m, v, w, hu, hm, hw, ht⟩ := (modifying_eq_next_iff ..).1 (hi.symm.trans hexec)
  obtain ⟨rfl, rfl⟩ : zext b = ea ∧ s = u := Prod.mk.inj (Except.ok.inj hu)
  rw [profile_cmos hv] at hw
  have again : dummyRead (zext b) v = .ok w := hw
  obtain ⟨q, hq, hg⟩ := onMemory_modifies (h m)
  obtain ⟨run1, value⟩ := (BusRun.refl s).memRead hm List.not_mem_nil
  have run2 := run1.dummyRead again
  have marks : w = { busMarks s w with mem := s.mem } := run2.eq_marked
  have middle : onMemory f m w = ((r m).value, { w with p := q }) := by
    rw [marks]
    exact hg w s.mem
  rw [middle] at ht
  have run3 := (run2.setP q).wrote (memWrite_wrote ht)
  exact ⟨m, q, t, hexec, hq, run3.marks, run3.stores, run3.drives, value⟩

/-! ### BRK -/

/-- The stack cycles of BRK are those of profile NMOS6502: CMOS65C02 has its push order and its status layout. -/
theorem entryPushes_brk_cmos (s : State) :
    entryPushes cmos .brk (stackCycles cmos .brk) s = entryPushes nmos .brk (stackCycles nmos .brk) s := rfl

/-- Cycles 2 to 7 of BRK in profile CMOS65C02: the entry clears `D` as well (R413, R373). -/
theorem enter_brk_busRun_cmos {s t : State} (hv : s.variant = .cmos65c02) (h : enter .brk s = .ok t) :
    ∃ low high, BusRun s t (wordOf high low) (s.sp - 3) (withFlag .i true (withFlag .d false s.p))
        [(s.pc, .read), (slotBelow s 0, .write), (slotBelow s 1, .write), (slotBelow s 2, .write),
          (0xFFFE, .read), (0xFFFF, .read)] (entryStores .brk s) ∧
      ReadsAs s 0xFFFE low ∧ ReadsAs s 0xFFFF high := by
  simp only [enter, profile_cmos hv, entryPushes_brk_cmos, entryPushes_nmos, entryStatus_cmos, entryFlipFlops_cmos,
    bind_eq_ok, pure_eq, Except.ok.injEq, Prod.exists] at h
  obtain ⟨s1, h1, s4, ⟨s2, h2, s3, h3, h4⟩, low, s5, h5, high, s6, h6, rfl⟩ := h
  have first := (BusRun.refl s).dummyRead h1
  have run1 := first.setPc (s1.pc + 1)
  rw [first.pc_eq] at run1 h2
  have run2 := run1.zeroBelow.push h2
  rw [run2.pc_eq] at h3
  have run3 := run2.push h3
  rw [run3.p_eq] at h4
  have run4 := run3.push h4
  obtain ⟨run5, value5⟩ := run4.memRead h5 (not_mem_entryStores .brk s (by decide))
  rw [run5.p_eq] at h6
  obtain ⟨run6, value6⟩ := (run5.setP _).memRead h6 (not_mem_entryStores .brk s (by decide))
  exact ⟨low, high, run6.setPc _, value5, value6⟩

/-- The status after an entry of profile CMOS65C02. -/
theorem flagsSet_maskedBinary (p : Byte) :
    FlagsSet [(.i, true), (.d, false)] p (withFlag .i true (withFlag .d false p)) :=
  (flagsSet_withFlag .d false p).trans (flagsSet_withFlag .i true _)

/-! ### Decimal ADC and SBC -/

/-- Profile CMOS65C02 places the flags of an addition or a subtraction in the layout of NMOS6502. -/
theorem placeSignals_cmos (f : Signal → Bool) (p : Byte) : placeSignals cmos f p = placeSignals nmos f p := rfl

theorem carryOf_cmos (p : Byte) : carryOf cmos p = flag .c p := carryOf_nmos p

theorem borrowSense_cmos (c : Bool) : borrowSense cmos c = c := borrowSense_nmos c

theorem decimalOn_cmos (p : Byte) : decimalOn cmosDecimal p = flag .d p := rfl

theorem addWithCarry_cmos_decimal (a m : Byte) {p : Byte} (hd : flag .d p = true) :
    addWithCarry cmos a m p = addDecimal cmosDecimal a m (flag .c p) p := by
  have e : cmos.decimal = cmosDecimal := rfl
  simp only [addWithCarry, carryOf_cmos, e, decimalOn_cmos, hd, if_true, placeSignals_cmos]
  rw [placeSignals_eq]
  intro n h7 h6 h1 h0
  simp [addDecimal, getLsbD_withFlag, flagBit, h7, h6, h1, h0]

theorem subWithCarry_cmos_decimal (a m : Byte) {p : Byte} (hd : flag .d p = true) :
    subWithCarry cmos a m p = subDecimal cmosDecimal a m (flag .c p) p := by
  have e : cmos.decimal = cmosDecimal := rfl
  have k : ∀ q : Byte, withFlag .c (flag .c q) q = q := by decide
  simp only [subWithCarry, carryOf_cmos, borrowSense_cmos, e, decimalOn_cmos, hd, if_true, k, placeSignals_cmos]
  rw [placeSignals_eq]
  intro n h7 h6 h1 h0
  simp [subDecimal, getLsbD_withFlag, flagBit, h7, h6, h1, h0]

/-- A result with `Z` and `N` from its byte, as profile CMOS65C02 has it after decimal arithmetic (R373). -/
def withFinalZN (r : Result) : Result := ⟨r.value, znOf r.value ++ r.flags⟩

theorem addWithCarry_cmos_gives (a m : Byte) {p : Byte} (hd : flag .d p = true) :
    (addWithCarry cmos a m p).Gives (withFinalZN (additionOf true a m (flag .c p))) p := by
  rw [addWithCarry_cmos_decimal a m hd, additionOf_decimal]
  exact ⟨rfl, (flagsSet_zeroNegativeOverflowCarry _ _ _ _ p).congr fun f => by cases f <;> rfl⟩

theorem subWithCarry_cmos_gives (a m : Byte) {p : Byte} (hd : flag .d p = true) :
    (subWithCarry cmos a m p).Gives (withFinalZN (subtractionOf true a m (flag .c p))) p := by
  rw [subWithCarry_cmos_decimal a m hd, withFinalZN, subtractionOf_value_decimal, subtractionOf_flags]
  exact ⟨rfl, (flagsSet_setZN_withCarryOverflow _ _ _ p).congr fun f => by cases f <;> rfl⟩

section

variable {s : State} (hv : s.variant = .cmos65c02) (hd : flag .d s.p = true)

include hv hd

theorem addToA_changes_cmos (m : Byte) :
    let sum := withFinalZN (additionOf true s.a m (flag .c s.p))
    Changes s (addToA m) (fun u => { u with a := sum.value }) sum.flags := by
  have gives := addWithCarry_cmos_gives s.a m hd
  refine ⟨_, gives.flags, fun u => ?_⟩
  rw [addToA, profile_cmos (s := busMarks s u) hv, ← gives.value]
  rfl

theorem subFromA_changes_cmos (m : Byte) :
    let diff := withFinalZN (subtractionOf true s.a m (flag .c s.p))
    Changes s (subFromA m) (fun u => { u with a := diff.value }) diff.flags := by
  have gives := subWithCarry_cmos_gives s.a m hd
  refine ⟨_, gives.flags, fun u => ?_⟩
  rw [subFromA, profile_cmos (s := busMarks s u) hv, ← gives.value]
  rfl

/-- Decimal ADC or SBC immediate in profile CMOS65C02: one added cycle, then the change (R190). -/
theorem calculatingImm_cmos (hmap : AllMapped s) {i : Instr} {f : Byte → State → State} {m : Byte} {r : State → State}
    {fl : List (Flag × Bool)} (hi : exec i s = calculatingImm f m s) (h : Changes s (f m) r fl) :
    ∃ u q, u = busMarks s u ∧ Drives s u [(openCycleAddress s.pc, .read)] ∧ FlagsSet fl s.p q ∧
      exec i s = .next { r u with p := q } := by
  obtain ⟨q, hq, hf⟩ := h
  obtain ⟨u, hu, reads⟩ := dummyRead_exists_reads hmap (openCycleAddress s.pc)
  have added : decimalCycles s = 1 := by
    rw [decimalCycles, profile_cmos hv]
    exact if_pos hd
  have change : f m u = { r u with p := q } := by
    rw [reads.marks]
    exact hf u
  refine ⟨u, q, reads.marks, reads.drives, hq, ?_⟩
  rw [hi, calculatingImm, added, spareReads_one, hu, ← change]
  rfl

end

/-- Settles O32: each clause by its hook. -/
theorem theDriverReadsItsHooksFromTheProfile : Obligations.TheDriverReadsItsHooksFromTheProfile := by
  intro s b m w hv hmap
  refine ⟨?jump, ?modify, ?brk, ?decimal⟩
  case jump =>
    obtain ⟨t, hexec⟩ := anInstructionStopsOnlyAtAnUnmappedAddress.2 (.jmpInd w) s hmap
    obtain ⟨l, h, run, low, high⟩ := execJmpInd_busRun_cmos hv hexec
    exact ⟨busMarks s t, l, h, hexec.trans (congrArg Host.Outcome.next run.eq_marked), rfl, run.drives, low, high⟩
  case modify =>
    simp only [List.forall_mem_cons]
    refine ⟨?asl, ?lsr, ?rol, ?ror, ?inc, ?dec, nofun⟩
    case asl => exact modifying_zp_cmos hv hmap rfl (asl_gives · s.p)
    case lsr => exact modifying_zp_cmos hv hmap rfl (lsr_gives · s.p)
    case rol => exact modifying_zp_cmos hv hmap rfl (rol_gives · s.p)
    case ror => exact modifying_zp_cmos hv hmap rfl (ror_gives · s.p)
    case inc => exact modifying_zp_cmos hv hmap rfl (inc_gives · s.p)
    case dec => exact modifying_zp_cmos hv hmap rfl (dec_gives · s.p)
  case brk =>
    obtain ⟨t, hexec⟩ := anInstructionStopsOnlyAtAnUnmappedAddress.2 .brk s hmap
    obtain ⟨l, h, run, low, high⟩ := enter_brk_busRun_cmos hv ((conclude_eq_next _ t).1 hexec)
    have stores := run.stores
    rw [entryStores, pushedStatus_nmos] at stores
    exact ⟨t, l, h, _, hexec, run.marks, flagsSet_maskedBinary s.p, stores, low, high⟩
  case decimal =>
    intro hd
    simp only [List.forall_mem_cons]
    refine ⟨?adc, ?sbc, nofun⟩
    case adc => exact calculatingImm_cmos hv hd hmap rfl (addToA_changes_cmos hv hd m)
    case sbc => exact calculatingImm_cmos hv hd hmap rfl (subFromA_changes_cmos hv hd m)

end Sys2Proof.Machine
end
